-- ==== Sys2Proof/Word.lean ====
section
/-!
DEFINITION. The bit-vector types of the block: every datum is a byte (spec/00_scope.md R11), and a
command word, a header word or a Huffman bit word has 32 bits (R91, R92, R99).
-/

namespace Sys2Proof

/-- One byte of a stream or of a memory (R40). -/
abbrev Byte := BitVec 8

/-- A 32-bit word: a command word (R91), a header (R92), a Huffman bit word (R99). -/
abbrev Word32 := BitVec 32

end Sys2Proof
end

