-- ==== Sys2Proof/Config.lean ====
section
/-!
DEFINITION. What the source fixes for every block (spec/00_scope.md R6). The open parameters of R7
(`SRC_LEN`, `IO_FAULT`, `HUF8_LAYOUT`) are inputs of a call and stand in the state, as plain data.
-/

namespace Sys2Proof.Config

/-- `WIN_SIZE`: the sliding window of LZ10 and LZ11 (R6). -/
def winSize : Nat := 4096

/-- `LEN24_MAX`: the largest length the 24-bit header field holds (R6). -/
def len24Max : Nat := 0xFFFFFF

/-- `HUF_MAX_OFFSET`: the largest child offset a tree-node byte holds (R6). -/
def hufMaxOffset : Nat := 0x3F

/-- `RLE_RUN_MAX` (R6). -/
def rleRunMax : Nat := 130

/-- `RLE_RAW_MAX` (R6). -/
def rleRawMax : Nat := 128

/-- The longest LZ10 back-reference: `LZ10_LEN` = 3..18 (R6). -/
def lz10MaxLen : Nat := 18

/-- The longest LZ11 back-reference: `LZ11_LEN` = 3..0x10110 (R6). -/
def lz11MaxLen : Nat := 0x10110

end Sys2Proof.Config
end

