-- ==== Sys2Proof/Syntax.lean ====
section
/-!
DEFINITION. The instructions of the block (spec/00_scope.md R2, spec/30_encoding.md R90, R106): the
host commands and the stream tokens, one constructor for each row of spec/opcode_table.json.
-/

namespace Sys2Proof

/-- The ten codec ids of R131 (spec/40_codec_interface.md). -/
inductive Codec where
  | null | lz10 | lz11 | lzovl | rle | huf4 | huf8 | hufany | gba | nds
deriving DecidableEq, Repr

/-- The codecs whose stream opens with a forward header (R92, R93). -/
inductive Fwd where
  | null | lz10 | lz11 | rle | huf4 | huf8
deriving DecidableEq, Repr

/-- The two Huffman alphabets, the parameter `bits` of R317: 4 or 8. -/
inductive HufKind where
  | huf4 | huf8
deriving DecidableEq, Repr

/-- One instruction: a host command or a stream token, with the fields its row of the opcode table
gives it. Payload that follows a token's own bytes (the raw bytes of `RLE.RAW`, the bytes of a tree
table after the first) is read from IMEM when the token runs. -/
inductive Instr where
  /-- `CMD.SUPPORTS` (R132). -/
  | cmdSupports (codec : BitVec 4)
  /-- `CMD.DECOMPRESS` (R134). -/
  | cmdDecompress (codec : BitVec 4)
  /-- `CMD.COMPRESS` (R135). -/
  | cmdCompress (codec : BitVec 4)
  /-- `CMD.SETOPT` (R140). -/
  | cmdSetopt (codec : BitVec 4) (option : BitVec 8)
  /-- `HDR.NULL` (R440); `n` is the 24-bit length field of format H. -/
  | hdrNull (n : BitVec 24)
  /-- `HDR.LZ10` (R190). -/
  | hdrLz10 (n : BitVec 24)
  /-- `HDR.LZ11` (R220). -/
  | hdrLz11 (n : BitVec 24)
  /-- `HDR.HUF4` (R310). -/
  | hdrHuf4 (n : BitVec 24)
  /-- `HDR.HUF8` (R311). -/
  | hdrHuf8 (n : BitVec 24)
  /-- `HDR.RLE` (R290). -/
  | hdrRle (n : BitVec 24)
  /-- `HDR.EXT` (R163): the 32-bit length. -/
  | hdrExt (n : BitVec 32)
  /-- `LZ10.FLAGS` (R192). -/
  | lz10Flags (f : Byte)
  /-- `LZ10.LIT` (R193). -/
  | lz10Lit (d : Byte)
  /-- `LZ10.REF` (R194, format R10): `len` = L - 3, `disp` = D - 1. -/
  | lz10Ref (len : BitVec 4) (disp : BitVec 12)
  /-- `LZ11.FLAGS` (R222). -/
  | lz11Flags (f : Byte)
  /-- `LZ11.LIT` (R223). -/
  | lz11Lit (d : Byte)
  /-- `LZ11.REF2` (R224): the indicator, 2..15, is L - 1. -/
  | lz11Ref2 (ind : BitVec 4) (disp : BitVec 12)
  /-- `LZ11.REF3` (R225): `len` = L - 0x11. -/
  | lz11Ref3 (len : BitVec 8) (disp : BitVec 12)
  /-- `LZ11.REF4` (R226): `len` = L - 0x111. -/
  | lz11Ref4 (len : BitVec 16) (disp : BitVec 12)
  /-- `OVL.TRAILER0` (R252): the last four bytes are zero. -/
  | ovlTrailer0
  /-- `OVL.TRAILER` (R253): `compressedLength`, `headerSize`, `extraSize`. -/
  | ovlTrailer (cl : BitVec 24) (hs : Byte) (extra : BitVec 32)
  /-- `OVL.FLAGS` (R259). -/
  | ovlFlags (f : Byte)
  /-- `OVL.LIT` (R260). -/
  | ovlLit (d : Byte)
  /-- `OVL.REF` (R261, format ROV): `len` = L - 3, `disp` = D - 3. -/
  | ovlRef (len : BitVec 4) (disp : BitVec 12)
  /-- `RLE.RUN` (R292): `n` = L - 3 and the byte repeated. -/
  | rleRun (n : BitVec 7) (d : Byte)
  /-- `RLE.RAW` (R293): `n` = L - 1; the raw bytes follow in IMEM. -/
  | rleRaw (n : BitVec 7)
  /-- `HUF.TSIZE` (R312). -/
  | hufTsize (s : Byte)
  /-- `HUF.TABLE` (R313): its first byte, the root; the rest follow in IMEM. -/
  | hufTable (root : Byte)
  /-- `HUF.NODE` (R315, format N): `leaf0` is bit 7, `leaf1` bit 6, `offset` bits 5..0. -/
  | hufNode (leaf0 leaf1 : Bool) (offset : BitVec 6)
  /-- `HUF.WORD` (R316): the 32-bit value. -/
  | hufWord (w : BitVec 32)
  /-- `HUF.BIT` (R318). -/
  | hufBit (b : Bool)
  /-- `HUF.LEAF8` (R321). -/
  | hufLeaf8 (s : Byte)
  /-- `HUF.LEAF4` (R322): the leaf byte, whose high nibble the token tests. -/
  | hufLeaf4 (s : Byte)
  /-- `NULL.BYTE` (R442). -/
  | nullByte (d : Byte)
deriving DecidableEq, Repr

end Sys2Proof
end

