-- ==== Sys2Proof/WellFormed.lean ====
section
/-!
DEFINITION. Which terms of `Instr` stand for an encoding of the opcode table: the two constraints the
table puts on fields (rows `LZ11.REF2` and `OVL.TRAILER`). Every other field takes every value:
"every bit pattern of a back-reference, a run, a raw group and a node byte has a meaning" (R103).
-/

namespace Sys2Proof

/-- The instruction is one some bytes encode. An illegal codec id is no ill-formed command: R142
gives the command its effect. A 4-bit leaf byte with a set high nibble is a byte `HUF.LEAF4` meets
and finds invalid itself (R322). -/
def Instr.wellFormed : Instr → Bool
  | .lz11Ref2 ind _ => 2 ≤ ind.toNat
  | .ovlTrailer _ _ extra => extra != 0
  | _ => true

end Sys2Proof
end

