-- ==== Sys2Proof/Decode.lean ====
section
/-!
DEFINITION. The decoder and the encoder of spec/30_encoding.md. "A decoder tells the length of a token
from its codec, its flag bit and the first byte of the token" (R90): the bytes alone do not tell the
row, so `decode` takes the place a token stands at. It is total on any bytes and rejects by name.
-/

namespace Sys2Proof

/-! ### Byte order (spec/20_memory.md R60, R61) -/

/-- `LE24` of R9: the byte at the lowest address is the least significant. -/
def le24 (b0 b1 b2 : Byte) : BitVec 24 := b2 ++ b1 ++ b0

/-- `LE32` of R9. -/
def le32 (b0 b1 b2 b3 : Byte) : BitVec 32 := b3 ++ b2 ++ b1 ++ b0

/-- The bytes of a 24-bit integer, lowest address first. -/
def bytes24 (n : BitVec 24) : List Byte :=
  [n.extractLsb' 0 8, n.extractLsb' 8 8, n.extractLsb' 16 8]

/-- The bytes of a 32-bit integer, lowest address first. -/
def bytes32 (n : BitVec 32) : List Byte :=
  [n.extractLsb' 0 8, n.extractLsb' 8 8, n.extractLsb' 16 8, n.extractLsb' 24 8]

/-- The high nibble of a byte. -/
def hiNib (b : Byte) : BitVec 4 := b.extractLsb' 4 4

/-- The low nibble of a byte. -/
def loNib (b : Byte) : BitVec 4 := b.extractLsb' 0 4

/-! ### Places -/

/-- Where a token stands, the `context` column of the opcode table. -/
inductive Place where
  /-- The word written to `CMD`. -/
  | cmd
  /-- Offset 0 of a stream the decoder of this codec reads. -/
  | header (c : Fwd)
  /-- After a header whose 24-bit length is 0. -/
  | ext
  /-- LZ10, start of a group; LZ10, a block under this flag bit. -/
  | lz10Flags | lz10Block (flag : Bool)
  | lz11Flags | lz11Block (flag : Bool)
  /-- The last bytes below `DECL_LEN` of an LZ-Overlay file; the region, read downward. -/
  | ovlTrailer | ovlFlags | ovlBlock (flag : Bool)
  | rleGroup
  | hufSize | hufTable | hufNode | hufWord | hufBit | hufLeaf (k : HufKind)
  | nullByte
deriving DecidableEq, Repr

/-- Why bytes are no token of their place. -/
inductive DecodeError where
  /-- The token has more bytes than are given. -/
  | cut
  /-- `OP` of the command word is 0 or 5..15 (R91, R142). -/
  | illegalOp (op : BitVec 4)
  /-- Byte 0 is not the decoder's magic (R93, R102). -/
  | badMagic (b : Byte)
  /-- `extraSize` is not 0 and fewer than 8 bytes are declared (R253). -/
  | shortTrailer
deriving DecidableEq, Repr

/-- What the decoder answers. -/
inductive Decoded where
  | instr (i : Instr)
  | rejected (e : DecodeError)
deriving DecidableEq, Repr

/-! ### The decoder -/

/-- Format C (R91): `OP` in bits 3:0, `CODEC` in 7:4, `OPTION` in 15:8; bits 31:16 and, but for
SETOPT, `OPTION` are ignored. -/
def decodeCmd (w : Word32) : Decoded :=
  let codec : BitVec 4 := w.extractLsb' 4 4
  match (w.extractLsb' 0 4).toNat with
  | 1 => .instr (.cmdSupports codec)
  | 2 => .instr (.cmdDecompress codec)
  | 3 => .instr (.cmdCompress codec)
  | 4 => .instr (.cmdSetopt codec (w.extractLsb' 8 8))
  | _ => .rejected (.illegalOp (w.extractLsb' 0 4))

/-- The magic byte of a forward codec (R93). -/
def Fwd.magic : Fwd → Byte
  | .null => 0x00
  | .lz10 => 0x10
  | .lz11 => 0x11
  | .rle => 0x30
  | .huf4 => 0x24
  | .huf8 => 0x28

/-- The header token of a forward codec. -/
def Fwd.header : Fwd → BitVec 24 → Instr
  | .null => .hdrNull
  | .lz10 => .hdrLz10
  | .lz11 => .hdrLz11
  | .rle => .hdrRle
  | .huf4 => .hdrHuf4
  | .huf8 => .hdrHuf8

/-- Format H (R92): the whole of byte 0 is compared with the magic, before the length bytes are
looked at (R162, R471 (c)). -/
def decodeHeader (c : Fwd) : List Byte → Decoded
  | [] => .rejected .cut
  | b0 :: rest =>
    if b0 ≠ c.magic then .rejected (.badMagic b0)
    else match rest with
      | n0 :: n1 :: n2 :: _ => .instr (c.header (le24 n0 n1 n2))
      | _ => .rejected .cut

/-- The 12-bit displacement field of a back-reference: the low nibble of one byte, then the next
byte (R101). -/
def dispField (bx byy : Byte) : BitVec 12 := loNib bx ++ byy

/-- An LZ11 back-reference (R96): the indicator nibble `B1[7:4]` selects the form. -/
def decodeLz11Ref : List Byte → Decoded
  | [] => .rejected .cut
  | b1 :: rest =>
    if 2 ≤ (hiNib b1).toNat then
      match rest with
      | b2 :: _ => .instr (.lz11Ref2 (hiNib b1) (dispField b1 b2))
      | _ => .rejected .cut
    else if hiNib b1 = 0 then
      match rest with
      | b2 :: b3 :: _ => .instr (.lz11Ref3 (loNib b1 ++ hiNib b2) (dispField b2 b3))
      | _ => .rejected .cut
    else
      match rest with
      | b2 :: b3 :: b4 :: _ =>
        .instr (.lz11Ref4 (loNib b1 ++ b2 ++ hiNib b3) (dispField b3 b4))
      | _ => .rejected .cut

/-- Formats T0 and T (R97), from the last bytes of the declared range, in address order. -/
def decodeTrailer (bs : List Byte) : Decoded :=
  match bs.reverse with
  | e3 :: e2 :: e1 :: e0 :: below =>
    let extra := le32 e0 e1 e2 e3
    if extra = 0 then .instr .ovlTrailer0
    else match below with
      | h :: c2 :: c1 :: c0 :: _ => .instr (.ovlTrailer (le24 c0 c1 c2) h extra)
      | _ => .rejected .shortTrailer
  | _ => .rejected .cut

/-- Format RF (R98): bit 7 of the flag byte tells a run from a raw group. -/
def decodeRle : List Byte → Decoded
  | [] => .rejected .cut
  | f :: rest =>
    let n : BitVec 7 := f.extractLsb' 0 7
    if f.getLsbD 7 then
      match rest with
      | d :: _ => .instr (.rleRun n d)
      | _ => .rejected .cut
    else .instr (.rleRaw n)

/-- The instruction the bytes at a place stand for. The bytes are in reading order (for the
LZ-Overlay region: highest address first), but for the trailer, whose bytes are the last ones of the
declared range in address order. A stream bit is given as a byte whose bit 0 it is. Bytes after the
token's own are not looked at. -/
def decode : Place → List Byte → Decoded
  | .cmd, b0 :: b1 :: b2 :: b3 :: _ => decodeCmd (le32 b0 b1 b2 b3)
  | .header c, bs => decodeHeader c bs
  | .ext, b0 :: b1 :: b2 :: b3 :: _ => .instr (.hdrExt (le32 b0 b1 b2 b3))
  | .lz10Flags, f :: _ => .instr (.lz10Flags f)
  | .lz10Block false, d :: _ => .instr (.lz10Lit d)
  | .lz10Block true, b1 :: b2 :: _ => .instr (.lz10Ref (hiNib b1) (dispField b1 b2))
  | .lz11Flags, f :: _ => .instr (.lz11Flags f)
  | .lz11Block false, d :: _ => .instr (.lz11Lit d)
  | .lz11Block true, bs => decodeLz11Ref bs
  | .ovlTrailer, bs => decodeTrailer bs
  | .ovlFlags, f :: _ => .instr (.ovlFlags f)
  | .ovlBlock false, d :: _ => .instr (.ovlLit d)
  | .ovlBlock true, b1 :: b2 :: _ => .instr (.ovlRef (hiNib b1) (dispField b1 b2))
  | .rleGroup, bs => decodeRle bs
  | .hufSize, s :: _ => .instr (.hufTsize s)
  | .hufTable, r :: _ => .instr (.hufTable r)
  | .hufNode, n :: _ => .instr (.hufNode (n.getLsbD 7) (n.getLsbD 6) (n.extractLsb' 0 6))
  | .hufWord, b0 :: b1 :: b2 :: b3 :: _ => .instr (.hufWord (le32 b0 b1 b2 b3))
  | .hufBit, b :: _ => .instr (.hufBit (b.getLsbD 0))
  | .hufLeaf .huf8, s :: _ => .instr (.hufLeaf8 s)
  | .hufLeaf .huf4, s :: _ => .instr (.hufLeaf4 s)
  | .nullByte, d :: _ => .instr (.nullByte d)
  | _, _ => .rejected .cut

/-! ### The encoder -/

/-- A command word of format C, its ignored bits 0. -/
def cmdWord (op codec : BitVec 4) (option : BitVec 8) : Word32 :=
  (0 : BitVec 16) ++ option ++ codec ++ op

/-- The last two bytes of every back-reference: a nibble and the 12-bit displacement (R101). -/
def refTail (nib : BitVec 4) (disp : BitVec 12) : List Byte :=
  [nib ++ disp.extractLsb' 8 4, disp.extractLsb' 0 8]

/-- The bytes of an instruction, in the order `decode` takes them. -/
def encode : Instr → List Byte
  | .cmdSupports c => bytes32 (cmdWord 1 c 0)
  | .cmdDecompress c => bytes32 (cmdWord 2 c 0)
  | .cmdCompress c => bytes32 (cmdWord 3 c 0)
  | .cmdSetopt c o => bytes32 (cmdWord 4 c o)
  | .hdrNull n => Fwd.null.magic :: bytes24 n
  | .hdrLz10 n => Fwd.lz10.magic :: bytes24 n
  | .hdrLz11 n => Fwd.lz11.magic :: bytes24 n
  | .hdrHuf4 n => Fwd.huf4.magic :: bytes24 n
  | .hdrHuf8 n => Fwd.huf8.magic :: bytes24 n
  | .hdrRle n => Fwd.rle.magic :: bytes24 n
  | .hdrExt n => bytes32 n
  | .lz10Flags f => [f]
  | .lz10Lit d => [d]
  | .lz10Ref len disp => refTail len disp
  | .lz11Flags f => [f]
  | .lz11Lit d => [d]
  | .lz11Ref2 ind disp => refTail ind disp
  | .lz11Ref3 len disp =>
    ((0 : BitVec 4) ++ len.extractLsb' 4 4) :: refTail (len.extractLsb' 0 4) disp
  | .lz11Ref4 len disp =>
    ((1 : BitVec 4) ++ len.extractLsb' 12 4) :: len.extractLsb' 4 8 ::
      refTail (len.extractLsb' 0 4) disp
  | .ovlTrailer0 => [0, 0, 0, 0]
  | .ovlTrailer cl hs extra => bytes24 cl ++ hs :: bytes32 extra
  | .ovlFlags f => [f]
  | .ovlLit d => [d]
  | .ovlRef len disp => refTail len disp
  | .rleRun n d => [(1 : BitVec 1) ++ n, d]
  | .rleRaw n => [(0 : BitVec 1) ++ n]
  | .hufTsize s => [s]
  | .hufTable r => [r]
  | .hufNode leaf0 leaf1 offset =>
    [BitVec.ofBool leaf0 ++ BitVec.ofBool leaf1 ++ offset]
  | .hufWord w => bytes32 w
  | .hufBit b => [(0 : BitVec 7) ++ BitVec.ofBool b]
  | .hufLeaf8 s => [s]
  | .hufLeaf4 s => [s]
  | .nullByte d => [d]

/-- The place an instruction's bytes stand at. -/
def Instr.place : Instr → Place
  | .cmdSupports _ | .cmdDecompress _ | .cmdCompress _ | .cmdSetopt _ _ => .cmd
  | .hdrNull _ => .header .null
  | .hdrLz10 _ => .header .lz10
  | .hdrLz11 _ => .header .lz11
  | .hdrHuf4 _ => .header .huf4
  | .hdrHuf8 _ => .header .huf8
  | .hdrRle _ => .header .rle
  | .hdrExt _ => .ext
  | .lz10Flags _ => .lz10Flags
  | .lz10Lit _ => .lz10Block false
  | .lz10Ref _ _ => .lz10Block true
  | .lz11Flags _ => .lz11Flags
  | .lz11Lit _ => .lz11Block false
  | .lz11Ref2 _ _ | .lz11Ref3 _ _ | .lz11Ref4 _ _ => .lz11Block true
  | .ovlTrailer0 | .ovlTrailer _ _ _ => .ovlTrailer
  | .ovlFlags _ => .ovlFlags
  | .ovlLit _ => .ovlBlock false
  | .ovlRef _ _ => .ovlBlock true
  | .rleRun _ _ | .rleRaw _ => .rleGroup
  | .hufTsize _ => .hufSize
  | .hufTable _ => .hufTable
  | .hufNode _ _ _ => .hufNode
  | .hufWord _ => .hufWord
  | .hufBit _ => .hufBit
  | .hufLeaf8 _ => .hufLeaf .huf8
  | .hufLeaf4 _ => .hufLeaf .huf4
  | .nullByte _ => .nullByte

/-- How many bytes of its place an instruction's own encoding takes (R90); a stream bit counts as
the one byte it is handed over in. -/
def Instr.size : Instr → Nat
  | .cmdSupports _ | .cmdDecompress _ | .cmdCompress _ | .cmdSetopt _ _ => 4
  | .hdrNull _ | .hdrLz10 _ | .hdrLz11 _ | .hdrHuf4 _ | .hdrHuf8 _ | .hdrRle _ => 4
  | .hdrExt _ | .hufWord _ | .lz11Ref4 _ _ | .ovlTrailer0 => 4
  | .lz11Ref3 _ _ => 3
  | .lz10Ref _ _ | .lz11Ref2 _ _ | .ovlRef _ _ | .rleRun _ _ => 2
  | .ovlTrailer _ _ _ => 8
  | .lz10Flags _ | .lz10Lit _ | .lz11Flags _ | .lz11Lit _ | .ovlFlags _ | .ovlLit _ | .rleRaw _
  | .hufTsize _ | .hufTable _ | .hufNode _ _ _ | .hufBit _ | .hufLeaf8 _ | .hufLeaf4 _
  | .nullByte _ => 1

/-! ### A bare word of the opcode table -/

/-- The place a bare word is taken to stand at, since the table's words do not tell it (log entry
11): the row with the most fixed bits that the word matches, and among rows with none one row for
each width. -/
def wordPlace (nbits w : Nat) : Option Place :=
  let low := w % 256
  if nbits = 32 then
    if w = 0 then some .ovlTrailer
    else if low = 0x10 then some (.header .lz10)
    else if low = 0x11 then some (.header .lz11)
    else if low = 0x24 then some (.header .huf4)
    else if low = 0x28 then some (.header .huf8)
    else if low = 0x30 then some (.header .rle)
    else if 1 ≤ w % 16 ∧ w % 16 ≤ 4 then some .cmd
    else if w / 0x10000000 = 1 then some (.lz11Block true)
    else if low = 0 then some (.header .null)
    else some .hufWord
  else if nbits = 24 then
    if w / 0x100000 = 0 then some (.lz11Block true) else none
  else if nbits = 16 then
    if w / 0x8000 = 1 then some .rleGroup else some (.lz10Block true)
  else if nbits = 8 then
    if w / 16 = 0 then some (.hufLeaf .huf4)
    else if w / 128 = 0 then some .rleGroup
    else some .hufNode
  else if nbits = 64 then some .ovlTrailer
  else none

/-- The bytes of a word, most significant first. -/
def bigEndian : Nat → Nat → List Byte
  | 0, _ => []
  | k + 1, w => BitVec.ofNat 8 (w / 256 ^ k) :: bigEndian k w

/-- The bytes of a word in the order its place reads them, by the table's `bit_order`: little-endian
for a command, a header, an extension, a bit word and the four-byte trailer, reading order
`B1 || B2 || ..` (and address order for the eight-byte trailer) for the others. -/
def wordBytes (p : Place) (nbits w : Nat) : List Byte :=
  let big := bigEndian (nbits / 8) w
  match p with
  | .cmd | .header _ | .ext | .hufWord => big.reverse
  | .ovlTrailer => if nbits = 32 then big.reverse else big
  | _ => big

/-- The instruction the decoder reads from a table word of `nbits` bits. -/
def decodeTableWord (nbits w : Nat) : Option Instr :=
  match wordPlace nbits w with
  | none => none
  | some p =>
    match decode p (wordBytes p nbits w) with
    | .instr i => some i
    | .rejected _ => none

end Sys2Proof
end

