-- ==== Sys2Proof/Machine/State.lean ====
section
/-!
DEFINITION. The state of the block, as spec/10_state.md gives it: host-visible registers, working
registers, LZ-Overlay registers, encoder registers and scratch, the memories of R40, the inputs of a
call that R13 names, and the model's own sequencer fields. Plain data throughout.

Counters and positions are naturals ("a model may use naturals", R21; log entry 14); what software
reads as a word of bits, or a rule shifts, is a bit vector.
-/

namespace Sys2Proof.Machine

/-- A byte-addressed memory (R40): the listed cells, addresses rising, none equal to what an unlisted
address reads as (`Memory.read`, `Memory.wf` in Machine/Memory.lean). -/
abbrev Memory := List Host.Cell

/-- A node of the encoder's arena (R44 (b), R373), which is indexed by integer ids. -/
inductive ArenaNode where
  /-- A leaf "carries its symbol and its depth". -/
  | leaf (symbol depth : Nat)
  /-- An internal node: the ids of its two children, "labelled 0 and 1", its depth (R377), and the
  offset "that only rule R380 computes", `none` until it has. -/
  | node (child0 child1 depth : Nat) (offset : Option Nat)
deriving DecidableEq, Repr

/-- An action of the host or of its ports between commands (R37, R513; log entries 4, 16). -/
inductive HostAction where
  /-- A write of register 0; it starts a command (R130). -/
  | writeCmd (w : Word32)
  /-- A write of register 1 (R37). -/
  | writeArgLen (v : BitVec 32)
  /-- A write of register 2 (R32). -/
  | writeCtrl (v : BitVec 32)
  /-- The host puts the input bytes in IMEM; their number is `SRC_LEN` (R513). -/
  | loadInput (bytes : List Byte)
  /-- The host provides an empty OMEM (R513). -/
  | emptyOutput
  /-- `IO_FAULT` of the next call: `some k` lets k port accesses succeed and faults the next (R78). -/
  | setIoFault (k : Option Nat)
  /-- `HUF8_LAYOUT`: the order the layout answers, or the default of R396 (R395). -/
  | setHuf8Order (order : Option (List Nat))
  /-- Reset, which never falls into a command (R510). -/
  | reset
deriving DecidableEq, Repr

/-- What a running decoder does next. The pseudocode loops of R191, R221, R251, R291, R317 and R441
are its sequence; `idle` is "no command runs". -/
inductive Phase where
  | idle
  /-- `ParseHeader` (R162). -/
  | header (c : Fwd)
  /-- The extension word (R163). -/
  | ext (c : Fwd)
  /-- The head of the loop of R441, R191, R221, R291. -/
  | nullBody | lz10Body | lz11Body | rleBody
  /-- `HUF.TSIZE`, then `HUF.TABLE` (R317). -/
  | treeSize (k : HufKind) | treeTable (k : HufKind)
  /-- The head of the loop of R317, the node at `NODE_POS`; the next stream bit; a leaf reached. -/
  | node (k : HufKind) | bit (k : HufKind) | leaf (k : HufKind)
  /-- The entry of R251; the head of the loop of R258. -/
  | ovlTrailer | ovlBody
deriving DecidableEq, Repr

/-- A composite DECOMPRESS under way (R425, R427): the member on trial and those after it. -/
structure Trial where
  member : Codec
  rest : List Codec
deriving DecidableEq, Repr

/-- The registers the host can reach (R32 to R37). -/
structure HostRegs where
  /-- Register 0, `CMD`, write-only: the last word written. -/
  cmd : BitVec 32
  /-- Register 1, `ARG_LEN`. -/
  argLen : BitVec 32
  /-- Register 2, `CTRL`. -/
  ctrl : BitVec 32
  /-- Register 3, `STATUS`. -/
  status : BitVec 32
  /-- Register 4, `RESULT_LEN`, 33 bits. -/
  resultLen : Nat
  /-- Register 5, `ERR_POS`, 32 bits. -/
  errPos : Nat
  /-- Register 6, `ERR_WRITTEN`, 33 bits. -/
  errWritten : Nat
  /-- Register 7, `ERR_EXPECTED`, 33 bits. -/
  errExpected : Nat
  /-- Register 8, `LAST_SUB`. -/
  lastSub : BitVec 4
deriving DecidableEq, Repr

/-- The inputs of a call that R13 calls parameters, and the host's pending actions. -/
structure Env where
  /-- `SRC_LEN` (R40). -/
  srcLen : Nat
  /-- `IO_FAULT` (R78): how many port accesses still succeed before one faults, if one does. -/
  ioFault : Option Nat
  /-- `HUF8_LAYOUT` (R395): the ids of the internal nodes in the layout's order; `none` is R396. -/
  huf8Order : Option (List Nat)
  /-- What the host does next, once no command runs. -/
  hostQ : List HostAction
deriving DecidableEq, Repr

/-- The working registers of R21. -/
structure WorkRegs where
  declLen : Nat
  inPos : Nat
  outLen : Nat
  decSize : Nat
  flags : Byte
  flagCnt : Nat
  bitbuf : BitVec 32
  bitCnt : Nat
  nodePos : Nat
  treeLen : Nat
  treeBase : Nat
  nib : BitVec 4
  nibValid : Bool
  tokPos : Nat
  tokL : Nat
  tokD : Nat
deriving DecidableEq, Repr

/-- The LZ-Overlay registers of R29. -/
structure OvlRegs where
  extra : Nat
  hs : Nat
  cl : Nat
  p : Nat
  u : Nat
  ip : Nat
  op : Nat
  w : Nat
deriving DecidableEq, Repr

/-- The encoder registers of R30 and the encoder scratch of R44. -/
structure EncRegs where
  encPos : Nat
  grpFlags : Byte
  grpCnt : Nat
  litCnt : Nat
  wbuf : BitVec 32
  wcnt : Nat
  /-- `FREQ` (R44 (a)). -/
  freq : List Nat
  /-- The node arena (R44 (b)), a node's id being its index. -/
  arena : List ArenaNode
  /-- The two priority queues (R44 (c)): priority and node id. -/
  leafQ : List (Nat × Nat)
  nodeQ : List (Nat × Nat)
  /-- The layout array (R44 (d)): internal-node ids. -/
  order : List Nat
  /-- `CODE` (R44 (e)): each symbol with its code bits, first label first. -/
  code : List (Nat × List Bool)
  /-- `COST[0..N]` and `CHOICE[0..N)` (R44 (f)). -/
  cost : List Nat
  choice : List Nat
deriving DecidableEq, Repr

/-- The memories of R40. -/
structure Mems where
  imem : Memory
  omem : Memory
  win : Memory
  tree : Memory
  ovlbuf : Memory
  cbuf : Memory
deriving DecidableEq, Repr

/-- The model's own sequencer: where the running decoder stands. -/
structure Seqr where
  phase : Phase
  trial : Option Trial
  /-- `n` of R318: the node byte the walk stands on. -/
  nodeByte : Byte
  /-- `c` of R318, while the leaf at that position is executed. -/
  leafPos : Nat
deriving DecidableEq, Repr

/-- The whole state. -/
structure State where
  host : HostRegs
  env : Env
  work : WorkRegs
  ovl : OvlRegs
  enc : EncRegs
  mem : Mems
  seq : Seqr
deriving DecidableEq, Repr

/-- A named fault of the machine. It has no constructor: "No behaviour of the block is stuck: every
command ends" (R461, spec/93_implementation_defined.md), and the errors of R460 are next states. -/
inductive Fault
deriving DecidableEq, Repr

/-- Why a step gives no next state. -/
inductive Refusal where
  /-- Raised by an arm of `exec` that has no meaning yet; safe: the model stops. No arm raises it. -/
  | notModelled (mnemonic : String)
deriving DecidableEq, Repr

/-- Host-visible registers after reset: R46. `CMD` has no reset value in the spec (log entry 2). -/
def HostRegs.reset : HostRegs where
  cmd := 0
  argLen := 0
  ctrl := 0
  status := 0
  resultLen := 0
  errPos := 0
  errWritten := 0
  errExpected := 0
  lastSub := 0xF

/-- Working registers after reset, which R46 leaves unspecified (log entry 1). -/
def WorkRegs.reset : WorkRegs where
  declLen := 0
  inPos := 0
  outLen := 0
  decSize := 0
  flags := 0
  flagCnt := 0
  bitbuf := 0
  bitCnt := 0
  nodePos := 0
  treeLen := 0
  treeBase := 0
  nib := 0
  nibValid := false
  tokPos := 0
  tokL := 0
  tokD := 0

/-- LZ-Overlay registers after reset (log entry 1). -/
def OvlRegs.reset : OvlRegs where
  extra := 0
  hs := 0
  cl := 0
  p := 0
  u := 0
  ip := 0
  op := 0
  w := 0

/-- Encoder registers and scratch after reset (log entry 1), and at command start as far as R30 goes. -/
def EncRegs.reset : EncRegs where
  encPos := 0
  grpFlags := 0
  grpCnt := 0
  litCnt := 0
  wbuf := 0
  wcnt := 0
  freq := []
  arena := []
  leafQ := []
  nodeQ := []
  order := []
  code := []
  cost := []
  choice := []

/-- The inputs before the host has given any (log entry 4). -/
def Env.reset : Env where
  srcLen := 0
  ioFault := none
  huf8Order := none
  hostQ := []

/-- Memories with nothing listed (log entries 1, 3). -/
def Mems.reset : Mems where
  imem := []
  omem := []
  win := []
  tree := []
  ovlbuf := []
  cbuf := []

/-- The sequencer after reset: "the block waits in IDLE for a write of CMD" (R46). -/
def Seqr.reset : Seqr where
  phase := .idle
  trial := none
  nodeByte := 0
  leafPos := 0

/-- The machine right after reset (R46, R511). -/
def State.reset : State where
  host := .reset
  env := .reset
  work := .reset
  ovl := .reset
  enc := .reset
  mem := .reset
  seq := .reset

end Sys2Proof.Machine
end

