-- ==== Sys2Proof/Machine/Flags.lean ====
section
/-!
DEFINITION. The status flags (`STATUS`, spec/10_state.md R31, R33), the control bits (`CTRL`, R32),
and the flag and bit shift registers of spec/41_bitstream_parser.md R166 to R168. The block has no
arithmetic condition codes (R31).
-/

namespace Sys2Proof.Machine

/-! ### The errors of R460 -/

/-- The errors of spec/60_exceptions.md R460 with what each carries. -/
inductive Err where
  | notEnoughData (written expected : Nat)
  | streamTooShort
  | invalidData (pos : Nat)
  | inputTooLarge
  | ioError
  | unsupported
deriving DecidableEq, Repr

/-- The value of `STATUS.ERR` (R33, R460). -/
def errCode : Err → BitVec 4
  | .notEnoughData _ _ => 1
  | .streamTooShort => 2
  | .invalidData _ => 3
  | .inputTooLarge => 4
  | .ioError => 5
  | .unsupported => 6

/-! ### STATUS (R33) -/

/-- `STATE` values: 0 IDLE, 1 BUSY, 2 DONE. -/
def stateBusy : BitVec 2 := 1

/-- `STATE` = DONE. -/
def stateDone : BitVec 2 := 2

/-- The word of `STATUS`: `TMI` in bit 6, `ERR` in 5:2, `STATE` in 1:0, 31:7 zero. -/
def statusWord (st : BitVec 2) (err : BitVec 4) (tmi : Bool) : BitVec 32 :=
  (0 : BitVec 25) ++ BitVec.ofBool tmi ++ err ++ st

/-- `STATUS.STATE`. -/
def statusState (w : BitVec 32) : BitVec 2 := w.extractLsb' 0 2

/-- `STATUS.ERR`. -/
def statusErr (w : BitVec 32) : BitVec 4 := w.extractLsb' 2 4

/-- `STATUS.TMI`. -/
def statusTmi (w : BitVec 32) : Bool := w.getLsbD 6

/-- `STATUS.STATE <- BUSY`, the other fields kept (R138). -/
def statusBusy (w : BitVec 32) : BitVec 32 := statusWord stateBusy (statusErr w) (statusTmi w)

/-! ### CTRL (R32) -/

/-- Reserved bits 31:4 "read as 0; writes ignored". -/
def ctrlMask : BitVec 32 := 0xF

/-- A write of `CTRL` by the host. -/
def ctrlWrite (v : BitVec 32) : BitVec 32 := v &&& ctrlMask

/-- `CTRL.LA_LZ10`. -/
def ctrlLaLz10 (c : BitVec 32) : Bool := c.getLsbD 0

/-- `CTRL.LA_LZ11`. -/
def ctrlLaLz11 (c : BitVec 32) : Bool := c.getLsbD 1

/-- `CTRL.LA_LZOVL`, stored and read by no rule (R276). -/
def ctrlLaLzovl (c : BitVec 32) : Bool := c.getLsbD 2

/-- `CTRL.OVL_STRICT` (R269). -/
def ctrlOvlStrict (c : BitVec 32) : Bool := c.getLsbD 3

/-! ### Shift registers (R25, R26) -/

/-- The flag `NextFlagMSB` returns: `FLAGS[7]` (R166). -/
def nextFlagMsb (s : State) : Bool := s.work.flags.getLsbD 7

/-- `NextFlagMSB` takes the flag: shift left, count down (R166). -/
def dropFlagMsb (s : State) : State :=
  { s with work.flags := s.work.flags <<< 1, work.flagCnt := s.work.flagCnt - 1 }

/-- The flag `NextFlagLSB` returns: `FLAGS[0]` (R167). -/
def nextFlagLsb (s : State) : Bool := s.work.flags.getLsbD 0

/-- `NextFlagLSB` takes the flag: shift right, count down (R167). -/
def dropFlagLsb (s : State) : State :=
  { s with work.flags := s.work.flags >>> 1, work.flagCnt := s.work.flagCnt - 1 }

/-- A flag byte loaded: `FLAGS <- f; FLAG_CNT <- 8` (R192, R222, R259). -/
def loadFlags (f : Byte) (s : State) : State :=
  { s with work.flags := f, work.flagCnt := 8 }

/-- The bit `NextBit` returns: `BITBUF[31]` (R168). -/
def nextBit (s : State) : Bool := s.work.bitbuf.getLsbD 31

/-- `NextBit` takes the bit: shift left, count down (R168). -/
def dropBit (s : State) : State :=
  { s with work.bitbuf := s.work.bitbuf <<< 1, work.bitCnt := s.work.bitCnt - 1 }

/-- A bit word loaded: `BITBUF <- w; BIT_CNT <- 32` (R316). -/
def loadBits (w : BitVec 32) (s : State) : State :=
  { s with work.bitbuf := w, work.bitCnt := 32 }

end Sys2Proof.Machine
end

