-- ==== Sys2Proof/Machine/Memory.lean ====
section
/-!
DEFINITION. Reading and writing the byte-addressed spaces of spec/10_state.md R40.
-/

namespace Sys2Proof.Machine

/-- What an address with no listed cell reads as: 0, chosen by the model, since the spec gives no
memory a content at reset (log entry 3). -/
def Memory.unlisted : Byte := 0

/-- `M[a]` (R9). -/
def Memory.read (a : Nat) : Memory → Byte
  | [] => Memory.unlisted
  | (k, v) :: m => if k = a then v else Memory.read a m

/-- A cell in the canonical form: one that reads as an unlisted address does is not listed. -/
def Memory.cell (a : Nat) (b : Byte) : Memory :=
  if b = Memory.unlisted then [] else [(a, b)]

/-- `M[a] <- b` (R9), keeping addresses rising. -/
def Memory.write (a : Nat) (b : Byte) : Memory → Memory
  | [] => Memory.cell a b
  | (k, v) :: m =>
    if a < k then Memory.cell a b ++ (k, v) :: m
    else if k = a then Memory.cell a b ++ m
    else (k, v) :: Memory.write a b m

/-- The canonical form: addresses strictly rising, no cell equal to what is unlisted. -/
def Memory.wf : Memory → Bool
  | [] => true
  | (k, v) :: m =>
    v != Memory.unlisted && m.all (fun c => k < c.1) && Memory.wf m

/-- `M[a..a+n)` as a list (R9). -/
def Memory.range (m : Memory) (a : Nat) : Nat → List Byte
  | 0 => []
  | n + 1 => Memory.read a m :: Memory.range m (a + 1) n

/-- Store a byte string from `a` upward. -/
def Memory.store (a : Nat) : List Byte → Memory → Memory
  | [], m => m
  | b :: bs, m => Memory.store (a + 1) bs (Memory.write a b m)

end Sys2Proof.Machine
end

