-- ==== Sys2Proof/Machine/Operands.lean ====
section
/-!
DEFINITION. Operand assembly: the lengths, displacements and tree positions of spec/30_encoding.md
R101. Every formula is exact in the naturals (spec/00_scope.md R11).
-/

namespace Sys2Proof.Machine

/-- LZ10 and LZ-Overlay `L`: `(B1 >> 4) + 3`, 3..18 (R194, R261). -/
def lzLen (len : BitVec 4) : Nat := len.toNat + 3

/-- LZ10 and LZ11 `D`: the 12-bit field plus 1, 1..4096 (R194, R224 to R226). -/
def lzDisp (disp : BitVec 12) : Nat := disp.toNat + 1

/-- LZ11 form `R11_2`: `L = ind + 1` (R224). -/
def lz11Len2 (ind : BitVec 4) : Nat := ind.toNat + 1

/-- LZ11 form `R11_3`: `L = len + 0x11` (R225). -/
def lz11Len3 (len : BitVec 8) : Nat := len.toNat + 0x11

/-- LZ11 form `R11_4`: `L = len + 0x111` (R226). -/
def lz11Len4 (len : BitVec 16) : Nat := len.toNat + 0x111

/-- LZ-Overlay natural `D`: the 12-bit field plus 3, 3..4098 (R261). -/
def ovlDisp (disp : BitVec 12) : Nat := disp.toNat + 3

/-- RLE run `L = n + 3`, 3..130 (R292). -/
def rleRunLen (n : BitVec 7) : Nat := n.toNat + 3

/-- RLE raw `L = n + 1`, 1..128 (R293). -/
def rleRawLen (n : BitVec 7) : Nat := n.toNat + 1

/-- `TREE_LEN = 2 * (S + 1)`, the size byte counted (R312). -/
def treeLenOf (s : Byte) : Nat := 2 * (s.toNat + 1)

/-- `child(n, b)`: `(NODE_POS & ~1) + 2 * (n & 0x3F) + 2 + b` (R315). -/
def childPos (pos : Nat) (n : Byte) (b : Bool) : Nat :=
  pos / 2 * 2 + 2 * (n.toNat % 64) + 2 + b.toNat

/-- `isleaf(n, b)`: `n[7]` for child 0, `n[6]` for child 1 (R315). -/
def childIsLeaf (n : Byte) (b : Bool) : Bool := if b then n.getLsbD 6 else n.getLsbD 7

/-- `align4(x)`, without wrap-around (R10). -/
def align4 (x : Nat) : Nat := (x + 3) / 4 * 4

/-- A header's length field as a number (R101). -/
def headerLen (n : BitVec 24) : Nat := n.toNat

end Sys2Proof.Machine
end

