-- ==== Sys2Proof/Machine/Registry.lean ====
section
/-!
DEFINITION. Codec ids, the descriptor table and the registry lookups of spec/40_codec_interface.md
R131, R137 and spec/49_composite_null.md R420 to R424. Constants, not state (R38).
-/

namespace Sys2Proof.Machine

/-- The codec a `CODEC` field names; 7 and 11..15 name none (R131). -/
def codecOfId (id : BitVec 4) : Option Codec :=
  match id.toNat with
  | 0 => some .null
  | 1 => some .lz10
  | 2 => some .lz11
  | 3 => some .lzovl
  | 4 => some .rle
  | 5 => some .huf4
  | 6 => some .huf8
  | 8 => some .hufany
  | 9 => some .gba
  | 10 => some .nds
  | _ => none

/-- The id of a codec (R131). -/
def codecId : Codec → BitVec 4
  | .null => 0
  | .lz10 => 1
  | .lz11 => 2
  | .lzovl => 3
  | .rle => 4
  | .huf4 => 5
  | .huf8 => 6
  | .hufany => 8
  | .gba => 9
  | .nds => 10

/-- The members of a composite, in the order they are tried (R424); a simple codec has none. -/
def codecMembers : Codec → List Codec
  | .hufany => [.huf4, .huf8]
  | .gba => [.huf4, .huf8, .lz10]
  | .nds => [.huf4, .huf8, .lz10, .lz11]
  | _ => []

/-- The capability "supports compress": no for LZ-Overlay alone (R131, R275). -/
def codecCanCompress : Codec → Bool
  | .lzovl => false
  | _ => true

/-- The capability "supports decompress": yes for every codec (R131). -/
def codecCanDecompress : Codec → Bool
  | _ => true

/-- A row of the descriptor table (R420). The human description is empty: the source gives none. -/
structure Descriptor where
  codec : Codec
  shortName : String
  tag : String
  description : String := ""
  canDecompress : Bool := true
  canCompress : Bool := true
  members : List Codec := []
deriving DecidableEq, Repr

/-- The descriptor of a codec (R420, R137). -/
def descriptor : Codec → Descriptor
  | .null => { codec := .null, shortName := "NULL", tag := "null" }
  | .lz10 => { codec := .lz10, shortName := "LZ10", tag := "lz10" }
  | .lz11 => { codec := .lz11, shortName := "LZ11", tag := "lz11" }
  | .lzovl => { codec := .lzovl, shortName := "LZ-Ovl", tag := "lzovl", canCompress := false }
  | .rle => { codec := .rle, shortName := "RLE", tag := "rle" }
  | .huf4 => { codec := .huf4, shortName := "Huffman-4", tag := "huff4" }
  | .huf8 => { codec := .huf8, shortName := "Huffman-8", tag := "huff8" }
  | .hufany =>
    { codec := .hufany, shortName := "Huffman-any", tag := "huff", members := [.huf4, .huf8] }
  | .gba =>
    { codec := .gba, shortName := "GBA", tag := "gba*", members := [.huf4, .huf8, .lz10] }
  | .nds =>
    { codec := .nds, shortName := "NDS", tag := "nds*", members := [.huf4, .huf8, .lz10, .lz11] }

/-- `all_codecs(include_composites)`: id order (R421). -/
def allCodecs (includeComposites : Bool) : List Codec :=
  [.null, .lz10, .lz11, .lzovl, .rle, .huf4, .huf8] ++
    (if includeComposites then [.hufany, .gba, .nds] else [])

/-- `codec_by_flag(flag)`: the row whose tag equals the flag exactly, or none (R422). -/
def codecByFlag (flag : String) : Option Codec :=
  (allCodecs true).find? fun c => (descriptor c).tag == flag

/-- The phase a simple codec's decoder begins in (R134; files 42 to 46, 49). A composite has no
engine of its own (R424). -/
def codecEntry : Codec → Phase
  | .null => .header .null
  | .lz10 => .header .lz10
  | .lz11 => .header .lz11
  | .lzovl => .ovlTrailer
  | .rle => .header .rle
  | .huf4 => .header .huf4
  | .huf8 => .header .huf8
  | .hufany | .gba | .nds => .idle

end Sys2Proof.Machine
end

