-- ==== Sys2Proof/Machine/Ops.lean ====
section
/-!
DEFINITION. The operations the instructions share: the access primitives of spec/20_memory.md R63 to
R69, command start and end (spec/40_codec_interface.md R138, R139), taking an error
(spec/60_exceptions.md R470), composite trial runs (spec/49_composite_null.md R425 to R427) and the
predicates of SUPPORTS (R132).
-/

namespace Sys2Proof.Machine

/-- What a piece of a command gives: a value and the state it leaves, or an error raised (R470) and
the state it was raised in. -/
inductive Run (α : Type) where
  | ok (a : α) (s : State)
  | raised (e : Err) (s : State)
deriving DecidableEq, Repr

/-- Go on after a piece; "nothing after a `raise` executes" (R10). -/
def Run.bind {α β : Type} (r : Run α) (f : α → State → Run β) : Run β :=
  match r with
  | .ok a s => f a s
  | .raised e s => .raised e s

/-! ### The ports (R63, R64, R66, R78) -/

/-- `n` accesses to a port, one of which faults if `IO_FAULT` says so (R78; log entry 7). -/
def portAccesses (n : Nat) (s : State) : Run Unit :=
  match s.env.ioFault with
  | none => .ok () s
  | some k =>
    if n ≤ k then .ok () { s with env.ioFault := some (k - n) }
    else .raised .ioError { s with env.ioFault := none }

/-- `InByte()` (R63). -/
def inByte (s : State) : Run Byte :=
  if s.work.declLen ≤ s.work.inPos then
    .raised (.notEnoughData s.work.outLen s.work.decSize) s
  else if s.env.srcLen ≤ s.work.inPos then .raised .streamTooShort s
  else (portAccesses 1 s).bind fun _ s =>
    .ok (Memory.read s.work.inPos s.mem.imem) { s with work.inPos := s.work.inPos + 1 }

/-- `n` uses of `InByte`, whose bytes are the fields of the token that runs. -/
def consume : Nat → State → Run Unit
  | 0, s => .ok () s
  | n + 1, s => (inByte s).bind fun _ s => consume n s

/-- `TOK_POS <- IN_POS`, where a token that can be found invalid begins (R28, R162, R194, R221, R291). -/
def beginToken (s : State) : State := { s with work.tokPos := s.work.inPos }

/-- The flag byte of an RLE group: `TOK_POS` before it is read, `TOK_L` after (R291 to R293). -/
def rleFlag (l : Nat) (s : State) : Run Unit :=
  (consume 1 (beginToken s)).bind fun _ s => .ok () { s with work.tokL := l }

/-- `InPeek(a)` (R64). -/
def inPeek (a : Nat) (s : State) : Run (Option Byte) :=
  if a < s.work.declLen ∧ a < s.env.srcLen then
    (portAccesses 1 s).bind fun _ s => .ok (some (Memory.read a s.mem.imem)) s
  else .ok none s

/-- `OutByte(b)` (R66). In a trial run it goes to CBUF, which is no port (R425; log entry 17). -/
def outByte (b : Byte) (s : State) : Run Unit :=
  match s.seq.trial with
  | some _ =>
    .ok () { s with mem.cbuf := Memory.write s.work.outLen b s.mem.cbuf,
                    work.outLen := s.work.outLen + 1 }
  | none => (portAccesses 1 s).bind fun _ s =>
    .ok () { s with mem.omem := Memory.write s.work.outLen b s.mem.omem,
                    work.outLen := s.work.outLen + 1 }

/-- `OutByte(b)` in the LZ10 and LZ11 decoders, which also writes WIN (R66). -/
def outByteWin (b : Byte) (s : State) : Run Unit :=
  (outByte b s).bind fun _ t =>
    .ok () { t with mem.win := Memory.write (s.work.outLen % Config.winSize) b t.mem.win }

/-- `OutByte` for each byte of a string. -/
def outBytes : List Byte → State → Run Unit
  | [], s => .ok () s
  | b :: bs, s => (outByte b s).bind fun _ s => outBytes bs s

/-- `CopyBack(L, D)` (R67), with the clamp of R68. -/
def copyBack : Nat → Nat → State → Run Unit
  | 0, _, s => .ok () s
  | k + 1, d, s =>
    if s.work.outLen = s.work.decSize then .ok () s
    else
      (outByteWin (Memory.read ((s.work.outLen - d) % Config.winSize) s.mem.win) s).bind
        fun _ s => copyBack k d s

/-- The loop of `RLE.RUN` (R292): one byte repeated, clamped. -/
def repeatOut : Nat → Byte → State → Run Unit
  | 0, _, s => .ok () s
  | k + 1, d, s =>
    if s.work.outLen = s.work.decSize then .ok () s
    else (outByte d s).bind fun _ s => repeatOut k d s

/-- The loop of `RLE.RAW` (R293): raw bytes copied through, clamped. -/
def rawOut : Nat → State → Run Unit
  | 0, s => .ok () s
  | k + 1, s =>
    if s.work.outLen = s.work.decSize then .ok () s
    else (inByte s).bind fun b s => (outByte b s).bind fun _ s => rawOut k s

/-- IMEM copied to the output by index (R252). -/
def copyThrough : Nat → Nat → State → Run Unit
  | 0, _, s => .ok () s
  | k + 1, a, s => (portAccesses 1 s).bind fun _ s =>
    (outByte (Memory.read a s.mem.imem) s).bind fun _ s => copyThrough k (a + 1) s

/-- `RdBack()`: the backward read of the LZ-Overlay decoder (R257, R271). -/
def rdBack (s : State) : Run Byte :=
  if s.ovl.ip ≤ s.ovl.p then .raised (.notEnoughData s.ovl.w s.ovl.u) s
  else (portAccesses 1 s).bind fun _ s =>
    .ok (Memory.read (s.ovl.ip - 1) s.mem.imem) { s with ovl.ip := s.ovl.ip - 1 }

/-- The two bytes of a back-reference of the LZ-Overlay region; `TOK_POS` is the offset of `B1` (R261). -/
def rdBackRef (s : State) : Run Unit :=
  (rdBack s).bind fun _ s => (rdBack { s with work.tokPos := s.ovl.ip }).bind fun _ s => .ok () s

/-- One byte stored at the downward output cursor of the LZ-Overlay decoder (R260, R261). -/
def ovlPut (b : Byte) (s : State) : State :=
  { s with mem.ovlbuf := Memory.write (s.ovl.op - 1) b s.mem.ovlbuf,
           ovl.op := s.ovl.op - 1, ovl.w := s.ovl.w + 1 }

/-- The copy loop of `OVL.REF` (R261): the source lies `d` above the byte being written. -/
def ovlCopy : Nat → Nat → State → State
  | 0, _, s => s
  | k + 1, d, s =>
    if s.ovl.w = s.ovl.u then s
    else ovlCopy k d (ovlPut (Memory.read (s.ovl.op - 1 + d) s.mem.ovlbuf) s)

/-! ### Command start and end (R138, R139) -/

/-- The fresh start every run has, a command's and a trial run's (R138, R30, R425). Every register it
does not name, and every scratch memory, holds what the last run left (log entry 26). -/
def startRun (s : State) : State :=
  { s with
    work := { s.work with
      declLen := s.host.argLen.toNat
      inPos := 0
      outLen := 0
      decSize := 0
      flagCnt := 0
      bitCnt := 0
      nibValid := false
      nodePos := 1 }
    enc := { s.enc with encPos := 0, grpFlags := 0, grpCnt := 0, litCnt := 0, wbuf := 0, wcnt := 0 } }

/-- Command start (R138): a clean start "whatever the last command's outcome was". It is also the
return from an error: "the next command is the return" (R474). -/
def commandStart (s : State) : State :=
  { startRun s with
    host.status := statusBusy s.host.status
    seq.phase := .idle
    seq.trial := none }

/-- The end of a command: every response register is written and the block holds still (R31, R35,
R130); the inputs of the call end with it (R78; log entry 7). The working and overlay registers and the
scratch memories keep their last values (log entry 26). -/
def respond (status : BitVec 32) (resultLen errPos errWritten errExpected : Nat)
    (lastSub : BitVec 4) (s : State) : State :=
  { s with
    host := { s.host with
      status := status
      resultLen := resultLen
      errPos := errPos
      errWritten := errWritten
      errExpected := errExpected
      lastSub := lastSub }
    env.ioFault := none
    seq.phase := .idle
    seq.trial := none }

/-- `LAST_SUB` = none (R36). -/
def noSub : BitVec 4 := 0xF

/-- Command end without error (R139). -/
def endOk (resultLen : Nat) (tmi : Bool) (lastSub : BitVec 4) (s : State) : State :=
  respond (statusWord stateDone 0 tmi) resultLen 0 0 0 lastSub s

/-- `info.pos` if the error is INVALID_DATA, else 0 (R470). -/
def errPosOf : Err → Nat
  | .invalidData pos => pos
  | _ => 0

/-- `info.written` if the error is NOT_ENOUGH_DATA, else 0 (R470). -/
def errWrittenOf : Err → Nat
  | .notEnoughData w _ => w
  | _ => 0

/-- `info.expected` if the error is NOT_ENOUGH_DATA, else 0 (R470). -/
def errExpectedOf : Err → Nat
  | .notEnoughData _ x => x
  | _ => 0

/-- `raise E(info)` outside a trial run (R470): the command ends with the error. -/
def failWith (e : Err) (s : State) : State :=
  respond (statusWord stateDone (errCode e) false) 0 (errPosOf e) (errWrittenOf e)
    (errExpectedOf e) noSub s

/-! ### The predicates of SUPPORTS (R132, R133) -/

/-- `InPeek` at each address, `none` as soon as one is unreadable. -/
def peekAll : List Nat → State → Run (Option (List Byte))
  | [], s => .ok (some []) s
  | a :: as, s => (inPeek a s).bind fun b s =>
    match b with
    | none => .ok none s
    | some b => (peekAll as s).bind fun r s => .ok (r.map (b :: ·)) s

/-- Forward codecs but NULL: `DECL_LEN >= 4` and byte 0 is the magic (R203, R233, R298, R324). -/
def supportsMagic (c : Fwd) (s : State) : Run Bool :=
  if s.work.declLen < 4 then .ok false s
  else (inPeek 0 s).bind fun b s => .ok (b == some c.magic) s

/-- `Supports_NULL` (R443): the stated length also agrees with the declared one. -/
def supportsNull (s : State) : Run Bool :=
  (supportsMagic .null s).bind fun m s =>
    if m then
      (peekAll [1, 2, 3] s).bind fun bs s =>
        match bs with
        | some [n0, n1, n2] =>
          if le24 n0 n1 n2 ≠ 0 then .ok (s.work.declLen == 4 + (le24 n0 n1 n2).toNat) s
          else if s.work.declLen < 8 then .ok false s
          else (peekAll [4, 5, 6, 7] s).bind fun xs s =>
            match xs with
            | some [x0, x1, x2, x3] =>
              .ok (s.work.declLen == 8 + (le32 x0 x1 x2 x3).toNat) s
            | _ => .ok false s
        | _ => .ok false s
    else .ok false s

/-- Whether `n` bytes from `a` are all 0xFF (R274, the padding test). -/
def paddingOk : Nat → Nat → State → Run Bool
  | 0, _, s => .ok true s
  | n + 1, a, s => (inPeek a s).bind fun b s =>
    if b == some 0xFF then paddingOk n (a + 1) s else .ok false s

/-- The trailer cannot belong to a file of `n` bytes (R254). -/
def trailerBad (n hs cl : Nat) : Bool := hs < 8 || n < hs || n < hs + cl

/-- `Supports_LZOVL` (R274). -/
def supportsOvl (s : State) : Run Bool :=
  let n := s.work.declLen
  if n < 4 ∨ s.env.srcLen < n then .ok false s
  else (peekAll [n - 4, n - 3, n - 2, n - 1] s).bind fun es s =>
    if es == some [0, 0, 0, 0] then .ok true s
    else if n < 8 then .ok false s
    else (peekAll [n - 8, n - 7, n - 6, n - 5] s).bind fun ts s =>
      match ts with
      | some [c0, c1, c2, h] =>
        if trailerBad n h.toNat (le24 c0 c1 c2).toNat then .ok false s
        else paddingOk (h.toNat - 8) (n - h.toNat) s
      | _ => .ok false s

/-- `Supports_codec` of a simple codec; a composite is asked through its members (R426). -/
def supportsSimple : Codec → State → Run Bool
  | .null, s => supportsNull s
  | .lz10, s => supportsMagic .lz10 s
  | .lz11, s => supportsMagic .lz11 s
  | .lzovl, s => supportsOvl s
  | .rle, s => supportsMagic .rle s
  | .huf4, s => supportsMagic .huf4 s
  | .huf8, s => supportsMagic .huf8 s
  | .hufany, s | .gba, s | .nds, s => .ok false s

/-- "true if any member supports the stream" (R426); members are asked in order until one does
(log entry 19). -/
def supportsAny : List Codec → State → Run Bool
  | [], s => .ok false s
  | k :: ks, s => (supportsSimple k s).bind fun b s =>
    if b then .ok true s else supportsAny ks s

/-- `Supports_codec(DECL_LEN)` (R132). -/
def supports (c : Codec) (s : State) : Run Bool :=
  match codecMembers c with
  | [] => supportsSimple c s
  | ms => supportsAny ms s

/-! ### Trial runs and taking an error (R425, R427, R470) -/

/-- A trial run of a member begins: a fresh command start, its output directed to CBUF (R425). -/
def beginTrial (k : Codec) (rest : List Codec) (s : State) : State :=
  { startRun s with mem.cbuf := [], seq.trial := some ⟨k, rest⟩ }

/-- The loop of `Composite_Decompress` from a member on (R427): the first that supports the stream
gets a trial run; when none is left the command fails with Invalid-data at 0. Each member is asked from
a fresh start, whose registers stand if no member is left (log entry 32). -/
def tryMembers : List Codec → State → State
  | [], s => failWith (.invalidData 0) s
  | k :: ks, s =>
    match supportsSimple k (startRun s) with
    | .ok true s => { beginTrial k ks s with seq.phase := codecEntry k }
    | .ok false s => tryMembers ks s
    | .raised e s => failWith e s

/-- TAKING AN ERROR. Outside a trial run the command ends (R470). Inside one the error only ends the
run and the composite goes on with the next member, but for an I/O error (R427, R475). -/
def takeError (e : Err) (s : State) : State :=
  match s.seq.trial with
  | none => failWith e s
  | some t => if e = .ioError then failWith e s else tryMembers t.rest s

/-- *Commit* of a trial run (R425): what stands in its buffer is appended to OMEM, and the composite
command ends (R427, R428, R430). -/
def commit (buf : Memory) (len : Nat) (member : Codec) (tmi : Bool) (s : State) : Run Unit :=
  (outBytes (Memory.range buf 0 len) { s with seq.trial := none, work.outLen := 0 }).bind
    fun _ s => .ok () (endOk s.work.outLen tmi (codecId member) s)

/-- The normal end of a decode (R134): the run of a simple command ends it; a composite commits. -/
def endDecode (tmi : Bool) (s : State) : Run Unit :=
  match s.seq.trial with
  | none => .ok () (endOk s.work.outLen tmi noSub s)
  | some t => commit s.mem.cbuf s.work.outLen t.member tmi s

/-- `Finish()` of a forward decoder (R171): the soft flag, then the end of the decode. -/
def finishForward (s : State) : Run Unit :=
  endDecode (align4 s.work.inPos < s.work.declLen) s

/-- The flush of the LZ-Overlay decoder (R273), which never sets `TMI` (R272). -/
def flushOvl (s : State) : Run Unit :=
  (outBytes (Memory.range s.mem.ovlbuf 0 (s.ovl.p + s.ovl.u)) s).bind fun _ s => endDecode false s

/-- A step's outcome: an error raised is taken. -/
def settle (r : Run Unit) : Host.Outcome State Fault Refusal :=
  match r with
  | .ok _ s => .next s
  | .raised e s => .next (takeError e s)

/-! ### Register access by the host (R32 to R37) -/

/-- What the host reads at a register number; `CMD` is write-only (R37), and there are nine. -/
def readReg (r : Nat) (s : State) : Option (BitVec 33) :=
  match r with
  | 1 => some (s.host.argLen.zeroExtend 33)
  | 2 => some (s.host.ctrl.zeroExtend 33)
  | 3 => some (s.host.status.zeroExtend 33)
  | 4 => some (BitVec.ofNat 33 s.host.resultLen)
  | 5 => some (BitVec.ofNat 33 s.host.errPos)
  | 6 => some (BitVec.ofNat 33 s.host.errWritten)
  | 7 => some (BitVec.ofNat 33 s.host.errExpected)
  | 8 => some (s.host.lastSub.zeroExtend 33)
  | _ => none

/-- The plaintext of a COMPRESS command: `IMEM[0..DECL_LEN)` (R69). -/
def plaintext (s : State) : List Byte := Memory.range s.mem.imem 0 s.work.declLen

/-- What the host may take as the result: `OMEM[0..RESULT_LEN)` (R75). -/
def result (s : State) : List Byte := Memory.range s.mem.omem 0 s.host.resultLen

end Sys2Proof.Machine
end

