-- ==== Sys2Proof/Machine/HufDecode.lean ====
section
/-!
DEFINITION. The Huffman decoder's tokens: spec/46_huffman_decoder.md R312 to R322. The walk of R318 is
its three rows of the opcode table (log entry 9): `HUF.NODE` takes `n <- TREE[NODE_POS]`, `HUF.BIT`
steps to the child and tests its position, `HUF.LEAF8` or `HUF.LEAF4` emits the symbol and goes back
to the root.
-/

namespace Sys2Proof.Machine

/-- After the size byte the table is read (R317). -/
def afterTreeSize : Phase → Phase
  | .treeSize k => .treeTable k
  | p => p

/-- After the table the walk begins (R317). -/
def afterTreeTable : Phase → Phase
  | .treeTable k => .node k
  | p => p

/-- A node taken, the next stream bit chooses its child (R318). -/
def afterNode : Phase → Phase
  | .node k => .bit k
  | p => p

/-- The child chosen is a leaf, or a node the walk stands on next (R318). -/
def afterBit (isLeaf : Bool) : Phase → Phase
  | .bit k => if isLeaf then .leaf k else .node k
  | p => p

/-- After a leaf the loop of R317 goes on. -/
def afterLeaf : Phase → Phase
  | .leaf k => .node k
  | p => p

/-- `HUF.TSIZE` (R312). -/
def execHufTsize (b : Byte) (s : State) : Host.Outcome State Fault Refusal :=
  settle ((consume 1 s).bind fun _ s =>
    .ok () { s with mem.tree := Memory.write 0 b s.mem.tree,
                    work.treeLen := treeLenOf b,
                    seq.phase := afterTreeSize s.seq.phase })

/-- The rest of the loop of R313: `TREE[p] <- InByte()` for `k` positions from `p` on. -/
def readTable : Nat → Nat → State → Run Unit
  | 0, _, s => .ok () s
  | k + 1, p, s => (inByte s).bind fun b s =>
    readTable k (p + 1) { s with mem.tree := Memory.write p b s.mem.tree }

/-- `HUF.TABLE` (R313), then the walk's start `NODE_POS <- 1; BIT_CNT <- 0; NIB_VALID <- 0` (R317). -/
def execHufTable (root : Byte) (s : State) : Host.Outcome State Fault Refusal :=
  settle ((consume 1 s).bind fun _ s =>
    (readTable (s.work.treeLen - 2) 2
        { s with mem.tree := Memory.write 1 root s.mem.tree }).bind fun _ s =>
      .ok () { s with work := { s.work with nodePos := 1, bitCnt := 0, nibValid := false },
                      seq.phase := afterTreeTable s.seq.phase })

/-- The byte of format N with these fields (R99). -/
def nodeByteOf (leaf0 leaf1 : Bool) (offset : BitVec 6) : Byte :=
  BitVec.ofBool leaf0 ++ BitVec.ofBool leaf1 ++ offset

/-- `HUF.NODE` (R315): the byte at `TREE[NODE_POS]`, read as an internal node, is the `n` of R318. -/
def execHufNode (leaf0 leaf1 : Bool) (offset : BitVec 6) (s : State) :
    Host.Outcome State Fault Refusal :=
  .next { s with seq.nodeByte := nodeByteOf leaf0 leaf1 offset,
                 seq.phase := afterNode s.seq.phase }

/-- `HUF.WORD` (R316). -/
def execHufWord (w : BitVec 32) (s : State) : Host.Outcome State Fault Refusal :=
  settle ((consume 4 s).bind fun _ s => .ok () (loadBits w s))

/-- `HUF.BIT` (R318, R320): the child of the node the walk stands on; a child at or beyond `TREE_LEN`
is Invalid-data, a leaf is executed next, a node becomes `NODE_POS`. -/
def walkBit (b : Bool) (s : State) : Run Unit :=
  let c := childPos s.work.nodePos s.seq.nodeByte b
  let leaf := childIsLeaf s.seq.nodeByte b
  if s.work.treeLen ≤ c then .raised (.invalidData (s.work.treeBase + c)) s
  else if leaf then
    .ok () { s with seq.leafPos := c, seq.phase := afterBit true s.seq.phase }
  else
    .ok () { s with work.nodePos := c, seq.phase := afterBit false s.seq.phase }

/-- `HUF.BIT` (R318). -/
def execHufBit (b : Bool) (s : State) : Host.Outcome State Fault Refusal :=
  settle (walkBit b s)

/-- `NODE_POS <- 1` after a leaf (R318, R27). -/
def toRoot (s : State) : State :=
  { s with work.nodePos := 1, seq.phase := afterLeaf s.seq.phase }

/-- `HUF.LEAF8` (R321). -/
def execHufLeaf8 (b : Byte) (s : State) : Host.Outcome State Fault Refusal :=
  settle ((outByte b s).bind fun _ s => .ok () (toRoot s))

/-- `HUF.LEAF4` (R322): the first nibble is kept, the second completes a byte. -/
def leafNibble (b : Byte) (s : State) : Run Unit :=
  if hiNib b ≠ 0 then .raised (.invalidData (s.work.treeBase + s.seq.leafPos)) s
  else if s.work.nibValid then
    (outByte (s.work.nib ++ loNib b) s).bind fun _ s => .ok () { s with work.nibValid := false }
  else .ok () { s with work.nib := loNib b, work.nibValid := true }

/-- `HUF.LEAF4` (R322). -/
def execHufLeaf4 (b : Byte) (s : State) : Host.Outcome State Fault Refusal :=
  settle ((leafNibble b s).bind fun _ s => .ok () (toRoot s))

end Sys2Proof.Machine
end

