-- ==== Sys2Proof/Machine/MatchFinder.lean ====
section
/-!
DEFINITION. The sliding-window match finder and the two selections of spec/47_match_finder.md R340 to
R354. "A model computes them by the definitions" (R346).
-/

namespace Sys2Proof.Machine

/-- A token of the LZ encoders (R340). -/
inductive LzTok where
  | lit (b : Byte)
  | ref (l d : Nat)
deriving DecidableEq, Repr

/-- How far two strings agree, at most `k` bytes. -/
def agree : Nat → List Byte → List Byte → Nat
  | k + 1, x :: xs, y :: ys => if x = y then agree k xs ys + 1 else 0
  | _, _, _ => 0

/-- `MatchLen(i, D)` (R342): the source may run into the bytes being encoded (R341). -/
def matchLen (maxL : Nat) (s : List Byte) (i d : Nat) : Nat :=
  agree maxL (s.drop i) (s.drop (i - d))

/-- The longest match among the displacements 1..k, the smallest displacement that reaches it. With no
displacement admissible the length is 0 (R343) and the displacement, which R343 leaves open, is the
model's 0 (log entry 28). -/
def longestUpTo (maxL : Nat) (s : List Byte) (i : Nat) : Nat → Nat × Nat
  | 0 => (0, 0)
  | k + 1 =>
    let best := longestUpTo maxL s i k
    let l := matchLen maxL s i (k + 1)
    if k = 0 ∨ best.1 < l then (l, k + 1) else best

/-- `LongestMatch(i)` = `(Lmax, Dbest)` (R343). -/
def longestMatch (maxL : Nat) (s : List Byte) (i : Nat) : Nat × Nat :=
  longestUpTo maxL s i (min i Config.winSize)

/-- The smallest displacement in 1..k that reaches length `l`, 0 if none does. -/
def dispUpTo (maxL : Nat) (s : List Byte) (i l : Nat) : Nat → Nat
  | 0 => 0
  | k + 1 =>
    let d := dispUpTo maxL s i l k
    if d ≠ 0 then d else if l ≤ matchLen maxL s i (k + 1) then k + 1 else 0

/-- `DispFor(i, L)` (R345). -/
def dispFor (maxL : Nat) (s : List Byte) (i l : Nat) : Nat :=
  dispUpTo maxL s i l (min i Config.winSize)

/-- `Greedy(s)` from position `i` (R350); the first argument bounds the tokens. -/
def greedy (maxL : Nat) (s : List Byte) : Nat → Nat → List LzTok
  | 0, _ => []
  | f + 1, i =>
    if i < s.length then
      let m := longestMatch maxL s i
      if 3 ≤ m.1 then .ref m.1 m.2 :: greedy maxL s f (i + m.1)
      else .lit (s.getD i 0) :: greedy maxL s f (i + 1)
    else []

/-- `cost(L)` of an LZ10 back-reference, in bits (R351). -/
def cost10 (_ : Nat) : Nat := 17

/-- `cost11(L)` of an LZ11 back-reference, in bits (R229, R351). -/
def cost11 (l : Nat) : Nat := if l ≤ 16 then 17 else if l ≤ 0x110 then 25 else 33

/-- The inner loop of `Optimal` (R352, R353): best cost and choice over a literal and the lengths
3..L; `after` is `COST[i+1..N]`. -/
def bestChoice (cost : Nat → Nat) (after : List Nat) : Nat → Nat × Nat
  | 0 => (9 + after.getD 0 0, 1)
  | l + 1 =>
    let b := bestChoice cost after l
    if l + 1 < 3 then b
    else
      let c := cost (l + 1) + after.getD l 0
      if c ≤ b.1 then (c, l + 1) else b

/-- `COST[N-j..N]` and `CHOICE[N-j..N)` of `Optimal` (R352). -/
def optTable (maxL : Nat) (cost : Nat → Nat) (s : List Byte) : Nat → List Nat × List Nat
  | 0 => ([0], [])
  | j + 1 =>
    let t := optTable maxL cost s j
    let b := bestChoice cost t.1 (longestMatch maxL s (s.length - (j + 1))).1
    (b.1 :: t.1, b.2 :: t.2)

/-- The emission of R354 from position `i`. -/
def emitChoice (maxL : Nat) (s : List Byte) (choice : List Nat) : Nat → Nat → List LzTok
  | 0, _ => []
  | f + 1, i =>
    if i < s.length then
      let l := choice.getD i 1
      if l = 1 then .lit (s.getD i 0) :: emitChoice maxL s choice f (i + 1)
      else .ref l (dispFor maxL s i l) :: emitChoice maxL s choice f (i + l)
    else []

/-- `SelectTokens(s, maxL, cost, optimal)` (R340). -/
def selectTokens (s : List Byte) (maxL : Nat) (cost : Nat → Nat) (optimal : Bool) : List LzTok :=
  if optimal then emitChoice maxL s (optTable maxL cost s s.length).2 s.length 0
  else greedy maxL s s.length 0

end Sys2Proof.Machine
end

