-- ==== Sys2Proof/Machine/LzEncode.lean ====
section
/-!
DEFINITION. The LZ10 and LZ11 encoders (spec/42_lz10.md R198, R200; spec/43_lz11.md R229 to R232), the
header and flag-group writers of spec/41_bitstream_parser.md R164, R165, R169, the RLE encoder
(spec/45_rle.md R295) and the NULL encoder (spec/49_composite_null.md R444).
-/

namespace Sys2Proof.Machine

/-- `EmitHeader(magic, N)` (R164); for `N` = 0 also the extension word (R165). -/
def emitHeader (c : Fwd) (n : Nat) : List Byte :=
  encode (c.header (BitVec.ofNat 24 n)) ++ (if n = 0 then encode (.hdrExt 0) else [])

/-- The LZ10 token of a selected token (R200). -/
def tok10 : LzTok → Instr
  | .lit b => .lz10Lit b
  | .ref l d => .lz10Ref (BitVec.ofNat 4 (l - 3)) (BitVec.ofNat 12 (d - 1))

/-- The LZ11 token of a selected token: "the smallest form that fits the match" (R229 to R232). -/
def tok11 : LzTok → Instr
  | .lit b => .lz11Lit b
  | .ref l d =>
    let disp := BitVec.ofNat 12 (d - 1)
    if l ≤ 16 then .lz11Ref2 (BitVec.ofNat 4 (l - 1)) disp
    else if l ≤ 0x110 then .lz11Ref3 (BitVec.ofNat 8 (l - 0x11)) disp
    else .lz11Ref4 (BitVec.ofNat 16 (l - 0x111)) disp

/-- The token is a back-reference, so its flag bit is 1 (R169). -/
def LzTok.isRef : LzTok → Bool
  | .lit _ => false
  | .ref _ _ => true

/-- The flag-group writer (R169). `GRP_FLAGS`, `GRP_CNT` and the bytes of the group so far are its
loop variables: a full group goes out flag byte first, and so does a last group cut short. -/
def writeGroups (enc : LzTok → List Byte) : List LzTok → Byte → Nat → List Byte → List Byte
  | [], grpFlags, grpCnt, grp => if grpCnt = 0 then [] else grpFlags :: grp
  | t :: ts, grpFlags, grpCnt, grp =>
    let fl := if t.isRef then grpFlags ||| ((1 : Byte) <<< (7 - grpCnt)) else grpFlags
    let g := grp ++ enc t
    if grpCnt + 1 = 8 then (fl :: g) ++ writeGroups enc ts 0 0 []
    else writeGroups enc ts fl (grpCnt + 1) g

/-- `LZ10_Encode` (R198). -/
def lz10Stream (s : List Byte) (optimal : Bool) : List Byte :=
  emitHeader .lz10 s.length ++
    writeGroups (fun t => encode (tok10 t)) (selectTokens s Config.lz10MaxLen cost10 optimal) 0 0 []

/-- `LZ11_Encode` (R229). -/
def lz11Stream (s : List Byte) (optimal : Bool) : List Byte :=
  emitHeader .lz11 s.length ++
    writeGroups (fun t => encode (tok11 t)) (selectTokens s Config.lz11MaxLen cost11 optimal) 0 0 []

/-- How many of the next bytes, at most `k`, equal `b` (R295, the inner loop). -/
def sameRun (b : Byte) : Nat → List Byte → Nat
  | k + 1, x :: xs => if x = b then sameRun b k xs + 1 else 0
  | _, _ => 0

/-- `FlushRaw()` (R295): the pending bytes, if any, as one raw group. -/
def flushRaw (lits : List Byte) : List Byte :=
  if lits = [] then []
  else encode (.rleRaw (BitVec.ofNat 7 (lits.length - 1))) ++ lits

/-- The loop of `RLE_Encode` (R295): what is left of the plaintext, and the pending raw bytes. -/
def rleLoop : Nat → List Byte → List Byte → List Byte
  | f + 1, b :: rest, lits =>
    let r := sameRun b (Config.rleRunMax - 1) rest + 1
    if 3 ≤ r then
      flushRaw lits ++ encode (.rleRun (BitVec.ofNat 7 (r - 3)) b) ++
        rleLoop f (rest.drop (r - 1)) []
    else if lits.length + 1 = Config.rleRawMax then
      flushRaw (lits ++ [b]) ++ rleLoop f rest []
    else rleLoop f rest (lits ++ [b])
  | _, _, lits => flushRaw lits

/-- `RLE_Encode` (R295). -/
def rleStream (s : List Byte) : List Byte := emitHeader .rle s.length ++ rleLoop s.length s []

/-- `NULL_Encode` (R444). -/
def nullStream (s : List Byte) : List Byte := emitHeader .null s.length ++ s

end Sys2Proof.Machine
end

