-- ==== Sys2Proof/Machine/HufEncode.lean ====
section
/-!
DEFINITION. The Huffman builder and encoder of spec/48_huffman_encoder.md R370 to R400, and the
bit-word writer of spec/41_bitstream_parser.md R170.
-/

namespace Sys2Proof.Machine

/-! ### Frequencies and leaves (R371, R372) -/

/-- The symbols of the plaintext: its bytes, or high nibble then low nibble of each (R371). -/
def hufSymbols (k : HufKind) (s : List Byte) : List Nat :=
  match k with
  | .huf8 => s.map (·.toNat)
  | .huf4 => s.flatMap fun b => [(hiNib b).toNat, (loNib b).toNat]

/-- How many symbols the alphabet has. -/
def hufAlphabet : HufKind → Nat
  | .huf4 => 16
  | .huf8 => 256

/-- `FREQ[x]` for each symbol `x` (R371). -/
def hufFreq (k : HufKind) (syms : List Nat) : List Nat :=
  (List.range (hufAlphabet k)).map fun x => syms.count x

/-- The symbols added with priority 0 when fewer than two occur: the lowest that do not (R372). -/
def padSymbols (freq : List Nat) : List Nat :=
  let occurring := (List.range freq.length).filter fun x => freq.getD x 0 ≠ 0
  ((List.range freq.length).filter fun x => freq.getD x 0 = 0).take (2 - occurring.length)

/-- The leaf set with priorities, ascending by symbol (R372, R376). -/
def leafSet (freq : List Nat) : List (Nat × Nat) :=
  ((List.range freq.length).filter fun x =>
    freq.getD x 0 ≠ 0 || (padSymbols freq).contains x).map fun x => (freq.getD x 0, x)

/-! ### The priority queue and the tree (R373, R375, R376) -/

/-- A tree as the builder works on it (R373): every node with its id in the arena, an internal node
with its two children. `arenaOf` gives the arena it stands for. -/
inductive HTree where
  | leaf (id symbol : Nat)
  | node (id : Nat) (child0 child1 : HTree)
deriving DecidableEq, Repr

/-- The arena id of a node. -/
def HTree.id : HTree → Nat
  | .leaf id _ => id
  | .node id _ _ => id

/-- `enqueue` (R375): behind every entry of the same or a smaller priority, so that `dequeue` takes
the head. -/
def enqueue (p : Nat) (v : HTree) : List (Nat × HTree) → List (Nat × HTree)
  | [] => [(p, v)]
  | (q, w) :: rest => if p < q then (p, v) :: (q, w) :: rest else (q, w) :: enqueue p v rest

/-- `LQ` with every leaf enqueued in ascending symbol order (R376); the leaves have the first ids of
the arena, in that order (log entry 8). -/
def leafQueue (leaves : List (Nat × Nat)) : List (Nat × HTree) :=
  leaves.zipIdx.foldl (fun q l => enqueue l.1.1 (.leaf l.2 l.1.2) q) []

/-- `PopMin()` (R376): leaves preferred on a tie. The entry, then what is left of both queues. -/
def popMin (lq nq : List (Nat × HTree)) :
    Option ((Nat × HTree) × List (Nat × HTree) × List (Nat × HTree)) :=
  match lq, nq with
  | [], [] => none
  | l :: ls, [] => some (l, ls, [])
  | [], n :: ns => some (n, [], ns)
  | l :: ls, n :: ns => if l.1 ≤ n.1 then some (l, ls, n :: ns) else some (n, l :: ls, ns)

/-- The loop of `BuildTree` (R376): while two nodes are left, the two smallest become the children of
a new internal node, which has the next id of the arena (log entry 8). -/
def buildLoop : Nat → Nat → List (Nat × HTree) → List (Nat × HTree) →
    List (Nat × HTree) × List (Nat × HTree)
  | 0, _, lq, nq => (lq, nq)
  | f + 1, id, lq, nq =>
    match popMin lq nq with
    | none => (lq, nq)
    | some (a, lq', nq') =>
      match popMin lq' nq' with
      | none => (lq, nq)
      | some (b, lq'', nq'') =>
        buildLoop f (id + 1) lq'' (enqueue (a.1 + b.1) (.node id a.2 b.2) nq'')

/-- `BuildTree(FREQ)` (R376): the one node left is the root. -/
def buildTree (freq : List Nat) : HTree :=
  let leaves := leafSet freq
  match (buildLoop leaves.length leaves.length (leafQueue leaves) []).2 with
  | (_, root) :: _ => root
  | [] => .leaf 0 0

/-- `CODE` (R377): the labels from the root, given in reverse so far, to each leaf. -/
def codesFrom : HTree → List Bool → List (Nat × List Bool)
  | .leaf _ x, path => [(x, path.reverse)]
  | .node _ a b, path => codesFrom a (false :: path) ++ codesFrom b (true :: path)

/-- `CODE[x]`. -/
def codeOf (code : List (Nat × List Bool)) (x : Nat) : List Bool :=
  match code.find? fun c => c.1 == x with
  | some c => c.2
  | none => []

/-! ### Layout (R380 to R397) -/

/-- The node is a leaf. -/
def HTree.isLeaf : HTree → Bool
  | .leaf _ _ => true
  | .node _ _ _ => false

/-- The internal nodes of a tree, each with its subtree. -/
def HTree.internals : HTree → List HTree
  | .leaf _ _ => []
  | .node id a b => .node id a b :: (a.internals ++ b.internals)

/-- `idx(v)`: the index of an internal node in `ORDER` (R380). -/
def orderIdx (order : List HTree) (v : HTree) : Nat := order.findIdx fun u => u.id == v.id

/-- The 4-bit layout (R385): breadth-first, child 0 before child 1. -/
def bfsOrder : Nat → List HTree → List HTree
  | f + 1, .node id a b :: queue =>
    .node id a b :: bfsOrder f (queue ++ [a, b].filter fun c => !c.isLeaf)
  | f + 1, .leaf _ _ :: queue => bfsOrder f queue
  | _, _ => []

/-- `Push(v, k)` (R396): child 1 then child 0, if internal, with the deadline `k + 64`. -/
def pushChildren (v : HTree) (k : Nat) (pend : List (HTree × Nat)) : List (HTree × Nat) :=
  match v with
  | .leaf _ _ => pend
  | .node _ a b => pend ++ (([b, a].filter fun c => !c.isLeaf).map fun c => (c, k + 64))

/-- A deadline put into an ascending list. -/
def insertDeadline (d : Nat) : List Nat → List Nat
  | [] => [d]
  | e :: es => if d ≤ e then d :: e :: es else e :: insertDeadline d es

/-- Deadlines, ascending, can be met one after another from index `t` on. -/
def deadlinesMet : Nat → List Nat → Bool
  | _, [] => true
  | t, d :: ds => t ≤ d && deadlinesMet (t + 1) ds

/-- The index of the pending entry with the smallest deadline, the earliest among equals (R396). -/
def earliestIdx (pend : List (HTree × Nat)) : Nat :=
  pend.findIdx fun e => pend.all fun f => e.2 ≤ f.2

/-- The loop of `Layout8` (R396) at index `t`. The default `HUF8_LAYOUT`: depth-first, pre-empted by
deadlines; `none` is its failure. -/
def layout8Loop : Nat → Nat → List HTree → List (HTree × Nat) → Option (List HTree)
  | 0, _, order, pend => if pend = [] then some order else none
  | f + 1, t, order, pend =>
    if pend = [] then some order
    else
      let rest := pend.dropLast.foldl (fun ds e => insertDeadline e.2 ds) []
      let at_ := if deadlinesMet (t + 1) rest then pend.length - 1 else earliestIdx pend
      match pend[at_]? with
      | none => none
      | some e =>
        if e.2 < t then none
        else layout8Loop f (t + 1) (order ++ [e.1]) (pushChildren e.1 t (pend.eraseIdx at_))

/-- `Layout8(root)` (R396). -/
def layout8 (root : HTree) : Option (List HTree) :=
  layout8Loop (root.internals.length + 1) 1 [root] (pushChildren root 0 [])

/-- A layout given from outside (R395): it must name every internal node once, the root first; the
index distances of R381 are what `serialize` tests. -/
def layoutGiven (ids : List Nat) (root : HTree) : Option (List HTree) :=
  let nodes := root.internals
  if ids.length = nodes.length ∧ ids.Nodup ∧ ids.head? = some root.id then
    ids.mapM fun x => nodes.find? fun v => v.id == x
  else none

/-- `Layout(root, bits)` (R370 step 4): R385 for 4 bits, `HUF8_LAYOUT` for 8. -/
def layoutOf (k : HufKind) (given : Option (List Nat)) (root : HTree) : Option (List HTree) :=
  match k with
  | .huf4 => some (bfsOrder (2 * root.internals.length) [root])
  | .huf8 =>
    match given with
    | none => layout8 root
    | some ids => layoutGiven ids root

/-- The offset of an internal node that lies in pair `p` = `k + 1` (the root: pair 0): it must fit
0..0x3F, or the layout has failed (R380, R397). -/
def nodeOffset (order : List HTree) (p : Nat) (v : HTree) : Option Nat :=
  let ix := orderIdx order v
  if ix < p ∨ Config.hufMaxOffset < ix - p then none else some (ix - p)

/-- `NodeByte(v, k)` (R380). -/
def nodeByteAt (order : List HTree) (p : Nat) (v : HTree) : Option Byte :=
  match v with
  | .leaf _ _ => none
  | .node _ a b =>
    (nodeOffset order p v).map fun off => nodeByteOf a.isLeaf b.isLeaf (BitVec.ofNat 6 off)

/-- The table byte of a child that lies in pair `p` (R380). -/
def tableByte (order : List HTree) (p : Nat) (c : HTree) : Option Byte :=
  match c with
  | .leaf _ x => some (BitVec.ofNat 8 x)
  | .node _ _ _ => nodeByteAt order p c

/-- Pairs `p`, `p + 1`, ... of the table: the children of the nodes listed (R380). -/
def tablePairs (order : List HTree) : Nat → List HTree → Option (List Byte)
  | _, [] => some []
  | p, v :: vs =>
    match v with
    | .leaf _ _ => none
    | .node _ a b =>
      match tableByte order p a, tableByte order p b, tablePairs order (p + 1) vs with
      | some x, some y, some rest => some (x :: y :: rest)
      | _, _, _ => none

/-- `Serialize(ORDER)` (R380): the size byte, the root's byte, then the pairs. -/
def serialize (order : List HTree) (root : HTree) : Option (List Byte) :=
  match nodeByteAt order 0 root, tablePairs order 1 order with
  | some r, some rest => some (BitVec.ofNat 8 order.length :: r :: rest)
  | _, _ => none

/-! ### The arena (R44, R373) -/

/-- One node is a child of another. -/
def HTree.hasChild (u v : HTree) : Bool :=
  match u with
  | .leaf _ _ => false
  | .node _ a b => a.id == v.id || b.id == v.id

/-- The pair an internal node's own byte lies in: one above its parent's index, 0 for the root (R380). -/
def pairOf (order : List HTree) (v : HTree) : Nat :=
  match order.findIdx? fun u => u.hasChild v with
  | some k => k + 1
  | none => 0

/-- The nodes of a tree with their ids, their depths set by a top-down pass (R377). -/
def HTree.cells (off : HTree → Option Nat) : HTree → Nat → List (Nat × ArenaNode)
  | .leaf id x, depth => [(id, .leaf x depth)]
  | .node id a b, depth =>
    (id, .node a.id b.id depth (off (.node id a b))) ::
      (a.cells off (depth + 1) ++ b.cells off (depth + 1))

/-- The arena of a tree, a node standing at its id; with a layout that serializes, each internal node
has its offset (R380). -/
def arenaOf (order : Option (List HTree)) (root : HTree) : List ArenaNode :=
  let cells := root.cells (fun v => order.bind fun o => nodeOffset o (pairOf o v) v) 0
  (List.range cells.length).filterMap fun i => (cells.find? fun c => c.1 == i).map (·.2)

/-! ### Emission (R170, R400) -/

/-- The bit-word writer (R170): `WBUF` filled from bit 31 down, written out when full; a last word
partly filled is flushed with zeros. -/
def writeBits : List Bool → BitVec 32 → Nat → List Byte
  | [], wbuf, wcnt => if wcnt = 0 then [] else bytes32 wbuf
  | b :: bs, wbuf, wcnt =>
    let w := if b then wbuf ||| ((1 : BitVec 32) <<< (31 - wcnt)) else wbuf
    if wcnt + 1 = 32 then bytes32 w ++ writeBits bs 0 0 else writeBits bs w (wcnt + 1)

/-- The forward codec of an alphabet: magic `0x20 | bits`. -/
def hufFwd : HufKind → Fwd
  | .huf4 => .huf4
  | .huf8 => .huf8

/-- `HUF_Encode(bits)` (R370): the stream, the layout order and the codes; `none` if no valid layout
was found, before anything is written (R397). -/
def hufStream (k : HufKind) (given : Option (List Nat)) (s : List Byte) : Option (List Byte) :=
  let syms := hufSymbols k s
  let root := buildTree (hufFreq k syms)
  let code := codesFrom root []
  match layoutOf k given root with
  | none => none
  | some order =>
    match serialize order root with
    | none => none
    | some table =>
      some (emitHeader (hufFwd k) s.length ++ table ++
        writeBits (syms.flatMap fun x => codeOf code x) 0 0)

/-- What `HUF_Encode` leaves in the encoder scratch (R44; log entry 18). Where the layout or its
serialization fails, steps 1 to 3 have run and nothing has been encoded (R397). -/
def hufScratch (k : HufKind) (given : Option (List Nat)) (s : List Byte) (e : EncRegs) : EncRegs :=
  let freq := hufFreq k (hufSymbols k s)
  let leaves := leafSet freq
  let queues := buildLoop leaves.length leaves.length (leafQueue leaves) []
  let root := buildTree freq
  let order := layoutOf k given root
  let failed := (order.bind fun o => serialize o root) = none
  { e with
    encPos := if failed then 0 else s.length
    freq := freq
    arena := arenaOf (if failed then none else order) root
    leafQ := queues.1.map fun q => (q.1, q.2.id)
    nodeQ := queues.2.map fun q => (q.1, q.2.id)
    order := (order.getD []).map (·.id)
    code := codesFrom root [] }

end Sys2Proof.Machine
end

