-- ==== Sys2Proof/Machine/Command.lean ====
section
/-!
DEFINITION. The host commands of spec/40_codec_interface.md R132, R134, R135, R140, R142, and the
composite COMPRESS of spec/49_composite_null.md R428, R429.
-/

namespace Sys2Proof.Machine

/-- The stream a simple codec's encoder gives for a plaintext, `none` if it fails, which only the
8-bit Huffman layout can (R397, R429); a codec that cannot compress has none. -/
def encodeStream (c : Codec) (s : State) : Option (List Byte) :=
  let x := plaintext s
  match c with
  | .null => some (nullStream x)
  | .lz10 => some (lz10Stream x (ctrlLaLz10 s.host.ctrl))
  | .lz11 => some (lz11Stream x (ctrlLaLz11 s.host.ctrl))
  | .rle => some (rleStream x)
  | .huf4 => hufStream .huf4 s.env.huf8Order x
  | .huf8 => hufStream .huf8 s.env.huf8Order x
  | .lzovl | .hufany | .gba | .nds => none

/-- `COST` and `CHOICE` of the optimal selection; the greedy one uses neither (R44 (f), R352). -/
def lzScratch (maxL : Nat) (cost : Nat → Nat) (optimal : Bool) (x : List Byte) (e : EncRegs) :
    EncRegs :=
  if optimal then
    let t := optTable maxL cost x x.length
    { e with encPos := x.length, cost := t.1, choice := t.2 }
  else { e with encPos := x.length }

/-- The encoder registers and scratch a run of a simple codec's encoder leaves (log entry 18). -/
def encodeScratch (c : Codec) (s : State) : EncRegs :=
  let x := plaintext s
  match c with
  | .lz10 => lzScratch Config.lz10MaxLen cost10 (ctrlLaLz10 s.host.ctrl) x s.enc
  | .lz11 => lzScratch Config.lz11MaxLen cost11 (ctrlLaLz11 s.host.ctrl) x s.enc
  | .huf4 => hufScratch .huf4 s.env.huf8Order x s.enc
  | .huf8 => hufScratch .huf8 s.env.huf8Order x s.enc
  | .null | .rle => { s.enc with encPos := x.length }
  | .lzovl | .hufany | .gba | .nds => s.enc

/-- One run of a simple codec's encoder: the plaintext is read, the stream is written (R69, R135). What
the encoder registers and the scratch hold after a port fault at the one or at the other, which R46
leaves open, is the model's (log entry 29). -/
def runEncoder (c : Codec) (s : State) : Run Unit :=
  (portAccesses s.work.declLen s).bind fun _ s =>
    match encodeStream c s with
    | none => .raised (.invalidData 0) { s with enc := encodeScratch c s }
    | some bytes => outBytes bytes { s with enc := encodeScratch c s }

/-- A finished trial run of a member's encoder (R428). -/
structure TrialRun where
  member : Codec
  len : Nat
  buf : Memory
deriving DecidableEq, Repr

/-- `its OUT_LEN < best.OUT_LEN`, or there is no best yet (R428). -/
def improves (len : Nat) : Option TrialRun → Bool
  | none => true
  | some b => len < b.len

/-- `Composite_Compress` from a member on (R428): a member that fails is skipped and its error kept
if it is the first (R429); the earlier member wins a tie. The best run so far is kept beside the
state, and CBUF is left with the last member's run (log entry 27). -/
def compressMembers : List Codec → Option TrialRun → Option Err → State → Run Unit
  | [], none, firstErr, s => .raised (firstErr.getD (.invalidData 0)) { s with seq.trial := none }
  | [], some best, _, s => commit best.buf best.len best.member false s
  | k :: ks, best, firstErr, s =>
    if codecCanCompress k then
      match runEncoder k (beginTrial k ks s) with
      | .ok _ t =>
        compressMembers ks
          (if improves t.work.outLen best then some ⟨k, t.work.outLen, t.mem.cbuf⟩ else best)
          firstErr t
      | .raised e t =>
        if e = .ioError then .raised e { t with seq.trial := none }
        else compressMembers ks best (firstErr.or (some e)) t
    else compressMembers ks best firstErr s

/-- The codec of a command word, or UNSUPPORTED, tested before anything else (R142, R468). -/
def withCodec (id : BitVec 4) (s : State) (f : Codec → State → Run Unit) : Run Unit :=
  match codecOfId id with
  | none => .raised .unsupported s
  | some c => f c s

/-- `SUPPORTS(codec)` (R132, R133). A composite's members read `IN_POS` and `CBUF` of nothing: only
`InPeek` is used. -/
def supportsCommand (c : Codec) (s : State) : Run Unit :=
  (supports c s).bind fun b s => .ok () (endOk b.toNat false noSub s)

/-- `CMD.SUPPORTS` (R132). -/
def execCmdSupports (codec : BitVec 4) (s : State) : Host.Outcome State Fault Refusal :=
  settle (withCodec codec (commandStart s) supportsCommand)

/-- `DECOMPRESS(codec)` (R134): the decoder of the codec begins; its tokens are the steps that follow.
A composite asks its members and gives the first that supports the stream a trial run (R427). -/
def decompressCommand (c : Codec) (s : State) : State :=
  match codecMembers c with
  | [] => { s with seq.phase := codecEntry c }
  | ms => tryMembers ms s

/-- `CMD.DECOMPRESS` (R134). -/
def execCmdDecompress (codec : BitVec 4) (s : State) : Host.Outcome State Fault Refusal :=
  settle (withCodec codec (commandStart s) fun c s =>
    .ok () (decompressCommand c s))

/-- `COMPRESS(codec)` (R135): the tests, in the order of R471 (a), then the encoder's run; a composite
runs every member and keeps the smallest output (R428). -/
def compressCommand (c : Codec) (s : State) : Run Unit :=
  if codecCanCompress c = false then .raised .unsupported s
  else if Config.len24Max < s.work.declLen then .raised .inputTooLarge s
  else if s.env.srcLen < s.work.declLen then .raised .streamTooShort s
  else
    match codecMembers c with
    | [] => (runEncoder c s).bind fun _ s => .ok () (endOk s.work.outLen false noSub s)
    | ms => compressMembers ms none none s

/-- `CMD.COMPRESS` (R135). -/
def execCmdCompress (codec : BitVec 4) (s : State) : Host.Outcome State Fault Refusal :=
  settle (withCodec codec (commandStart s) compressCommand)

/-- The `CTRL` bits `-opt` sets for a codec (R140); none for a codec that claims nothing. -/
def optBits : Codec → BitVec 32
  | .lz10 => 0x1
  | .lz11 => 0x2
  | .lzovl => 0x4
  | .gba => 0x1
  | .nds => 0x3
  | .null | .rle | .huf4 | .huf8 | .hufany => 0x0

/-- `Parse_k(args)` of a simple codec: how many arguments it takes from the front (R141). -/
def parseSimple (c : Codec) : List (BitVec 8) → Nat
  | [] => 0
  | a :: rest => if a = 1 ∧ optBits c ≠ 0 then parseSimple c rest + 1 else 0

/-- The rounds of `CompositeParse` (R141): the largest count any member takes, until none takes an
argument; the first argument bounds the rounds. -/
def parseRounds (members : List Codec) : Nat → List (BitVec 8) → Nat
  | 0, _ => 0
  | f + 1, args =>
    let m := (members.map fun k => parseSimple k args).foldl max 0
    if m = 0 then 0 else m + parseRounds members f (args.drop m)

/-- `parse_compression_options` over a list (R141). The host performs this loop, with one SETOPT for
each option; the block itself never runs it. -/
def parseOptions (c : Codec) (args : List (BitVec 8)) : Nat :=
  match codecMembers c with
  | [] => parseSimple c args
  | ms => parseRounds ms args.length args

/-- `SETOPT(codec, option)` (R140): option 1 is `-opt`, every other is unknown and consumes nothing. -/
def setoptCommand (option : BitVec 8) (c : Codec) (s : State) : Run Unit :=
  let bits := if option = 1 then optBits c else 0
  .ok () (endOk (if bits = 0 then 0 else 1) false noSub
    { s with host.ctrl := s.host.ctrl ||| bits })

/-- `CMD.SETOPT` (R140). -/
def execCmdSetopt (codec : BitVec 4) (option : BitVec 8) (s : State) :
    Host.Outcome State Fault Refusal :=
  settle (withCodec codec (commandStart s) (setoptCommand option))

end Sys2Proof.Machine
end

