-- ==== Sys2Proof/Machine/Header.lean ====
section
/-!
DEFINITION. The header tokens of spec/41_bitstream_parser.md R162, R163: `HDR.*` and `HDR.EXT`. That
byte 0 is the decoder's magic is the decoder's test (`decodeHeader`); a byte that is not is taken as
Invalid-data by the fetch (R162).
-/

namespace Sys2Proof.Machine

/-- Where a forward decoder goes once `DEC_SIZE` is known (R191, R221, R291, R317, R441). -/
def fwdBody : Fwd → Phase
  | .null => .nullBody
  | .lz10 => .lz10Body
  | .lz11 => .lz11Body
  | .rle => .rleBody
  | .huf4 => .treeSize .huf4
  | .huf8 => .treeSize .huf8

/-- The codec keeps a tree table, whose base the header's end is (R310, R311). -/
def fwdHasTree : Fwd → Bool
  | .huf4 | .huf8 => true
  | _ => false

/-- `TREE_BASE <- IN_POS` in the two Huffman decoders (R310). -/
def noteTreeBase (c : Fwd) (s : State) : State :=
  if fwdHasTree c then { s with work.treeBase := s.work.inPos } else s

/-- `ParseHeader(magic)` (R162) on a header whose 24-bit field is `n`: `DEC_SIZE` is `n`, or, when `n`
is 0, still 0 until the extension word gives it. R310 leaves `TREE_BASE` open until then; that it holds
the end of the four bytes is the model's (log entry 30). -/
def parseHeader (c : Fwd) (n : BitVec 24) (s : State) : Run Unit :=
  (consume 4 (beginToken s)).bind fun _ s =>
    .ok () (noteTreeBase c
      { s with work.decSize := headerLen n,
               seq.phase := if n = 0 then .ext c else fwdBody c })

/-- After the extension word the decoder of the codec goes on (R162). -/
def extDone (s : State) : State :=
  match s.seq.phase with
  | .ext c => noteTreeBase c { s with seq.phase := fwdBody c }
  | _ => s

/-- `HDR.NULL` (R440). -/
def execHdrNull (n : BitVec 24) (s : State) : Host.Outcome State Fault Refusal :=
  settle (parseHeader .null n s)

/-- `HDR.LZ10` (R190). -/
def execHdrLz10 (n : BitVec 24) (s : State) : Host.Outcome State Fault Refusal :=
  settle (parseHeader .lz10 n s)

/-- `HDR.LZ11` (R220). -/
def execHdrLz11 (n : BitVec 24) (s : State) : Host.Outcome State Fault Refusal :=
  settle (parseHeader .lz11 n s)

/-- `HDR.HUF4` (R310). -/
def execHdrHuf4 (n : BitVec 24) (s : State) : Host.Outcome State Fault Refusal :=
  settle (parseHeader .huf4 n s)

/-- `HDR.HUF8` (R311). -/
def execHdrHuf8 (n : BitVec 24) (s : State) : Host.Outcome State Fault Refusal :=
  settle (parseHeader .huf8 n s)

/-- `HDR.RLE` (R290). -/
def execHdrRle (n : BitVec 24) (s : State) : Host.Outcome State Fault Refusal :=
  settle (parseHeader .rle n s)

/-- `HDR.EXT` (R163): the 32-bit length. -/
def execHdrExt (n : BitVec 32) (s : State) : Host.Outcome State Fault Refusal :=
  settle ((consume 4 s).bind fun _ s => .ok () (extDone { s with work.decSize := n.toNat }))

end Sys2Proof.Machine
end

