-- ==== Sys2Proof/Machine/Lz.lean ====
section
/-!
DEFINITION. The tokens of the forward LZ decoders: spec/42_lz10.md R192 to R196 and spec/43_lz11.md
R222 to R227.
-/

namespace Sys2Proof.Machine

/-- A flag-byte token: `FLAGS <- InByte(); FLAG_CNT <- 8` (R166, R192, R222). -/
def flagsToken (f : Byte) (s : State) : Run Unit :=
  (consume 1 s).bind fun _ s => .ok () (loadFlags f s)

/-- A literal (R193, R223). -/
def literalToken (d : Byte) (s : State) : Run Unit :=
  (consume 1 s).bind fun _ s => outByteWin d s

/-- The displacement check, before any byte is copied (R196, R227). -/
def checkDisp (s : State) : Run Unit :=
  if s.work.outLen < s.work.tokD then .raised (.invalidData s.work.tokPos) s else .ok () s

/-- A back-reference of `n` bytes with length `l` and displacement `d` (R194, R227): all bytes are
read, then the displacement is judged, then the copy runs. -/
def refToken (n l d : Nat) (s : State) : Run Unit :=
  (consume n (beginToken s)).bind fun _ s =>
    (checkDisp { s with work.tokL := l, work.tokD := d }).bind fun _ s =>
      copyBack l d s

/-- `LZ10.FLAGS` (R192). -/
def execLz10Flags (f : Byte) (s : State) : Host.Outcome State Fault Refusal :=
  settle (flagsToken f s)

/-- `LZ10.LIT` (R193). -/
def execLz10Lit (d : Byte) (s : State) : Host.Outcome State Fault Refusal :=
  settle (literalToken d s)

/-- `LZ10.REF` (R194). -/
def execLz10Ref (len : BitVec 4) (disp : BitVec 12) (s : State) :
    Host.Outcome State Fault Refusal :=
  settle (refToken 2 (lzLen len) (lzDisp disp) s)

/-- `LZ11.FLAGS` (R222). -/
def execLz11Flags (f : Byte) (s : State) : Host.Outcome State Fault Refusal :=
  settle (flagsToken f s)

/-- `LZ11.LIT` (R223). -/
def execLz11Lit (d : Byte) (s : State) : Host.Outcome State Fault Refusal :=
  settle (literalToken d s)

/-- `LZ11.REF2` (R224). -/
def execLz11Ref2 (ind : BitVec 4) (disp : BitVec 12) (s : State) :
    Host.Outcome State Fault Refusal :=
  settle (refToken 2 (lz11Len2 ind) (lzDisp disp) s)

/-- `LZ11.REF3` (R225). -/
def execLz11Ref3 (len : BitVec 8) (disp : BitVec 12) (s : State) :
    Host.Outcome State Fault Refusal :=
  settle (refToken 3 (lz11Len3 len) (lzDisp disp) s)

/-- `LZ11.REF4` (R226). -/
def execLz11Ref4 (len : BitVec 16) (disp : BitVec 12) (s : State) :
    Host.Outcome State Fault Refusal :=
  settle (refToken 4 (lz11Len4 len) (lzDisp disp) s)

end Sys2Proof.Machine
end

