-- ==== Sys2Proof/Machine/Overlay.lean ====
section
/-!
DEFINITION. The LZ-Overlay decoder's tokens: spec/44_lz_overlay.md R251 to R261, R268, R269. `n` is
`DECL_LEN`; the region is read downward.
-/

namespace Sys2Proof.Machine

/-- The entry tests of R251, in the order of R471 (e), and the four reads of `extraSize`. -/
def ovlEntry (s : State) : Run Unit :=
  if s.work.declLen < 4 then .raised (.notEnoughData 0 0) s
  else if s.env.srcLen < s.work.declLen then .raised .streamTooShort s
  else portAccesses 4 s

/-- The `D = 2` substitution and the strict mode (R268, R269): what displacement runs, if any. -/
def ovlEffDisp (d : Nat) (s : State) : Option Nat :=
  if d ≤ s.ovl.w then some d
  else if 2 ≤ s.ovl.w ∧ ctrlOvlStrict s.host.ctrl = false then some 2
  else none

/-- `OVL.TRAILER0` (R252): the file but for its last four bytes is copied through, and the decode
ends. -/
def execOvlTrailer0 (s : State) : Host.Outcome State Fault Refusal :=
  settle ((ovlEntry s).bind fun _ s =>
    (copyThrough (s.work.declLen - 4) 0 { s with ovl.extra := 0 }).bind fun _ s =>
      endDecode false s)

/-- Buffer and cursors (R255 to R257): OVLBUF holds the plain first part, the cursors stand one above
the region and one above the buffer, nothing of the region is written yet. -/
def ovlStart (s : State) : State :=
  let p := s.work.declLen - s.ovl.hs - s.ovl.cl
  let u := s.ovl.cl + s.ovl.extra
  { s with
    mem.ovlbuf := Memory.store 0 (Memory.range s.mem.imem 0 p) []
    ovl := { s.ovl with p := p, u := u, ip := p + s.ovl.cl, op := p + u, w := 0 }
    work.flagCnt := 0
    seq.phase := .ovlBody }

/-- `OVL.TRAILER` (R253 to R257). Each group of reads comes before the writes that follow from it; what a
port fault in the token leaves in the registers and in OVLBUF, which R46 leaves open, is the model's
(log entry 31). -/
def execOvlTrailer (cl : BitVec 24) (hs : Byte) (extra : BitVec 32) (s : State) :
    Host.Outcome State Fault Refusal :=
  settle ((ovlEntry s).bind fun _ s =>
    let n := s.work.declLen
    let s := { s with ovl.extra := extra.toNat }
    if n < 8 then .raised (.invalidData (n - 4)) s
    else (portAccesses 4 s).bind fun _ s =>
      let s := { s with ovl.hs := hs.toNat, ovl.cl := cl.toNat }
      if trailerBad n hs.toNat cl.toNat then .raised (.invalidData (n - 8)) s
      else (portAccesses (n - hs.toNat - cl.toNat) s).bind fun _ s => .ok () (ovlStart s))

/-- `OVL.FLAGS` (R259). -/
def execOvlFlags (f : Byte) (s : State) : Host.Outcome State Fault Refusal :=
  settle ((rdBack s).bind fun _ s => .ok () (loadFlags f s))

/-- `OVL.LIT` (R260). -/
def execOvlLit (d : Byte) (s : State) : Host.Outcome State Fault Refusal :=
  settle ((rdBack s).bind fun _ s => .ok () (ovlPut d s))

/-- `OVL.REF` (R261, R268, R269). -/
def execOvlRef (len : BitVec 4) (disp : BitVec 12) (s : State) :
    Host.Outcome State Fault Refusal :=
  settle ((rdBackRef s).bind fun _ s =>
      let s := { s with work.tokL := lzLen len, work.tokD := ovlDisp disp }
      match ovlEffDisp (ovlDisp disp) s with
      | none => .raised (.invalidData s.work.tokPos) s
      | some d => .ok () (ovlCopy (lzLen len) d { s with work.tokD := d }))

end Sys2Proof.Machine
end

