-- ==== Sys2Proof/Machine/Rle.lean ====
section
/-!
DEFINITION. The RLE decoder's tokens (spec/45_rle.md R291 to R293) and the NULL decoder's
(spec/49_composite_null.md R442).
-/

namespace Sys2Proof.Machine

/-- `RLE.RUN` (R292): flag byte and data byte are read, then the byte goes out `L` times, clamped. -/
def execRleRun (n : BitVec 7) (d : Byte) (s : State) : Host.Outcome State Fault Refusal :=
  settle ((rleFlag (rleRunLen n) s).bind fun _ s =>
    (consume 1 s).bind fun _ s => repeatOut (rleRunLen n) d s)

/-- `RLE.RAW` (R293): the flag byte is read, then raw bytes are read and written one by one, clamped;
a group cut short has written the bytes it could read (R472). -/
def execRleRaw (n : BitVec 7) (s : State) : Host.Outcome State Fault Refusal :=
  settle ((rleFlag (rleRawLen n) s).bind fun _ s => rawOut (rleRawLen n) s)

/-- `NULL.BYTE` (R442). -/
def execNullByte (d : Byte) (s : State) : Host.Outcome State Fault Refusal :=
  settle ((consume 1 s).bind fun _ s => outByte d s)

end Sys2Proof.Machine
end

