-- ==== Sys2Proof/Machine/Dispatch.lean ====
section
/-!
DEFINITION. The meaning of every instruction, one arm for each row of spec/opcode_table.json.
-/

namespace Sys2Proof.Machine

def exec (i : Instr) (s : State) : Host.Outcome State Fault Refusal :=
  match i with
  | .cmdSupports codec => Sys2Proof.Machine.execCmdSupports codec s
  | .cmdDecompress codec => Sys2Proof.Machine.execCmdDecompress codec s
  | .cmdCompress codec => Sys2Proof.Machine.execCmdCompress codec s
  | .cmdSetopt codec option => Sys2Proof.Machine.execCmdSetopt codec option s
  | .hdrNull n => Sys2Proof.Machine.execHdrNull n s
  | .hdrLz10 n => Sys2Proof.Machine.execHdrLz10 n s
  | .hdrLz11 n => Sys2Proof.Machine.execHdrLz11 n s
  | .hdrHuf4 n => Sys2Proof.Machine.execHdrHuf4 n s
  | .hdrHuf8 n => Sys2Proof.Machine.execHdrHuf8 n s
  | .hdrRle n => Sys2Proof.Machine.execHdrRle n s
  | .hdrExt n => Sys2Proof.Machine.execHdrExt n s
  | .lz10Flags f => Sys2Proof.Machine.execLz10Flags f s
  | .lz10Lit d => Sys2Proof.Machine.execLz10Lit d s
  | .lz10Ref len disp => Sys2Proof.Machine.execLz10Ref len disp s
  | .lz11Flags f => Sys2Proof.Machine.execLz11Flags f s
  | .lz11Lit d => Sys2Proof.Machine.execLz11Lit d s
  | .lz11Ref2 ind disp => Sys2Proof.Machine.execLz11Ref2 ind disp s
  | .lz11Ref3 len disp => Sys2Proof.Machine.execLz11Ref3 len disp s
  | .lz11Ref4 len disp => Sys2Proof.Machine.execLz11Ref4 len disp s
  | .ovlTrailer0 => Sys2Proof.Machine.execOvlTrailer0 s
  | .ovlTrailer cl hs extra => Sys2Proof.Machine.execOvlTrailer cl hs extra s
  | .ovlFlags f => Sys2Proof.Machine.execOvlFlags f s
  | .ovlLit d => Sys2Proof.Machine.execOvlLit d s
  | .ovlRef len disp => Sys2Proof.Machine.execOvlRef len disp s
  | .rleRun n d => Sys2Proof.Machine.execRleRun n d s
  | .rleRaw n => Sys2Proof.Machine.execRleRaw n s
  | .hufTsize b => Sys2Proof.Machine.execHufTsize b s
  | .hufTable root => Sys2Proof.Machine.execHufTable root s
  | .hufNode leaf0 leaf1 offset => Sys2Proof.Machine.execHufNode leaf0 leaf1 offset s
  | .hufWord w => Sys2Proof.Machine.execHufWord w s
  | .hufBit b => Sys2Proof.Machine.execHufBit b s
  | .hufLeaf8 b => Sys2Proof.Machine.execHufLeaf8 b s
  | .hufLeaf4 b => Sys2Proof.Machine.execHufLeaf4 b s
  | .nullByte d => Sys2Proof.Machine.execNullByte d s

end Sys2Proof.Machine
end

