-- ==== Sys2Proof/Machine/Fetch.lean ====
section
/-!
DEFINITION. What a step does next: the next token of the running decoder, the end of its loop, or the
host's next action. The sequence is that of the decoder loops R191, R221, R251, R258, R291, R317 and
R441 (spec/30_encoding.md R105); nothing here executes a token.
-/

namespace Sys2Proof.Machine

/-- What comes next: an instruction and the state it runs in, or a piece that is no instruction (the
end of a decode, an error in reading a token, a host action, or nothing). -/
inductive Fetched where
  | instr (i : Instr) (s : State)
  | piece (r : Run Unit)
deriving DecidableEq, Repr

/-- The bytes a forward decoder can still read, at most four: no token's own encoding is longer. -/
def readable (s : State) : List Byte :=
  Memory.range s.mem.imem s.work.inPos
    (min 4 (min s.work.declLen s.env.srcLen - s.work.inPos))

/-- The bytes the LZ-Overlay decoder can still read, downward, at most two. -/
def readableBack (s : State) : List Byte :=
  (Memory.range s.mem.imem (s.ovl.ip - min 2 (s.ovl.ip - s.ovl.p))
    (min 2 (s.ovl.ip - s.ovl.p))).reverse

/-- The token of a place records where it begins, before its first byte is read (R162, R194, R221). -/
def marksPos : Place → Bool
  | .header _ | .lz10Block true | .lz11Block true => true
  | _ => false

/-- The reads of a forward token that the stream cuts short, up to the missing byte, with the token
registers its rule writes between them: they end in `InByte`'s error (R63, R65). -/
def cutToken (p : Place) (s : State) : Run Unit :=
  match p, readable s with
  | .rleGroup, [] => consume 1 (beginToken s)
  | .rleGroup, f :: _ =>
    (rleFlag (rleRunLen (f.extractLsb' 0 7)) s).bind fun _ s => consume 1 s
  | p, bs => consume (bs.length + 1) (if marksPos p then beginToken s else s)

/-- A forward token at `IN_POS`. If the stream ends in it, the reads up to the missing byte are made,
and that read raises what `InByte` raises (R63, R65). A byte 0 that is not the magic is Invalid-data
at the token's position, once it is read (R162, R471 (c)). -/
def fetchForward (p : Place) (s : State) : Fetched :=
  match decode p (readable s) with
  | .instr i => .instr i s
  | .rejected (.badMagic _) =>
    .piece ((consume 1 (beginToken s)).bind fun _ t => .raised (.invalidData t.work.tokPos) t)
  | .rejected _ => .piece (cutToken p s)

/-- The reads of a token of the LZ-Overlay region that the region cuts short: they end in `RdBack`'s
error (R257, R261, R271). -/
def cutBack (p : Place) (s : State) : Run Unit :=
  match p with
  | .ovlBlock true => rdBackRef s
  | _ => (rdBack s).bind fun _ s => .ok () s

/-- A token of the LZ-Overlay region, read downward from `OVL_IP` (R257). -/
def fetchBack (p : Place) (s : State) : Fetched :=
  match decode p (readableBack s) with
  | .instr i => .instr i s
  | .rejected _ => .piece (cutBack p s)

/-- `LE32(IMEM, n - 4)` (R251). -/
def trailerExtra (s : State) : BitVec 32 :=
  let n := s.work.declLen
  le32 (Memory.read (n - 4) s.mem.imem) (Memory.read (n - 3) s.mem.imem)
    (Memory.read (n - 2) s.mem.imem) (Memory.read (n - 1) s.mem.imem)

/-- The trailer (R251, R253): the last bytes of the declared range, once the whole range is known to
be there. -/
def fetchTrailer (s : State) : Fetched :=
  let n := s.work.declLen
  if n < 4 then .piece (.raised (.notEnoughData 0 0) s)
  else if s.env.srcLen < n then .piece (.raised .streamTooShort s)
  else
    match decode .ovlTrailer (Memory.range s.mem.imem (n - min n 8) (min n 8)) with
    | .instr i => .instr i s
    | .rejected _ => .piece ((portAccesses 4 s).bind fun _ s =>
      .raised (.invalidData (n - 4)) { s with ovl.extra := (trailerExtra s).toNat })

/-- A byte of TREE, read as a node or as a leaf (R318). -/
def fetchTree (p : Place) (a : Nat) (s : State) : Fetched :=
  match decode p [Memory.read a s.mem.tree] with
  | .instr i => .instr i s
  | .rejected _ => .piece (.ok () s)

/-- The next token of a forward LZ decoder: a flag byte when none is left, else the block the next
flag chooses (R166, R191, R221). -/
def fetchLz (flagsPlace : Place) (blockPlace : Bool → Place) (s : State) : Fetched :=
  if s.work.flagCnt = 0 then fetchForward flagsPlace s
  else fetchForward (blockPlace (nextFlagMsb s)) (dropFlagMsb s)

/-- The next token of the LZ-Overlay region (R167, R258). -/
def fetchOvl (s : State) : Fetched :=
  if s.work.flagCnt = 0 then fetchBack .ovlFlags s
  else fetchBack (.ovlBlock (nextFlagLsb s)) (dropFlagLsb s)

/-- `NextBit` (R168): a bit word when none is left, else the next bit. -/
def fetchBit (s : State) : Fetched :=
  if s.work.bitCnt = 0 then fetchForward .hufWord s
  else .instr (.hufBit (nextBit s)) (dropBit s)

/-- The head of a forward decoder's loop: `while OUT_LEN < DEC_SIZE`, then `Finish()`. -/
def fetchLoop (next : State → Fetched) (s : State) : Fetched :=
  if s.work.outLen < s.work.decSize then next s else .piece (finishForward s)

/-- A command word written to `CMD` (R91, R130). An illegal `OP` is a command all the same: it starts
and ends with UNSUPPORTED (R142). -/
def fetchCommand (w : Word32) (s : State) : Fetched :=
  match decodeCmd w with
  | .instr i => .instr i s
  | .rejected _ => .piece (.raised .unsupported (commandStart s))

/-- A host action that is no command (R32, R37, R510, R511, R513). -/
def hostAct (a : HostAction) (s : State) : State :=
  match a with
  | .writeCmd w => { s with host.cmd := w }
  | .writeArgLen v => { s with host.argLen := v }
  | .writeCtrl v => { s with host.ctrl := ctrlWrite v }
  | .loadInput bytes =>
    { s with mem.imem := Memory.store 0 bytes [], env.srcLen := bytes.length }
  | .emptyOutput => { s with mem.omem := [] }
  | .setIoFault k => { s with env.ioFault := k }
  | .setHuf8Order o => { s with env.huf8Order := o }
  | .reset =>
    { State.reset with
      env := s.env
      mem := { Mems.reset with imem := s.mem.imem, omem := s.mem.omem } }

/-- Between commands the host's next action is taken; a write of `CMD` starts a command; with none
pending the block holds still (R46, R130, R494). -/
def fetchHost (s : State) : Fetched :=
  match s.env.hostQ with
  | [] => .piece (.ok () s)
  | a :: q =>
    let s := hostAct a { s with env.hostQ := q }
    match a with
    | .writeCmd w => fetchCommand w s
    | _ => .piece (.ok () s)

/-- What the block does next. -/
def fetch (s : State) : Fetched :=
  match s.seq.phase with
  | .idle => fetchHost s
  | .header c => fetchForward (.header c) s
  | .ext _ => fetchForward .ext s
  | .nullBody => fetchLoop (fetchForward .nullByte) s
  | .lz10Body => fetchLoop (fetchLz .lz10Flags .lz10Block) s
  | .lz11Body => fetchLoop (fetchLz .lz11Flags .lz11Block) s
  | .rleBody => fetchLoop (fetchForward .rleGroup) s
  | .treeSize _ => fetchForward .hufSize s
  | .treeTable _ => fetchForward .hufTable s
  | .node _ => fetchLoop (fun s => fetchTree .hufNode s.work.nodePos s) s
  | .bit _ => fetchBit s
  | .leaf k => fetchTree (.hufLeaf k) s.seq.leafPos s
  | .ovlTrailer => fetchTrailer s
  | .ovlBody => if s.ovl.w < s.ovl.u then fetchOvl s else .piece (flushOvl s)

/-! ### Putting a word where the next step fetches it -/

/-- How many bytes of input follow a stored token, all zero: the payload of the longest one. -/
def storedTail : Nat := 512

/-- A forward token at `IN_POS`, with room declared and delivered for it and for a payload of zeros,
and the decoder's loop still running. -/
def storeForward (ph : Phase) (bs : List Byte) (s : State) : State :=
  let stop := s.work.inPos + storedTail
  { s with
    mem.imem :=
      Memory.store s.work.inPos (bs ++ List.replicate (storedTail - bs.length) 0) s.mem.imem
    env.srcLen := max s.env.srcLen stop
    work.declLen := max s.work.declLen stop
    work.decSize := max s.work.decSize (s.work.outLen + 1)
    seq.phase := ph }

/-- The flag register as it stands before a block under this flag, for either reading order. -/
def withFlag (flag : Bool) (s : State) : State :=
  { s with work.flags := if flag then 0xFF else 0, work.flagCnt := 8 }

/-- A token of the LZ-Overlay region, downward from `OVL_IP`, the region loop still running. -/
def storeBack (bs : List Byte) (s : State) : State :=
  let ip := max s.ovl.ip (s.ovl.p + bs.length)
  { s with
    mem.imem := Memory.store (ip - bs.length) bs.reverse s.mem.imem
    ovl.ip := ip
    ovl.u := max s.ovl.u (s.ovl.w + 1)
    seq.phase := .ovlBody }

/-- A trailer in the last bytes of the declared range. -/
def storeTrailer (bs : List Byte) (s : State) : State :=
  let n := max s.work.declLen bs.length
  { s with
    mem.imem := Memory.store (n - bs.length) bs s.mem.imem
    env.srcLen := max s.env.srcLen n
    work.declLen := n
    seq.phase := .ovlTrailer }

/-- A word stored at a place, with all the fetch at that place needs. -/
def storeAt (p : Place) (bs : List Byte) (w : Nat) (s : State) : State :=
  match p with
  | .cmd =>
    { s with env.hostQ := .writeCmd (BitVec.ofNat 32 w) :: s.env.hostQ, seq.phase := .idle }
  | .header c => storeForward (.header c) bs s
  | .ext => storeForward (.ext .lz10) bs s
  | .lz10Flags => storeForward .lz10Body bs { s with work.flagCnt := 0 }
  | .lz10Block f => storeForward .lz10Body bs (withFlag f s)
  | .lz11Flags => storeForward .lz11Body bs { s with work.flagCnt := 0 }
  | .lz11Block f => storeForward .lz11Body bs (withFlag f s)
  | .ovlTrailer => storeTrailer bs s
  | .ovlFlags => storeBack bs { s with work.flagCnt := 0 }
  | .ovlBlock f => storeBack bs (withFlag f s)
  | .rleGroup => storeForward .rleBody bs s
  | .hufSize => storeForward (.treeSize .huf8) bs s
  | .hufTable => storeForward (.treeTable .huf8) bs s
  | .hufNode =>
    { s with mem.tree := Memory.store s.work.nodePos bs s.mem.tree,
             work.decSize := max s.work.decSize (s.work.outLen + 1),
             seq.phase := .node .huf8 }
  | .hufWord => storeForward (.bit .huf8) bs { s with work.bitCnt := 0 }
  | .hufBit =>
    { s with work.bitbuf := if w % 2 = 1 then 0xFFFFFFFF else 0, work.bitCnt := 32,
             seq.phase := .bit .huf8 }
  | .hufLeaf k =>
    { s with mem.tree := Memory.store s.seq.leafPos bs s.mem.tree, seq.phase := .leaf k }
  | .nullByte => storeForward .nullBody bs s

/-- A table word stored where the next step fetches it (log entries 6, 11). -/
def placeWord (s : State) (nbits w : Nat) : State :=
  match wordPlace nbits w with
  | none => s
  | some p => storeAt p (wordBytes p nbits w) w s

end Sys2Proof.Machine
end

