-- ==== Sys2Proof/Machine/Step.lean ====
section
/-!
DEFINITION. One step: the next token, command, host action or end of a decode ("the model's step is a
token or a command", spec/70_reset_and_hazards.md R530; log entry 5).
-/

namespace Sys2Proof.Machine

/-- One step of the block. -/
def step (s : State) : Host.Outcome State Fault Refusal :=
  match fetch s with
  | .instr i t => exec i t
  | .piece r => settle r

/-- The instruction of a table word stored where `step` fetches its next instruction. -/
def State.withFetchWord (s : State) (nbits w : Nat) : State :=
  Sys2Proof.Machine.placeWord s nbits w

end Sys2Proof.Machine
end

