-- ==== Sys2Proof/Safety.lean ====
section
/-!
DEFINITION. The terms claims about the block are stated in: what it takes for a token's bytes to be
there, what it means that bytes were stored or appended, the port accesses it makes, the response after
an error, the invariants a safe run keeps, what a serialized table holds, and the expansion of a token
list. Nothing here is part of the machine.
-/

namespace Sys2Proof.Machine

/-! ### Reading and storing -/

/-- The next `n` bytes are declared and delivered and no port fault is due, so that `n` uses of
`InByte` succeed (spec/20_memory.md R63, R78). -/
def Readable (n : Nat) (s : State) : Prop :=
  s.work.inPos + n ≤ s.work.declLen ∧ s.work.inPos + n ≤ s.env.srcLen ∧ s.env.ioFault = none

/-- `m'` is `m` with the bytes `bs` at `a`, `a + 1`, ..; every other address reads as before. -/
def Stored (m m' : Memory) (a : Nat) (bs : List Byte) : Prop :=
  ∀ x, Memory.read x m' =
    if a ≤ x ∧ x < a + bs.length then bs.getD (x - a) 0 else Memory.read x m

/-- The space a run's `OutByte` goes to: OMEM, or CBUF in a trial run (spec/49_composite_null.md
R425). -/
def sinkOf (s : State) : Memory :=
  match s.seq.trial with
  | none => s.mem.omem
  | some _ => s.mem.cbuf

/-- From `s` to `t` the bytes `bs` were appended to the output (R66): stored in the run's sink from
`OUT_LEN` on, the other sink untouched. -/
def Appended (s t : State) (bs : List Byte) : Prop :=
  t.work.outLen = s.work.outLen + bs.length ∧
  match s.seq.trial with
  | none => Stored s.mem.omem t.mem.omem s.work.outLen bs ∧ t.mem.cbuf = s.mem.cbuf
  | some _ => Stored s.mem.cbuf t.mem.cbuf s.work.outLen bs ∧ t.mem.omem = s.mem.omem

/-- WIN holds the last 4096 bytes written (spec/10_state.md R41): it equals the output at every
index a back-reference can reach. -/
def WinCoherent (s : State) : Prop :=
  ∀ i, i < s.work.outLen → s.work.outLen ≤ i + Config.winSize →
    Memory.read (i % Config.winSize) s.mem.win = Memory.read i (sinkOf s)

/-- How many bytes a block of length `l` appends: the clamp at `DEC_SIZE` (R68). -/
def clamped (l : Nat) (s : State) : Nat := min l (s.work.decSize - s.work.outLen)

/-- How many bytes the token takes that begins at a forward decoder's place, by its encoding: headers
and the extension word (R92, R93), the table after its size byte (R313), a bit word (R99), an RLE group
without its raw bytes (R98), a back-reference chosen by the flag (R95, R96), any other byte. -/
def tokenBytes (s : State) : Nat :=
  let first := Memory.read s.work.inPos s.mem.imem
  let isRef := s.work.flagCnt ≠ 0 ∧ s.work.flags.getLsbD 7 = true
  match s.seq.phase with
  | .header _ | .ext _ => 4
  | .treeTable _ => s.work.treeLen - 1
  | .bit _ => 4
  | .rleBody => if first.getLsbD 7 then 2 else 1
  | .lz10Body => if isRef then 2 else 1
  | .lz11Body =>
    if isRef then
      if first.toNat / 16 = 0 then 3 else if first.toNat / 16 = 1 then 4 else 2
    else 1
  | _ => 1

/-- The token at a forward place records where it begins (R162, R194, R221, R291). -/
def RecordsItsPlace (s : State) : Prop :=
  (∃ c, s.seq.phase = .header c) ∨ s.seq.phase = .rleBody ∨
  ((s.seq.phase = .lz10Body ∨ s.seq.phase = .lz11Body) ∧ s.work.flagCnt ≠ 0 ∧
    s.work.flags.getLsbD 7 = true)

/-! ### Port accesses (R78; log entry 7) -/

/-- How many bytes of input a token reads, one port access each: by `InByte` (R63), by `RdBack` (R257),
or by index in the LZ-Overlay trailers (R251 to R253, R256). -/
def bytesRead (i : Instr) (s : State) : Nat :=
  match i with
  | .hdrNull _ | .hdrLz10 _ | .hdrLz11 _ | .hdrHuf4 _ | .hdrHuf8 _ | .hdrRle _ | .hdrExt _
  | .hufWord _ => 4
  | .lz10Flags _ | .lz10Lit _ | .lz11Flags _ | .lz11Lit _ | .nullByte _ | .hufTsize _
  | .ovlFlags _ | .ovlLit _ => 1
  | .lz10Ref _ _ | .lz11Ref2 _ _ | .ovlRef _ _ | .rleRun _ _ => 2
  | .lz11Ref3 _ _ => 3
  | .lz11Ref4 _ _ => 4
  | .rleRaw n => 1 + clamped (n.toNat + 1) s
  | .hufTable _ => 1 + (s.work.treeLen - 2)
  | .ovlTrailer0 => s.work.declLen
  | .ovlTrailer cl hs _ =>
    8 + (if 8 ≤ hs.toNat then s.work.declLen - hs.toNat - cl.toNat else 0)
  | .hufNode _ _ _ | .hufBit _ | .hufLeaf8 _ | .hufLeaf4 _ => 0
  | .cmdSupports _ | .cmdDecompress _ | .cmdCompress _ | .cmdSetopt _ _ => 0

/-- How many bytes of output a token writes (R66, R68). -/
def bytesWritten (i : Instr) (s : State) : Nat :=
  let ref (l d : Nat) := if d ≤ s.work.outLen then clamped l s else 0
  match i with
  | .lz10Lit _ | .lz11Lit _ | .nullByte _ | .hufLeaf8 _ => 1
  | .lz10Ref len disp => ref (len.toNat + 3) (disp.toNat + 1)
  | .lz11Ref2 ind disp => ref (ind.toNat + 1) (disp.toNat + 1)
  | .lz11Ref3 len disp => ref (len.toNat + 0x11) (disp.toNat + 1)
  | .lz11Ref4 len disp => ref (len.toNat + 0x111) (disp.toNat + 1)
  | .rleRun n _ => clamped (n.toNat + 3) s
  | .rleRaw n => clamped (n.toNat + 1) s
  | .hufLeaf4 b => if b.toNat < 16 ∧ s.work.nibValid = true then 1 else 0
  | .ovlTrailer0 => s.work.declLen - 4
  | _ => 0

/-- How many port accesses a token makes: in a trial run its output goes to CBUF, which is no port. -/
def accesses (i : Instr) (s : State) : Nat :=
  bytesRead i s + (if s.seq.trial = none then bytesWritten i s else 0)

/-- Every byte a token reads is declared and delivered (R63, R251), or in the region (R257). -/
def BytesThere (i : Instr) (s : State) : Prop :=
  match i with
  | .ovlTrailer0 => 4 ≤ s.work.declLen ∧ s.work.declLen ≤ s.env.srcLen
  | .ovlTrailer _ _ _ => 8 ≤ s.work.declLen ∧ s.work.declLen ≤ s.env.srcLen
  | .ovlFlags _ | .ovlLit _ | .ovlRef _ _ => s.ovl.p + bytesRead i s ≤ s.ovl.ip
  | _ => s.work.inPos + bytesRead i s ≤ s.work.declLen ∧
      s.work.inPos + bytesRead i s ≤ s.env.srcLen

/-! ### The response registers after an error (R460, R470) -/

/-- After NOT_ENOUGH_DATA with the bytes written and the bytes expected (R462). -/
def afterNotEnough (written expected : Nat) (h : HostRegs) : HostRegs :=
  { h with
    status := 0x06, resultLen := 0, errPos := 0, errWritten := written, errExpected := expected,
    lastSub := 0xF }

/-- After STREAM_TOO_SHORT (R463). -/
def afterTooShort (h : HostRegs) : HostRegs :=
  { h with
    status := 0x0A, resultLen := 0, errPos := 0, errWritten := 0, errExpected := 0, lastSub := 0xF }

/-- After IO_ERROR (R469). -/
def afterIoError (h : HostRegs) : HostRegs :=
  { h with
    status := 0x16, resultLen := 0, errPos := 0, errWritten := 0, errExpected := 0, lastSub := 0xF }

/-- After INVALID_DATA at an offset (R465). -/
def afterInvalid (pos : Nat) (h : HostRegs) : HostRegs :=
  { h with
    status := 0x0E, resultLen := 0, errPos := pos, errWritten := 0, errExpected := 0,
    lastSub := 0xF }

/-! ### Running -/

/-- `k` steps of the block lead from `s` to `t`, none of them stopping. -/
def Runs (k : Nat) (s t : State) : Prop := Host.Core.run Sys2Proof.core k s = .next t

/-- The instruction is a stream token, not a host command (R2). -/
def isToken : Instr → Bool
  | .cmdSupports _ | .cmdDecompress _ | .cmdCompress _ | .cmdSetopt _ _ => false
  | _ => true

/-! ### Invariants -/

/-- Every memory is in its canonical form. -/
def MemInv (s : State) : Prop :=
  Memory.wf s.mem.imem = true ∧ Memory.wf s.mem.omem = true ∧ Memory.wf s.mem.win = true ∧
  Memory.wf s.mem.tree = true ∧ Memory.wf s.mem.ovlbuf = true ∧ Memory.wf s.mem.cbuf = true

/-- A legal `STATUS` word (R33): reserved bits 0, `STATE` not 3, `ERR` at most 6, `TMI` only with
`ERR` = 0. -/
def StatusLegal (w : BitVec 32) : Prop :=
  w.extractLsb' 7 25 = 0 ∧ statusState w ≠ 3 ∧ (statusErr w).toNat ≤ 6 ∧
  (statusTmi w = true → statusErr w = 0)

/-- The codecs that can be tried in a composite (R424). -/
def trialMembers : List Codec := [.huf4, .huf8, .lz10, .lz11]

/-- The control part of the state is one a command can leave or run in: R32, R33, R34, R35, R36. -/
structure ControlInv (s : State) : Prop where
  /-- `STATUS` is legal. -/
  status : StatusLegal s.host.status
  /-- `STATE` is BUSY exactly while a decoder runs. -/
  busy : statusState s.host.status = stateBusy ↔ s.seq.phase ≠ .idle
  /-- No trial run is left when no command runs. -/
  noTrial : s.seq.phase = .idle → s.seq.trial = none
  /-- Only members of the built-in composites are tried. -/
  members : ∀ tr, s.seq.trial = some tr → ∀ k ∈ tr.member :: tr.rest, k ∈ trialMembers
  /-- `CTRL[31:4]` reads as 0. -/
  ctrl : s.host.ctrl.extractLsb' 4 28 = 0
  /-- After an error `RESULT_LEN` is 0 and `LAST_SUB` none. -/
  failed : statusErr s.host.status ≠ 0 → s.host.resultLen = 0 ∧ s.host.lastSub = noSub
  /-- `ERR_POS` is written with INVALID_DATA only. -/
  errPos : s.host.errPos ≠ 0 → statusErr s.host.status = 3
  /-- `ERR_WRITTEN` and `ERR_EXPECTED` are written with NOT_ENOUGH_DATA only. -/
  errInfo : s.host.errWritten ≠ 0 ∨ s.host.errExpected ≠ 0 → statusErr s.host.status = 1
  /-- `LAST_SUB` is none or the id of a member of a composite. -/
  lastSub : s.host.lastSub = noSub ∨ ∃ k ∈ trialMembers, s.host.lastSub = codecId k

/-- TREE is the table as it stands in IMEM (R314), its first `n` bytes. -/
def TreeCopied (n : Nat) (s : State) : Prop :=
  ∀ p, p < n → Memory.read p s.mem.tree = Memory.read (s.work.treeBase + p) s.mem.imem

/-- The Huffman walk stands inside a table that was read whole (R314, R318). -/
def WalkInv (s : State) : Prop :=
  (s.work.treeBase = 4 ∨ s.work.treeBase = 8) ∧ 2 ≤ s.work.treeLen ∧
  s.work.treeBase + s.work.treeLen ≤ s.work.inPos ∧ s.work.inPos ≤ s.work.declLen ∧
  TreeCopied s.work.treeLen s ∧ 1 ≤ s.work.nodePos ∧ s.work.nodePos < s.work.treeLen

/-- The LZ-Overlay cursors are inside region and buffer (R254 to R257). -/
def OvlInv (s : State) : Prop :=
  s.work.outLen = 0 ∧ 8 ≤ s.ovl.hs ∧ s.ovl.p + s.ovl.cl + s.ovl.hs = s.work.declLen ∧
  s.work.declLen ≤ s.env.srcLen ∧ s.ovl.u = s.ovl.cl + s.ovl.extra ∧
  s.ovl.p ≤ s.ovl.ip ∧ s.ovl.ip ≤ s.ovl.p + s.ovl.cl ∧
  s.ovl.w ≤ s.ovl.u ∧ s.ovl.op + s.ovl.w = s.ovl.p + s.ovl.u

/-- What holds at each place of a running decoder. -/
def PhaseInv (s : State) : Prop :=
  match s.seq.phase with
  | .idle => True
  | .header _ => s.work.inPos = 0 ∧ s.work.outLen = 0 ∧ s.work.decSize = 0
  | .ext _ =>
    s.work.inPos = 4 ∧ s.work.inPos ≤ s.work.declLen ∧ s.work.outLen = 0 ∧ s.work.decSize = 0
  | .nullBody | .rleBody => s.work.inPos ≤ s.work.declLen ∧ s.work.outLen ≤ s.work.decSize
  | .lz10Body | .lz11Body =>
    s.work.inPos ≤ s.work.declLen ∧ s.work.outLen ≤ s.work.decSize ∧ WinCoherent s
  | .treeSize _ =>
    s.work.inPos ≤ s.work.declLen ∧ s.work.outLen = 0 ∧
    s.work.inPos = s.work.treeBase ∧ (s.work.treeBase = 4 ∨ s.work.treeBase = 8)
  | .treeTable _ =>
    s.work.inPos ≤ s.work.declLen ∧ s.work.outLen = 0 ∧ 2 ≤ s.work.treeLen ∧
    s.work.inPos = s.work.treeBase + 1 ∧ (s.work.treeBase = 4 ∨ s.work.treeBase = 8) ∧
    TreeCopied 1 s
  | .node _ => s.work.outLen ≤ s.work.decSize ∧ WalkInv s
  | .bit _ =>
    s.work.outLen < s.work.decSize ∧ WalkInv s ∧
    s.seq.nodeByte = Memory.read s.work.nodePos s.mem.tree
  | .leaf _ =>
    s.work.outLen < s.work.decSize ∧ WalkInv s ∧ s.seq.leafPos < s.work.treeLen
  | .ovlTrailer => s.work.outLen = 0
  | .ovlBody => OvlInv s

/-- The working registers stay inside the widths of R21 and R29 and, while a decoder runs, where its
rules put them. -/
structure DecoderInv (s : State) : Prop where
  declLen : s.work.declLen < 2 ^ 32
  decSize : s.work.decSize < 2 ^ 32
  flagCnt : s.work.flagCnt ≤ 8
  bitCnt : s.work.bitCnt ≤ 32
  treeLen : s.work.treeLen ≤ 512
  tokL : s.work.tokL ≤ Config.lz11MaxLen
  tokD : s.work.tokD ≤ 4098
  hs : s.ovl.hs < 2 ^ 8
  cl : s.ovl.cl < 2 ^ 24
  extra : s.ovl.extra < 2 ^ 32
  place : PhaseInv s

/-! ### The serialized table (R380, R381) -/

/-- The byte at `pos` of a table is the one of node `c`: a leaf's symbol, or a node byte from which the
walk goes to the pair of `c`'s children, one above its index in `ORDER`, and knows which are leaves. -/
def TableHolds (order : List HTree) (table : List Byte) (pos : Nat) : HTree → Prop
  | .leaf _ x => table.getD pos 0 = BitVec.ofNat 8 x
  | .node id a b => ∀ bit : Bool,
    childPos pos (table.getD pos 0) bit =
      2 * orderIdx order (.node id a b) + 2 + (if bit then 1 else 0) ∧
    childIsLeaf (table.getD pos 0) bit = (if bit then b else a).isLeaf

/-! ### Token lists -/

/-- `l` bytes appended, each the byte `d` back from the end, in written order (R67). -/
def replay : Nat → Nat → List Byte → List Byte
  | 0, _, out => out
  | l + 1, d, out => replay l d (out ++ [out.getD (out.length - d) 0])

/-- What a token appends to the bytes written so far (R340). -/
def expandTok (out : List Byte) : LzTok → List Byte
  | .lit b => out ++ [b]
  | .ref l d => replay l d out

/-- The expansion of a token list (R340). -/
def expand (toks : List LzTok) : List Byte := toks.foldl expandTok []

/-- Every back-reference has `1 <= D <= min(4096, i)` and `3 <= L <= maxL`, `i` being the number of
bytes written when it is met (spec/47_match_finder.md R355 (a)). -/
def Bounded (maxL : Nat) : List LzTok → Nat → Prop
  | [], _ => True
  | .lit _ :: ts, i => Bounded maxL ts (i + 1)
  | .ref l d :: ts, i =>
    3 ≤ l ∧ l ≤ maxL ∧ 1 ≤ d ∧ d ≤ min Config.winSize i ∧ Bounded maxL ts (i + l)

/-- The bits a token list costs, flag bits included (R351). -/
def bitsOf (cost : Nat → Nat) : List LzTok → Nat
  | [] => 0
  | .lit _ :: ts => 9 + bitsOf cost ts
  | .ref l _ :: ts => cost l + bitsOf cost ts

end Sys2Proof.Machine
end

