-- ==== Sys2Proof/Certificates/Slice0/Obligations.lean ====
section
/-!
DEFINITION. The statements about the block. Each name says what it states; each docstring names the
rules of spec/ it rests on, and the log entries where a clause is the model's. `Readable`, `Stored`,
`Appended`, `clamped`, the invariants and `Runs` are defined in Sys2Proof/Safety.lean. That a command
leaves the bytes of OMEM it does not write as they were is the model's (log entry 13). What a
statement says of the working and overlay registers and of WIN, TREE, OVLBUF and CBUF once a command
has ended is the model's too (log entry 26).
-/

open Sys2Proof Sys2Proof.Machine

/-! ### Reset, commands -/

/-- R46: what reset leaves in every register whose value the rule gives, and that the block waits.
`CMD` is left out: its value at reset is the model's (log entry 2). R32, R37, R40, R511, R513: what the
host does between commands. A write of `ARG_LEN` is taken whole, a write of `CTRL` in bits 3:0 only; a
reset gives the values of R46 and leaves IMEM and OMEM, which are the host's; the bytes loaded stand in
IMEM and their number is `SRC_LEN`. That these come one by one from a queue, that a reset keeps the
inputs of the call, and that with nothing asked the block stays as it is, is the model's (log entries
4, 6, 15, 16, 21). -/
def Obligations.ResetAndHostActions : Prop :=
  (State.reset.host.argLen = 0 ∧ State.reset.host.ctrl = 0 ∧ State.reset.host.status = 0 ∧
    State.reset.host.resultLen = 0 ∧ State.reset.host.errPos = 0 ∧
    State.reset.host.errWritten = 0 ∧ State.reset.host.errExpected = 0 ∧
    State.reset.host.lastSub = 0xF ∧ State.reset.seq.phase = .idle) ∧
  ∀ (s : State) (q : List HostAction), s.seq.phase = .idle →
    (s.env.hostQ = [] → step s = .next s) ∧
    (∀ v, s.env.hostQ = .writeArgLen v :: q →
      step s = .next { s with host.argLen := v, env.hostQ := q }) ∧
    (∀ v, s.env.hostQ = .writeCtrl v :: q → ∃ t, step s = .next t ∧
      (∀ b < 32, t.host.ctrl.getLsbD b = (decide (b < 4) && v.getLsbD b)) ∧
      t = { s with host.ctrl := t.host.ctrl, env.hostQ := q }) ∧
    (∀ bytes, s.env.hostQ = .loadInput bytes :: q → ∃ t, step s = .next t ∧
      Stored [] t.mem.imem 0 bytes ∧
      t = { s with
        mem.imem := t.mem.imem, env.srcLen := bytes.length, env.hostQ := q }) ∧
    (s.env.hostQ = .emptyOutput :: q →
      step s = .next { s with mem.omem := [], env.hostQ := q }) ∧
    (∀ k, s.env.hostQ = .setIoFault k :: q →
      step s = .next { s with env.ioFault := k, env.hostQ := q }) ∧
    (∀ o, s.env.hostQ = .setHuf8Order o :: q →
      step s = .next { s with env.huf8Order := o, env.hostQ := q }) ∧
    (s.env.hostQ = .reset :: q → ∃ t, step s = .next t ∧
      t.host.argLen = 0 ∧ t.host.ctrl = 0 ∧ t.host.status = 0 ∧ t.host.resultLen = 0 ∧
      t.host.errPos = 0 ∧ t.host.errWritten = 0 ∧ t.host.errExpected = 0 ∧
      t.host.lastSub = 0xF ∧ t.seq.phase = .idle ∧
      t.mem.imem = s.mem.imem ∧ t.mem.omem = s.mem.omem ∧ t.env = { s.env with hostQ := q })

/-- R138, R139, R470: what a command start writes, what an end without error writes, and what an
error leaves outside a trial run; `CTRL` and `ARG_LEN` are kept by all three, and so is every
memory. That a command start leaves OMEM as it was is the model's (log entry 13), and so
is that start and end leave the working registers R138 does not name, the overlay registers and WIN,
TREE, OVLBUF and CBUF as they were (log entry 26, DESIGN CHOICE). -/
def Obligations.CommandStartAndEnd : Prop :=
  (∀ s : State,
    statusState (commandStart s).host.status = 1 ∧
    (commandStart s).work = { s.work with
      declLen := s.host.argLen.toNat, inPos := 0, outLen := 0, decSize := 0, flagCnt := 0,
      bitCnt := 0, nibValid := false, nodePos := 1 } ∧
    (commandStart s).host = { s.host with status := (commandStart s).host.status } ∧
    (commandStart s).mem = s.mem) ∧
  (∀ (n : Nat) (tmi : Bool) (sub : BitVec 4) (s : State),
    (endOk n tmi sub s).host = { s.host with
      status := if tmi then 0x42 else 0x02, resultLen := n, errPos := 0, errWritten := 0,
      errExpected := 0, lastSub := sub } ∧
    (endOk n tmi sub s).mem = s.mem ∧ (endOk n tmi sub s).seq.phase = .idle) ∧
  (∀ (e : Err) (s : State), s.seq.trial = none →
    (takeError e s).host = { s.host with
      status := match e with
        | .notEnoughData _ _ => 0x06
        | .streamTooShort => 0x0A
        | .invalidData _ => 0x0E
        | .inputTooLarge => 0x12
        | .ioError => 0x16
        | .unsupported => 0x1A
      resultLen := 0,
      errPos := match e with | .invalidData p => p | _ => 0,
      errWritten := match e with | .notEnoughData w _ => w | _ => 0,
      errExpected := match e with | .notEnoughData _ x => x | _ => 0,
      lastSub := 0xF } ∧
    (takeError e s).mem = s.mem ∧ (takeError e s).seq.phase = .idle ∧
    (takeError e s).work = s.work ∧ (takeError e s).ovl = s.ovl)

/-- R427, R475: an I/O error in a trial run ends the command; any other error of the one member whose
magic the stream has makes the composite raise Invalid-data at 0. -/
def Obligations.TrialErrorFailsTheComposite : Prop :=
  ∀ (s : State) (tr : Trial) (e : Err) (k : Codec) (f : Fwd),
    s.seq.trial = some tr → tr.member = k → (∀ x ∈ tr.rest, x ∈ trialMembers ∧ x ≠ k) →
    (k, f) ∈ [(.huf4, .huf4), (.huf8, .huf8), (.lz10, .lz10), (.lz11, .lz11)] →
    Memory.read 0 s.mem.imem = f.magic → s.env.ioFault = none →
    ∃ u, u.mem = s.mem ∧ u.host = s.host ∧
      takeError e s = if e = .ioError then failWith .ioError u else failWith (.invalidData 0) u

/-- R171, R425, R427, R430, R131, R191, R221, R291, R317, R441: the step at the head of a forward decoder's
loop with `DEC_SIZE` bytes written is `Finish`: outside a trial run it sets `RESULT_LEN` and `TMI` and
ends the command; in a trial run it commits the buffered output to OMEM and names the member. R258,
R272, R273: the step at the head of the region's loop with `OVL_U` bytes written puts the whole buffer
out and ends the command with `TMI` 0. What a step takes is the model's (log entry 5), and so is what
the scratch and the overlay registers hold once the command has ended (log entry 26). -/
def Obligations.FinishEndsTheDecode : Prop :=
  ∀ s : State, MemInv s → s.env.ioFault = none →
    ((s.seq.phase = .nullBody ∨ s.seq.phase = .rleBody ∨ s.seq.phase = .lz10Body ∨
        s.seq.phase = .lz11Body ∨ ∃ k, s.seq.phase = .node k) →
      s.work.decSize ≤ s.work.outLen →
      ∃ t sub, step s = .next t ∧ t.seq.phase = .idle ∧ t.seq.trial = none ∧
        (match s.seq.trial with
        | none => sub = 0xF
        | some tr => (tr.member, sub) ∈ ([(.null, 0), (.lz10, 1), (.lz11, 2), (.lzovl, 3),
            (.rle, 4), (.huf4, 5), (.huf8, 6), (.hufany, 8), (.gba, 9), (.nds, 10)] :
              List (Codec × BitVec 4))) ∧
        t.host = { s.host with
          status := if (s.work.inPos + 3) / 4 * 4 < s.work.declLen then 0x42 else 0x02,
          resultLen := s.work.outLen, errPos := 0, errWritten := 0, errExpected := 0,
          lastSub := sub } ∧
        match s.seq.trial with
        | none => t.mem = s.mem
        | some _ =>
          Stored s.mem.omem t.mem.omem 0 (Memory.range s.mem.cbuf 0 s.work.outLen) ∧
          t.mem = { s.mem with omem := t.mem.omem }) ∧
    (s.seq.phase = .ovlBody → s.seq.trial = none → s.work.outLen = 0 → s.ovl.u ≤ s.ovl.w →
      ∃ t, step s = .next t ∧ t.seq.phase = .idle ∧ t.seq.trial = none ∧
        Stored s.mem.omem t.mem.omem 0 (Memory.range s.mem.ovlbuf 0 (s.ovl.p + s.ovl.u)) ∧
        t.mem = { s.mem with omem := t.mem.omem } ∧ t.ovl = s.ovl ∧
        t.host = { s.host with
          status := 0x02, resultLen := s.ovl.p + s.ovl.u, errPos := 0, errWritten := 0,
          errExpected := 0, lastSub := 0xF })

/-- R203, R233, R298, R324, R132, R133: SUPPORTS of a codec known by its magic. -/
def Obligations.SupportsByMagic : Prop :=
  ∀ (id : BitVec 4) (c : Codec) (f : Fwd) (s : State), codecOfId id = some c →
    (c, f) ∈ [(.lz10, .lz10), (.lz11, .lz11), (.rle, .rle), (.huf4, .huf4), (.huf8, .huf8)] →
    s.env.ioFault = none →
    exec (.cmdSupports id) s = .next (endOk
      (if 4 ≤ s.host.argLen.toNat ∧ 0 < s.env.srcLen ∧ Memory.read 0 s.mem.imem = f.magic
        then 1 else 0) false 0xF (commandStart s))

/-- R443: SUPPORTS of NULL also compares the stated length with the declared one. -/
def Obligations.SupportsNull : Prop :=
  ∀ s : State, s.env.ioFault = none →
    exec (.cmdSupports 0) s = .next (endOk
      (if (4 ≤ s.host.argLen.toNat ∧ 4 ≤ s.env.srcLen ∧ Memory.read 0 s.mem.imem = 0 ∧
            le24 (Memory.read 1 s.mem.imem) (Memory.read 2 s.mem.imem)
              (Memory.read 3 s.mem.imem) ≠ 0 ∧
            s.host.argLen.toNat = 4 + (le24 (Memory.read 1 s.mem.imem)
              (Memory.read 2 s.mem.imem) (Memory.read 3 s.mem.imem)).toNat) ∨
          (8 ≤ s.host.argLen.toNat ∧ 8 ≤ s.env.srcLen ∧ Memory.read 0 s.mem.imem = 0 ∧
            le24 (Memory.read 1 s.mem.imem) (Memory.read 2 s.mem.imem)
              (Memory.read 3 s.mem.imem) = 0 ∧
            s.host.argLen.toNat = 8 + (le32 (Memory.read 4 s.mem.imem)
              (Memory.read 5 s.mem.imem) (Memory.read 6 s.mem.imem)
              (Memory.read 7 s.mem.imem)).toNat)
        then 1 else 0) false 0xF (commandStart s))

/-- R274: SUPPORTS of LZ-Overlay tests the trailer and, unlike the decoder, its padding. -/
def Obligations.SupportsOverlay : Prop :=
  ∀ (s : State) (n hs cl : Nat) (extra : BitVec 32), s.env.ioFault = none →
    n = s.host.argLen.toNat →
    extra = le32 (Memory.read (n - 4) s.mem.imem) (Memory.read (n - 3) s.mem.imem)
      (Memory.read (n - 2) s.mem.imem) (Memory.read (n - 1) s.mem.imem) →
    hs = (Memory.read (n - 5) s.mem.imem).toNat →
    cl = (le24 (Memory.read (n - 8) s.mem.imem) (Memory.read (n - 7) s.mem.imem)
      (Memory.read (n - 6) s.mem.imem)).toNat →
    exec (.cmdSupports 3) s = .next (endOk
      (if 4 ≤ n ∧ n ≤ s.env.srcLen ∧ (extra = 0 ∨
            (8 ≤ n ∧ 8 ≤ hs ∧ hs ≤ n ∧ hs + cl ≤ n ∧
              ∀ a < n - 8, n - hs ≤ a → Memory.read a s.mem.imem = 0xFF))
        then 1 else 0) false 0xF (commandStart s))

/-- R426: SUPPORTS of a composite is the OR over its members, which is a test of byte 0. -/
def Obligations.SupportsComposite : Prop :=
  ∀ (id : BitVec 4) (magics : List Byte) (s : State),
    (id, magics) ∈ ([(8, [0x24, 0x28]), (9, [0x24, 0x28, 0x10]),
      (10, [0x24, 0x28, 0x10, 0x11])] : List (BitVec 4 × List Byte)) →
    s.env.ioFault = none →
    exec (.cmdSupports id) s = .next (endOk
      (if 4 ≤ s.host.argLen.toNat ∧ 0 < s.env.srcLen ∧ Memory.read 0 s.mem.imem ∈ magics
        then 1 else 0) false 0xF (commandStart s))

/-- R134: DECOMPRESS of a simple codec starts its decoder from a fresh command start; nothing else
changes and SUPPORTS is not asked. That the command's step ends there, before any token, is the model's
(log entry 5, DEDUCED). -/
def Obligations.DecompressStartsTheDecoder : Prop :=
  ∀ (id : BitVec 4) (ph : Phase) (s : State),
    (id, ph) ∈ ([(0, .header .null), (1, .header .lz10), (2, .header .lz11), (3, .ovlTrailer),
      (4, .header .rle), (5, .header .huf4), (6, .header .huf8)] : List (BitVec 4 × Phase)) →
    exec (.cmdDecompress id) s = .next { commandStart s with seq.phase := ph }

/-- R436, R427: a composite DECOMPRESS is a jump on byte 0: the member with that magic gets a trial
run from a fresh command start into an empty CBUF, the members after it left to try, and where no
member has it the command fails with Invalid-data at 0. That the command's step ends where the trial
run begins is the model's (log entry 5, DEDUCED). -/
def Obligations.CompositeDispatchesOnByteZero : Prop :=
  ∀ (id : BitVec 4) (members : List (Codec × Fwd)) (s : State),
    (id, members) ∈ ([(8, [(.huf4, .huf4), (.huf8, .huf8)]),
      (9, [(.huf4, .huf4), (.huf8, .huf8), (.lz10, .lz10)]),
      (10, [(.huf4, .huf4), (.huf8, .huf8), (.lz10, .lz10), (.lz11, .lz11)])] :
        List (BitVec 4 × List (Codec × Fwd))) →
    s.env.ioFault = none →
    (∀ before k f after, members = before ++ (k, f) :: after →
      4 ≤ s.host.argLen.toNat → 0 < s.env.srcLen → Memory.read 0 s.mem.imem = f.magic →
      exec (.cmdDecompress id) s = .next { commandStart s with
        mem.cbuf := [], seq.trial := some ⟨k, after.map (·.1)⟩, seq.phase := .header f }) ∧
    ((s.host.argLen.toNat < 4 ∨ s.env.srcLen = 0 ∨
        ∀ kf ∈ members, Memory.read 0 s.mem.imem ≠ kf.2.magic) →
      exec (.cmdDecompress id) s = .next (failWith (.invalidData 0) (commandStart s)))

/-- R135, R198, R229, R295, R370, R444, R397: COMPRESS of a simple codec reads the plaintext and
writes its encoder's stream from OMEM index 0; only the 8-bit Huffman layout can fail, never the 4-bit
one, and before anything is written. -/
def Obligations.CompressWritesTheStream : Prop :=
  ∀ (id : BitVec 4) (s : State) (x : List Byte) (stream : Option (List Byte)),
    MemInv s → s.env.ioFault = none → s.host.argLen.toNat ≤ 0xFFFFFF →
    s.host.argLen.toNat ≤ s.env.srcLen →
    x = Memory.range s.mem.imem 0 s.host.argLen.toNat →
    (id, stream) ∈ ([(0, some (nullStream x)),
      (1, some (lz10Stream x (s.host.ctrl.getLsbD 0))),
      (2, some (lz11Stream x (s.host.ctrl.getLsbD 1))), (4, some (rleStream x)),
      (5, hufStream .huf4 none x), (6, hufStream .huf8 s.env.huf8Order x)] :
        List (BitVec 4 × Option (List Byte))) →
    (id ≠ 6 → stream ≠ none) ∧
    ∃ t, exec (.cmdCompress id) s = .next t ∧ t.seq.phase = .idle ∧
      t.mem = { s.mem with omem := t.mem.omem } ∧
      match stream with
      | some bytes =>
        Stored s.mem.omem t.mem.omem 0 bytes ∧
        t.host = { s.host with
          status := 0x02, resultLen := bytes.length, errPos := 0, errWritten := 0,
          errExpected := 0, lastSub := 0xF }
      | none =>
        t.mem.omem = s.mem.omem ∧
        t.host = { s.host with
          status := 0x0E, resultLen := 0, errPos := 0, errWritten := 0, errExpected := 0,
          lastSub := 0xF }

/-- R142, R467, R463, R471 (a): the refusals of COMPRESS and their order. UNSUPPORTED before the
lengths are looked at; then INPUT_TOO_LARGE, before any read or write, a due I/O fault or not; then
STREAM_TOO_SHORT. -/
def Obligations.CompressRefusesInOrder : Prop :=
  ∀ (id : BitVec 4) (c : Codec) (s : State), codecOfId id = some c →
    (c = .lzovl →
      exec (.cmdCompress id) s = .next (failWith .unsupported (commandStart s))) ∧
    (c ≠ .lzovl → 0xFFFFFF < s.host.argLen.toNat →
      exec (.cmdCompress id) s = .next (failWith .inputTooLarge (commandStart s))) ∧
    (c ≠ .lzovl → s.host.argLen.toNat ≤ 0xFFFFFF → s.env.srcLen < s.host.argLen.toNat →
      exec (.cmdCompress id) s = .next (failWith .streamTooShort (commandStart s)))

/-- R428, R429, R430: COMPRESS of a composite commits the smallest of the streams its members'
encoders give, the earlier member on a tie, and names it; a member that fails is skipped, and if all
fail the first failure is reported. -/
def Obligations.CompositeCommitsTheSmallest : Prop :=
  ∀ (id : BitVec 4) (c : Codec) (s : State), codecOfId id = some c → codecMembers c ≠ [] →
    MemInv s → s.env.ioFault = none → s.host.argLen.toNat ≤ 0xFFFFFF →
    s.host.argLen.toNat ≤ s.env.srcLen →
    ∃ t, exec (.cmdCompress id) s = .next t ∧ t.seq.phase = .idle ∧ t.seq.trial = none ∧
      t.mem = { s.mem with omem := t.mem.omem, cbuf := t.mem.cbuf } ∧
      ((∃ before k after bytes sub, codecMembers c = before ++ k :: after ∧
        (k, sub) ∈ ([(.huf4, 5), (.huf8, 6), (.lz10, 1), (.lz11, 2)] :
          List (Codec × BitVec 4)) ∧
        encodeStream k (commandStart s) = some bytes ∧
        (∀ j ∈ before, ∀ other, encodeStream j (commandStart s) = some other →
          bytes.length < other.length) ∧
        (∀ j ∈ after, ∀ other, encodeStream j (commandStart s) = some other →
          bytes.length ≤ other.length) ∧
        Stored s.mem.omem t.mem.omem 0 bytes ∧
        t.host = { s.host with
          status := 0x02, resultLen := bytes.length, errPos := 0, errWritten := 0,
          errExpected := 0, lastSub := sub }) ∨
       ((∀ j ∈ codecMembers c, encodeStream j (commandStart s) = none) ∧
        t.mem.omem = s.mem.omem ∧
        t.host = { s.host with
          status := 0x0E, resultLen := 0, errPos := 0, errWritten := 0, errExpected := 0,
          lastSub := 0xF }))

/-- R140: SETOPT sets the look-ahead bits of the codec, or of the LZ members of a composite, for
option 1, and claims nothing otherwise. -/
def Obligations.SetoptSetsLookahead : Prop :=
  ∀ (id : BitVec 4) (bits : BitVec 32) (option : BitVec 8) (s : State),
    (id, bits) ∈ ([(0, 0), (1, 1), (2, 2), (3, 4), (4, 0), (5, 0), (6, 0), (8, 0), (9, 1),
      (10, 3)] : List (BitVec 4 × BitVec 32)) →
    exec (.cmdSetopt id option) s = .next
      (if option = 1 ∧ bits ≠ 0 then
        endOk 1 false 0xF { commandStart s with host.ctrl := s.host.ctrl ||| bits }
      else endOk 0 false 0xF (commandStart s))

/-- R142, R468: a write of an illegal command word ends with UNSUPPORTED; every memory, `CTRL` and
`ARG_LEN` are as before. That `CMD` then holds the word is the model's (log entry 2). -/
def Obligations.IllegalWordsAreUnsupported : Prop :=
  ∀ (w : Word32) (q : List HostAction) (s : State), s.seq.phase = .idle →
    s.env.hostQ = .writeCmd w :: q →
    ((w.extractLsb' 0 4).toNat ∉ [1, 2, 3, 4] ∨
      (w.extractLsb' 4 4).toNat ∈ [7, 11, 12, 13, 14, 15]) →
    ∃ t, step s = .next t ∧ t.mem = s.mem ∧ t.seq.phase = .idle ∧ t.env.hostQ = q ∧
      t.host = { s.host with
        cmd := w, status := 0x1A, resultLen := 0, errPos := 0, errWritten := 0,
        errExpected := 0, lastSub := 0xF }

/-! ### Header tokens -/

/-- R162, R163, R190, R220, R290, R310, R311, R440: a header and the extension word give `DEC_SIZE`,
move `IN_POS` past themselves and send the decoder on; a Huffman header's end is `TREE_BASE`. Its value
between a header of length 0 and the extension word is the model's (log entry 30, DESIGN CHOICE). -/
def Obligations.HeadersGiveTheLength : Prop :=
  (∀ (c : Fwd) (n : BitVec 24) (i : Instr) (s : State), Readable 4 s →
    (c, i) ∈ [(.null, .hdrNull n), (.lz10, .hdrLz10 n), (.lz11, .hdrLz11 n),
      (.huf4, .hdrHuf4 n), (.huf8, .hdrHuf8 n), (.rle, .hdrRle n)] →
    exec i s = .next { s with
      work.tokPos := s.work.inPos, work.inPos := s.work.inPos + 4, work.decSize := n.toNat,
      work.treeBase := if c = .huf4 ∨ c = .huf8 then s.work.inPos + 4 else s.work.treeBase,
      seq.phase := if n = 0 then .ext c else fwdBody c }) ∧
  (∀ (c : Fwd) (n : BitVec 32) (s : State), Readable 4 s → s.seq.phase = .ext c →
    exec (.hdrExt n) s = .next { s with
      work.inPos := s.work.inPos + 4, work.decSize := n.toNat,
      work.treeBase := if c = .huf4 ∨ c = .huf8 then s.work.inPos + 4 else s.work.treeBase,
      seq.phase := fwdBody c })

/-- R162, R465, R471 (c): a byte 0 that is not the decoder's magic is Invalid-data at its offset, as
soon as it is read, however short the stream is. -/
def Obligations.BadMagicIsInvalidData : Prop :=
  ∀ (c : Fwd) (s : State), s.seq.phase = .header c → s.seq.trial = none → Readable 1 s →
    Memory.read s.work.inPos s.mem.imem ≠ c.magic →
    ∃ t, step s = .next t ∧ t.mem = s.mem ∧ t.seq.phase = .idle ∧
      t.host = { s.host with
        status := 0x0E, resultLen := 0, errPos := s.work.inPos, errWritten := 0,
        errExpected := 0, lastSub := 0xF }

/-- R63, R65, R462, R463, R472: where a decoder needs a byte, at the beginning of a token or inside it,
none declared is left: NOT_ENOUGH_DATA with the bytes written and the size; declared but not delivered:
STREAM_TOO_SHORT. The bytes before the missing one have been read (R162, R194, R313), `TOK_POS` is set
where the token records it. R251, R257, R471 (e): the same for the trailer and the region of
LZ-Overlay, and a trailer too short for its `extraSize`. That one step makes these reads is the model's
(log entries 5, 12), and so is that working and overlay registers and scratch keep these values once
the command has ended (log entry 26). -/
def Obligations.MissingBytesEndTheDecode : Prop :=
  ∀ s : State, s.seq.trial = none →
    (((∃ c, s.seq.phase = .header c ∨ s.seq.phase = .ext c) ∨
        (∃ k, s.seq.phase = .treeSize k ∨ s.seq.phase = .treeTable k) ∨
        (s.work.outLen < s.work.decSize ∧
          (s.seq.phase = .nullBody ∨ s.seq.phase = .rleBody ∨ s.seq.phase = .lz10Body ∨
            s.seq.phase = .lz11Body)) ∨
        (s.work.bitCnt = 0 ∧ ∃ k, s.seq.phase = .bit k)) →
      (s.work.declLen ≤ s.work.inPos →
        ∃ t, step s = .next t ∧ t.mem = s.mem ∧ t.seq.phase = .idle ∧
          t.host = afterNotEnough s.work.outLen s.work.decSize s.host) ∧
      (s.work.inPos < s.work.declLen → s.env.srcLen ≤ s.work.inPos →
        ∃ t, step s = .next t ∧ t.mem = s.mem ∧ t.seq.phase = .idle ∧
          t.host = afterTooShort s.host) ∧
      (∀ j < tokenBytes s, MemInv s → Readable j s →
        (∀ c, s.seq.phase = .header c → 1 ≤ j →
          Memory.read s.work.inPos s.mem.imem = c.magic) →
        (s.work.inPos + j = s.work.declLen ∨ s.work.inPos + j = s.env.srcLen) →
        ∃ t, step s = .next t ∧ t.seq.phase = .idle ∧ t.work.inPos = s.work.inPos + j ∧
          t.work.outLen = s.work.outLen ∧ (RecordsItsPlace s → t.work.tokPos = s.work.inPos) ∧
          t.mem = { s.mem with tree := t.mem.tree } ∧
          Stored s.mem.tree t.mem.tree 1 (match s.seq.phase with
            | .treeTable _ => Memory.range s.mem.imem s.work.inPos j
            | _ => []) ∧
          t.host = (if s.work.inPos + j = s.work.declLen then
              afterNotEnough s.work.outLen s.work.decSize s.host
            else afterTooShort s.host))) ∧
    (s.seq.phase = .ovlTrailer →
      (s.work.declLen < 4 → ∃ t, step s = .next t ∧ t.mem = s.mem ∧ t.seq.phase = .idle ∧
        t.host = afterNotEnough 0 0 s.host) ∧
      (4 ≤ s.work.declLen → s.env.srcLen < s.work.declLen →
        ∃ t, step s = .next t ∧ t.mem = s.mem ∧ t.seq.phase = .idle ∧
          t.host = afterTooShort s.host) ∧
      (∀ (n : Nat) (extra : BitVec 32), n = s.work.declLen → 4 ≤ n → n < 8 →
        n ≤ s.env.srcLen → s.env.ioFault = none →
        extra = le32 (Memory.read (n - 4) s.mem.imem) (Memory.read (n - 3) s.mem.imem)
          (Memory.read (n - 2) s.mem.imem) (Memory.read (n - 1) s.mem.imem) → extra ≠ 0 →
        ∃ t, step s = .next t ∧ t.mem = s.mem ∧ t.seq.phase = .idle ∧
          t.ovl = { s.ovl with extra := extra.toNat } ∧
          t.host = afterInvalid (n - 4) s.host)) ∧
    (s.seq.phase = .ovlBody → s.ovl.w < s.ovl.u →
      (s.ovl.ip ≤ s.ovl.p → ∃ t, step s = .next t ∧ t.mem = s.mem ∧ t.seq.phase = .idle ∧
        t.host = afterNotEnough s.ovl.w s.ovl.u s.host) ∧
      (s.ovl.ip = s.ovl.p + 1 → s.work.flagCnt ≠ 0 → s.work.flags.getLsbD 0 = true →
        s.env.ioFault = none →
        ∃ t, step s = .next t ∧ t.mem = s.mem ∧ t.seq.phase = .idle ∧
          t.ovl = { s.ovl with ip := s.ovl.p } ∧ t.work.tokPos = s.ovl.p ∧
          t.host = afterNotEnough s.ovl.w s.ovl.u s.host))

/-! ### LZ10 and LZ11 -/

/-- R192, R222: a flag byte is loaded, its bit 7 first; a missing byte raises what `InByte` raises. -/
def Obligations.LzFlagByteIsLoaded : Prop :=
  ∀ (f : Byte) (i : Instr) (s : State), i ∈ [.lz10Flags f, .lz11Flags f] →
    (Readable 1 s → ∃ t, exec i s = .next t ∧ nextFlagMsb t = f.getLsbD 7 ∧
      t = { s with work.inPos := s.work.inPos + 1, work.flags := f, work.flagCnt := 8 }) ∧
    (s.work.declLen ≤ s.work.inPos →
      exec i s = .next (takeError (.notEnoughData s.work.outLen s.work.decSize) s)) ∧
    (s.work.inPos < s.work.declLen → s.env.srcLen ≤ s.work.inPos →
      exec i s = .next (takeError .streamTooShort s))

/-- R193, R223, R66: a literal is appended to the output and stored in WIN; a missing byte raises
what `InByte` raises. -/
def Obligations.LzLiteralIsAppended : Prop :=
  ∀ (d : Byte) (i : Instr) (s : State), i ∈ [.lz10Lit d, .lz11Lit d] → MemInv s →
    (Readable 1 s → ∃ t, exec i s = .next t ∧ Appended s t [d] ∧
      Stored s.mem.win t.mem.win (s.work.outLen % 4096) [d] ∧
      t = { s with
        work.inPos := s.work.inPos + 1, work.outLen := s.work.outLen + 1,
        mem := { s.mem with omem := t.mem.omem, cbuf := t.mem.cbuf, win := t.mem.win } }) ∧
    (s.work.declLen ≤ s.work.inPos →
      exec i s = .next (takeError (.notEnoughData s.work.outLen s.work.decSize) s)) ∧
    (s.work.inPos < s.work.declLen → s.env.srcLen ≤ s.work.inPos →
      exec i s = .next (takeError .streamTooShort s))

/-- R194, R224, R225, R226, R227, R67, R68, R41: a back-reference with an admissible displacement
appends `min(L, DEC_SIZE - OUT_LEN)` bytes, each the byte `D` below it in the output as it then
stands, and WIN keeps the last 4096 bytes. Every register and memory it does not name is kept. -/
def Obligations.BackReferenceReplaysTheOutput : Prop :=
  ∀ (i : Instr) (n l d : Nat) (s : State),
    ((∃ len disp, i = .lz10Ref len disp ∧ n = 2 ∧ l = len.toNat + 3 ∧ d = disp.toNat + 1) ∨
      (∃ ind disp, i = .lz11Ref2 ind disp ∧ n = 2 ∧ l = ind.toNat + 1 ∧ d = disp.toNat + 1) ∨
      (∃ len disp, i = .lz11Ref3 len disp ∧ n = 3 ∧ l = len.toNat + 0x11 ∧
        d = disp.toNat + 1) ∨
      (∃ len disp, i = .lz11Ref4 len disp ∧ n = 4 ∧ l = len.toNat + 0x111 ∧
        d = disp.toNat + 1)) →
    Readable n s → MemInv s → WinCoherent s → d ≤ s.work.outLen →
    s.work.outLen ≤ s.work.decSize →
    ∃ t bs, exec i s = .next t ∧ bs.length = min l (s.work.decSize - s.work.outLen) ∧
      Appended s t bs ∧ WinCoherent t ∧
      (∀ k < bs.length, Memory.read (s.work.outLen + k) (sinkOf t) =
        Memory.read (s.work.outLen + k - d) (sinkOf t)) ∧
      (∀ x, (∀ k < bs.length, x ≠ (s.work.outLen + k) % 4096) →
        Memory.read x t.mem.win = Memory.read x s.mem.win) ∧
      t = { s with
        work.inPos := s.work.inPos + n, work.outLen := t.work.outLen,
        work.tokPos := s.work.inPos, work.tokL := l, work.tokD := d,
        mem := { s.mem with omem := t.mem.omem, cbuf := t.mem.cbuf, win := t.mem.win } }

/-- R196, R227: a displacement beyond the bytes written is Invalid-data at the offset of `B1`, after
every byte of the token is read and before any byte is copied: no memory changes. -/
def Obligations.BadDisplacementWritesNothing : Prop :=
  ∀ (i : Instr) (n l d : Nat) (s : State),
    ((∃ len disp, i = .lz10Ref len disp ∧ n = 2 ∧ l = len.toNat + 3 ∧ d = disp.toNat + 1) ∨
      (∃ ind disp, i = .lz11Ref2 ind disp ∧ n = 2 ∧ l = ind.toNat + 1 ∧ d = disp.toNat + 1) ∨
      (∃ len disp, i = .lz11Ref3 len disp ∧ n = 3 ∧ l = len.toNat + 0x11 ∧
        d = disp.toNat + 1) ∨
      (∃ len disp, i = .lz11Ref4 len disp ∧ n = 4 ∧ l = len.toNat + 0x111 ∧
        d = disp.toNat + 1)) →
    Readable n s → s.work.outLen < d →
    exec i s = .next (takeError (.invalidData s.work.inPos) { s with
      work.inPos := s.work.inPos + n, work.tokPos := s.work.inPos, work.tokL := l,
      work.tokD := d })

/-! ### LZ-Overlay -/

/-- R252: with `extraSize` 0 everything but the last four bytes is copied through and the command
ends. That every other byte of OMEM and every other memory is then as before is the model's (log
entries 13, DEDUCED, and 26, DESIGN CHOICE). -/
def Obligations.OverlayPassesThrough : Prop :=
  ∀ s : State, MemInv s → s.env.ioFault = none → s.seq.trial = none → s.work.outLen = 0 →
    4 ≤ s.work.declLen → s.work.declLen ≤ s.env.srcLen →
    ∃ t, exec .ovlTrailer0 s = .next t ∧ t.seq.phase = .idle ∧
      Stored s.mem.omem t.mem.omem 0 (Memory.range s.mem.imem 0 (s.work.declLen - 4)) ∧
      t.mem = { s.mem with omem := t.mem.omem } ∧
      t.host = { s.host with
        status := 0x02, resultLen := s.work.declLen - 4, errPos := 0, errWritten := 0,
        errExpected := 0, lastSub := 0xF }

/-- R251, R253 to R257, R471 (e): the trailer's tests in their order, and what it sets up: the prefix
in the buffer, the cursors one above region and buffer, no flag left, nothing of the region written.
That OVLBUF is empty before the prefix is the model's choice (log entry 24, DESIGN CHOICE). The first
three clauses are the meaning's own tests; through `step`, which finds these cases when it looks for the
trailer (log entry 12), they are in `MissingBytesEndTheDecode`. -/
def Obligations.OverlayTrailerSetsUpTheRegion : Prop :=
  ∀ (cl : BitVec 24) (hs : Byte) (extra : BitVec 32) (s : State), s.env.ioFault = none →
    (s.work.declLen < 4 →
      exec (.ovlTrailer cl hs extra) s = .next (takeError (.notEnoughData 0 0) s)) ∧
    (4 ≤ s.work.declLen → s.env.srcLen < s.work.declLen →
      exec (.ovlTrailer cl hs extra) s = .next (takeError .streamTooShort s)) ∧
    (4 ≤ s.work.declLen → s.work.declLen ≤ s.env.srcLen → s.work.declLen < 8 →
      exec (.ovlTrailer cl hs extra) s = .next (takeError (.invalidData (s.work.declLen - 4))
        { s with ovl.extra := extra.toNat })) ∧
    (8 ≤ s.work.declLen → s.work.declLen ≤ s.env.srcLen →
      (hs.toNat < 8 ∨ s.work.declLen < hs.toNat ∨ s.work.declLen < hs.toNat + cl.toNat) →
      exec (.ovlTrailer cl hs extra) s = .next (takeError (.invalidData (s.work.declLen - 8))
        { s with ovl.extra := extra.toNat, ovl.hs := hs.toNat, ovl.cl := cl.toNat })) ∧
    (8 ≤ s.work.declLen → s.work.declLen ≤ s.env.srcLen → 8 ≤ hs.toNat →
      hs.toNat + cl.toNat ≤ s.work.declLen →
      ∃ t p, p = s.work.declLen - hs.toNat - cl.toNat ∧
        exec (.ovlTrailer cl hs extra) s = .next t ∧
        Stored [] t.mem.ovlbuf 0 (Memory.range s.mem.imem 0 p) ∧
        t = { s with
          ovl := { extra := extra.toNat, hs := hs.toNat, cl := cl.toNat, p := p,
                   u := cl.toNat + extra.toNat, ip := p + cl.toNat,
                   op := p + (cl.toNat + extra.toNat), w := 0 },
          work.flagCnt := 0, seq.phase := .ovlBody, mem.ovlbuf := t.mem.ovlbuf })

/-- R257, R259, R260, R271: a flag byte (its bit 0 first) and a literal are read backward; where the
region is used up the decode ends with NOT_ENOUGH_DATA and the region's counts (through `step`, which
finds that case when it looks for the token: `MissingBytesEndTheDecode`). -/
def Obligations.OverlayFlagsAndLiterals : Prop :=
  ∀ (b : Byte) (s : State), MemInv s → s.env.ioFault = none →
    (s.ovl.p < s.ovl.ip →
      (∃ t, exec (.ovlFlags b) s = .next t ∧ nextFlagLsb t = b.getLsbD 0 ∧
        t = { s with ovl.ip := s.ovl.ip - 1, work.flags := b, work.flagCnt := 8 }) ∧
      (∃ t, exec (.ovlLit b) s = .next t ∧
        Stored s.mem.ovlbuf t.mem.ovlbuf (s.ovl.op - 1) [b] ∧
        t = { s with
          ovl := { s.ovl with ip := s.ovl.ip - 1, op := s.ovl.op - 1, w := s.ovl.w + 1 },
          mem.ovlbuf := t.mem.ovlbuf })) ∧
    (s.ovl.ip ≤ s.ovl.p → ∀ i ∈ [Instr.ovlFlags b, .ovlLit b],
      exec i s = .next (takeError (.notEnoughData s.ovl.w s.ovl.u) s))

/-- R261, R268, R269: a back-reference of the region copies downward, each byte the one `D` above it
as the buffer then stands; a displacement beyond the bytes written runs as 2 where at least 2 are
written and `OVL_STRICT` is 0, and is Invalid-data at the offset of `B1` otherwise. -/
def Obligations.OverlayReferenceCopiesDownward : Prop :=
  ∀ (len : BitVec 4) (disp : BitVec 12) (d : Nat) (s : State), MemInv s →
    s.env.ioFault = none → s.ovl.p + 2 ≤ s.ovl.ip → s.ovl.w ≤ s.ovl.u →
    s.ovl.op + s.ovl.w = s.ovl.p + s.ovl.u →
    d = (if disp.toNat + 3 ≤ s.ovl.w then disp.toNat + 3
      else if 2 ≤ s.ovl.w ∧ s.host.ctrl.getLsbD 3 = false then 2 else 0) →
    (d ≠ 0 → ∃ t n bs, n = min (len.toNat + 3) (s.ovl.u - s.ovl.w) ∧
      exec (.ovlRef len disp) s = .next t ∧ bs.length = n ∧
      Stored s.mem.ovlbuf t.mem.ovlbuf (s.ovl.op - n) bs ∧
      (∀ k < n, Memory.read (s.ovl.op - 1 - k) t.mem.ovlbuf =
        Memory.read (s.ovl.op - 1 - k + d) t.mem.ovlbuf) ∧
      t = { s with
        ovl := { s.ovl with ip := s.ovl.ip - 2, op := s.ovl.op - n, w := s.ovl.w + n },
        work.tokPos := s.ovl.ip - 1, work.tokL := len.toNat + 3, work.tokD := d,
        mem.ovlbuf := t.mem.ovlbuf }) ∧
    (d = 0 → exec (.ovlRef len disp) s = .next (takeError (.invalidData (s.ovl.ip - 1)) { s with
      ovl.ip := s.ovl.ip - 2, work.tokPos := s.ovl.ip - 1, work.tokL := len.toNat + 3,
      work.tokD := disp.toNat + 3 }))

/-! ### RLE -/

/-- R292, R68: a run appends its byte `n + 3` times, clamped at `DEC_SIZE`. -/
def Obligations.RunRepeatsItsByte : Prop :=
  ∀ (n : BitVec 7) (d : Byte) (s : State), Readable 2 s → MemInv s →
    s.work.outLen ≤ s.work.decSize →
    ∃ t, exec (.rleRun n d) s = .next t ∧
      Appended s t (List.replicate (min (n.toNat + 3) (s.work.decSize - s.work.outLen)) d) ∧
      t = { s with
        work.inPos := s.work.inPos + 2, work.outLen := t.work.outLen,
        work.tokPos := s.work.inPos, work.tokL := n.toNat + 3,
        mem := { s.mem with omem := t.mem.omem, cbuf := t.mem.cbuf } }

/-- R293, R68: a raw group appends its `n + 1` bytes of IMEM, clamped at `DEC_SIZE`, the rest of the
group staying unread. -/
def Obligations.RawGroupCopiesItsBytes : Prop :=
  ∀ (n : BitVec 7) (s : State) (l : Nat), MemInv s → s.work.outLen ≤ s.work.decSize →
    l = min (n.toNat + 1) (s.work.decSize - s.work.outLen) → Readable (1 + l) s →
    ∃ t, exec (.rleRaw n) s = .next t ∧
      Appended s t (Memory.range s.mem.imem (s.work.inPos + 1) l) ∧
      t = { s with
        work.inPos := s.work.inPos + 1 + l, work.outLen := s.work.outLen + l,
        work.tokPos := s.work.inPos, work.tokL := n.toNat + 1,
        mem := { s.mem with omem := t.mem.omem, cbuf := t.mem.cbuf } }

/-- R293, R472: a raw group cut short after `j` raw bytes has written those `j` bytes, and ends the
command with NOT_ENOUGH_DATA, or with STREAM_TOO_SHORT where the source ended first. -/
def Obligations.CutRawGroupKeepsItsBytes : Prop :=
  ∀ (n : BitVec 7) (s : State) (j : Nat), MemInv s → s.seq.trial = none →
    Readable (1 + j) s → j < min (n.toNat + 1) (s.work.decSize - s.work.outLen) →
    s.work.outLen ≤ s.work.decSize →
    (s.work.inPos + 1 + j = s.work.declLen ∨ s.work.inPos + 1 + j = s.env.srcLen) →
    ∃ t, exec (.rleRaw n) s = .next t ∧ t.seq.phase = .idle ∧
      Stored s.mem.omem t.mem.omem s.work.outLen
        (Memory.range s.mem.imem (s.work.inPos + 1) j) ∧
      t.mem = { s.mem with omem := t.mem.omem } ∧
      t.host = (if s.work.inPos + 1 + j = s.work.declLen then
          { s.host with
            status := 0x06, resultLen := 0, errPos := 0, errWritten := s.work.outLen + j,
            errExpected := s.work.decSize, lastSub := 0xF }
        else
          { s.host with
            status := 0x0A, resultLen := 0, errPos := 0, errWritten := 0, errExpected := 0,
            lastSub := 0xF })

/-! ### Huffman -/

/-- R312, R313, R317: the size byte gives `TREE_LEN`; the table is stored as it stands, position 0
kept, and the walk starts at the root with no bit and no nibble pending. -/
def Obligations.TreeTableIsStored : Prop :=
  (∀ (b : Byte) (k : HufKind) (s : State), MemInv s → Readable 1 s →
    s.seq.phase = .treeSize k →
    ∃ t, exec (.hufTsize b) s = .next t ∧ Stored s.mem.tree t.mem.tree 0 [b] ∧
      t = { s with
        work.inPos := s.work.inPos + 1, work.treeLen := 2 * (b.toNat + 1),
        mem.tree := t.mem.tree, seq.phase := .treeTable k }) ∧
  (∀ (root : Byte) (k : HufKind) (s : State), MemInv s → 2 ≤ s.work.treeLen →
    Readable (s.work.treeLen - 1) s → s.seq.phase = .treeTable k →
    ∃ t, exec (.hufTable root) s = .next t ∧
      Stored s.mem.tree t.mem.tree 1
        (root :: Memory.range s.mem.imem (s.work.inPos + 1) (s.work.treeLen - 2)) ∧
      t = { s with
        work.inPos := s.work.inPos + (s.work.treeLen - 1), work.nodePos := 1,
        work.bitCnt := 0, work.nibValid := false, mem.tree := t.mem.tree,
        seq.phase := .node k })

/-- R315, R318, R320: a node byte is taken; the bit then sends the walk to the child the formula
gives, on to a leaf or to a node as the parent's bit says, and a child at or beyond `TREE_LEN` is
Invalid-data at the offset it would have. That `HUF.NODE` and `HUF.BIT` are two steps of one walk is
the model's (log entry 9). -/
def Obligations.WalkStepsToTheChild : Prop :=
  (∀ (leaf0 leaf1 : Bool) (offset : BitVec 6) (k : HufKind) (s : State),
    s.seq.phase = .node k →
    ∃ t, exec (.hufNode leaf0 leaf1 offset) s = .next t ∧
      t.seq.nodeByte.getLsbD 7 = leaf0 ∧ t.seq.nodeByte.getLsbD 6 = leaf1 ∧
      t.seq.nodeByte.extractLsb' 0 6 = offset ∧
      t = { s with seq.nodeByte := t.seq.nodeByte, seq.phase := .bit k }) ∧
  (∀ (b leaf : Bool) (c : Nat) (k : HufKind) (s : State), s.seq.phase = .bit k →
    c = s.work.nodePos / 2 * 2 + 2 * (s.seq.nodeByte.toNat % 64) + 2 +
      (if b then 1 else 0) →
    leaf = s.seq.nodeByte.getLsbD (if b then 6 else 7) →
    exec (.hufBit b) s = .next
      (if s.work.treeLen ≤ c then takeError (.invalidData (s.work.treeBase + c)) s
      else if leaf then { s with seq.leafPos := c, seq.phase := .leaf k }
      else { s with work.nodePos := c, seq.phase := .node k }))

/-- R316: a bit word is loaded, its bit 31 first. -/
def Obligations.BitWordIsLoaded : Prop :=
  ∀ (w : BitVec 32) (s : State), Readable 4 s →
    ∃ t, exec (.hufWord w) s = .next t ∧ nextBit t = w.getLsbD 31 ∧
      t = { s with
        work.inPos := s.work.inPos + 4, work.bitbuf := w, work.bitCnt := 32 }

/-- R321, R322, R318: an 8-bit leaf is appended; of two 4-bit leaves the first is the high nibble of
the byte appended; a leaf byte with a set high nibble is Invalid-data at its offset; the walk goes
back to the root. That a leaf is a step of its own, which takes its offset from `leafPos` and sends the
walk back, is the model's (log entry 9, DEDUCED). -/
def Obligations.LeavesEmitTheirSymbols : Prop :=
  ∀ (b : Byte) (k : HufKind) (s : State), MemInv s → s.env.ioFault = none →
    s.seq.phase = .leaf k →
    (∃ t, exec (.hufLeaf8 b) s = .next t ∧ Appended s t [b] ∧
      t = { s with
        work.outLen := s.work.outLen + 1, work.nodePos := 1, seq.phase := .node k,
        mem := { s.mem with omem := t.mem.omem, cbuf := t.mem.cbuf } }) ∧
    (16 ≤ b.toNat → exec (.hufLeaf4 b) s =
      .next (takeError (.invalidData (s.work.treeBase + s.seq.leafPos)) s)) ∧
    (b.toNat < 16 → s.work.nibValid = false → ∃ t, exec (.hufLeaf4 b) s = .next t ∧
      t.work.nib.toNat = b.toNat ∧
      t = { s with
        work.nib := t.work.nib, work.nibValid := true, work.nodePos := 1,
        seq.phase := .node k }) ∧
    (b.toNat < 16 → s.work.nibValid = true → ∃ t v, exec (.hufLeaf4 b) s = .next t ∧
      v.toNat = 16 * s.work.nib.toNat + b.toNat ∧ Appended s t [v] ∧
      t = { s with
        work.outLen := s.work.outLen + 1, work.nibValid := false, work.nodePos := 1,
        seq.phase := .node k,
        mem := { s.mem with omem := t.mem.omem, cbuf := t.mem.cbuf } })

/-! ### NULL, the ports -/

/-- R442: a byte of the body is copied; a missing byte raises what `InByte` raises. -/
def Obligations.NullByteIsCopied : Prop :=
  ∀ (d : Byte) (s : State), MemInv s →
    (Readable 1 s → ∃ t, exec (.nullByte d) s = .next t ∧ Appended s t [d] ∧
      t = { s with
        work.inPos := s.work.inPos + 1, work.outLen := s.work.outLen + 1,
        mem := { s.mem with omem := t.mem.omem, cbuf := t.mem.cbuf } }) ∧
    (s.work.declLen ≤ s.work.inPos → exec (.nullByte d) s =
      .next (takeError (.notEnoughData s.work.outLen s.work.decSize) s)) ∧
    (s.work.inPos < s.work.declLen → s.env.srcLen ≤ s.work.inPos →
      exec (.nullByte d) s = .next (takeError .streamTooShort s))

/-- R78, R469, R425: an I/O fault met at any port access of a token, in or out of a trial run, of the
commit of a trial run, of the overlay's flush, or of a command ends the command with IO_ERROR, and it is
not retried in a composite. A token whose first access faults changes no memory; in a trial run OMEM
never changes before the commit. Which accesses count, and their order, is the model's (log entries 7,
17, 19), as is what scratch and registers hold once the command has ended (log entries 26, 29, 31). -/
def Obligations.PortFaultEndsTheCommand : Prop :=
  ∀ (s : State) (k : Nat), s.env.ioFault = some k →
    (∀ i, isToken i = true → BytesThere i s → k < accesses i s →
      ∃ t, exec i s = .next t ∧ t.seq.phase = .idle ∧ t.seq.trial = none ∧
        t.host = afterIoError s.host ∧ (k = 0 → t.mem = s.mem) ∧
        t.mem.imem = s.mem.imem ∧ t.mem.ovlbuf = s.mem.ovlbuf ∧
        (s.seq.trial ≠ none → t.mem.omem = s.mem.omem)) ∧
    (∀ tr, s.seq.trial = some tr →
      (s.seq.phase = .lz10Body ∨ s.seq.phase = .lz11Body ∨ ∃ h, s.seq.phase = .node h) →
      s.work.decSize ≤ s.work.outLen → k < s.work.outLen →
      ∃ t, step s = .next t ∧ t.seq.phase = .idle ∧ t.seq.trial = none ∧
        t.host = afterIoError s.host) ∧
    (s.seq.phase = .ovlBody → s.seq.trial = none → s.ovl.u ≤ s.ovl.w → k < s.ovl.p + s.ovl.u →
      ∃ t, step s = .next t ∧ t.seq.phase = .idle ∧ t.host = afterIoError s.host) ∧
    (∀ id : BitVec 4, id.toNat ∈ [0, 1, 2, 3, 4, 5, 6, 8, 9, 10] →
      4 ≤ s.host.argLen.toNat → s.host.argLen.toNat ≤ s.env.srcLen →
      (k = 0 → ∃ t, exec (.cmdSupports id) s = .next t ∧ t.mem = s.mem ∧
        t.seq.phase = .idle ∧ t.host = afterIoError s.host) ∧
      (k = 0 → id.toNat ∈ [8, 9, 10] → ∃ t, exec (.cmdDecompress id) s = .next t ∧
        t.mem = s.mem ∧ t.seq.phase = .idle ∧ t.host = afterIoError s.host) ∧
      (id ≠ 3 → s.host.argLen.toNat ≤ 0xFFFFFF → k < s.host.argLen.toNat →
        ∃ t, exec (.cmdCompress id) s = .next t ∧ t.mem.omem = s.mem.omem ∧
          t.seq.phase = .idle ∧ t.host = afterIoError s.host) ∧
      (∀ c bytes, codecOfId id = some c → encodeStream c (commandStart s) = some bytes →
        s.host.argLen.toNat ≤ 0xFFFFFF → k < s.host.argLen.toNat + bytes.length →
        ∃ t, exec (.cmdCompress id) s = .next t ∧ t.seq.phase = .idle ∧
          t.host = afterIoError s.host))

/-! ### The machine -/

/-- R105, R166, R167, R168, R191, R221, R251, R258, R291, R317, R441, R130: a step runs the
instruction that stands next. The place of the bytes, the flag or bit taken before and the state the
instruction runs in are said for each place a decoder can be at. What one step takes is the model's
(log entries 5, 9, 12), and so is that a command runs with `CMD` holding the word written (log entry 2,
DESIGN CHOICE). -/
def Obligations.StepRunsTheDecodedInstruction : Prop :=
  ∀ (s : State) (i : Instr),
    (∀ c, s.seq.phase = .header c → decode (.header c) (readable s) = .instr i →
      step s = exec i s) ∧
    (∀ c, s.seq.phase = .ext c → decode .ext (readable s) = .instr i → step s = exec i s) ∧
    (∀ k, s.seq.phase = .treeSize k → decode .hufSize (readable s) = .instr i →
      step s = exec i s) ∧
    (∀ k, s.seq.phase = .treeTable k → decode .hufTable (readable s) = .instr i →
      step s = exec i s) ∧
    (s.work.outLen < s.work.decSize →
      (s.seq.phase = .nullBody → decode .nullByte (readable s) = .instr i →
        step s = exec i s) ∧
      (s.seq.phase = .rleBody → decode .rleGroup (readable s) = .instr i →
        step s = exec i s) ∧
      (∀ flagsPlace blockPlace,
        (s.seq.phase, flagsPlace, blockPlace) ∈
          [(.lz10Body, .lz10Flags, Place.lz10Block), (.lz11Body, .lz11Flags, .lz11Block)] →
        (s.work.flagCnt = 0 → decode flagsPlace (readable s) = .instr i →
          step s = exec i s) ∧
        (s.work.flagCnt ≠ 0 →
          decode (blockPlace (s.work.flags.getLsbD 7)) (readable s) = .instr i →
          step s = exec i { s with
            work.flags := s.work.flags <<< 1, work.flagCnt := s.work.flagCnt - 1 })) ∧
      (∀ k, s.seq.phase = .node k →
        decode .hufNode [Memory.read s.work.nodePos s.mem.tree] = .instr i →
        step s = exec i s)) ∧
    (∀ k, s.seq.phase = .bit k →
      (s.work.bitCnt = 0 → decode .hufWord (readable s) = .instr i → step s = exec i s) ∧
      (s.work.bitCnt ≠ 0 →
        step s = exec (.hufBit (s.work.bitbuf.getLsbD 31)) { s with
          work.bitbuf := s.work.bitbuf <<< 1, work.bitCnt := s.work.bitCnt - 1 })) ∧
    (∀ k, s.seq.phase = .leaf k →
      decode (.hufLeaf k) [Memory.read s.seq.leafPos s.mem.tree] = .instr i →
      step s = exec i s) ∧
    (s.seq.phase = .ovlTrailer → 4 ≤ s.work.declLen → s.work.declLen ≤ s.env.srcLen →
      decode .ovlTrailer (Memory.range s.mem.imem (s.work.declLen - min s.work.declLen 8)
        (min s.work.declLen 8)) = .instr i → step s = exec i s) ∧
    (s.seq.phase = .ovlBody → s.ovl.w < s.ovl.u →
      (s.work.flagCnt = 0 → decode .ovlFlags (readableBack s) = .instr i →
        step s = exec i s) ∧
      (s.work.flagCnt ≠ 0 →
        decode (.ovlBlock (s.work.flags.getLsbD 0)) (readableBack s) = .instr i →
        step s = exec i { s with
          work.flags := s.work.flags >>> 1, work.flagCnt := s.work.flagCnt - 1 })) ∧
    (∀ w q, s.seq.phase = .idle → s.env.hostQ = .writeCmd w :: q → decodeCmd w = .instr i →
      step s = exec i { s with host.cmd := w, env.hostQ := q })

/-- R91 to R99: words written out from the encodings decode to their instructions. -/
def Obligations.WordsDecodeAsEncoded : Prop :=
  decode .cmd [0xA3, 0x00, 0x00, 0x00] = .instr (.cmdCompress 10) ∧
  decode .cmd [0xA4, 0x01, 0x00, 0x00] = .instr (.cmdSetopt 10 1) ∧
  decode (.header .lz10) [0x10, 0x05, 0x00, 0x00] = .instr (.hdrLz10 5) ∧
  decode (.lz10Block true) [0x20, 0x01] = .instr (.lz10Ref 2 1) ∧
  decode (.lz11Block true) [0x00, 0x30, 0x00] = .instr (.lz11Ref3 3 0) ∧
  decode (.lz11Block true) [0x10, 0x00, 0x10, 0x00] = .instr (.lz11Ref4 1 0) ∧
  decode .ovlTrailer [0x06, 0x00, 0x00, 0x08, 0x03, 0x00, 0x00, 0x00] =
    .instr (.ovlTrailer 6 8 3) ∧
  decode .rleGroup [0x82, 0x41] = .instr (.rleRun 2 0x41) ∧
  decode .hufNode [0x80] = .instr (.hufNode true false 0) ∧
  decode .hufWord [0x00, 0x00, 0x00, 0x4C] = .instr (.hufWord 0x4C000000)

/-- R90 to R101: decoding what was encoded gives the instruction back, whatever stands after its
bytes (before them for the trailer, which is read from the end). -/
def Obligations.DecodeInvertsEncode : Prop :=
  ∀ (i : Instr) (around : List Byte), i.wellFormed = true →
    decode i.place (if i.place = .ovlTrailer then around ++ encode i else encode i ++ around) =
      .instr i

/-- R90, R103: what decodes at a place is a well-formed instruction of that place, and its bytes are
exactly its encoding: no two byte strings of a place's own length stand for one instruction, but for
the ignored bits of a command word (R91) and of the byte a stream bit is handed over in. -/
def Obligations.EncodeInvertsDecode : Prop :=
  ∀ (p : Place) (bs : List Byte) (i : Instr), decode p bs = .instr i →
    i.place = p ∧ i.wellFormed = true ∧ i.size ≤ bs.length ∧
    (p ≠ .cmd → p ≠ .hufBit →
      encode i = if p = .ovlTrailer then bs.drop (bs.length - i.size) else bs.take i.size)

/-- No step of the block ever stops: it answers a next state in every state (R461: nothing is
stuck). -/
def Obligations.EveryStepAnswersNext : Prop := ∀ s : State, ∃ t, step s = .next t

/-- R461: every decode ends. From any state in which a decoder runs, some number of steps leads to a
state in which none does. That a step is a token is the model's (log entry 5). -/
def Obligations.EveryDecodeEnds : Prop :=
  ∀ s : State, s.seq.phase ≠ .idle → ∃ k t, Runs k s t ∧ t.seq.phase = .idle

/-- The memories stay in canonical form through every step. The form, with an unlisted byte reading as
0, is the model's (log entry 3). -/
def Obligations.StepKeepsMemoriesCanonical : Prop :=
  ∀ s t : State, MemInv s → step s = .next t → MemInv t

/-- R32 to R37, R139, R470: `STATUS` stays legal, BUSY stands exactly while a decoder runs, `CTRL`'s
reserved bits stay 0 and the response registers stay as the last end wrote them. -/
def Obligations.StepKeepsTheControlLegal : Prop :=
  ∀ s t : State, ControlInv s → step s = .next t → ControlInv t

/-- R21, R27, R29, R41, R42, R68, R254 to R257, R314, R318: cursors and counters stay inside their
widths and bounds, WIN stays the last 4096 bytes of the output, TREE the table as it stands in the
input, the walk inside the table. -/
def Obligations.StepKeepsTheDecoderInBounds : Prop :=
  ∀ s t : State, MemInv s → ControlInv s → DecoderInv s → step s = .next t → DecoderInv t

/-- The state after reset meets the three invariants. The working registers, the memories and `CMD` at
reset are the model's (log entries 1, 2, 3). -/
def Obligations.ResetMeetsTheInvariants : Prop :=
  MemInv State.reset ∧ ControlInv State.reset ∧ DecoderInv State.reset

/-- R66, R74, R425: while a decoder runs outside a trial run, output only grows and no byte below
`OUT_LEN` changes; inside one OMEM does not change until the run ends. -/
def Obligations.OutputIsAppendOnly : Prop :=
  ∀ s t : State, MemInv s → s.seq.phase ≠ .idle → step s = .next t →
    (s.seq.trial = none →
      s.work.outLen ≤ t.work.outLen ∧
      ∀ a < s.work.outLen, Memory.read a t.mem.omem = Memory.read a s.mem.omem) ∧
    (s.seq.trial ≠ none → t.seq.phase ≠ .idle → t.mem.omem = s.mem.omem)

/-- R76, R13, R37, R470: no instruction, ended or failed, writes IMEM, `ARG_LEN`, `CMD` (log entry 2) or
an input of the call but the I/O fault it used up (log entry 7); only SETOPT writes `CTRL`, and it
clears no bit and touches only the three look-ahead bits. -/
def Obligations.NoInstructionWritesItsInputs : Prop :=
  ∀ (i : Instr) (s t : State), exec i s = .next t →
    t.mem.imem = s.mem.imem ∧ t.host.argLen = s.host.argLen ∧ t.host.cmd = s.host.cmd ∧
    t.env.srcLen = s.env.srcLen ∧ t.env.huf8Order = s.env.huf8Order ∧
    t.env.hostQ = s.env.hostQ ∧
    ((∀ c o, i ≠ .cmdSetopt c o) → t.host.ctrl = s.host.ctrl) ∧
    s.host.ctrl &&& t.host.ctrl = s.host.ctrl ∧ t.host.ctrl &&& 0xFFFFFFF8 =
      s.host.ctrl &&& 0xFFFFFFF8

/-- R31: the response registers are written once, at the end of a command: a token after which the
decoder still runs leaves all of them. R21, R30, R40, R44: no decoder writes the encoder registers or
the encoder scratch, outside a trial run; that they are kept too where the token ends the command is the
model's (log entry 26, DESIGN CHOICE). -/
def Obligations.TokensWriteNoResponse : Prop :=
  ∀ (i : Instr) (s t : State), isToken i = true → exec i s = .next t →
    (t.seq.phase ≠ .idle → t.host = s.host) ∧ (s.seq.trial = none → t.enc = s.enc)

/-- R45, R512, R133, K11: no command observes what an earlier one left. Two states that agree on
`ARG_LEN`, `CTRL`, `CMD`, IMEM and the inputs of the call go through a command in the same number of
steps, before the host's next action is taken, and end with the same host registers, the same inputs
and, after COMPRESS and DECOMPRESS, the same bytes of OMEM below `RESULT_LEN`. What a step takes is the
model's (log entry 5). -/
def Obligations.CommandsIgnoreWhatWasLeft : Prop :=
  ∀ (i : Instr) (s s' t t' : State), isToken i = false → MemInv s → MemInv s' →
    s.host.argLen = s'.host.argLen → s.host.ctrl = s'.host.ctrl → s.host.cmd = s'.host.cmd →
    s.mem.imem = s'.mem.imem → s.env = s'.env →
    exec i s = .next t → exec i s' = .next t' →
    t.seq.phase = t'.seq.phase ∧ t.seq.trial = t'.seq.trial ∧ t.env = t'.env ∧
    ∃ k u u', Runs k t u ∧ Runs k t' u' ∧ u.seq.phase = .idle ∧ u'.seq.phase = .idle ∧
      u.env.hostQ = s.env.hostQ ∧ u.env = u'.env ∧ u.host = u'.host ∧
      ((∃ c, i = .cmdCompress c ∨ i = .cmdDecompress c) → ∀ a < u.host.resultLen,
        Memory.read a u.mem.omem = Memory.read a u'.mem.omem)

/-! ### Encoders -/

/-- R164, R165, R200, R230, R231, R232, R296: the bytes of the header, of every back-reference in the
smallest form that fits, and of the RLE groups. -/
def Obligations.EncodersWriteTheirTokens : Prop :=
  (∀ (c : Fwd) (n : Nat), n ≤ 0xFFFFFF → emitHeader c n =
    [c.magic, BitVec.ofNat 8 n, BitVec.ofNat 8 (n / 256), BitVec.ofNat 8 (n / 65536)] ++
      (if n = 0 then [0, 0, 0, 0] else [])) ∧
  (∀ b : Byte, encode (tok10 (.lit b)) = [b] ∧ encode (tok11 (.lit b)) = [b]) ∧
  (∀ l d : Nat, 1 ≤ d → d ≤ 4096 →
    (3 ≤ l → l ≤ 18 → encode (tok10 (.ref l d)) =
      [BitVec.ofNat 8 ((l - 3) * 16 + (d - 1) / 256), BitVec.ofNat 8 (d - 1)]) ∧
    (3 ≤ l → l ≤ 16 → encode (tok11 (.ref l d)) =
      [BitVec.ofNat 8 ((l - 1) * 16 + (d - 1) / 256), BitVec.ofNat 8 (d - 1)]) ∧
    (17 ≤ l → l ≤ 272 → encode (tok11 (.ref l d)) =
      [BitVec.ofNat 8 ((l - 17) / 16),
        BitVec.ofNat 8 ((l - 17) % 16 * 16 + (d - 1) / 256), BitVec.ofNat 8 (d - 1)]) ∧
    (273 ≤ l → l ≤ 65808 → encode (tok11 (.ref l d)) =
      [BitVec.ofNat 8 (16 + (l - 273) / 4096), BitVec.ofNat 8 ((l - 273) / 16),
        BitVec.ofNat 8 ((l - 273) % 16 * 16 + (d - 1) / 256), BitVec.ofNat 8 (d - 1)])) ∧
  (∀ (l : Nat) (b : Byte), 3 ≤ l → l ≤ 130 →
    encode (.rleRun (BitVec.ofNat 7 (l - 3)) b) = [BitVec.ofNat 8 (0x80 + (l - 3)), b]) ∧
  (∀ lits : List Byte, lits ≠ [] → lits.length ≤ 128 →
    flushRaw lits = BitVec.ofNat 8 (lits.length - 1) :: lits)

/-- R340, R355 (b): the tokens either selection gives expand to exactly the plaintext. -/
def Obligations.SelectionExpandsToThePlaintext : Prop :=
  ∀ (s : List Byte) (maxL : Nat) (cost : Nat → Nat) (optimal : Bool),
    expand (selectTokens s maxL cost optimal) = s

/-- R355 (a), R202: every back-reference either selection gives stays in the window, behind the bytes
written, and between 3 and `maxL` long. -/
def Obligations.SelectionStaysInTheWindow : Prop :=
  ∀ (s : List Byte) (maxL : Nat) (cost : Nat → Nat) (optimal : Bool),
    Bounded maxL (selectTokens s maxL cost optimal) 0

/-- R355 (c), R352, R201, R234: the optimal selection costs no more bits than the greedy one, and the
stream it gives is no longer, for LZ10 and LZ11. -/
def Obligations.OptimalIsNoLonger : Prop :=
  (∀ (s : List Byte) (maxL : Nat) (cost : Nat → Nat),
    bitsOf cost (selectTokens s maxL cost true) ≤
      bitsOf cost (selectTokens s maxL cost false)) ∧
  (∀ s : List Byte, (lz10Stream s true).length ≤ (lz10Stream s false).length ∧
    (lz11Stream s true).length ≤ (lz11Stream s false).length)

/-- R201, R234, R169: the length of an LZ stream: the header, then one byte for every eight bits of
payload and flags, rounded up. -/
def Obligations.LzStreamLength : Prop :=
  ∀ (s : List Byte) (optimal : Bool), s ≠ [] →
    (lz10Stream s optimal).length =
      4 + (bitsOf cost10 (selectTokens s Config.lz10MaxLen cost10 optimal) + 7) / 8 ∧
    (lz11Stream s optimal).length =
      4 + (bitsOf cost11 (selectTokens s Config.lz11MaxLen cost11 optimal) + 7) / 8

/-- R297: an RLE stream is at worst `4 + N + ceil(N / 128)` bytes long, and 8 bytes for an empty
plaintext. -/
def Obligations.RleStreamIsBounded : Prop :=
  (rleStream []).length = 8 ∧
  ∀ s : List Byte, s ≠ [] → (rleStream s).length ≤ 4 + s.length + (s.length + 127) / 128

/-- R170: the bit-word writer gives whole words, bit 31 of each first, little-endian, the unfilled
low bits of the last 0. -/
def Obligations.BitWriterFillsFromTheTop : Prop :=
  ∀ bits : List Bool,
    (writeBits bits 0 0).length = (bits.length + 31) / 32 * 4 ∧
    ∀ j < (writeBits bits 0 0).length * 8,
      ((writeBits bits 0 0).getD (j / 32 * 4 + (3 - j % 32 / 8)) 0).getLsbD (7 - j % 8) =
        bits.getD j false

/-- R372, R376, R377: the tree built from a frequency table has exactly the leaves of the leaf set,
each once, and one internal node fewer than leaves. R380, R381, R315: a table that is serialized has two
bytes for every entry of `ORDER` and two before them, the first their number; from the root, and from
the byte of every child of every entry, the walk of R318 goes on along the tree's edges. -/
def Obligations.TreeAndTableHoldTheLeafSet : Prop :=
  (∀ freq : List Nat, 2 ≤ freq.length →
    ((codesFrom (buildTree freq) []).map (·.1)).Perm ((leafSet freq).map (·.2)) ∧
    2 ≤ (leafSet freq).length ∧
    (buildTree freq).internals.length + 1 = (leafSet freq).length) ∧
  (∀ (order : List HTree) (root : HTree) (table : List Byte), serialize order root = some table →
    table.length = 2 * (order.length + 1) ∧
    table.getD 0 0 = BitVec.ofNat 8 order.length ∧ TableHolds order table 1 root ∧
    ∀ k v, order[k]? = some v → ∃ id a b, v = .node id a b ∧
      TableHolds order table (2 * k + 2) a ∧ TableHolds order table (2 * k + 3) b)

/-! ### Round trips -/

/-- R135, R444, R441, R297, R295, R291: what the NULL or the RLE encoder writes, decoded from a fresh
start with exactly its length declared, gives the plaintext back with `ERR` = 0 and `TMI` = 0. -/
def Obligations.NullAndRleRoundTrip : Prop :=
  ∀ (x : List Byte) (s : State) (f : Fwd) (stream : List Byte),
    (f, stream) ∈ [(.null, nullStream x), (.rle, rleStream x)] →
    x.length ≤ 0xFFFFFF → MemInv s → s.env.ioFault = none →
    s.seq.trial = none → s.seq.phase = .header f → s.work.inPos = 0 → s.work.outLen = 0 →
    s.work.declLen = stream.length → s.work.declLen ≤ s.env.srcLen →
    Memory.range s.mem.imem 0 s.work.declLen = stream →
    ∃ k t, Runs k s t ∧ t.seq.phase = .idle ∧ t.host.status = 0x02 ∧
      t.host.resultLen = x.length ∧ result t = x

/-- R135, R403, R401, R381, R395: the same for the two Huffman encoders, whichever layout is given,
where it gives a stream at all. How a layout is given is the model's (log entry 8). -/
def Obligations.HuffmanRoundTrip : Prop :=
  ∀ (x : List Byte) (h : HufKind) (layout : Option (List Nat)) (s : State) (stream : List Byte),
    hufStream h layout x = some stream →
    x.length ≤ 0xFFFFFF → MemInv s → s.env.ioFault = none →
    s.seq.trial = none → s.seq.phase = .header (hufFwd h) → s.work.inPos = 0 →
    s.work.outLen = 0 → s.work.declLen = stream.length → s.work.declLen ≤ s.env.srcLen →
    Memory.range s.mem.imem 0 s.work.declLen = stream →
    ∃ k t, Runs k s t ∧ t.seq.phase = .idle ∧ t.host.status = 0x02 ∧
      t.host.resultLen = x.length ∧ result t = x

/-- R135, R355 (b), R198, R229: the same for LZ10 and LZ11, in either selection. -/
def Obligations.LzRoundTrip : Prop :=
  ∀ (x : List Byte) (optimal : Bool) (s : State) (f : Fwd) (stream : List Byte),
    (f, stream) ∈ [(.lz10, lz10Stream x optimal), (.lz11, lz11Stream x optimal)] →
    x.length ≤ 0xFFFFFF → MemInv s → s.env.ioFault = none → s.work.flagCnt = 0 →
    s.seq.trial = none → s.seq.phase = .header f → s.work.inPos = 0 → s.work.outLen = 0 →
    s.work.declLen = stream.length → s.work.declLen ≤ s.env.srcLen →
    Memory.range s.mem.imem 0 s.work.declLen = stream →
    ∃ k t, Runs k s t ∧ t.seq.phase = .idle ∧ t.host.status = 0x02 ∧
      t.host.resultLen = x.length ∧ result t = x
end

