-- ==== Sys2Proof/Laws/Memory.lean ====
section
/-!
SUPPORT. The laws of memory: what a read gives after a write or a store, and that every operation
keeps the canonical form.
-/

namespace Sys2Proof.Machine

theorem Memory.read_nil (a : Nat) : Memory.read a [] = Memory.unlisted := rfl

theorem Memory.read_cell (a x : Nat) (b : Byte) :
    Memory.read x (Memory.cell a b) = if a = x then b else Memory.unlisted := by
  unfold Memory.cell
  split
  · next h => subst h; simp [Memory.read]
  · simp [Memory.read]

theorem Memory.read_append_cell (a x : Nat) (b : Byte) (m : Memory)
    (h : a = x → b = Memory.unlisted → Memory.read x m = Memory.unlisted) :
    Memory.read x (Memory.cell a b ++ m) = if a = x then b else Memory.read x m := by
  unfold Memory.cell
  by_cases hb : b = Memory.unlisted
  · by_cases hx : a = x
    · simp [hb, hx, h hx hb]
    · simp [hb, hx]
  · simp [hb, Memory.read]

/-- The addresses of a canonical memory rise, so an address below the first is unlisted. -/
theorem Memory.read_below (m : Memory) (x : Nat) (h : m.all (fun c => x < c.1) = true) :
    Memory.read x m = Memory.unlisted := by
  induction m with
  | nil => rfl
  | cons c m ih =>
    obtain ⟨k, v⟩ := c
    simp only [List.all_cons, Bool.and_eq_true, decide_eq_true_eq] at h
    have hk : ¬ k = x := by omega
    simp only [Memory.read, hk, if_false]
    exact ih h.2

theorem Memory.wf_tail {c : Host.Cell} {m : Memory} (h : Memory.wf (c :: m) = true) :
    Memory.wf m = true := by
  simp only [Memory.wf, Bool.and_eq_true] at h
  exact h.2

theorem Memory.all_lt_mono {m : Memory} {k x : Nat} (hx : x ≤ k)
    (h : m.all (fun c => k < c.1) = true) : m.all (fun c => x < c.1) = true := by
  simp only [List.all_eq_true, decide_eq_true_eq] at *
  intro c hc
  have := h c hc
  omega

/-- A write is read back, and every other address reads as before. -/
theorem Memory.read_write (m : Memory) (a x : Nat) (b : Byte) (h : Memory.wf m = true) :
    Memory.read x (Memory.write a b m) = if a = x then b else Memory.read x m := by
  induction m with
  | nil => simpa [Memory.write, Memory.read_nil] using Memory.read_cell a x b
  | cons c m ih =>
    obtain ⟨k, v⟩ := c
    have hm : Memory.wf m = true := Memory.wf_tail h
    simp only [Memory.wf, Bool.and_eq_true] at h
    obtain ⟨⟨-, hall⟩, -⟩ := h
    simp only [Memory.write]
    split
    · next hlt =>
      apply Memory.read_append_cell
      intro hax _
      subst hax
      have hk : ¬ k = a := by omega
      simp only [Memory.read, hk, if_false]
      exact Memory.read_below m a (Memory.all_lt_mono (by omega) hall)
    · split
      · next _ hk =>
        subst hk
        rw [Memory.read_append_cell]
        · simp only [Memory.read]
          split <;> rfl
        · intro hax _
          subst hax
          exact Memory.read_below m k hall
      · next h1 h2 =>
        simp only [Memory.read]
        by_cases hkx : k = x
        · subst hkx
          have : ¬ a = k := fun e => h2 e.symm
          simp [this]
        · simp [hkx, ih hm]

theorem Memory.all_write {m : Memory} {a k : Nat} {b : Byte} (hk : k < a)
    (h : m.all (fun c => k < c.1) = true) :
    (Memory.write a b m).all (fun c => k < c.1) = true := by
  have hc : (Memory.cell a b).all (fun c => k < c.1) = true := by
    unfold Memory.cell; split <;> simp [hk]
  induction m with
  | nil => exact hc
  | cons c m ih =>
    obtain ⟨j, v⟩ := c
    simp only [List.all_cons, Bool.and_eq_true] at h
    simp only [Memory.write]
    split
    · simp only [List.all_append, List.all_cons, Bool.and_eq_true]
      exact ⟨hc, h.1, h.2⟩
    · split
      · simp only [List.all_append, Bool.and_eq_true]
        exact ⟨hc, h.2⟩
      · simp only [List.all_cons, Bool.and_eq_true]
        exact ⟨h.1, ih h.2⟩

theorem Memory.wf_cell_append {m : Memory} {a : Nat} {b : Byte} (hm : Memory.wf m = true)
    (h : m.all (fun c => a < c.1) = true) : Memory.wf (Memory.cell a b ++ m) = true := by
  unfold Memory.cell
  split
  · simpa using hm
  · next hb => simp [Memory.wf, hb, hm, h]

/-- A write keeps the canonical form. -/
theorem Memory.wf_write {m : Memory} {a : Nat} {b : Byte} (h : Memory.wf m = true) :
    Memory.wf (Memory.write a b m) = true := by
  induction m with
  | nil =>
    have := Memory.wf_cell_append (m := []) (a := a) (b := b) rfl rfl
    simpa [Memory.write] using this
  | cons c m ih =>
    obtain ⟨k, v⟩ := c
    have hm := Memory.wf_tail h
    have h' := h
    simp only [Memory.wf, Bool.and_eq_true] at h'
    obtain ⟨⟨hv, hall⟩, -⟩ := h'
    simp only [Memory.write]
    split
    · next hlt =>
      refine Memory.wf_cell_append h ?_
      simp only [List.all_cons, Bool.and_eq_true, decide_eq_true_eq]
      exact ⟨hlt, Memory.all_lt_mono (by omega) hall⟩
    · split
      · next _ hk => subst hk; exact Memory.wf_cell_append hm hall
      · next h1 h2 =>
        simp only [Memory.wf, Bool.and_eq_true]
        exact ⟨⟨hv, Memory.all_write (by omega) hall⟩, ih hm⟩

theorem Memory.wf_nil : Memory.wf [] = true := rfl

/-- A store keeps the canonical form. -/
theorem Memory.wf_store (bs : List Byte) {m : Memory} (a : Nat) (h : Memory.wf m = true) :
    Memory.wf (Memory.store a bs m) = true := by
  induction bs generalizing a m with
  | nil => exact h
  | cons b bs ih => exact ih (a + 1) (Memory.wf_write h)

/-- A store puts its bytes at its addresses and changes no other. -/
theorem Memory.stored_store (bs : List Byte) {m : Memory} (a : Nat) (h : Memory.wf m = true) :
    Stored m (Memory.store a bs m) a bs := by
  induction bs generalizing a m with
  | nil =>
    intro x
    have : ¬ (a ≤ x ∧ x < a + ([] : List Byte).length) := by simp
    simp only [this, if_false]; rfl
  | cons b bs ih =>
    intro x
    rw [Memory.store, ih (a + 1) (Memory.wf_write h) x, Memory.read_write m a x b h]
    by_cases hx : a = x
    · subst hx
      have h1 : ¬ (a + 1 ≤ a ∧ a < a + 1 + bs.length) := by omega
      have h2 : a ≤ a ∧ a < a + (b :: bs).length := by simp
      simp only [h1, h2, if_false, if_true]
      simp
    · by_cases h1 : a + 1 ≤ x ∧ x < a + 1 + bs.length
      · have h2 : a ≤ x ∧ x < a + (b :: bs).length := by simp; omega
        have h3 : x - a = (x - (a + 1)) + 1 := by omega
        simp only [h1, h2, h3]
        simp
      · have h2 : ¬ (a ≤ x ∧ x < a + (b :: bs).length) := by simp only [List.length_cons]; omega
        simp only [h1, h2, hx, if_false]

@[simp] theorem Memory.range_length (m : Memory) (a n : Nat) : (Memory.range m a n).length = n := by
  induction n generalizing a with
  | zero => rfl
  | succ n ih => simp [Memory.range, ih]

/-- The bytes of a range are what its addresses read as. -/
theorem Memory.range_getD (m : Memory) (a n i : Nat) (h : i < n) :
    (Memory.range m a n).getD i 0 = Memory.read (a + i) m := by
  induction n generalizing a i with
  | zero => omega
  | succ n ih =>
    cases i with
    | zero => simp [Memory.range]
    | succ i =>
      have := ih (a + 1) i (by omega)
      simp only [Memory.range, List.getD_cons_succ, this]
      congr 1
      omega

/-- Two stores one after the other are one. -/
theorem Stored.append {m m' m'' : Memory} {a : Nat} {bs cs : List Byte}
    (h1 : Stored m m' a bs) (h2 : Stored m' m'' (a + bs.length) cs) :
    Stored m m'' a (bs ++ cs) := by
  intro x
  rw [h2 x, h1 x]
  have hl : (bs ++ cs).length = bs.length + cs.length := by simp
  by_cases hc : a + bs.length ≤ x ∧ x < a + bs.length + cs.length
  · have h3 : a ≤ x ∧ x < a + (bs ++ cs).length := by omega
    simp only [hc, h3]
    have h4 : x - a = bs.length + (x - (a + bs.length)) := by omega
    simp only [List.getD_eq_getElem?_getD, h4]
    rw [List.getElem?_append_right (by omega), Nat.add_sub_cancel_left]
    simp
  · by_cases hb : a ≤ x ∧ x < a + bs.length
    · have h3 : a ≤ x ∧ x < a + (bs ++ cs).length := by omega
      simp only [hc, hb, h3, if_false]
      simp only [List.getD_eq_getElem?_getD]
      rw [List.getElem?_append_left (by omega)]
    · have h3 : ¬ (a ≤ x ∧ x < a + (bs ++ cs).length) := by omega
      simp only [hc, hb, h3, if_false]

theorem Stored.nil (m : Memory) (a : Nat) : Stored m m a [] := by
  intro x
  have : ¬ (a ≤ x ∧ x < a + ([] : List Byte).length) := by simp
  simp only [this, if_false]

theorem Memory.stored_write {m : Memory} (a : Nat) (b : Byte) (h : Memory.wf m = true) :
    Stored m (Memory.write a b m) a [b] := Memory.stored_store [b] a h

end Sys2Proof.Machine
end

