-- ==== Sys2Proof/Laws/State.lean ====
section
/-!
SUPPORT. One lemma for each named update of the state and each part it has (a group of registers it
leaves alone, or a register of a group it touches), so that no proof unfolds a record update.
-/

namespace Sys2Proof.Machine

@[simp] theorem dropFlagMsb_host (s : State) :
    (dropFlagMsb s).host = s.host := rfl

@[simp] theorem dropFlagMsb_env (s : State) :
    (dropFlagMsb s).env = s.env := rfl

@[simp] theorem dropFlagMsb_declLen (s : State) :
    (dropFlagMsb s).work.declLen = s.work.declLen := rfl

@[simp] theorem dropFlagMsb_inPos (s : State) : (dropFlagMsb s).work.inPos = s.work.inPos := rfl

@[simp] theorem dropFlagMsb_outLen (s : State) : (dropFlagMsb s).work.outLen = s.work.outLen := rfl

@[simp] theorem dropFlagMsb_decSize (s : State) :
    (dropFlagMsb s).work.decSize = s.work.decSize := rfl

@[simp] theorem dropFlagMsb_flags (s : State) :
    (dropFlagMsb s).work.flags = s.work.flags <<< 1 := rfl

@[simp] theorem dropFlagMsb_flagCnt (s : State) :
    (dropFlagMsb s).work.flagCnt = s.work.flagCnt - 1 := rfl

@[simp] theorem dropFlagMsb_bitbuf (s : State) : (dropFlagMsb s).work.bitbuf = s.work.bitbuf := rfl

@[simp] theorem dropFlagMsb_bitCnt (s : State) : (dropFlagMsb s).work.bitCnt = s.work.bitCnt := rfl

@[simp] theorem dropFlagMsb_nodePos (s : State) :
    (dropFlagMsb s).work.nodePos = s.work.nodePos := rfl

@[simp] theorem dropFlagMsb_treeLen (s : State) :
    (dropFlagMsb s).work.treeLen = s.work.treeLen := rfl

@[simp] theorem dropFlagMsb_treeBase (s : State) :
    (dropFlagMsb s).work.treeBase = s.work.treeBase := rfl

@[simp] theorem dropFlagMsb_nib (s : State) : (dropFlagMsb s).work.nib = s.work.nib := rfl

@[simp] theorem dropFlagMsb_nibValid (s : State) :
    (dropFlagMsb s).work.nibValid = s.work.nibValid := rfl

@[simp] theorem dropFlagMsb_tokPos (s : State) : (dropFlagMsb s).work.tokPos = s.work.tokPos := rfl

@[simp] theorem dropFlagMsb_tokL (s : State) : (dropFlagMsb s).work.tokL = s.work.tokL := rfl

@[simp] theorem dropFlagMsb_tokD (s : State) : (dropFlagMsb s).work.tokD = s.work.tokD := rfl

@[simp] theorem dropFlagMsb_ovl (s : State) :
    (dropFlagMsb s).ovl = s.ovl := rfl

@[simp] theorem dropFlagMsb_enc (s : State) :
    (dropFlagMsb s).enc = s.enc := rfl

@[simp] theorem dropFlagMsb_mem (s : State) :
    (dropFlagMsb s).mem = s.mem := rfl

@[simp] theorem dropFlagMsb_seq (s : State) :
    (dropFlagMsb s).seq = s.seq := rfl

@[simp] theorem dropFlagLsb_host (s : State) :
    (dropFlagLsb s).host = s.host := rfl

@[simp] theorem dropFlagLsb_env (s : State) :
    (dropFlagLsb s).env = s.env := rfl

@[simp] theorem dropFlagLsb_declLen (s : State) :
    (dropFlagLsb s).work.declLen = s.work.declLen := rfl

@[simp] theorem dropFlagLsb_inPos (s : State) : (dropFlagLsb s).work.inPos = s.work.inPos := rfl

@[simp] theorem dropFlagLsb_outLen (s : State) : (dropFlagLsb s).work.outLen = s.work.outLen := rfl

@[simp] theorem dropFlagLsb_decSize (s : State) :
    (dropFlagLsb s).work.decSize = s.work.decSize := rfl

@[simp] theorem dropFlagLsb_flags (s : State) :
    (dropFlagLsb s).work.flags = s.work.flags >>> 1 := rfl

@[simp] theorem dropFlagLsb_flagCnt (s : State) :
    (dropFlagLsb s).work.flagCnt = s.work.flagCnt - 1 := rfl

@[simp] theorem dropFlagLsb_bitbuf (s : State) : (dropFlagLsb s).work.bitbuf = s.work.bitbuf := rfl

@[simp] theorem dropFlagLsb_bitCnt (s : State) : (dropFlagLsb s).work.bitCnt = s.work.bitCnt := rfl

@[simp] theorem dropFlagLsb_nodePos (s : State) :
    (dropFlagLsb s).work.nodePos = s.work.nodePos := rfl

@[simp] theorem dropFlagLsb_treeLen (s : State) :
    (dropFlagLsb s).work.treeLen = s.work.treeLen := rfl

@[simp] theorem dropFlagLsb_treeBase (s : State) :
    (dropFlagLsb s).work.treeBase = s.work.treeBase := rfl

@[simp] theorem dropFlagLsb_nib (s : State) : (dropFlagLsb s).work.nib = s.work.nib := rfl

@[simp] theorem dropFlagLsb_nibValid (s : State) :
    (dropFlagLsb s).work.nibValid = s.work.nibValid := rfl

@[simp] theorem dropFlagLsb_tokPos (s : State) : (dropFlagLsb s).work.tokPos = s.work.tokPos := rfl

@[simp] theorem dropFlagLsb_tokL (s : State) : (dropFlagLsb s).work.tokL = s.work.tokL := rfl

@[simp] theorem dropFlagLsb_tokD (s : State) : (dropFlagLsb s).work.tokD = s.work.tokD := rfl

@[simp] theorem dropFlagLsb_ovl (s : State) :
    (dropFlagLsb s).ovl = s.ovl := rfl

@[simp] theorem dropFlagLsb_enc (s : State) :
    (dropFlagLsb s).enc = s.enc := rfl

@[simp] theorem dropFlagLsb_mem (s : State) :
    (dropFlagLsb s).mem = s.mem := rfl

@[simp] theorem dropFlagLsb_seq (s : State) :
    (dropFlagLsb s).seq = s.seq := rfl

@[simp] theorem loadFlags_host (f : Byte) (s : State) :
    (loadFlags f s).host = s.host := rfl

@[simp] theorem loadFlags_env (f : Byte) (s : State) :
    (loadFlags f s).env = s.env := rfl

@[simp] theorem loadFlags_declLen (f : Byte) (s : State) :
    (loadFlags f s).work.declLen = s.work.declLen := rfl

@[simp] theorem loadFlags_inPos (f : Byte) (s : State) :
    (loadFlags f s).work.inPos = s.work.inPos := rfl

@[simp] theorem loadFlags_outLen (f : Byte) (s : State) :
    (loadFlags f s).work.outLen = s.work.outLen := rfl

@[simp] theorem loadFlags_decSize (f : Byte) (s : State) :
    (loadFlags f s).work.decSize = s.work.decSize := rfl

@[simp] theorem loadFlags_flags (f : Byte) (s : State) : (loadFlags f s).work.flags = f := rfl

@[simp] theorem loadFlags_flagCnt (f : Byte) (s : State) : (loadFlags f s).work.flagCnt = 8 := rfl

@[simp] theorem loadFlags_bitbuf (f : Byte) (s : State) :
    (loadFlags f s).work.bitbuf = s.work.bitbuf := rfl

@[simp] theorem loadFlags_bitCnt (f : Byte) (s : State) :
    (loadFlags f s).work.bitCnt = s.work.bitCnt := rfl

@[simp] theorem loadFlags_nodePos (f : Byte) (s : State) :
    (loadFlags f s).work.nodePos = s.work.nodePos := rfl

@[simp] theorem loadFlags_treeLen (f : Byte) (s : State) :
    (loadFlags f s).work.treeLen = s.work.treeLen := rfl

@[simp] theorem loadFlags_treeBase (f : Byte) (s : State) :
    (loadFlags f s).work.treeBase = s.work.treeBase := rfl

@[simp] theorem loadFlags_nib (f : Byte) (s : State) : (loadFlags f s).work.nib = s.work.nib := rfl

@[simp] theorem loadFlags_nibValid (f : Byte) (s : State) :
    (loadFlags f s).work.nibValid = s.work.nibValid := rfl

@[simp] theorem loadFlags_tokPos (f : Byte) (s : State) :
    (loadFlags f s).work.tokPos = s.work.tokPos := rfl

@[simp] theorem loadFlags_tokL (f : Byte) (s : State) :
    (loadFlags f s).work.tokL = s.work.tokL := rfl

@[simp] theorem loadFlags_tokD (f : Byte) (s : State) :
    (loadFlags f s).work.tokD = s.work.tokD := rfl

@[simp] theorem loadFlags_ovl (f : Byte) (s : State) :
    (loadFlags f s).ovl = s.ovl := rfl

@[simp] theorem loadFlags_enc (f : Byte) (s : State) :
    (loadFlags f s).enc = s.enc := rfl

@[simp] theorem loadFlags_mem (f : Byte) (s : State) :
    (loadFlags f s).mem = s.mem := rfl

@[simp] theorem loadFlags_seq (f : Byte) (s : State) :
    (loadFlags f s).seq = s.seq := rfl

@[simp] theorem dropBit_host (s : State) :
    (dropBit s).host = s.host := rfl

@[simp] theorem dropBit_env (s : State) :
    (dropBit s).env = s.env := rfl

@[simp] theorem dropBit_declLen (s : State) : (dropBit s).work.declLen = s.work.declLen := rfl

@[simp] theorem dropBit_inPos (s : State) : (dropBit s).work.inPos = s.work.inPos := rfl

@[simp] theorem dropBit_outLen (s : State) : (dropBit s).work.outLen = s.work.outLen := rfl

@[simp] theorem dropBit_decSize (s : State) : (dropBit s).work.decSize = s.work.decSize := rfl

@[simp] theorem dropBit_flags (s : State) : (dropBit s).work.flags = s.work.flags := rfl

@[simp] theorem dropBit_flagCnt (s : State) : (dropBit s).work.flagCnt = s.work.flagCnt := rfl

@[simp] theorem dropBit_bitbuf (s : State) : (dropBit s).work.bitbuf = s.work.bitbuf <<< 1 := rfl

@[simp] theorem dropBit_bitCnt (s : State) : (dropBit s).work.bitCnt = s.work.bitCnt - 1 := rfl

@[simp] theorem dropBit_nodePos (s : State) : (dropBit s).work.nodePos = s.work.nodePos := rfl

@[simp] theorem dropBit_treeLen (s : State) : (dropBit s).work.treeLen = s.work.treeLen := rfl

@[simp] theorem dropBit_treeBase (s : State) : (dropBit s).work.treeBase = s.work.treeBase := rfl

@[simp] theorem dropBit_nib (s : State) : (dropBit s).work.nib = s.work.nib := rfl

@[simp] theorem dropBit_nibValid (s : State) : (dropBit s).work.nibValid = s.work.nibValid := rfl

@[simp] theorem dropBit_tokPos (s : State) : (dropBit s).work.tokPos = s.work.tokPos := rfl

@[simp] theorem dropBit_tokL (s : State) : (dropBit s).work.tokL = s.work.tokL := rfl

@[simp] theorem dropBit_tokD (s : State) : (dropBit s).work.tokD = s.work.tokD := rfl

@[simp] theorem dropBit_ovl (s : State) :
    (dropBit s).ovl = s.ovl := rfl

@[simp] theorem dropBit_enc (s : State) :
    (dropBit s).enc = s.enc := rfl

@[simp] theorem dropBit_mem (s : State) :
    (dropBit s).mem = s.mem := rfl

@[simp] theorem dropBit_seq (s : State) :
    (dropBit s).seq = s.seq := rfl

@[simp] theorem loadBits_host (w : BitVec 32) (s : State) :
    (loadBits w s).host = s.host := rfl

@[simp] theorem loadBits_env (w : BitVec 32) (s : State) :
    (loadBits w s).env = s.env := rfl

@[simp] theorem loadBits_declLen (w : BitVec 32) (s : State) :
    (loadBits w s).work.declLen = s.work.declLen := rfl

@[simp] theorem loadBits_inPos (w : BitVec 32) (s : State) :
    (loadBits w s).work.inPos = s.work.inPos := rfl

@[simp] theorem loadBits_outLen (w : BitVec 32) (s : State) :
    (loadBits w s).work.outLen = s.work.outLen := rfl

@[simp] theorem loadBits_decSize (w : BitVec 32) (s : State) :
    (loadBits w s).work.decSize = s.work.decSize := rfl

@[simp] theorem loadBits_flags (w : BitVec 32) (s : State) :
    (loadBits w s).work.flags = s.work.flags := rfl

@[simp] theorem loadBits_flagCnt (w : BitVec 32) (s : State) :
    (loadBits w s).work.flagCnt = s.work.flagCnt := rfl

@[simp] theorem loadBits_bitbuf (w : BitVec 32) (s : State) : (loadBits w s).work.bitbuf = w := rfl

@[simp] theorem loadBits_bitCnt (w : BitVec 32) (s : State) : (loadBits w s).work.bitCnt = 32 := rfl

@[simp] theorem loadBits_nodePos (w : BitVec 32) (s : State) :
    (loadBits w s).work.nodePos = s.work.nodePos := rfl

@[simp] theorem loadBits_treeLen (w : BitVec 32) (s : State) :
    (loadBits w s).work.treeLen = s.work.treeLen := rfl

@[simp] theorem loadBits_treeBase (w : BitVec 32) (s : State) :
    (loadBits w s).work.treeBase = s.work.treeBase := rfl

@[simp] theorem loadBits_nib (w : BitVec 32) (s : State) :
    (loadBits w s).work.nib = s.work.nib := rfl

@[simp] theorem loadBits_nibValid (w : BitVec 32) (s : State) :
    (loadBits w s).work.nibValid = s.work.nibValid := rfl

@[simp] theorem loadBits_tokPos (w : BitVec 32) (s : State) :
    (loadBits w s).work.tokPos = s.work.tokPos := rfl

@[simp] theorem loadBits_tokL (w : BitVec 32) (s : State) :
    (loadBits w s).work.tokL = s.work.tokL := rfl

@[simp] theorem loadBits_tokD (w : BitVec 32) (s : State) :
    (loadBits w s).work.tokD = s.work.tokD := rfl

@[simp] theorem loadBits_ovl (w : BitVec 32) (s : State) :
    (loadBits w s).ovl = s.ovl := rfl

@[simp] theorem loadBits_enc (w : BitVec 32) (s : State) :
    (loadBits w s).enc = s.enc := rfl

@[simp] theorem loadBits_mem (w : BitVec 32) (s : State) :
    (loadBits w s).mem = s.mem := rfl

@[simp] theorem loadBits_seq (w : BitVec 32) (s : State) :
    (loadBits w s).seq = s.seq := rfl

@[simp] theorem beginToken_host (s : State) :
    (beginToken s).host = s.host := rfl

@[simp] theorem beginToken_env (s : State) :
    (beginToken s).env = s.env := rfl

@[simp] theorem beginToken_declLen (s : State) : (beginToken s).work.declLen = s.work.declLen := rfl

@[simp] theorem beginToken_inPos (s : State) : (beginToken s).work.inPos = s.work.inPos := rfl

@[simp] theorem beginToken_outLen (s : State) : (beginToken s).work.outLen = s.work.outLen := rfl

@[simp] theorem beginToken_decSize (s : State) : (beginToken s).work.decSize = s.work.decSize := rfl

@[simp] theorem beginToken_flags (s : State) : (beginToken s).work.flags = s.work.flags := rfl

@[simp] theorem beginToken_flagCnt (s : State) : (beginToken s).work.flagCnt = s.work.flagCnt := rfl

@[simp] theorem beginToken_bitbuf (s : State) : (beginToken s).work.bitbuf = s.work.bitbuf := rfl

@[simp] theorem beginToken_bitCnt (s : State) : (beginToken s).work.bitCnt = s.work.bitCnt := rfl

@[simp] theorem beginToken_nodePos (s : State) : (beginToken s).work.nodePos = s.work.nodePos := rfl

@[simp] theorem beginToken_treeLen (s : State) : (beginToken s).work.treeLen = s.work.treeLen := rfl

@[simp] theorem beginToken_treeBase (s : State) :
    (beginToken s).work.treeBase = s.work.treeBase := rfl

@[simp] theorem beginToken_nib (s : State) : (beginToken s).work.nib = s.work.nib := rfl

@[simp] theorem beginToken_nibValid (s : State) :
    (beginToken s).work.nibValid = s.work.nibValid := rfl

@[simp] theorem beginToken_tokPos (s : State) : (beginToken s).work.tokPos = s.work.inPos := rfl

@[simp] theorem beginToken_tokL (s : State) : (beginToken s).work.tokL = s.work.tokL := rfl

@[simp] theorem beginToken_tokD (s : State) : (beginToken s).work.tokD = s.work.tokD := rfl

@[simp] theorem beginToken_ovl (s : State) :
    (beginToken s).ovl = s.ovl := rfl

@[simp] theorem beginToken_enc (s : State) :
    (beginToken s).enc = s.enc := rfl

@[simp] theorem beginToken_mem (s : State) :
    (beginToken s).mem = s.mem := rfl

@[simp] theorem beginToken_seq (s : State) :
    (beginToken s).seq = s.seq := rfl

@[simp] theorem ovlPut_host (b : Byte) (s : State) :
    (ovlPut b s).host = s.host := rfl

@[simp] theorem ovlPut_env (b : Byte) (s : State) :
    (ovlPut b s).env = s.env := rfl

@[simp] theorem ovlPut_work (b : Byte) (s : State) :
    (ovlPut b s).work = s.work := rfl

@[simp] theorem ovlPut_extra (b : Byte) (s : State) : (ovlPut b s).ovl.extra = s.ovl.extra := rfl

@[simp] theorem ovlPut_hs (b : Byte) (s : State) : (ovlPut b s).ovl.hs = s.ovl.hs := rfl

@[simp] theorem ovlPut_cl (b : Byte) (s : State) : (ovlPut b s).ovl.cl = s.ovl.cl := rfl

@[simp] theorem ovlPut_p (b : Byte) (s : State) : (ovlPut b s).ovl.p = s.ovl.p := rfl

@[simp] theorem ovlPut_u (b : Byte) (s : State) : (ovlPut b s).ovl.u = s.ovl.u := rfl

@[simp] theorem ovlPut_ip (b : Byte) (s : State) : (ovlPut b s).ovl.ip = s.ovl.ip := rfl

@[simp] theorem ovlPut_op (b : Byte) (s : State) : (ovlPut b s).ovl.op = s.ovl.op - 1 := rfl

@[simp] theorem ovlPut_w (b : Byte) (s : State) : (ovlPut b s).ovl.w = s.ovl.w + 1 := rfl

@[simp] theorem ovlPut_enc (b : Byte) (s : State) :
    (ovlPut b s).enc = s.enc := rfl

@[simp] theorem ovlPut_imem (b : Byte) (s : State) : (ovlPut b s).mem.imem = s.mem.imem := rfl

@[simp] theorem ovlPut_omem (b : Byte) (s : State) : (ovlPut b s).mem.omem = s.mem.omem := rfl

@[simp] theorem ovlPut_win (b : Byte) (s : State) : (ovlPut b s).mem.win = s.mem.win := rfl

@[simp] theorem ovlPut_tree (b : Byte) (s : State) : (ovlPut b s).mem.tree = s.mem.tree := rfl

@[simp] theorem ovlPut_ovlbuf (b : Byte) (s : State) :
    (ovlPut b s).mem.ovlbuf = Memory.write (s.ovl.op - 1) b s.mem.ovlbuf := rfl

@[simp] theorem ovlPut_cbuf (b : Byte) (s : State) : (ovlPut b s).mem.cbuf = s.mem.cbuf := rfl

@[simp] theorem ovlPut_seq (b : Byte) (s : State) :
    (ovlPut b s).seq = s.seq := rfl

@[simp] theorem startRun_host (s : State) :
    (startRun s).host = s.host := rfl

@[simp] theorem startRun_env (s : State) :
    (startRun s).env = s.env := rfl

@[simp] theorem startRun_declLen (s : State) :
    (startRun s).work.declLen = s.host.argLen.toNat := rfl

@[simp] theorem startRun_inPos (s : State) : (startRun s).work.inPos = 0 := rfl

@[simp] theorem startRun_outLen (s : State) : (startRun s).work.outLen = 0 := rfl

@[simp] theorem startRun_decSize (s : State) : (startRun s).work.decSize = 0 := rfl

@[simp] theorem startRun_flags (s : State) : (startRun s).work.flags = s.work.flags := rfl

@[simp] theorem startRun_flagCnt (s : State) : (startRun s).work.flagCnt = 0 := rfl

@[simp] theorem startRun_bitbuf (s : State) : (startRun s).work.bitbuf = s.work.bitbuf := rfl

@[simp] theorem startRun_bitCnt (s : State) : (startRun s).work.bitCnt = 0 := rfl

@[simp] theorem startRun_nodePos (s : State) : (startRun s).work.nodePos = 1 := rfl

@[simp] theorem startRun_treeLen (s : State) : (startRun s).work.treeLen = s.work.treeLen := rfl

@[simp] theorem startRun_treeBase (s : State) : (startRun s).work.treeBase = s.work.treeBase := rfl

@[simp] theorem startRun_nib (s : State) : (startRun s).work.nib = s.work.nib := rfl

@[simp] theorem startRun_nibValid (s : State) : (startRun s).work.nibValid = false := rfl

@[simp] theorem startRun_tokPos (s : State) : (startRun s).work.tokPos = s.work.tokPos := rfl

@[simp] theorem startRun_tokL (s : State) : (startRun s).work.tokL = s.work.tokL := rfl

@[simp] theorem startRun_tokD (s : State) : (startRun s).work.tokD = s.work.tokD := rfl

@[simp] theorem startRun_ovl (s : State) :
    (startRun s).ovl = s.ovl := rfl

@[simp] theorem startRun_encPos (s : State) : (startRun s).enc.encPos = 0 := rfl

@[simp] theorem startRun_grpFlags (s : State) : (startRun s).enc.grpFlags = 0 := rfl

@[simp] theorem startRun_grpCnt (s : State) : (startRun s).enc.grpCnt = 0 := rfl

@[simp] theorem startRun_litCnt (s : State) : (startRun s).enc.litCnt = 0 := rfl

@[simp] theorem startRun_wbuf (s : State) : (startRun s).enc.wbuf = 0 := rfl

@[simp] theorem startRun_wcnt (s : State) : (startRun s).enc.wcnt = 0 := rfl

@[simp] theorem startRun_freq (s : State) : (startRun s).enc.freq = s.enc.freq := rfl

@[simp] theorem startRun_arena (s : State) : (startRun s).enc.arena = s.enc.arena := rfl

@[simp] theorem startRun_leafQ (s : State) : (startRun s).enc.leafQ = s.enc.leafQ := rfl

@[simp] theorem startRun_nodeQ (s : State) : (startRun s).enc.nodeQ = s.enc.nodeQ := rfl

@[simp] theorem startRun_order (s : State) : (startRun s).enc.order = s.enc.order := rfl

@[simp] theorem startRun_code (s : State) : (startRun s).enc.code = s.enc.code := rfl

@[simp] theorem startRun_cost (s : State) : (startRun s).enc.cost = s.enc.cost := rfl

@[simp] theorem startRun_choice (s : State) : (startRun s).enc.choice = s.enc.choice := rfl

@[simp] theorem startRun_mem (s : State) :
    (startRun s).mem = s.mem := rfl

@[simp] theorem startRun_seq (s : State) :
    (startRun s).seq = s.seq := rfl

@[simp] theorem commandStart_cmd (s : State) : (commandStart s).host.cmd = s.host.cmd := rfl

@[simp] theorem commandStart_argLen (s : State) :
    (commandStart s).host.argLen = s.host.argLen := rfl

@[simp] theorem commandStart_ctrl (s : State) : (commandStart s).host.ctrl = s.host.ctrl := rfl

@[simp] theorem commandStart_status (s : State) :
    (commandStart s).host.status = statusBusy s.host.status := rfl

@[simp] theorem commandStart_resultLen (s : State) :
    (commandStart s).host.resultLen = s.host.resultLen := rfl

@[simp] theorem commandStart_errPos (s : State) :
    (commandStart s).host.errPos = s.host.errPos := rfl

@[simp] theorem commandStart_errWritten (s : State) :
    (commandStart s).host.errWritten = s.host.errWritten := rfl

@[simp] theorem commandStart_errExpected (s : State) :
    (commandStart s).host.errExpected = s.host.errExpected := rfl

@[simp] theorem commandStart_lastSub (s : State) :
    (commandStart s).host.lastSub = s.host.lastSub := rfl

@[simp] theorem commandStart_env (s : State) :
    (commandStart s).env = s.env := rfl

@[simp] theorem commandStart_declLen (s : State) :
    (commandStart s).work.declLen = s.host.argLen.toNat := rfl

@[simp] theorem commandStart_inPos (s : State) : (commandStart s).work.inPos = 0 := rfl

@[simp] theorem commandStart_outLen (s : State) : (commandStart s).work.outLen = 0 := rfl

@[simp] theorem commandStart_decSize (s : State) : (commandStart s).work.decSize = 0 := rfl

@[simp] theorem commandStart_flags (s : State) : (commandStart s).work.flags = s.work.flags := rfl

@[simp] theorem commandStart_flagCnt (s : State) : (commandStart s).work.flagCnt = 0 := rfl

@[simp] theorem commandStart_bitbuf (s : State) :
    (commandStart s).work.bitbuf = s.work.bitbuf := rfl

@[simp] theorem commandStart_bitCnt (s : State) : (commandStart s).work.bitCnt = 0 := rfl

@[simp] theorem commandStart_nodePos (s : State) : (commandStart s).work.nodePos = 1 := rfl

@[simp] theorem commandStart_treeLen (s : State) :
    (commandStart s).work.treeLen = s.work.treeLen := rfl

@[simp] theorem commandStart_treeBase (s : State) :
    (commandStart s).work.treeBase = s.work.treeBase := rfl

@[simp] theorem commandStart_nib (s : State) : (commandStart s).work.nib = s.work.nib := rfl

@[simp] theorem commandStart_nibValid (s : State) : (commandStart s).work.nibValid = false := rfl

@[simp] theorem commandStart_tokPos (s : State) :
    (commandStart s).work.tokPos = s.work.tokPos := rfl

@[simp] theorem commandStart_tokL (s : State) : (commandStart s).work.tokL = s.work.tokL := rfl

@[simp] theorem commandStart_tokD (s : State) : (commandStart s).work.tokD = s.work.tokD := rfl

@[simp] theorem commandStart_ovl (s : State) :
    (commandStart s).ovl = s.ovl := rfl

@[simp] theorem commandStart_encPos (s : State) : (commandStart s).enc.encPos = 0 := rfl

@[simp] theorem commandStart_grpFlags (s : State) : (commandStart s).enc.grpFlags = 0 := rfl

@[simp] theorem commandStart_grpCnt (s : State) : (commandStart s).enc.grpCnt = 0 := rfl

@[simp] theorem commandStart_litCnt (s : State) : (commandStart s).enc.litCnt = 0 := rfl

@[simp] theorem commandStart_wbuf (s : State) : (commandStart s).enc.wbuf = 0 := rfl

@[simp] theorem commandStart_wcnt (s : State) : (commandStart s).enc.wcnt = 0 := rfl

@[simp] theorem commandStart_freq (s : State) : (commandStart s).enc.freq = s.enc.freq := rfl

@[simp] theorem commandStart_arena (s : State) : (commandStart s).enc.arena = s.enc.arena := rfl

@[simp] theorem commandStart_leafQ (s : State) : (commandStart s).enc.leafQ = s.enc.leafQ := rfl

@[simp] theorem commandStart_nodeQ (s : State) : (commandStart s).enc.nodeQ = s.enc.nodeQ := rfl

@[simp] theorem commandStart_order (s : State) : (commandStart s).enc.order = s.enc.order := rfl

@[simp] theorem commandStart_code (s : State) : (commandStart s).enc.code = s.enc.code := rfl

@[simp] theorem commandStart_cost (s : State) : (commandStart s).enc.cost = s.enc.cost := rfl

@[simp] theorem commandStart_choice (s : State) : (commandStart s).enc.choice = s.enc.choice := rfl

@[simp] theorem commandStart_mem (s : State) :
    (commandStart s).mem = s.mem := rfl

@[simp] theorem commandStart_phase (s : State) : (commandStart s).seq.phase = .idle := rfl

@[simp] theorem commandStart_trial (s : State) : (commandStart s).seq.trial = none := rfl

@[simp] theorem commandStart_nodeByte (s : State) :
    (commandStart s).seq.nodeByte = s.seq.nodeByte := rfl

@[simp] theorem commandStart_leafPos (s : State) :
    (commandStart s).seq.leafPos = s.seq.leafPos := rfl

@[simp] theorem respond_cmd (st : BitVec 32) (r p w x : Nat) (l : BitVec 4) (s : State) :
    (respond st r p w x l s).host.cmd = s.host.cmd := rfl

@[simp] theorem respond_argLen (st : BitVec 32) (r p w x : Nat) (l : BitVec 4) (s : State) :
    (respond st r p w x l s).host.argLen = s.host.argLen := rfl

@[simp] theorem respond_ctrl (st : BitVec 32) (r p w x : Nat) (l : BitVec 4) (s : State) :
    (respond st r p w x l s).host.ctrl = s.host.ctrl := rfl

@[simp] theorem respond_status (st : BitVec 32) (r p w x : Nat) (l : BitVec 4) (s : State) :
    (respond st r p w x l s).host.status = st := rfl

@[simp] theorem respond_resultLen (st : BitVec 32) (r p w x : Nat) (l : BitVec 4) (s : State) :
    (respond st r p w x l s).host.resultLen = r := rfl

@[simp] theorem respond_errPos (st : BitVec 32) (r p w x : Nat) (l : BitVec 4) (s : State) :
    (respond st r p w x l s).host.errPos = p := rfl

@[simp] theorem respond_errWritten (st : BitVec 32) (r p w x : Nat) (l : BitVec 4) (s : State) :
    (respond st r p w x l s).host.errWritten = w := rfl

@[simp] theorem respond_errExpected (st : BitVec 32) (r p w x : Nat) (l : BitVec 4) (s : State) :
    (respond st r p w x l s).host.errExpected = x := rfl

@[simp] theorem respond_lastSub (st : BitVec 32) (r p w x : Nat) (l : BitVec 4) (s : State) :
    (respond st r p w x l s).host.lastSub = l := rfl

@[simp] theorem respond_srcLen (st : BitVec 32) (r p w x : Nat) (l : BitVec 4) (s : State) :
    (respond st r p w x l s).env.srcLen = s.env.srcLen := rfl

@[simp] theorem respond_ioFault (st : BitVec 32) (r p w x : Nat) (l : BitVec 4) (s : State) :
    (respond st r p w x l s).env.ioFault = none := rfl

@[simp] theorem respond_huf8Order (st : BitVec 32) (r p w x : Nat) (l : BitVec 4) (s : State) :
    (respond st r p w x l s).env.huf8Order = s.env.huf8Order := rfl

@[simp] theorem respond_hostQ (st : BitVec 32) (r p w x : Nat) (l : BitVec 4) (s : State) :
    (respond st r p w x l s).env.hostQ = s.env.hostQ := rfl

@[simp] theorem respond_work (st : BitVec 32) (r p w x : Nat) (l : BitVec 4) (s : State) :
    (respond st r p w x l s).work = s.work := rfl

@[simp] theorem respond_ovl (st : BitVec 32) (r p w x : Nat) (l : BitVec 4) (s : State) :
    (respond st r p w x l s).ovl = s.ovl := rfl

@[simp] theorem respond_enc (st : BitVec 32) (r p w x : Nat) (l : BitVec 4) (s : State) :
    (respond st r p w x l s).enc = s.enc := rfl

@[simp] theorem respond_mem (st : BitVec 32) (r p w x : Nat) (l : BitVec 4) (s : State) :
    (respond st r p w x l s).mem = s.mem := rfl

@[simp] theorem respond_phase (st : BitVec 32) (r p w x : Nat) (l : BitVec 4) (s : State) :
    (respond st r p w x l s).seq.phase = .idle := rfl

@[simp] theorem respond_trial (st : BitVec 32) (r p w x : Nat) (l : BitVec 4) (s : State) :
    (respond st r p w x l s).seq.trial = none := rfl

@[simp] theorem respond_nodeByte (st : BitVec 32) (r p w x : Nat) (l : BitVec 4) (s : State) :
    (respond st r p w x l s).seq.nodeByte = s.seq.nodeByte := rfl

@[simp] theorem respond_leafPos (st : BitVec 32) (r p w x : Nat) (l : BitVec 4) (s : State) :
    (respond st r p w x l s).seq.leafPos = s.seq.leafPos := rfl

@[simp] theorem endOk_cmd (r : Nat) (t : Bool) (l : BitVec 4) (s : State) :
    (endOk r t l s).host.cmd = s.host.cmd := rfl

@[simp] theorem endOk_argLen (r : Nat) (t : Bool) (l : BitVec 4) (s : State) :
    (endOk r t l s).host.argLen = s.host.argLen := rfl

@[simp] theorem endOk_ctrl (r : Nat) (t : Bool) (l : BitVec 4) (s : State) :
    (endOk r t l s).host.ctrl = s.host.ctrl := rfl

@[simp] theorem endOk_status (r : Nat) (t : Bool) (l : BitVec 4) (s : State) :
    (endOk r t l s).host.status = statusWord stateDone 0 t := rfl

@[simp] theorem endOk_resultLen (r : Nat) (t : Bool) (l : BitVec 4) (s : State) :
    (endOk r t l s).host.resultLen = r := rfl

@[simp] theorem endOk_errPos (r : Nat) (t : Bool) (l : BitVec 4) (s : State) :
    (endOk r t l s).host.errPos = 0 := rfl

@[simp] theorem endOk_errWritten (r : Nat) (t : Bool) (l : BitVec 4) (s : State) :
    (endOk r t l s).host.errWritten = 0 := rfl

@[simp] theorem endOk_errExpected (r : Nat) (t : Bool) (l : BitVec 4) (s : State) :
    (endOk r t l s).host.errExpected = 0 := rfl

@[simp] theorem endOk_lastSub (r : Nat) (t : Bool) (l : BitVec 4) (s : State) :
    (endOk r t l s).host.lastSub = l := rfl

@[simp] theorem endOk_srcLen (r : Nat) (t : Bool) (l : BitVec 4) (s : State) :
    (endOk r t l s).env.srcLen = s.env.srcLen := rfl

@[simp] theorem endOk_ioFault (r : Nat) (t : Bool) (l : BitVec 4) (s : State) :
    (endOk r t l s).env.ioFault = none := rfl

@[simp] theorem endOk_huf8Order (r : Nat) (t : Bool) (l : BitVec 4) (s : State) :
    (endOk r t l s).env.huf8Order = s.env.huf8Order := rfl

@[simp] theorem endOk_hostQ (r : Nat) (t : Bool) (l : BitVec 4) (s : State) :
    (endOk r t l s).env.hostQ = s.env.hostQ := rfl

@[simp] theorem endOk_work (r : Nat) (t : Bool) (l : BitVec 4) (s : State) :
    (endOk r t l s).work = s.work := rfl

@[simp] theorem endOk_ovl (r : Nat) (t : Bool) (l : BitVec 4) (s : State) :
    (endOk r t l s).ovl = s.ovl := rfl

@[simp] theorem endOk_enc (r : Nat) (t : Bool) (l : BitVec 4) (s : State) :
    (endOk r t l s).enc = s.enc := rfl

@[simp] theorem endOk_mem (r : Nat) (t : Bool) (l : BitVec 4) (s : State) :
    (endOk r t l s).mem = s.mem := rfl

@[simp] theorem endOk_phase (r : Nat) (t : Bool) (l : BitVec 4) (s : State) :
    (endOk r t l s).seq.phase = .idle := rfl

@[simp] theorem endOk_trial (r : Nat) (t : Bool) (l : BitVec 4) (s : State) :
    (endOk r t l s).seq.trial = none := rfl

@[simp] theorem endOk_nodeByte (r : Nat) (t : Bool) (l : BitVec 4) (s : State) :
    (endOk r t l s).seq.nodeByte = s.seq.nodeByte := rfl

@[simp] theorem endOk_leafPos (r : Nat) (t : Bool) (l : BitVec 4) (s : State) :
    (endOk r t l s).seq.leafPos = s.seq.leafPos := rfl

@[simp] theorem failWith_cmd (e : Err) (s : State) : (failWith e s).host.cmd = s.host.cmd := rfl

@[simp] theorem failWith_argLen (e : Err) (s : State) :
    (failWith e s).host.argLen = s.host.argLen := rfl

@[simp] theorem failWith_ctrl (e : Err) (s : State) : (failWith e s).host.ctrl = s.host.ctrl := rfl

@[simp] theorem failWith_status (e : Err) (s : State) :
    (failWith e s).host.status = statusWord stateDone (errCode e) false := rfl

@[simp] theorem failWith_resultLen (e : Err) (s : State) : (failWith e s).host.resultLen = 0 := rfl

@[simp] theorem failWith_errPos (e : Err) (s : State) :
    (failWith e s).host.errPos = errPosOf e := rfl

@[simp] theorem failWith_errWritten (e : Err) (s : State) :
    (failWith e s).host.errWritten = errWrittenOf e := rfl

@[simp] theorem failWith_errExpected (e : Err) (s : State) :
    (failWith e s).host.errExpected = errExpectedOf e := rfl

@[simp] theorem failWith_lastSub (e : Err) (s : State) : (failWith e s).host.lastSub = noSub := rfl

@[simp] theorem failWith_srcLen (e : Err) (s : State) :
    (failWith e s).env.srcLen = s.env.srcLen := rfl

@[simp] theorem failWith_ioFault (e : Err) (s : State) : (failWith e s).env.ioFault = none := rfl

@[simp] theorem failWith_huf8Order (e : Err) (s : State) :
    (failWith e s).env.huf8Order = s.env.huf8Order := rfl

@[simp] theorem failWith_hostQ (e : Err) (s : State) : (failWith e s).env.hostQ = s.env.hostQ := rfl

@[simp] theorem failWith_work (e : Err) (s : State) :
    (failWith e s).work = s.work := rfl

@[simp] theorem failWith_ovl (e : Err) (s : State) :
    (failWith e s).ovl = s.ovl := rfl

@[simp] theorem failWith_enc (e : Err) (s : State) :
    (failWith e s).enc = s.enc := rfl

@[simp] theorem failWith_mem (e : Err) (s : State) :
    (failWith e s).mem = s.mem := rfl

@[simp] theorem failWith_phase (e : Err) (s : State) : (failWith e s).seq.phase = .idle := rfl

@[simp] theorem failWith_trial (e : Err) (s : State) : (failWith e s).seq.trial = none := rfl

@[simp] theorem failWith_nodeByte (e : Err) (s : State) :
    (failWith e s).seq.nodeByte = s.seq.nodeByte := rfl

@[simp] theorem failWith_leafPos (e : Err) (s : State) :
    (failWith e s).seq.leafPos = s.seq.leafPos := rfl

@[simp] theorem beginTrial_host (k : Codec) (ks : List Codec) (s : State) :
    (beginTrial k ks s).host = s.host := rfl

@[simp] theorem beginTrial_env (k : Codec) (ks : List Codec) (s : State) :
    (beginTrial k ks s).env = s.env := rfl

@[simp] theorem beginTrial_declLen (k : Codec) (ks : List Codec) (s : State) :
    (beginTrial k ks s).work.declLen = s.host.argLen.toNat := rfl

@[simp] theorem beginTrial_inPos (k : Codec) (ks : List Codec) (s : State) :
    (beginTrial k ks s).work.inPos = 0 := rfl

@[simp] theorem beginTrial_outLen (k : Codec) (ks : List Codec) (s : State) :
    (beginTrial k ks s).work.outLen = 0 := rfl

@[simp] theorem beginTrial_decSize (k : Codec) (ks : List Codec) (s : State) :
    (beginTrial k ks s).work.decSize = 0 := rfl

@[simp] theorem beginTrial_flags (k : Codec) (ks : List Codec) (s : State) :
    (beginTrial k ks s).work.flags = s.work.flags := rfl

@[simp] theorem beginTrial_flagCnt (k : Codec) (ks : List Codec) (s : State) :
    (beginTrial k ks s).work.flagCnt = 0 := rfl

@[simp] theorem beginTrial_bitbuf (k : Codec) (ks : List Codec) (s : State) :
    (beginTrial k ks s).work.bitbuf = s.work.bitbuf := rfl

@[simp] theorem beginTrial_bitCnt (k : Codec) (ks : List Codec) (s : State) :
    (beginTrial k ks s).work.bitCnt = 0 := rfl

@[simp] theorem beginTrial_nodePos (k : Codec) (ks : List Codec) (s : State) :
    (beginTrial k ks s).work.nodePos = 1 := rfl

@[simp] theorem beginTrial_treeLen (k : Codec) (ks : List Codec) (s : State) :
    (beginTrial k ks s).work.treeLen = s.work.treeLen := rfl

@[simp] theorem beginTrial_treeBase (k : Codec) (ks : List Codec) (s : State) :
    (beginTrial k ks s).work.treeBase = s.work.treeBase := rfl

@[simp] theorem beginTrial_nib (k : Codec) (ks : List Codec) (s : State) :
    (beginTrial k ks s).work.nib = s.work.nib := rfl

@[simp] theorem beginTrial_nibValid (k : Codec) (ks : List Codec) (s : State) :
    (beginTrial k ks s).work.nibValid = false := rfl

@[simp] theorem beginTrial_tokPos (k : Codec) (ks : List Codec) (s : State) :
    (beginTrial k ks s).work.tokPos = s.work.tokPos := rfl

@[simp] theorem beginTrial_tokL (k : Codec) (ks : List Codec) (s : State) :
    (beginTrial k ks s).work.tokL = s.work.tokL := rfl

@[simp] theorem beginTrial_tokD (k : Codec) (ks : List Codec) (s : State) :
    (beginTrial k ks s).work.tokD = s.work.tokD := rfl

@[simp] theorem beginTrial_ovl (k : Codec) (ks : List Codec) (s : State) :
    (beginTrial k ks s).ovl = s.ovl := rfl

@[simp] theorem beginTrial_encPos (k : Codec) (ks : List Codec) (s : State) :
    (beginTrial k ks s).enc.encPos = 0 := rfl

@[simp] theorem beginTrial_grpFlags (k : Codec) (ks : List Codec) (s : State) :
    (beginTrial k ks s).enc.grpFlags = 0 := rfl

@[simp] theorem beginTrial_grpCnt (k : Codec) (ks : List Codec) (s : State) :
    (beginTrial k ks s).enc.grpCnt = 0 := rfl

@[simp] theorem beginTrial_litCnt (k : Codec) (ks : List Codec) (s : State) :
    (beginTrial k ks s).enc.litCnt = 0 := rfl

@[simp] theorem beginTrial_wbuf (k : Codec) (ks : List Codec) (s : State) :
    (beginTrial k ks s).enc.wbuf = 0 := rfl

@[simp] theorem beginTrial_wcnt (k : Codec) (ks : List Codec) (s : State) :
    (beginTrial k ks s).enc.wcnt = 0 := rfl

@[simp] theorem beginTrial_freq (k : Codec) (ks : List Codec) (s : State) :
    (beginTrial k ks s).enc.freq = s.enc.freq := rfl

@[simp] theorem beginTrial_arena (k : Codec) (ks : List Codec) (s : State) :
    (beginTrial k ks s).enc.arena = s.enc.arena := rfl

@[simp] theorem beginTrial_leafQ (k : Codec) (ks : List Codec) (s : State) :
    (beginTrial k ks s).enc.leafQ = s.enc.leafQ := rfl

@[simp] theorem beginTrial_nodeQ (k : Codec) (ks : List Codec) (s : State) :
    (beginTrial k ks s).enc.nodeQ = s.enc.nodeQ := rfl

@[simp] theorem beginTrial_order (k : Codec) (ks : List Codec) (s : State) :
    (beginTrial k ks s).enc.order = s.enc.order := rfl

@[simp] theorem beginTrial_code (k : Codec) (ks : List Codec) (s : State) :
    (beginTrial k ks s).enc.code = s.enc.code := rfl

@[simp] theorem beginTrial_cost (k : Codec) (ks : List Codec) (s : State) :
    (beginTrial k ks s).enc.cost = s.enc.cost := rfl

@[simp] theorem beginTrial_choice (k : Codec) (ks : List Codec) (s : State) :
    (beginTrial k ks s).enc.choice = s.enc.choice := rfl

@[simp] theorem beginTrial_imem (k : Codec) (ks : List Codec) (s : State) :
    (beginTrial k ks s).mem.imem = s.mem.imem := rfl

@[simp] theorem beginTrial_omem (k : Codec) (ks : List Codec) (s : State) :
    (beginTrial k ks s).mem.omem = s.mem.omem := rfl

@[simp] theorem beginTrial_win (k : Codec) (ks : List Codec) (s : State) :
    (beginTrial k ks s).mem.win = s.mem.win := rfl

@[simp] theorem beginTrial_tree (k : Codec) (ks : List Codec) (s : State) :
    (beginTrial k ks s).mem.tree = s.mem.tree := rfl

@[simp] theorem beginTrial_ovlbuf (k : Codec) (ks : List Codec) (s : State) :
    (beginTrial k ks s).mem.ovlbuf = s.mem.ovlbuf := rfl

@[simp] theorem beginTrial_cbuf (k : Codec) (ks : List Codec) (s : State) :
    (beginTrial k ks s).mem.cbuf = [] := rfl

@[simp] theorem beginTrial_phase (k : Codec) (ks : List Codec) (s : State) :
    (beginTrial k ks s).seq.phase = s.seq.phase := rfl

@[simp] theorem beginTrial_trial (k : Codec) (ks : List Codec) (s : State) :
    (beginTrial k ks s).seq.trial = some ⟨k, ks⟩ := rfl

@[simp] theorem beginTrial_nodeByte (k : Codec) (ks : List Codec) (s : State) :
    (beginTrial k ks s).seq.nodeByte = s.seq.nodeByte := rfl

@[simp] theorem beginTrial_leafPos (k : Codec) (ks : List Codec) (s : State) :
    (beginTrial k ks s).seq.leafPos = s.seq.leafPos := rfl

@[simp] theorem toRoot_host (s : State) :
    (toRoot s).host = s.host := rfl

@[simp] theorem toRoot_env (s : State) :
    (toRoot s).env = s.env := rfl

@[simp] theorem toRoot_declLen (s : State) : (toRoot s).work.declLen = s.work.declLen := rfl

@[simp] theorem toRoot_inPos (s : State) : (toRoot s).work.inPos = s.work.inPos := rfl

@[simp] theorem toRoot_outLen (s : State) : (toRoot s).work.outLen = s.work.outLen := rfl

@[simp] theorem toRoot_decSize (s : State) : (toRoot s).work.decSize = s.work.decSize := rfl

@[simp] theorem toRoot_flags (s : State) : (toRoot s).work.flags = s.work.flags := rfl

@[simp] theorem toRoot_flagCnt (s : State) : (toRoot s).work.flagCnt = s.work.flagCnt := rfl

@[simp] theorem toRoot_bitbuf (s : State) : (toRoot s).work.bitbuf = s.work.bitbuf := rfl

@[simp] theorem toRoot_bitCnt (s : State) : (toRoot s).work.bitCnt = s.work.bitCnt := rfl

@[simp] theorem toRoot_nodePos (s : State) : (toRoot s).work.nodePos = 1 := rfl

@[simp] theorem toRoot_treeLen (s : State) : (toRoot s).work.treeLen = s.work.treeLen := rfl

@[simp] theorem toRoot_treeBase (s : State) : (toRoot s).work.treeBase = s.work.treeBase := rfl

@[simp] theorem toRoot_nib (s : State) : (toRoot s).work.nib = s.work.nib := rfl

@[simp] theorem toRoot_nibValid (s : State) : (toRoot s).work.nibValid = s.work.nibValid := rfl

@[simp] theorem toRoot_tokPos (s : State) : (toRoot s).work.tokPos = s.work.tokPos := rfl

@[simp] theorem toRoot_tokL (s : State) : (toRoot s).work.tokL = s.work.tokL := rfl

@[simp] theorem toRoot_tokD (s : State) : (toRoot s).work.tokD = s.work.tokD := rfl

@[simp] theorem toRoot_ovl (s : State) :
    (toRoot s).ovl = s.ovl := rfl

@[simp] theorem toRoot_enc (s : State) :
    (toRoot s).enc = s.enc := rfl

@[simp] theorem toRoot_mem (s : State) :
    (toRoot s).mem = s.mem := rfl

@[simp] theorem toRoot_phase (s : State) : (toRoot s).seq.phase = afterLeaf s.seq.phase := rfl

@[simp] theorem toRoot_trial (s : State) : (toRoot s).seq.trial = s.seq.trial := rfl

@[simp] theorem toRoot_nodeByte (s : State) : (toRoot s).seq.nodeByte = s.seq.nodeByte := rfl

@[simp] theorem toRoot_leafPos (s : State) : (toRoot s).seq.leafPos = s.seq.leafPos := rfl

@[simp] theorem ovlStart_host (s : State) :
    (ovlStart s).host = s.host := rfl

@[simp] theorem ovlStart_env (s : State) :
    (ovlStart s).env = s.env := rfl

@[simp] theorem ovlStart_declLen (s : State) : (ovlStart s).work.declLen = s.work.declLen := rfl

@[simp] theorem ovlStart_inPos (s : State) : (ovlStart s).work.inPos = s.work.inPos := rfl

@[simp] theorem ovlStart_outLen (s : State) : (ovlStart s).work.outLen = s.work.outLen := rfl

@[simp] theorem ovlStart_decSize (s : State) : (ovlStart s).work.decSize = s.work.decSize := rfl

@[simp] theorem ovlStart_flags (s : State) : (ovlStart s).work.flags = s.work.flags := rfl

@[simp] theorem ovlStart_flagCnt (s : State) : (ovlStart s).work.flagCnt = 0 := rfl

@[simp] theorem ovlStart_bitbuf (s : State) : (ovlStart s).work.bitbuf = s.work.bitbuf := rfl

@[simp] theorem ovlStart_bitCnt (s : State) : (ovlStart s).work.bitCnt = s.work.bitCnt := rfl

@[simp] theorem ovlStart_nodePos (s : State) : (ovlStart s).work.nodePos = s.work.nodePos := rfl

@[simp] theorem ovlStart_treeLen (s : State) : (ovlStart s).work.treeLen = s.work.treeLen := rfl

@[simp] theorem ovlStart_treeBase (s : State) : (ovlStart s).work.treeBase = s.work.treeBase := rfl

@[simp] theorem ovlStart_nib (s : State) : (ovlStart s).work.nib = s.work.nib := rfl

@[simp] theorem ovlStart_nibValid (s : State) : (ovlStart s).work.nibValid = s.work.nibValid := rfl

@[simp] theorem ovlStart_tokPos (s : State) : (ovlStart s).work.tokPos = s.work.tokPos := rfl

@[simp] theorem ovlStart_tokL (s : State) : (ovlStart s).work.tokL = s.work.tokL := rfl

@[simp] theorem ovlStart_tokD (s : State) : (ovlStart s).work.tokD = s.work.tokD := rfl

@[simp] theorem ovlStart_extra (s : State) : (ovlStart s).ovl.extra = s.ovl.extra := rfl

@[simp] theorem ovlStart_hs (s : State) : (ovlStart s).ovl.hs = s.ovl.hs := rfl

@[simp] theorem ovlStart_cl (s : State) : (ovlStart s).ovl.cl = s.ovl.cl := rfl

@[simp] theorem ovlStart_p (s : State) :
    (ovlStart s).ovl.p = s.work.declLen - s.ovl.hs - s.ovl.cl := rfl

@[simp] theorem ovlStart_u (s : State) : (ovlStart s).ovl.u = s.ovl.cl + s.ovl.extra := rfl

@[simp] theorem ovlStart_ip (s : State) :
    (ovlStart s).ovl.ip = s.work.declLen - s.ovl.hs - s.ovl.cl + s.ovl.cl := rfl

@[simp] theorem ovlStart_op (s : State) :
    (ovlStart s).ovl.op = s.work.declLen - s.ovl.hs - s.ovl.cl + (s.ovl.cl + s.ovl.extra) := rfl

@[simp] theorem ovlStart_w (s : State) : (ovlStart s).ovl.w = 0 := rfl

@[simp] theorem ovlStart_enc (s : State) :
    (ovlStart s).enc = s.enc := rfl

@[simp] theorem ovlStart_imem (s : State) : (ovlStart s).mem.imem = s.mem.imem := rfl

@[simp] theorem ovlStart_omem (s : State) : (ovlStart s).mem.omem = s.mem.omem := rfl

@[simp] theorem ovlStart_win (s : State) : (ovlStart s).mem.win = s.mem.win := rfl

@[simp] theorem ovlStart_tree (s : State) : (ovlStart s).mem.tree = s.mem.tree := rfl

@[simp] theorem ovlStart_ovlbuf (s : State) :
    (ovlStart s).mem.ovlbuf =
      Memory.store 0 (Memory.range s.mem.imem 0 (s.work.declLen - s.ovl.hs - s.ovl.cl)) [] := rfl

@[simp] theorem ovlStart_cbuf (s : State) : (ovlStart s).mem.cbuf = s.mem.cbuf := rfl

@[simp] theorem ovlStart_phase (s : State) : (ovlStart s).seq.phase = .ovlBody := rfl

@[simp] theorem ovlStart_trial (s : State) : (ovlStart s).seq.trial = s.seq.trial := rfl

@[simp] theorem ovlStart_nodeByte (s : State) : (ovlStart s).seq.nodeByte = s.seq.nodeByte := rfl

@[simp] theorem ovlStart_leafPos (s : State) : (ovlStart s).seq.leafPos = s.seq.leafPos := rfl

/-! ### The status word (spec/10_state.md R33) -/

@[simp] theorem statusState_word (st : BitVec 2) (e : BitVec 4) (t : Bool) :
    statusState (statusWord st e t) = st := by
  revert st e t; decide +kernel

@[simp] theorem statusErr_word (st : BitVec 2) (e : BitVec 4) (t : Bool) :
    statusErr (statusWord st e t) = e := by
  revert st e t; decide +kernel

@[simp] theorem statusTmi_word (st : BitVec 2) (e : BitVec 4) (t : Bool) :
    statusTmi (statusWord st e t) = t := by
  revert st e t; decide +kernel

@[simp] theorem statusReserved_word (st : BitVec 2) (e : BitVec 4) (t : Bool) :
    (statusWord st e t).extractLsb' 7 25 = 0 := by
  revert st e t; decide +kernel

@[simp] theorem statusState_busy (w : BitVec 32) : statusState (statusBusy w) = stateBusy :=
  statusState_word _ _ _

@[simp] theorem statusErr_busy (w : BitVec 32) : statusErr (statusBusy w) = statusErr w :=
  statusErr_word _ _ _

@[simp] theorem statusTmi_busy (w : BitVec 32) : statusTmi (statusBusy w) = statusTmi w :=
  statusTmi_word _ _ _

end Sys2Proof.Machine
end

