-- ==== Sys2Proof/Laws/Ops.lean ====
section
/-!
SUPPORT. For each shared operation of Machine/Ops.lean, once, everything it can do: what it answers
when nothing is missing, which errors it raises, and which parts of the state it can touch.
-/

namespace Sys2Proof.Machine

/-! ### Runs -/

/-- The state a run leaves, whether it ended or raised. -/
def Run.final {α : Type} : Run α → State
  | .ok _ s => s
  | .raised _ s => s

@[simp] theorem Run.final_ok {α : Type} (a : α) (s : State) : (Run.ok a s).final = s := rfl

@[simp] theorem Run.final_raised {α : Type} (e : Err) (s : State) :
    (Run.raised e s : Run α).final = s := rfl

@[simp] theorem Run.bind_ok {α β : Type} (a : α) (s : State) (f : α → State → Run β) :
    (Run.ok a s).bind f = f a s := rfl

@[simp] theorem Run.bind_raised {α β : Type} (e : Err) (s : State) (f : α → State → Run β) :
    (Run.raised e s : Run α).bind f = .raised e s := rfl

/-- A piece followed by another ends only where both do. -/
theorem Run.bind_eq_ok {α β : Type} {r : Run α} {f : α → State → Run β} {b : β} {t : State}
    (h : r.bind f = .ok b t) : ∃ a u, r = .ok a u ∧ f a u = .ok b t := by
  cases r with
  | ok a u => exact ⟨a, u, rfl, h⟩
  | raised e u => cases h

/-- A piece followed by another raises where either does. -/
theorem Run.bind_eq_raised {α β : Type} {r : Run α} {f : α → State → Run β} {e : Err} {t : State}
    (h : r.bind f = .raised e t) :
    r = .raised e t ∨ ∃ a u, r = .ok a u ∧ f a u = .raised e t := by
  cases r with
  | ok a u => exact .inr ⟨a, u, rfl, h⟩
  | raised e' u => cases h; exact .inl rfl

/-- What holds of every state a piece leaves, by the state it starts from, holds of two in a row. -/
theorem Run.final_bind {α β : Type} {P : State → State → Prop} {r : Run α}
    {f : α → State → Run β} {s : State} (trans : ∀ a b c, P a b → P b c → P a c)
    (h1 : P s r.final) (h2 : ∀ a u, P u (f a u).final) : P s (r.bind f).final := by
  cases r with
  | ok a u => exact trans _ _ _ h1 (h2 a u)
  | raised e u => exact h1

@[simp] theorem settle_ok (s : State) : settle (.ok () s) = .next s := rfl

@[simp] theorem settle_raised (e : Err) (s : State) :
    settle (.raised e s) = .next (takeError e s) := rfl

/-- A piece always settles into a next state. -/
theorem settle_next (r : Run Unit) : ∃ t, settle r = .next t := by
  cases r with
  | ok a s => exact ⟨s, rfl⟩
  | raised e s => exact ⟨_, rfl⟩

/-! ### What reading and writing tokens can touch -/

/-- From `s` to `t` nothing changed but the input and output cursors, the two sinks, WIN and the
count of the I/O fault. -/
structure Moved (s t : State) : Prop where
  host : t.host = s.host
  env : t.env = { s.env with ioFault := t.env.ioFault }
  work : t.work = { s.work with inPos := t.work.inPos, outLen := t.work.outLen }
  ovl : t.ovl = s.ovl
  enc : t.enc = s.enc
  mem : t.mem = { s.mem with omem := t.mem.omem, win := t.mem.win, cbuf := t.mem.cbuf }
  seq : t.seq = s.seq

theorem Moved.refl (s : State) : Moved s s := ⟨rfl, rfl, rfl, rfl, rfl, rfl, rfl⟩

theorem Moved.trans (a b c : State) (h1 : Moved a b) (h2 : Moved b c) : Moved a c where
  host := h2.host.trans h1.host
  env := by rw [h2.env, h1.env]
  work := by rw [h2.work, h1.work]
  ovl := h2.ovl.trans h1.ovl
  enc := h2.enc.trans h1.enc
  mem := by rw [h2.mem, h1.mem]
  seq := h2.seq.trans h1.seq

/-! ### The ports -/

/-- With no fault due, accesses change nothing. -/
@[simp] theorem portAccesses_noFault (n : Nat) (s : State) (h : s.env.ioFault = none) :
    portAccesses n s = .ok () s := by
  simp [portAccesses, h]

/-- Accesses succeed and count, or the fault ends them (R78). -/
theorem portAccesses_cases (n : Nat) (s : State) :
    (∃ k, portAccesses n s = .ok () { s with env.ioFault := k }) ∨
    portAccesses n s = .raised .ioError { s with env.ioFault := none } := by
  unfold portAccesses
  split
  · next h => exact .inl ⟨none, by rw [← h]⟩
  · split
    · exact .inl ⟨_, rfl⟩
    · exact .inr rfl

theorem portAccesses_moved (n : Nat) (s : State) : Moved s (portAccesses n s).final := by
  rcases portAccesses_cases n s with ⟨k, h⟩ | h <;> rw [h] <;> exact ⟨rfl, rfl, rfl, rfl, rfl, rfl, rfl⟩

/-- A byte that is there is read (R63). -/
theorem inByte_readable {s : State} (h : Readable 1 s) :
    inByte s = .ok (Memory.read s.work.inPos s.mem.imem)
      { s with work.inPos := s.work.inPos + 1 } := by
  obtain ⟨h1, h2, h3⟩ := h
  have a : ¬ s.work.declLen ≤ s.work.inPos := by omega
  have b : ¬ s.env.srcLen ≤ s.work.inPos := by omega
  simp [inByte, a, b, h3]

/-- Beyond the declared length (R63, R462). -/
theorem inByte_undeclared {s : State} (h : s.work.declLen ≤ s.work.inPos) :
    inByte s = .raised (.notEnoughData s.work.outLen s.work.decSize) s := by
  simp [inByte, h]

/-- Below the declared length, beyond the source (R63, R463). -/
theorem inByte_undelivered {s : State} (h1 : s.work.inPos < s.work.declLen)
    (h2 : s.env.srcLen ≤ s.work.inPos) : inByte s = .raised .streamTooShort s := by
  have a : ¬ s.work.declLen ≤ s.work.inPos := by omega
  simp [inByte, a, h2]

/-- Everything `InByte` can do. -/
theorem inByte_cases (s : State) :
    (∃ k, s.work.inPos < s.work.declLen ∧ s.work.inPos < s.env.srcLen ∧
      inByte s = .ok (Memory.read s.work.inPos s.mem.imem)
        { s with env.ioFault := k, work.inPos := s.work.inPos + 1 }) ∨
    (s.work.declLen ≤ s.work.inPos ∧
      inByte s = .raised (.notEnoughData s.work.outLen s.work.decSize) s) ∨
    (s.work.inPos < s.work.declLen ∧ s.env.srcLen ≤ s.work.inPos ∧
      inByte s = .raised .streamTooShort s) ∨
    (s.work.inPos < s.work.declLen ∧ s.work.inPos < s.env.srcLen ∧
      inByte s = .raised .ioError { s with env.ioFault := none }) := by
  by_cases h1 : s.work.declLen ≤ s.work.inPos
  · exact .inr (.inl ⟨h1, inByte_undeclared h1⟩)
  · by_cases h2 : s.env.srcLen ≤ s.work.inPos
    · exact .inr (.inr (.inl ⟨by omega, h2, inByte_undelivered (by omega) h2⟩))
    · have e : inByte s = (portAccesses 1 s).bind fun _ s =>
          .ok (Memory.read s.work.inPos s.mem.imem) { s with work.inPos := s.work.inPos + 1 } := by
        simp [inByte, h1, h2]
      rw [e]
      rcases portAccesses_cases 1 s with ⟨k, h⟩ | h <;> rw [h]
      · exact .inl ⟨k, by omega, by omega, rfl⟩
      · exact .inr (.inr (.inr ⟨by omega, by omega, rfl⟩))

theorem inByte_moved (s : State) : Moved s (inByte s).final := by
  rcases inByte_cases s with ⟨k, -, -, h⟩ | ⟨-, h⟩ | ⟨-, -, h⟩ | ⟨-, -, h⟩ <;> rw [h] <;>
    exact ⟨rfl, rfl, rfl, rfl, rfl, rfl, rfl⟩

/-- The bytes of a token that are there are consumed. -/
theorem consume_readable {n : Nat} {s : State} (h : Readable n s) :
    consume n s = .ok () { s with work.inPos := s.work.inPos + n } := by
  induction n generalizing s with
  | zero => rfl
  | succ n ih =>
    obtain ⟨h1, h2, h3⟩ := h
    rw [consume, inByte_readable ⟨by omega, by omega, h3⟩]
    simp only [Run.bind_ok]
    refine (ih (s := { s with work.inPos := s.work.inPos + 1 }) ⟨?_, ?_, h3⟩).trans ?_
    · show s.work.inPos + 1 + n ≤ s.work.declLen; omega
    · show s.work.inPos + 1 + n ≤ s.env.srcLen; omega
    · simp only [Nat.add_assoc, Nat.add_comm 1 n]

/-- Where `consume` ends, exactly its bytes were passed, all declared and delivered. -/
theorem consume_ok {n : Nat} {s t : State} (h : consume n s = .ok () t) :
    ∃ k, t = { s with env.ioFault := k, work.inPos := s.work.inPos + n } ∧
      (n = 0 ∨ (s.work.inPos + n ≤ s.work.declLen ∧ s.work.inPos + n ≤ s.env.srcLen)) := by
  induction n generalizing s with
  | zero => cases h; exact ⟨_, rfl, .inl rfl⟩
  | succ n ih =>
    obtain ⟨b, u, h1, h2⟩ := Run.bind_eq_ok h
    rcases inByte_cases s with ⟨k, hd, hs, e⟩ | ⟨-, e⟩ | ⟨-, -, e⟩ | ⟨-, -, e⟩ <;> rw [e] at h1
    · cases h1
      obtain ⟨k', ht, hb⟩ := ih h2
      refine ⟨k', ?_, .inr ?_⟩
      · rw [ht]; simp only [Nat.add_assoc, Nat.add_comm 1 n]
      · rcases hb with hb | hb
        · subst hb; omega
        · simp only at hb; omega
    all_goals cases h1

/-- Where `consume` raises, it has passed the bytes that were there, and only an input error or an
I/O error is raised. -/
theorem consume_raised {n : Nat} {s t : State} {e : Err} (h : consume n s = .raised e t) :
    ∃ k j, j < n ∧ t = { s with env.ioFault := k, work.inPos := s.work.inPos + j } ∧
      (j = 0 ∨ s.work.inPos + j ≤ s.work.declLen) ∧
      (e = .notEnoughData s.work.outLen s.work.decSize ∨ e = .streamTooShort ∨ e = .ioError) := by
  induction n generalizing s with
  | zero => cases h
  | succ n ih =>
    rcases Run.bind_eq_raised h with h1 | ⟨b, u, h1, h2⟩
    · refine (?_ : ∃ k, t = { s with env.ioFault := k } ∧ _).elim fun k hk =>
        ⟨k, 0, by omega, hk.1, .inl rfl, hk.2⟩
      rcases inByte_cases s with ⟨k, -, -, e'⟩ | ⟨-, e'⟩ | ⟨-, -, e'⟩ | ⟨-, -, e'⟩ <;>
        rw [e'] at h1 <;> cases h1
      · exact ⟨_, rfl, .inl rfl⟩
      · exact ⟨_, rfl, .inr (.inl rfl)⟩
      · exact ⟨none, rfl, .inr (.inr rfl)⟩
    · rcases inByte_cases s with ⟨k, hd, -, e'⟩ | ⟨-, e'⟩ | ⟨-, -, e'⟩ | ⟨-, -, e'⟩ <;>
        rw [e'] at h1 <;> cases h1
      obtain ⟨k', j, hj, ht, hb, he⟩ := ih h2
      refine ⟨k', j + 1, by omega, ?_, .inr ?_, he⟩
      · rw [ht]; simp only [Nat.add_assoc, Nat.add_comm 1 j]
      · rcases hb with hb | hb
        · subst hb; omega
        · simp only at hb; omega

/-- A token of which only `j` bytes are there: they are passed, and the missing one raises what
`InByte` raises (R63, R65). -/
theorem consume_cut {n j : Nat} {s : State} (h : Readable j s) (hj : j < n)
    (he : s.work.inPos + j = s.work.declLen ∨ s.work.inPos + j = s.env.srcLen) :
    consume n s = .raised (if s.work.inPos + j = s.work.declLen then
        .notEnoughData s.work.outLen s.work.decSize else .streamTooShort)
      { s with work.inPos := s.work.inPos + j } := by
  obtain ⟨m, rfl⟩ : ∃ m, n = j + (m + 1) := ⟨n - j - 1, by omega⟩
  induction j generalizing s with
  | zero =>
    obtain ⟨h1, h2, -⟩ := h
    rw [Nat.zero_add, consume]
    by_cases hd : s.work.inPos + 0 = s.work.declLen
    · rw [inByte_undeclared (by omega), if_pos hd]; rfl
    · rw [inByte_undelivered (by omega) (by omega), if_neg hd]; rfl
  | succ j ih =>
    obtain ⟨h1, h2, h3⟩ := h
    rw [show j + 1 + (m + 1) = j + (m + 1) + 1 by omega, consume,
      inByte_readable ⟨by omega, by omega, h3⟩, Run.bind_ok]
    have e : s.work.inPos + 1 + j = s.work.inPos + (j + 1) := by omega
    refine (ih (s := { s with work.inPos := s.work.inPos + 1 }) ⟨?_, ?_, h3⟩ ?_ (by omega)).trans ?_
    · show s.work.inPos + 1 + j ≤ s.work.declLen; omega
    · show s.work.inPos + 1 + j ≤ s.env.srcLen; omega
    · show s.work.inPos + 1 + j = s.work.declLen ∨ s.work.inPos + 1 + j = s.env.srcLen; omega
    · simp only [e]

theorem consume_moved (n : Nat) (s : State) : Moved s (consume n s).final := by
  induction n generalizing s with
  | zero => exact Moved.refl s
  | succ n ih => exact Run.final_bind Moved.trans (inByte_moved s) fun _ u => ih u

/-- `InPeek` with no fault due: the byte if it is declared and delivered (R64). -/
theorem inPeek_noFault (a : Nat) (s : State) (h : s.env.ioFault = none) :
    inPeek a s = .ok (if a < s.work.declLen ∧ a < s.env.srcLen then
      some (Memory.read a s.mem.imem) else none) s := by
  unfold inPeek
  split
  · simp [h]
  · rfl

theorem inPeek_moved (a : Nat) (s : State) : Moved s (inPeek a s).final := by
  unfold inPeek
  split
  · exact Run.final_bind Moved.trans (portAccesses_moved 1 s) fun _ u => Moved.refl u
  · exact Moved.refl s

/-- From `s` to `t` nothing changed but the count of the I/O fault. -/
def Peeked (s t : State) : Prop := ∃ k, t = { s with env.ioFault := k }

theorem Peeked.refl (s : State) : Peeked s s := ⟨s.env.ioFault, rfl⟩

theorem Peeked.trans (a b c : State) (h1 : Peeked a b) (h2 : Peeked b c) : Peeked a c := by
  obtain ⟨k, rfl⟩ := h1
  obtain ⟨j, rfl⟩ := h2
  exact ⟨j, rfl⟩

theorem Peeked.moved {s t : State} (h : Peeked s t) : Moved s t := by
  obtain ⟨k, rfl⟩ := h
  exact ⟨rfl, rfl, rfl, rfl, rfl, rfl, rfl⟩

theorem portAccesses_peeked (n : Nat) (s : State) : Peeked s (portAccesses n s).final := by
  rcases portAccesses_cases n s with ⟨k, h⟩ | h <;> rw [h]
  · exact ⟨k, rfl⟩
  · exact ⟨none, rfl⟩

theorem inPeek_peeked (a : Nat) (s : State) : Peeked s (inPeek a s).final := by
  unfold inPeek
  split
  · exact Run.final_bind Peeked.trans (portAccesses_peeked 1 s) fun _ u => Peeked.refl u
  · exact Peeked.refl s

theorem peekAll_peeked (as : List Nat) (s : State) : Peeked s (peekAll as s).final := by
  induction as generalizing s with
  | nil => exact Peeked.refl s
  | cons a as ih =>
    refine Run.final_bind Peeked.trans (inPeek_peeked a s) fun b u => ?_
    cases b with
    | none => exact Peeked.refl u
    | some b => exact Run.final_bind Peeked.trans (ih u) fun _ v => Peeked.refl v

/-- With no fault due, `peekAll` gives the bytes if every address is declared and delivered. -/
theorem peekAll_noFault (as : List Nat) (s : State) (h : s.env.ioFault = none) :
    peekAll as s = .ok (if ∀ a ∈ as, a < s.work.declLen ∧ a < s.env.srcLen then
      some (as.map fun a => Memory.read a s.mem.imem) else none) s := by
  induction as with
  | nil => simp [peekAll]
  | cons a as ih =>
    rw [peekAll, inPeek_noFault a s h]
    simp only [Run.bind_ok]
    by_cases ha : a < s.work.declLen ∧ a < s.env.srcLen
    · simp only [ha, and_self, if_true, ih, Run.bind_ok, List.forall_mem_cons, true_and]
      split <;> simp
    · simp [ha]

theorem paddingOk_peeked (n a : Nat) (s : State) : Peeked s (paddingOk n a s).final := by
  induction n generalizing a s with
  | zero => exact Peeked.refl s
  | succ n ih =>
    refine Run.final_bind Peeked.trans (inPeek_peeked a s) fun b u => ?_
    show Peeked u (if b == some 0xFF then paddingOk n (a + 1) u else Run.ok false u).final
    split
    · exact ih _ u
    · exact Peeked.refl u

theorem supportsMagic_peeked (c : Fwd) (s : State) : Peeked s (supportsMagic c s).final := by
  unfold supportsMagic
  split
  · exact Peeked.refl s
  · exact Run.final_bind Peeked.trans (inPeek_peeked 0 s) fun _ u => Peeked.refl u

theorem supportsNull_peeked (s : State) : Peeked s (supportsNull s).final := by
  refine Run.final_bind Peeked.trans (supportsMagic_peeked .null s) fun m u => ?_
  cases m with
  | false => exact Peeked.refl u
  | true =>
    refine Run.final_bind Peeked.trans (peekAll_peeked _ u) fun bs v => ?_
    split
    · split
      · exact Peeked.refl v
      · split
        · exact Peeked.refl v
        · refine Run.final_bind Peeked.trans (peekAll_peeked _ v) fun xs w => ?_
          split <;> exact Peeked.refl w
    · exact Peeked.refl v

theorem supportsOvl_peeked (s : State) : Peeked s (supportsOvl s).final := by
  unfold supportsOvl
  dsimp only
  split
  · exact Peeked.refl s
  · refine Run.final_bind Peeked.trans (peekAll_peeked _ s) fun es u => ?_
    split
    · exact Peeked.refl u
    · split
      · exact Peeked.refl u
      · refine Run.final_bind Peeked.trans (peekAll_peeked _ u) fun ts v => ?_
        split
        · split
          · exact Peeked.refl v
          · exact paddingOk_peeked _ _ v
        · exact Peeked.refl v

/-- SUPPORTS only peeks (R133). -/
theorem supportsSimple_peeked (c : Codec) (s : State) : Peeked s (supportsSimple c s).final := by
  cases c <;> simp only [supportsSimple] <;>
    first
    | exact supportsNull_peeked s
    | exact supportsOvl_peeked s
    | exact supportsMagic_peeked _ s
    | exact Peeked.refl s

theorem supportsAny_peeked (ks : List Codec) (s : State) : Peeked s (supportsAny ks s).final := by
  induction ks generalizing s with
  | nil => exact Peeked.refl s
  | cons k ks ih =>
    refine Run.final_bind Peeked.trans (supportsSimple_peeked k s) fun b u => ?_
    cases b with
    | true => exact Peeked.refl u
    | false => exact ih u

theorem supports_peeked (c : Codec) (s : State) : Peeked s (supports c s).final := by
  unfold supports
  split
  · exact supportsSimple_peeked c s
  · exact supportsAny_peeked _ s

/-- Forward codecs but NULL, no fault due: byte 0 is there, is the magic, and at least four bytes are
declared. -/
theorem supportsMagic_noFault (c : Fwd) (s : State) (h : s.env.ioFault = none) :
    supportsMagic c s = .ok (decide (4 ≤ s.work.declLen ∧ 0 < s.env.srcLen ∧
      Memory.read 0 s.mem.imem = c.magic)) s := by
  unfold supportsMagic
  split
  · next h4 => simp; omega
  · next h4 =>
    rw [inPeek_noFault 0 s h, Run.bind_ok]
    by_cases h0 : 0 < s.env.srcLen
    · have : 0 < s.work.declLen ∧ 0 < s.env.srcLen := ⟨by omega, h0⟩
      simp only [this, and_self, if_true, Run.ok.injEq, and_true, true_and]
      rw [Bool.eq_iff_iff]
      simp
      omega
    · simp [h0]

/-! ### Output -/

theorem outByte_moved (b : Byte) (s : State) : Moved s (outByte b s).final := by
  unfold outByte
  split
  · exact ⟨rfl, rfl, rfl, rfl, rfl, rfl, rfl⟩
  · exact Run.final_bind Moved.trans (portAccesses_moved 1 s) fun _ u =>
      ⟨rfl, rfl, rfl, rfl, rfl, rfl, rfl⟩

theorem outByteWin_moved (b : Byte) (s : State) : Moved s (outByteWin b s).final :=
  Run.final_bind Moved.trans (outByte_moved b s) fun _ _ => ⟨rfl, rfl, rfl, rfl, rfl, rfl, rfl⟩

theorem outBytes_moved (bs : List Byte) (s : State) : Moved s (outBytes bs s).final := by
  induction bs generalizing s with
  | nil => exact Moved.refl s
  | cons b bs ih => exact Run.final_bind Moved.trans (outByte_moved b s) fun _ u => ih u

theorem copyBack_moved (l d : Nat) (s : State) : Moved s (copyBack l d s).final := by
  induction l generalizing s with
  | zero => exact Moved.refl s
  | succ l ih =>
    rw [copyBack]
    split
    · exact Moved.refl s
    · exact Run.final_bind Moved.trans (outByteWin_moved _ s) fun _ u => ih u

theorem repeatOut_moved (l : Nat) (d : Byte) (s : State) : Moved s (repeatOut l d s).final := by
  induction l generalizing s with
  | zero => exact Moved.refl s
  | succ l ih =>
    rw [repeatOut]
    split
    · exact Moved.refl s
    · exact Run.final_bind Moved.trans (outByte_moved _ s) fun _ u => ih u

theorem rawOut_moved (l : Nat) (s : State) : Moved s (rawOut l s).final := by
  induction l generalizing s with
  | zero => exact Moved.refl s
  | succ l ih =>
    rw [rawOut]
    split
    · exact Moved.refl s
    · exact Run.final_bind Moved.trans (inByte_moved s) fun b u =>
        Run.final_bind Moved.trans (outByte_moved b u) fun _ v => ih v

theorem copyThrough_moved (l a : Nat) (s : State) : Moved s (copyThrough l a s).final := by
  induction l generalizing a s with
  | zero => exact Moved.refl s
  | succ l ih =>
    exact Run.final_bind Moved.trans (portAccesses_moved 1 s) fun _ u =>
      Run.final_bind Moved.trans (outByte_moved _ u) fun _ v => ih _ v

/-- Everything `OutByte` can do (R66): the byte goes to the run's sink, or the port faults. -/
theorem outByte_cases (b : Byte) (s : State) :
    (∃ t, outByte b s = .ok () t ∧ t.work.outLen = s.work.outLen + 1 ∧
      t.work.inPos = s.work.inPos ∧ t.mem.win = s.mem.win ∧
      ((s.seq.trial = none ∧ t.mem.omem = Memory.write s.work.outLen b s.mem.omem ∧
          t.mem.cbuf = s.mem.cbuf) ∨
        (s.seq.trial ≠ none ∧ t.mem.cbuf = Memory.write s.work.outLen b s.mem.cbuf ∧
          t.mem.omem = s.mem.omem))) ∨
    (s.seq.trial = none ∧ outByte b s = .raised .ioError { s with env.ioFault := none }) := by
  unfold outByte
  split
  · next tr h => exact .inl ⟨_, rfl, rfl, rfl, rfl, .inr ⟨by simp [h], rfl, rfl⟩⟩
  · next h =>
    rcases portAccesses_cases 1 s with ⟨k, e⟩ | e <;> rw [e]
    · exact .inl ⟨_, rfl, rfl, rfl, rfl, .inl ⟨h, rfl, rfl⟩⟩
    · exact .inr ⟨h, rfl⟩

/-- With no fault due `OutByte` ends. -/
theorem outByte_noFault (b : Byte) (s : State) (h : s.env.ioFault = none) :
    outByte b s = .ok ()
      { s with work.outLen := s.work.outLen + 1,
               mem := { s.mem with
                 omem := if s.seq.trial = none then
                   Memory.write s.work.outLen b s.mem.omem else s.mem.omem
                 cbuf := if s.seq.trial = none then s.mem.cbuf else
                   Memory.write s.work.outLen b s.mem.cbuf } } := by
  unfold outByte
  split
  · next tr ht => simp [ht]
  · next ht => simp [ht, h]

/-! ### The memory laws of the operations -/

theorem MemInv.omem {s : State} (h : MemInv s) : Memory.wf s.mem.omem = true := h.2.1
theorem MemInv.imem {s : State} (h : MemInv s) : Memory.wf s.mem.imem = true := h.1
theorem MemInv.win {s : State} (h : MemInv s) : Memory.wf s.mem.win = true := h.2.2.1
theorem MemInv.tree {s : State} (h : MemInv s) : Memory.wf s.mem.tree = true := h.2.2.2.1
theorem MemInv.ovlbuf {s : State} (h : MemInv s) : Memory.wf s.mem.ovlbuf = true := h.2.2.2.2.1
theorem MemInv.cbuf {s : State} (h : MemInv s) : Memory.wf s.mem.cbuf = true := h.2.2.2.2.2

/-- Canonical memories stay canonical. -/
def KeepsMem (s t : State) : Prop := MemInv s → MemInv t

theorem KeepsMem.trans (a b c : State) (h1 : KeepsMem a b) (h2 : KeepsMem b c) : KeepsMem a c :=
  fun h => h2 (h1 h)

/-- Only the memories matter. -/
theorem KeepsMem.ofEq {s t : State} (h : t.mem = s.mem) : KeepsMem s t := by
  intro hs; unfold MemInv at *; rw [h]; exact hs

theorem portAccesses_mem (n : Nat) (s : State) : KeepsMem s (portAccesses n s).final := by
  rcases portAccesses_cases n s with ⟨k, h⟩ | h <;> rw [h] <;> exact KeepsMem.ofEq rfl

theorem inByte_mem (s : State) : KeepsMem s (inByte s).final := by
  rcases inByte_cases s with ⟨k, -, -, h⟩ | ⟨-, h⟩ | ⟨-, -, h⟩ | ⟨-, -, h⟩ <;> rw [h] <;>
    exact KeepsMem.ofEq rfl

theorem consume_mem (n : Nat) (s : State) : KeepsMem s (consume n s).final := by
  induction n generalizing s with
  | zero => exact KeepsMem.ofEq rfl
  | succ n ih => exact Run.final_bind KeepsMem.trans (inByte_mem s) fun _ u => ih u

theorem inPeek_mem (a : Nat) (s : State) : KeepsMem s (inPeek a s).final := by
  unfold inPeek
  split
  · exact Run.final_bind KeepsMem.trans (portAccesses_mem 1 s) fun _ u => KeepsMem.ofEq rfl
  · exact KeepsMem.ofEq rfl

theorem outByte_mem (b : Byte) (s : State) : KeepsMem s (outByte b s).final := by
  have w : ∀ (m : Memory), Memory.wf m = true →
      Memory.wf (Memory.write s.work.outLen b m) = true := fun _ hm => Memory.wf_write hm
  unfold outByte
  split
  · exact fun h => ⟨h.imem, h.omem, h.win, h.tree, h.ovlbuf, w _ h.cbuf⟩
  · exact Run.final_bind KeepsMem.trans (portAccesses_mem 1 s) fun _ u h =>
      ⟨h.imem, Memory.wf_write h.omem, h.win, h.tree, h.ovlbuf, h.cbuf⟩

theorem outByteWin_mem (b : Byte) (s : State) : KeepsMem s (outByteWin b s).final :=
  Run.final_bind KeepsMem.trans (outByte_mem b s) fun _ _ h =>
    ⟨h.imem, h.omem, Memory.wf_write h.win, h.tree, h.ovlbuf, h.cbuf⟩

theorem outBytes_mem (bs : List Byte) (s : State) : KeepsMem s (outBytes bs s).final := by
  induction bs generalizing s with
  | nil => exact KeepsMem.ofEq rfl
  | cons b bs ih => exact Run.final_bind KeepsMem.trans (outByte_mem b s) fun _ u => ih u

theorem copyBack_mem (l d : Nat) (s : State) : KeepsMem s (copyBack l d s).final := by
  induction l generalizing s with
  | zero => exact KeepsMem.ofEq rfl
  | succ l ih =>
    rw [copyBack]
    split
    · exact KeepsMem.ofEq rfl
    · exact Run.final_bind KeepsMem.trans (outByteWin_mem _ s) fun _ u => ih u

theorem repeatOut_mem (l : Nat) (d : Byte) (s : State) : KeepsMem s (repeatOut l d s).final := by
  induction l generalizing s with
  | zero => exact KeepsMem.ofEq rfl
  | succ l ih =>
    rw [repeatOut]
    split
    · exact KeepsMem.ofEq rfl
    · exact Run.final_bind KeepsMem.trans (outByte_mem _ s) fun _ u => ih u

theorem rawOut_mem (l : Nat) (s : State) : KeepsMem s (rawOut l s).final := by
  induction l generalizing s with
  | zero => exact KeepsMem.ofEq rfl
  | succ l ih =>
    rw [rawOut]
    split
    · exact KeepsMem.ofEq rfl
    · exact Run.final_bind KeepsMem.trans (inByte_mem s) fun b u =>
        Run.final_bind KeepsMem.trans (outByte_mem b u) fun _ v => ih v

theorem copyThrough_mem (l a : Nat) (s : State) : KeepsMem s (copyThrough l a s).final := by
  induction l generalizing a s with
  | zero => exact KeepsMem.ofEq rfl
  | succ l ih =>
    exact Run.final_bind KeepsMem.trans (portAccesses_mem 1 s) fun _ u =>
      Run.final_bind KeepsMem.trans (outByte_mem _ u) fun _ v => ih _ v

/-! ### What was appended -/

theorem Appended.refl (s : State) : Appended s s [] := by
  refine ⟨rfl, ?_⟩
  split
  · exact ⟨Stored.nil _ _, rfl⟩
  · exact ⟨Stored.nil _ _, rfl⟩

theorem Appended.trans {s t u : State} {bs cs : List Byte} (hs : t.seq.trial = s.seq.trial)
    (h1 : Appended s t bs) (h2 : Appended t u cs) : Appended s u (bs ++ cs) := by
  obtain ⟨l1, p1⟩ := h1
  obtain ⟨l2, p2⟩ := h2
  refine ⟨by rw [l2, l1, List.length_append, Nat.add_assoc], ?_⟩
  rw [hs] at p2
  cases hq : s.seq.trial with
  | none =>
    simp only [hq] at p1 p2 ⊢
    rw [l1] at p2
    exact ⟨p1.1.append p2.1, p2.2.trans p1.2⟩
  | some tr =>
    simp only [hq] at p1 p2 ⊢
    rw [l1] at p2
    exact ⟨p1.1.append p2.1, p2.2.trans p1.2⟩

/-- `OutByte` appends its byte (R66). -/
theorem outByte_appended {b : Byte} {s t : State} (h : MemInv s) (e : outByte b s = .ok () t) :
    Appended s t [b] := by
  rcases outByte_cases b s with ⟨t', h1, h2, -, -, h5⟩ | ⟨-, h1⟩ <;> rw [h1] at e <;> cases e
  refine ⟨h2, ?_⟩
  cases hq : s.seq.trial with
  | none =>
    simp only [hq, ne_eq, not_true_eq_false, false_and, or_false, true_and] at h5 ⊢
    rw [h5.1]
    exact ⟨Memory.stored_write _ _ h.omem, h5.2⟩
  | some tr =>
    simp only [hq, reduceCtorEq, false_and, false_or, ne_eq, not_false_eq_true, true_and] at h5 ⊢
    rw [h5.1]
    exact ⟨Memory.stored_write _ _ h.cbuf, h5.2⟩

/-- With no fault due, `OutByte` ends and keeps it so. -/
theorem outByte_ends (b : Byte) (s : State) (h : s.env.ioFault = none) :
    ∃ t, outByte b s = .ok () t ∧ t.env.ioFault = none := ⟨_, outByte_noFault b s h, h⟩

/-- `OutByte` for each byte of a string appends the string. -/
theorem outBytes_appended {bs : List Byte} {s t : State} (h : MemInv s)
    (e : outBytes bs s = .ok () t) : Appended s t bs := by
  induction bs generalizing s with
  | nil => cases e; exact Appended.refl _
  | cons b bs ih =>
    obtain ⟨a, u, h1, h2⟩ := Run.bind_eq_ok e
    have hm : KeepsMem s u := by simpa [h1] using outByte_mem b s
    have hv : Moved s u := by simpa [h1] using outByte_moved b s
    exact Appended.trans (by rw [hv.seq]) (outByte_appended h h1) (ih (hm h) h2)

theorem outBytes_ends (bs : List Byte) (s : State) (h : s.env.ioFault = none) :
    ∃ t, outBytes bs s = .ok () t ∧ t.env.ioFault = none := by
  induction bs generalizing s with
  | nil => exact ⟨s, rfl, h⟩
  | cons b bs ih =>
    obtain ⟨u, h1, h2⟩ := outByte_ends b s h
    obtain ⟨t, h3, h4⟩ := ih u h2
    exact ⟨t, by rw [outBytes, h1]; exact h3, h4⟩

/-! ### Taking an error -/

/-- An error outside a trial run ends the command (R470). -/
@[simp] theorem takeError_plain (e : Err) (s : State) (h : s.seq.trial = none) :
    takeError e s = failWith e s := by
  simp [takeError, h]

/-- An I/O error ends the command even in a trial run (R427). -/
@[simp] theorem takeError_io (s : State) : takeError .ioError s = failWith .ioError s := by
  unfold takeError
  split <;> simp

/-- `t` is `s` as the fresh start of a run makes it (R138, R425), port accesses counted. -/
def Restarted (s t : State) : Prop := ∃ k, t = { startRun s with env.ioFault := k }

theorem Restarted.trans (a b c : State) (h1 : Restarted a b) (h2 : Restarted b c) :
    Restarted a c := by
  obtain ⟨k, rfl⟩ := h1
  obtain ⟨j, rfl⟩ := h2
  exact ⟨j, rfl⟩

theorem restarted_peeked {s u : State} (h : Peeked (startRun s) u) : Restarted s u := by
  obtain ⟨k, rfl⟩ := h
  exact ⟨k, rfl⟩

theorem Restarted.mem {s t : State} (h : Restarted s t) : t.mem = s.mem := by
  obtain ⟨k, rfl⟩ := h; rfl

theorem Restarted.host {s t : State} (h : Restarted s t) : t.host = s.host := by
  obtain ⟨k, rfl⟩ := h; rfl

theorem Restarted.seq {s t : State} (h : Restarted s t) : t.seq = s.seq := by
  obtain ⟨k, rfl⟩ := h; rfl

theorem Restarted.ovl {s t : State} (h : Restarted s t) : t.ovl = s.ovl := by
  obtain ⟨k, rfl⟩ := h; rfl

/-- What the loop of `Composite_Decompress` leaves: the command has failed, or a member that stood in
the list, supports the stream and begins a trial run. -/
theorem tryMembers_cases (ks : List Codec) (s : State) :
    (∃ e u, tryMembers ks s = failWith e u ∧ (u = s ∨ Restarted s u) ∧
      (e = .invalidData 0 ∨ ∃ k v, supportsSimple k v = .raised e u)) ∨
    (∃ k rest u, k ∈ ks ∧ (∀ x ∈ rest, x ∈ ks) ∧ Restarted s u ∧ rest.length < ks.length ∧
      (∃ v, supportsSimple k v = .ok true u) ∧
      tryMembers ks s = { beginTrial k rest u with seq.phase := codecEntry k }) := by
  induction ks generalizing s with
  | nil => exact .inl ⟨_, s, rfl, .inl rfl, .inl rfl⟩
  | cons k ks ih =>
    have hp := supportsSimple_peeked k (startRun s)
    unfold tryMembers
    split
    · next u h =>
      rw [h] at hp
      have hr : Restarted s u := restarted_peeked hp
      exact .inr ⟨k, ks, u, by simp, fun x hx => by simp [hx], hr, by simp, ⟨_, h⟩, rfl⟩
    · next u h =>
      rw [h] at hp
      have hr := restarted_peeked hp
      have hr : Restarted s u := hr
      rcases ih u with ⟨e, w, h1, h2, h3⟩ | ⟨k', rest, w, h1, h2, h3, h4, h5, h6⟩
      · refine .inl ⟨e, w, h1, .inr ?_, h3⟩
        rcases h2 with rfl | h2
        · exact hr
        · exact hr.trans _ _ _ h2
      · exact .inr ⟨k', rest, w, by simp [h1], fun x hx => by simp [h2 x hx], hr.trans _ _ _ h3,
          by simp only [List.length_cons]; omega, h5, h6⟩
    · next e u h =>
      rw [h] at hp
      exact .inl ⟨e, u, rfl, .inr (restarted_peeked hp), .inr ⟨k, _, h⟩⟩

/-- Everything TAKING AN ERROR can leave: the command has failed, or the composite goes on with a
later member (R470, R427). -/
theorem takeError_cases (e : Err) (s : State) :
    (∃ e' u, takeError e s = failWith e' u ∧ (u = s ∨ Restarted s u)) ∨
    (∃ tr k rest u, s.seq.trial = some tr ∧ k ∈ tr.rest ∧ (∀ x ∈ rest, x ∈ tr.rest) ∧
      rest.length < tr.rest.length ∧ Restarted s u ∧
      takeError e s = { beginTrial k rest u with seq.phase := codecEntry k }) := by
  unfold takeError
  split
  · exact .inl ⟨e, s, rfl, .inl rfl⟩
  · next tr h =>
    split
    · exact .inl ⟨e, s, rfl, .inl rfl⟩
    · rcases tryMembers_cases tr.rest s with ⟨e', u, h1, h2, -⟩ | ⟨k, rest, u, h1, h2, h3, h4, -, h5⟩
      · exact .inl ⟨e', u, h1, h2⟩
      · exact .inr ⟨tr, k, rest, u, h, h1, h2, h4, h3, h5⟩

/-! ### The end of a decode -/

theorem Restarted.keepsMem {s t : State} (h : Restarted s t) : KeepsMem s t := KeepsMem.ofEq h.mem

theorem takeError_mem (e : Err) (s : State) : KeepsMem s (takeError e s) := by
  rcases takeError_cases e s with ⟨e', u, h1, h2⟩ | ⟨tr, k, rest, u, -, -, -, -, h3, h4⟩
  · rw [h1]
    rcases h2 with rfl | h2
    · exact KeepsMem.ofEq rfl
    · exact KeepsMem.trans _ _ _ h2.keepsMem (KeepsMem.ofEq rfl)
  · rw [h4]
    intro hs
    have hu := h3.keepsMem hs
    exact ⟨hu.imem, hu.omem, hu.win, hu.tree, hu.ovlbuf, rfl⟩

theorem settle_mem {r : Run Unit} {s t : State} (h : KeepsMem s r.final)
    (e : settle r = .next t) : KeepsMem s t := by
  cases r with
  | ok a u => cases e; exact h
  | raised er u => cases e; exact KeepsMem.trans _ _ _ h (takeError_mem er u)

theorem commit_mem (buf : Memory) (len : Nat) (k : Codec) (t : Bool) (s : State) :
    KeepsMem s (commit buf len k t s).final := by
  refine Run.final_bind KeepsMem.trans ?_ fun _ u => KeepsMem.ofEq rfl
  exact KeepsMem.trans s { s with seq.trial := none, work.outLen := 0 } _ (KeepsMem.ofEq rfl)
    (outBytes_mem _ _)

theorem endDecode_mem (t : Bool) (s : State) : KeepsMem s (endDecode t s).final := by
  unfold endDecode
  split
  · exact KeepsMem.ofEq rfl
  · exact commit_mem _ _ _ _ s

end Sys2Proof.Machine
end

