-- ==== Sys2Proof/Laws/Copy.lean ====
section
/-!
SUPPORT. What the loops that move bytes do, said once: the output byte with its window, the window
copy, the run, the raw group, the copy-through, the overlay's reads and copies, the tree table.
-/

namespace Sys2Proof.Machine

/-! ### Appending -/

/-- What was appended, seen in the run's sink. -/
theorem Appended.sink {s t : State} {bs : List Byte} (hs : t.seq.trial = s.seq.trial)
    (h : Appended s t bs) : Stored (sinkOf s) (sinkOf t) s.work.outLen bs := by
  obtain ⟨-, h⟩ := h
  unfold sinkOf
  rw [hs]
  cases hq : s.seq.trial with
  | none => rw [hq] at h; exact h.1
  | some tr => rw [hq] at h; exact h.1

/-- Below `OUT_LEN` the sink reads as before. -/
theorem Appended.below {s t : State} {bs : List Byte} (hs : t.seq.trial = s.seq.trial)
    (h : Appended s t bs) {a : Nat} (ha : a < s.work.outLen) :
    Memory.read a (sinkOf t) = Memory.read a (sinkOf s) := by
  rw [h.sink hs a, if_neg (by omega)]

/-- The bytes appended, read back. -/
theorem Appended.read {s t : State} {bs : List Byte} (hs : t.seq.trial = s.seq.trial)
    (h : Appended s t bs) {k : Nat} (hk : k < bs.length) :
    Memory.read (s.work.outLen + k) (sinkOf t) = bs.getD k 0 := by
  rw [h.sink hs, if_pos (by omega)]
  congr 1
  omega

/-- Appending one byte keeps every cursor but `OUT_LEN`. -/
theorem outByte_ok {b : Byte} {s t : State} (e : outByte b s = .ok () t) :
    Moved s t ∧ t.work.inPos = s.work.inPos ∧ t.mem.win = s.mem.win ∧
      t.work.outLen = s.work.outLen + 1 := by
  have hv : Moved s t := by simpa [e] using outByte_moved b s
  rcases outByte_cases b s with ⟨u, h1, h2, h3, h4, -⟩ | ⟨-, h1⟩ <;> rw [h1] at e <;> cases e
  exact ⟨hv, h3, h4, h2⟩

/-! ### The window (R41, R66, R67) -/

/-- `OutByte` in the LZ decoders: the byte in the sink and in WIN, and WIN stays coherent. -/
theorem outByteWin_ok {b : Byte} {s t : State} (hm : MemInv s)
    (e : outByteWin b s = .ok () t) :
    Moved s t ∧ t.work.inPos = s.work.inPos ∧ Appended s t [b] ∧
      t.mem.win = Memory.write (s.work.outLen % Config.winSize) b s.mem.win ∧
      (WinCoherent s → WinCoherent t) := by
  have hv : Moved s t := by simpa [e] using outByteWin_moved b s
  obtain ⟨_, u, h1, h2⟩ := Run.bind_eq_ok e
  obtain ⟨-, hp, hw, hl⟩ := outByte_ok h1
  have ha := outByte_appended hm h1
  obtain ⟨hat, hwin, hl⟩ : Appended s t [b] ∧
      t.mem.win = Memory.write (s.work.outLen % Config.winSize) b s.mem.win ∧
      t.work.outLen = s.work.outLen + 1 := by
    cases h2
    exact ⟨ha, by rw [← hw], hl⟩
  have hpt : t.work.inPos = s.work.inPos := by
    cases h2
    exact hp
  clear h2 ha hw
  refine ⟨hv, hpt, hat, hwin, ?_⟩
  intro hc i hi hi2
  rw [hwin, Memory.read_write _ _ _ _ hm.win]
  by_cases heq : i = s.work.outLen
  · subst heq
    rw [if_pos rfl]
    exact (hat.read (by rw [hv.seq]) (k := 0) (by simp)).symm
  · rw [hat.below (by rw [hv.seq]) (by omega : i < s.work.outLen), if_neg ?_]
    · exact hc i (by omega) (by omega)
    · unfold Config.winSize at *
      omega

theorem outByteWin_ends (b : Byte) (s : State) (h : s.env.ioFault = none) :
    ∃ t, outByteWin b s = .ok () t ∧ t.env.ioFault = none := by
  obtain ⟨u, h1, h2⟩ := outByte_ends b s h
  exact ⟨{ u with mem.win := Memory.write (s.work.outLen % Config.winSize) b u.mem.win },
    by rw [outByteWin, h1]; rfl, h2⟩

theorem copyBack_ends (l d : Nat) (s : State) (h : s.env.ioFault = none) :
    ∃ t, copyBack l d s = .ok () t ∧ t.env.ioFault = none := by
  induction l generalizing s with
  | zero => exact ⟨s, rfl, h⟩
  | succ l ih =>
    rw [copyBack]
    split
    · exact ⟨s, rfl, h⟩
    · obtain ⟨u, h1, h2⟩ := outByteWin_ends
        (Memory.read ((s.work.outLen - d) % Config.winSize) s.mem.win) s h
      obtain ⟨t, h3, h4⟩ := ih u h2
      exact ⟨t, by rw [h1]; exact h3, h4⟩

/-- `CopyBack(L, D)` (R67, R68): the clamped number of bytes is appended, each the byte `D` below it
as the output then stands, and WIN stays coherent and keeps its other bytes. -/
theorem copyBack_ok {l d : Nat} {s t : State} (hm : MemInv s) (hc : WinCoherent s)
    (hd : 1 ≤ d) (hd2 : d ≤ s.work.outLen) (hd3 : d ≤ Config.winSize)
    (hl : s.work.outLen ≤ s.work.decSize) (e : copyBack l d s = .ok () t) :
    Moved s t ∧ t.work.inPos = s.work.inPos ∧ WinCoherent t ∧
      (∃ bs, bs.length = clamped l s ∧ Appended s t bs) ∧
      (∀ k < clamped l s, Memory.read (s.work.outLen + k) (sinkOf t) =
        Memory.read (s.work.outLen + k - d) (sinkOf t)) ∧
      (∀ x, (∀ k < clamped l s, x ≠ (s.work.outLen + k) % Config.winSize) →
        Memory.read x t.mem.win = Memory.read x s.mem.win) := by
  induction l generalizing s with
  | zero =>
    obtain rfl : s = t := by cases e; rfl
    exact ⟨Moved.refl s, rfl, hc, ⟨[], by simp [clamped], Appended.refl s⟩,
      by simp [clamped], fun _ _ => rfl⟩
  | succ l ih =>
    rw [copyBack] at e
    split at e
    · next h0 =>
      obtain rfl : s = t := by cases e; rfl
      have h00 : clamped (l + 1) s = 0 := by simp [clamped, h0]
      exact ⟨Moved.refl s, rfl, hc, ⟨[], by simp [h00], Appended.refl s⟩, by simp [h00],
        fun _ _ => rfl⟩
    · next h0 =>
      obtain ⟨_, u, h1, h2⟩ := Run.bind_eq_ok e
      obtain ⟨hv, hp, ha, hw, hc'⟩ := outByteWin_ok hm h1
      have hmu : MemInv u := by
        have := outByteWin_mem (Memory.read ((s.work.outLen - d) % Config.winSize) s.mem.win) s
        rw [h1] at this
        exact this hm
      have hlen : u.work.outLen = s.work.outLen + 1 := ha.1
      have hds : u.work.decSize = s.work.decSize := by rw [hv.work]
      obtain ⟨hv2, hp2, hc2, ⟨bs, hb, ha2⟩, hr, hx⟩ :=
        ih hmu (hc' hc) (by omega) (by omega) h2
      have hcl : clamped (l + 1) s = clamped l u + 1 := by simp only [clamped]; omega
      have hst : t.seq.trial = s.seq.trial := by rw [hv2.seq, hv.seq]
      have hat := Appended.trans (by rw [hv.seq]) ha ha2
      refine ⟨hv.trans _ _ _ hv2, hp2.trans hp, hc2, ⟨_, ?_, hat⟩, ?_, ?_⟩
      · simp [hb, hcl, Nat.add_comm]
      · intro k hk
        cases k with
        | zero =>
          have h3 := hat.read hst (k := 0) (by simp)
          have h4 := hat.below hst (a := s.work.outLen - d) (by omega)
          rw [h3, Nat.add_zero, h4]
          exact hc _ (by omega) (by omega)
        | succ k =>
          have h5 := hr k (by omega)
          rw [hlen, Nat.add_assoc, Nat.add_comm 1 k] at h5
          exact h5
      · intro x hxx
        rw [hx x fun k hk => ?_, hw, Memory.read_write _ _ _ _ hm.win, if_neg]
        · intro h6
          exact hxx 0 (by omega) (by rw [Nat.add_zero]; exact h6.symm)
        · have := hxx (k + 1) (by omega)
          rw [hlen, Nat.add_assoc, Nat.add_comm 1 k]
          exact this

/-! ### Tokens as they are read (R63, R162, R194, R291) -/

/-- The bytes a place can read where just `j` are left. -/
theorem readable_cut {j : Nat} {s : State} (h : Readable j s) (hj : j ≤ 4)
    (he : s.work.inPos + j = s.work.declLen ∨ s.work.inPos + j = s.env.srcLen) :
    readable s = Memory.range s.mem.imem s.work.inPos j := by
  obtain ⟨h1, h2, -⟩ := h
  unfold readable
  congr 1
  omega

/-- The flag byte of an RLE group that is there. -/
theorem rleFlag_readable {l : Nat} {s : State} (h : Readable 1 s) :
    rleFlag l s = .ok () { s with
      work.tokPos := s.work.inPos, work.inPos := s.work.inPos + 1, work.tokL := l } := by
  rw [rleFlag, consume_readable (s := beginToken s) (n := 1) h]
  rfl

/-- Everything the flag byte of an RLE group can do. -/
theorem rleFlag_cases (l : Nat) (s : State) :
    (∃ k, rleFlag l s = .ok () { s with
      env.ioFault := k, work.tokPos := s.work.inPos, work.inPos := s.work.inPos + 1,
      work.tokL := l }) ∨
    (∃ k e, rleFlag l s = .raised e { s with env.ioFault := k, work.tokPos := s.work.inPos } ∧
      (e = .notEnoughData s.work.outLen s.work.decSize ∨ e = .streamTooShort ∨ e = .ioError)) := by
  unfold rleFlag
  cases h : consume 1 (beginToken s) with
  | ok a t =>
    obtain ⟨k, rfl, -⟩ := consume_ok h
    exact .inl ⟨k, rfl⟩
  | raised e t =>
    obtain ⟨k, j, hj, rfl, -, he⟩ := consume_raised h
    obtain rfl : j = 0 := by omega
    exact .inr ⟨k, e, rfl, he⟩

/-- The reads of a cut token but an RLE group's: `TOK_POS` where the token records it, the bytes that
are left, then the error of the missing one. -/
theorem cutToken_cut {p : Place} {j : Nat} {s : State} (hp : p ≠ .rleGroup) (h : Readable j s)
    (hj : j ≤ 4) (he : s.work.inPos + j = s.work.declLen ∨ s.work.inPos + j = s.env.srcLen) :
    cutToken p s = .raised (if s.work.inPos + j = s.work.declLen then
        .notEnoughData s.work.outLen s.work.decSize else .streamTooShort)
      { s with
        work.inPos := s.work.inPos + j,
        work.tokPos := (if marksPos p then s.work.inPos else s.work.tokPos) } := by
  have hr := readable_cut h hj he
  have hl : (readable s).length = j := by rw [hr, Memory.range_length]
  have h1 : cutToken p s =
      consume ((readable s).length + 1) (if marksPos p then beginToken s else s) := by
    unfold cutToken
    split <;> first | exact absurd rfl hp | rfl
  rw [h1, hl]
  cases marksPos p
  · exact consume_cut h (by omega) he
  · exact consume_cut (s := beginToken s) h (by omega) he

/-- An RLE group cut in its flag byte, or in the byte of a run. -/
theorem cutToken_rle {j : Nat} {s : State} (h : Readable j s) (hj : j ≤ 1)
    (he : s.work.inPos + j = s.work.declLen ∨ s.work.inPos + j = s.env.srcLen) :
    cutToken .rleGroup s = .raised (if s.work.inPos + j = s.work.declLen then
        .notEnoughData s.work.outLen s.work.decSize else .streamTooShort)
      { s with
        work.inPos := s.work.inPos + j, work.tokPos := s.work.inPos,
        work.tokL := (if j = 0 then s.work.tokL else
          rleRunLen ((Memory.read s.work.inPos s.mem.imem).extractLsb' 0 7)) } := by
  have hr := readable_cut h (by omega) he
  unfold cutToken
  obtain rfl | rfl : j = 0 ∨ j = 1 := by omega
  · rw [hr]
    exact consume_cut (s := beginToken s) (j := 0) h (by omega) he
  · rw [hr]
    simp only [Memory.range]
    rw [rleFlag_readable h, Run.bind_ok]
    obtain ⟨h1, h2, h3⟩ := h
    exact consume_cut (n := 1) (j := 0) (s := { s with
      work.tokPos := s.work.inPos, work.inPos := s.work.inPos + 1,
      work.tokL := rleRunLen ((Memory.read s.work.inPos s.mem.imem).extractLsb' 0 7) })
      ⟨h1, h2, h3⟩ (by omega) he

/-! ### RLE (R292, R293) -/

theorem repeatOut_ends (l : Nat) (d : Byte) (s : State) (h : s.env.ioFault = none) :
    ∃ t, repeatOut l d s = .ok () t ∧ t.env.ioFault = none := by
  induction l generalizing s with
  | zero => exact ⟨s, rfl, h⟩
  | succ l ih =>
    rw [repeatOut]
    split
    · exact ⟨s, rfl, h⟩
    · obtain ⟨u, h1, h2⟩ := outByte_ends d s h
      obtain ⟨t, h3, h4⟩ := ih u h2
      exact ⟨t, by rw [h1]; exact h3, h4⟩

/-- A run appends its byte the clamped number of times. -/
theorem repeatOut_ok {l : Nat} {d : Byte} {s t : State} (hm : MemInv s)
    (hl : s.work.outLen ≤ s.work.decSize) (e : repeatOut l d s = .ok () t) :
    Moved s t ∧ t.work.inPos = s.work.inPos ∧ t.mem.win = s.mem.win ∧
      Appended s t (List.replicate (clamped l s) d) := by
  induction l generalizing s with
  | zero =>
    obtain rfl : s = t := by cases e; rfl
    exact ⟨Moved.refl s, rfl, rfl, by simpa [clamped] using Appended.refl s⟩
  | succ l ih =>
    rw [repeatOut] at e
    split at e
    · next h0 =>
      obtain rfl : s = t := by cases e; rfl
      exact ⟨Moved.refl s, rfl, rfl, by simpa [clamped, h0] using Appended.refl s⟩
    · next h0 =>
      obtain ⟨_, u, h1, h2⟩ := Run.bind_eq_ok e
      obtain ⟨hv, hp, hw, hlen⟩ := outByte_ok h1
      have hmu : MemInv u := by
        have := outByte_mem d s
        rw [h1] at this
        exact this hm
      have hds : u.work.decSize = s.work.decSize := by rw [hv.work]
      obtain ⟨hv2, hp2, hw2, ha2⟩ := ih hmu (by omega) h2
      have hcl : clamped (l + 1) s = clamped l u + 1 := by simp only [clamped]; omega
      rw [hcl, List.replicate_succ]
      exact ⟨hv.trans _ _ _ hv2, hp2.trans hp, hw2.trans hw,
        Appended.trans (by rw [hv.seq]) (outByte_appended hm h1) ha2⟩

/-- A raw group that ends has appended the clamped number of bytes of IMEM and passed them. -/
theorem rawOut_ok {l : Nat} {s t : State} (hm : MemInv s) (hl : s.work.outLen ≤ s.work.decSize)
    (e : rawOut l s = .ok () t) :
    Moved s t ∧ t.work.inPos = s.work.inPos + clamped l s ∧ t.mem.win = s.mem.win ∧
      Appended s t (Memory.range s.mem.imem s.work.inPos (clamped l s)) := by
  induction l generalizing s with
  | zero =>
    obtain rfl : s = t := by cases e; rfl
    exact ⟨Moved.refl s, by simp [clamped], rfl,
      by simpa [clamped, Memory.range] using Appended.refl s⟩
  | succ l ih =>
    rw [rawOut] at e
    split at e
    · next h0 =>
      obtain rfl : s = t := by cases e; rfl
      exact ⟨Moved.refl s, by simp [clamped, h0], rfl,
        by simpa [clamped, h0, Memory.range] using Appended.refl s⟩
    · next h0 =>
      obtain ⟨b, v, h1, h2⟩ := Run.bind_eq_ok e
      obtain ⟨_, u, h3, h4⟩ := Run.bind_eq_ok h2
      have hv1 : Moved s v := by simpa [h1] using inByte_moved s
      obtain ⟨k, rfl, rfl⟩ : ∃ k, b = Memory.read s.work.inPos s.mem.imem ∧
          v = { s with env.ioFault := k, work.inPos := s.work.inPos + 1 } := by
        rcases inByte_cases s with ⟨k, -, -, e'⟩ | ⟨-, e'⟩ | ⟨-, -, e'⟩ | ⟨-, -, e'⟩ <;>
          rw [e'] at h1 <;> cases h1
        exact ⟨k, rfl, rfl⟩
      obtain ⟨hv, hp, hw, hlen⟩ := outByte_ok h3
      have hmu : MemInv u := by
        have := outByte_mem (Memory.read s.work.inPos s.mem.imem)
          { s with env.ioFault := k, work.inPos := s.work.inPos + 1 }
        rw [h3] at this
        exact this hm
      have hds : u.work.decSize = s.work.decSize := by rw [hv.work]
      have hlen' : u.work.outLen = s.work.outLen + 1 := hlen
      have hp' : u.work.inPos = s.work.inPos + 1 := hp
      have him : u.mem.imem = s.mem.imem := by rw [hv.mem]
      obtain ⟨hv2, hp2, hw2, ha2⟩ := ih hmu (by omega) h4
      have hcl : clamped (l + 1) s = clamped l u + 1 := by simp only [clamped]; omega
      have ha1 : Appended s u [Memory.read s.work.inPos s.mem.imem] := outByte_appended
        (s := { s with env.ioFault := k, work.inPos := s.work.inPos + 1 }) hm h3
      refine ⟨hv1.trans _ _ _ (hv.trans _ _ _ hv2), by rw [hp2, hp', hcl]; omega,
        hw2.trans hw, ?_⟩
      rw [hcl, Memory.range]
      rw [hp', him] at ha2
      exact Appended.trans (by rw [hv.seq]) ha1 ha2

/-! ### LZ-Overlay (R252, R257, R260, R261) -/

/-- Everything `RdBack` can do. -/
theorem rdBack_cases (s : State) :
    (∃ k, s.ovl.p < s.ovl.ip ∧ rdBack s = .ok (Memory.read (s.ovl.ip - 1) s.mem.imem)
      { s with env.ioFault := k, ovl.ip := s.ovl.ip - 1 }) ∨
    (s.ovl.ip ≤ s.ovl.p ∧ rdBack s = .raised (.notEnoughData s.ovl.w s.ovl.u) s) ∨
    (s.ovl.p < s.ovl.ip ∧ rdBack s = .raised .ioError { s with env.ioFault := none }) := by
  unfold rdBack
  split
  · next h => exact .inr (.inl ⟨h, rfl⟩)
  · next h =>
    rcases portAccesses_cases 1 s with ⟨k, e⟩ | e <;> rw [e]
    · exact .inl ⟨k, by omega, rfl⟩
    · exact .inr (.inr ⟨by omega, rfl⟩)

theorem rdBack_noFault {s : State} (h : s.env.ioFault = none) (hp : s.ovl.p < s.ovl.ip) :
    rdBack s = .ok (Memory.read (s.ovl.ip - 1) s.mem.imem) { s with ovl.ip := s.ovl.ip - 1 } := by
  have : ¬ s.ovl.ip ≤ s.ovl.p := by omega
  simp [rdBack, this, h]

/-- The two bytes of a back-reference of the region, both there (R261). -/
theorem rdBackRef_noFault {s : State} (h : s.env.ioFault = none) (hp : s.ovl.p + 2 ≤ s.ovl.ip) :
    rdBackRef s = .ok () { s with ovl.ip := s.ovl.ip - 2, work.tokPos := s.ovl.ip - 1 } := by
  rw [rdBackRef, rdBack_noFault h (by omega), Run.bind_ok,
    rdBack_noFault (by exact h) (by show s.ovl.p < s.ovl.ip - 1; omega)]
  rfl

/-- Everything the reads of a back-reference of the region can do. -/
theorem rdBackRef_cases (s : State) :
    (∃ k, s.ovl.p + 2 ≤ s.ovl.ip ∧ rdBackRef s = .ok ()
      { s with env.ioFault := k, ovl.ip := s.ovl.ip - 2, work.tokPos := s.ovl.ip - 1 }) ∨
    (s.ovl.ip ≤ s.ovl.p ∧ rdBackRef s = .raised (.notEnoughData s.ovl.w s.ovl.u) s) ∨
    (∃ k, s.ovl.ip = s.ovl.p + 1 ∧ rdBackRef s = .raised (.notEnoughData s.ovl.w s.ovl.u)
      { s with env.ioFault := k, ovl.ip := s.ovl.p, work.tokPos := s.ovl.p }) ∨
    (∃ ip pos, rdBackRef s = .raised .ioError
      { s with env.ioFault := none, ovl.ip := ip, work.tokPos := pos }) := by
  unfold rdBackRef
  rcases rdBack_cases s with ⟨k, h, e⟩ | ⟨h, e⟩ | ⟨h, e⟩ <;> rw [e]
  · simp only [Run.bind_ok]
    rcases rdBack_cases { s with
        env.ioFault := k, ovl.ip := s.ovl.ip - 1, work.tokPos := s.ovl.ip - 1 } with
      ⟨k', h', e'⟩ | ⟨h', e'⟩ | ⟨h', e'⟩ <;> rw [e']
    · exact .inl ⟨k', by simp only at h'; omega, rfl⟩
    · have h2 : s.ovl.ip = s.ovl.p + 1 := by simp only at h'; omega
      have h3 : s.ovl.ip - 1 = s.ovl.p := by omega
      refine .inr (.inr (.inl ⟨k, h2, ?_⟩))
      simp only [Run.bind_raised, h3]
    · exact .inr (.inr (.inr ⟨_, _, rfl⟩))
  · exact .inr (.inl ⟨h, rfl⟩)
  · exact .inr (.inr (.inr ⟨s.ovl.ip, s.work.tokPos, rfl⟩))

/-- How many bytes a block of length `l` stores in the region: the clamp at `OVL_U`. -/
def clampedOvl (l : Nat) (s : State) : Nat := min l (s.ovl.u - s.ovl.w)

/-- The copy of `OVL.REF`: downward, each byte the one `D` above it as the buffer then stands. -/
theorem ovlCopy_spec (l d : Nat) (s : State) (hm : MemInv s) (hd : 1 ≤ d)
    (hw : s.ovl.w ≤ s.ovl.u) (ho : clampedOvl l s ≤ s.ovl.op) :
    ovlCopy l d s = { s with
      mem.ovlbuf := (ovlCopy l d s).mem.ovlbuf
      ovl := { s.ovl with op := s.ovl.op - clampedOvl l s, w := s.ovl.w + clampedOvl l s } } ∧
    (∀ x, (x < s.ovl.op - clampedOvl l s ∨ s.ovl.op ≤ x) →
      Memory.read x (ovlCopy l d s).mem.ovlbuf = Memory.read x s.mem.ovlbuf) ∧
    (∀ k < clampedOvl l s, Memory.read (s.ovl.op - 1 - k) (ovlCopy l d s).mem.ovlbuf =
      Memory.read (s.ovl.op - 1 - k + d) (ovlCopy l d s).mem.ovlbuf) := by
  induction l generalizing s with
  | zero => simp [ovlCopy, clampedOvl]
  | succ l ih =>
    rw [ovlCopy]
    split
    · next h0 =>
      have h00 : clampedOvl (l + 1) s = 0 := by simp [clampedOvl, h0]
      rw [h00]
      exact ⟨rfl, fun _ _ => rfl, fun k hk => absurd hk (Nat.not_lt_zero k)⟩
    · next h0 =>
      have hcl : clampedOvl (l + 1) s = clampedOvl l
          (ovlPut (Memory.read (s.ovl.op - 1 + d) s.mem.ovlbuf) s) + 1 := by
        simp only [clampedOvl, ovlPut]; omega
      have hmu : MemInv (ovlPut (Memory.read (s.ovl.op - 1 + d) s.mem.ovlbuf) s) :=
        ⟨hm.imem, hm.omem, hm.win, hm.tree, Memory.wf_write hm.ovlbuf, hm.cbuf⟩
      have hwu : (ovlPut (Memory.read (s.ovl.op - 1 + d) s.mem.ovlbuf) s).ovl.w ≤
          (ovlPut (Memory.read (s.ovl.op - 1 + d) s.mem.ovlbuf) s).ovl.u := by
        show s.ovl.w + 1 ≤ s.ovl.u; omega
      obtain ⟨h1, h2, h3⟩ := ih _ hmu hwu (by show _ ≤ s.ovl.op - 1; omega)
      revert h1 h2 h3
      rw [hcl]
      generalize hc : clampedOvl l (ovlPut (Memory.read (s.ovl.op - 1 + d) s.mem.ovlbuf) s) = c at *
      generalize ovlCopy l d (ovlPut (Memory.read (s.ovl.op - 1 + d) s.mem.ovlbuf) s) = t
      intro h1 h2 h3
      have hop : c + 1 ≤ s.ovl.op := by omega
      have hput : ∀ x, Memory.read x
          (ovlPut (Memory.read (s.ovl.op - 1 + d) s.mem.ovlbuf) s).mem.ovlbuf =
          if s.ovl.op - 1 = x then Memory.read (s.ovl.op - 1 + d) s.mem.ovlbuf
          else Memory.read x s.mem.ovlbuf :=
        fun x => Memory.read_write _ _ _ _ hm.ovlbuf
      have h2' : ∀ x, (x < s.ovl.op - 1 - c ∨ s.ovl.op - 1 ≤ x) → Memory.read x t.mem.ovlbuf =
          if s.ovl.op - 1 = x then Memory.read (s.ovl.op - 1 + d) s.mem.ovlbuf
          else Memory.read x s.mem.ovlbuf := fun x hx => (h2 x hx).trans (hput x)
      refine ⟨?_, ?_, ?_⟩
      · rw [h1]
        simp only [ovlPut, Nat.sub_sub, Nat.add_assoc, Nat.add_comm 1 c]
      · intro x hx
        rw [h2' x (by omega), if_neg (by omega)]
      · intro k hk
        cases k with
        | zero =>
          rw [Nat.sub_zero, h2' _ (by omega), if_pos rfl, h2' _ (by omega), if_neg (by omega)]
        | succ k =>
          have h4 := h3 k (by omega)
          have e1 : s.ovl.op - 1 - (k + 1) = s.ovl.op - 1 - 1 - k := by omega
          rw [e1]
          exact h4

theorem copyThrough_ends (l a : Nat) (s : State) (h : s.env.ioFault = none) :
    ∃ t, copyThrough l a s = .ok () t ∧ t.env.ioFault = none := by
  induction l generalizing a s with
  | zero => exact ⟨s, rfl, h⟩
  | succ l ih =>
    obtain ⟨u, h1, h2⟩ := outByte_ends (Memory.read a s.mem.imem) s h
    obtain ⟨t, h3, h4⟩ := ih (a + 1) u h2
    exact ⟨t, by rw [copyThrough, portAccesses_noFault 1 s h, Run.bind_ok, h1]; exact h3, h4⟩

/-- The copy-through of R252 appends the bytes of IMEM. -/
theorem copyThrough_ok {l a : Nat} {s t : State} (hm : MemInv s)
    (e : copyThrough l a s = .ok () t) :
    Moved s t ∧ t.work.inPos = s.work.inPos ∧ t.mem.win = s.mem.win ∧
      Appended s t (Memory.range s.mem.imem a l) := by
  induction l generalizing a s with
  | zero =>
    obtain rfl : s = t := by cases e; rfl
    exact ⟨Moved.refl s, rfl, rfl, Appended.refl s⟩
  | succ l ih =>
    obtain ⟨_, v, h1, h2⟩ := Run.bind_eq_ok e
    obtain ⟨_, u, h3, h4⟩ := Run.bind_eq_ok h2
    obtain ⟨k, rfl⟩ : ∃ k, v = { s with env.ioFault := k } := by
      rcases portAccesses_cases 1 s with ⟨k, e'⟩ | e' <;> rw [e'] at h1 <;> cases h1
      exact ⟨k, rfl⟩
    obtain ⟨hv, hp, hw, -⟩ := outByte_ok h3
    have hmu : MemInv u := by
      have := outByte_mem (Memory.read a s.mem.imem) { s with env.ioFault := k }
      rw [h3] at this
      exact this hm
    have him : u.mem.imem = s.mem.imem := by rw [hv.mem]
    obtain ⟨hv2, hp2, hw2, ha2⟩ := ih hmu h4
    have ha1 : Appended s u [Memory.read a s.mem.imem] :=
      outByte_appended (s := { s with env.ioFault := k }) hm h3
    have hv0 : Moved s { s with env.ioFault := k } := ⟨rfl, rfl, rfl, rfl, rfl, rfl, rfl⟩
    rw [him] at ha2
    exact ⟨hv0.trans _ _ _ (hv.trans _ _ _ hv2), hp2.trans hp, hw2.trans hw,
      Appended.trans (by rw [hv.seq]) ha1 ha2⟩

/-! ### The tree table (R313) -/

/-- A table whose bytes are there is stored from `p` on, and its bytes are passed. -/
theorem readTable_readable {n p : Nat} {s : State} (hm : Memory.wf s.mem.tree = true)
    (h : Readable n s) :
    ∃ m, readTable n p s = .ok () { s with mem.tree := m, work.inPos := s.work.inPos + n } ∧
      Memory.wf m = true ∧ Stored s.mem.tree m p (Memory.range s.mem.imem s.work.inPos n) := by
  induction n generalizing p s with
  | zero => exact ⟨s.mem.tree, rfl, hm, Stored.nil _ _⟩
  | succ n ih =>
    obtain ⟨h1, h2, h3⟩ := h
    have hm' := Memory.wf_write (a := p) (b := Memory.read s.work.inPos s.mem.imem) hm
    obtain ⟨m, e, hw, hs⟩ := ih (p := p + 1)
      (s := { s with
        mem.tree := Memory.write p (Memory.read s.work.inPos s.mem.imem) s.mem.tree,
        work.inPos := s.work.inPos + 1 }) hm'
      ⟨by show s.work.inPos + 1 + n ≤ s.work.declLen; omega,
        by show s.work.inPos + 1 + n ≤ s.env.srcLen; omega, h3⟩
    refine ⟨m, ?_, hw, ?_⟩
    · rw [readTable, inByte_readable ⟨by omega, by omega, h3⟩, Run.bind_ok]
      refine e.trans ?_
      simp only [Nat.add_assoc, Nat.add_comm 1 n]
    · exact (Memory.stored_write _ _ hm).append hs

end Sys2Proof.Machine
end

