-- ==== Sys2Proof/Laws/Fault.lean ====
section
/-!
SUPPORT. A port fault that is due inside a token: for each loop that uses the ports, that the fault
raises IO_ERROR where the loop still has that many accesses to make (R78), and what an output byte does
to the count.
-/

namespace Sys2Proof.Machine

/-- `n` bytes there, the fault behind them: they are read and counted. -/
theorem consume_passes {n k : Nat} {s : State} (h : s.env.ioFault = some k) (hk : n ≤ k)
    (hd : s.work.inPos + n ≤ s.work.declLen) (hs : s.work.inPos + n ≤ s.env.srcLen) :
    consume n s = .ok () { s with
      env.ioFault := some (k - n), work.inPos := s.work.inPos + n } := by
  induction n generalizing s k with
  | zero => rw [consume, Nat.sub_zero, ← h]; rfl
  | succ n ih =>
    have h1 : inByte s = .ok (Memory.read s.work.inPos s.mem.imem)
        { s with env.ioFault := some (k - 1), work.inPos := s.work.inPos + 1 } := by
      simp only [inByte, portAccesses, h]
      rw [if_neg (by omega), if_neg (by omega), if_pos (by omega)]
      rfl
    rw [consume, h1, Run.bind_ok, ih (k := k - 1) rfl (by omega) (by simp only; omega)
      (by simp only; omega)]
    simp only [Nat.add_assoc, Nat.add_comm 1 n, Nat.sub_sub]

/-- The fault at one of `n` bytes that are there. -/
theorem consume_faults {n k : Nat} {s : State} (h : s.env.ioFault = some k) (hk : k < n)
    (hd : s.work.inPos + n ≤ s.work.declLen) (hs : s.work.inPos + n ≤ s.env.srcLen) :
    consume n s = .raised .ioError { s with
      env.ioFault := none, work.inPos := s.work.inPos + k } := by
  induction n generalizing s k with
  | zero => omega
  | succ n ih =>
    cases k with
    | zero =>
      simp only [consume, inByte, portAccesses, h]
      rw [if_neg (by omega), if_neg (by omega), if_neg (by omega)]
      rfl
    | succ k =>
      have h1 : inByte s = .ok (Memory.read s.work.inPos s.mem.imem)
          { s with env.ioFault := some k, work.inPos := s.work.inPos + 1 } := by
        simp only [inByte, portAccesses, h]
        rw [if_neg (by omega), if_neg (by omega), if_pos (by omega)]
        rfl
      rw [consume, h1, Run.bind_ok, ih (k := k) rfl (by omega) (by simp only; omega)
        (by simp only; omega)]
      simp only [Nat.add_assoc, Nat.add_comm 1 k]

/-- An output byte outside a trial run with a fault due: it faults, or the count goes down by one. -/
theorem outByte_counts {k : Nat} {b : Byte} {s : State} (h : s.env.ioFault = some k)
    (ht : s.seq.trial = none) :
    outByte b s = (match k with
      | 0 => .raised .ioError { s with env.ioFault := none }
      | k + 1 => .ok () { s with
          env.ioFault := some k, mem.omem := Memory.write s.work.outLen b s.mem.omem,
          work.outLen := s.work.outLen + 1 }) := by
  cases k <;> simp [outByte, ht, portAccesses, h]

theorem outBytes_faults {k : Nat} {bs : List Byte} {s : State} (h : s.env.ioFault = some k)
    (hk : k < bs.length) (ht : s.seq.trial = none) : ∃ t, outBytes bs s = .raised .ioError t := by
  induction bs generalizing s k with
  | nil => exact absurd hk (Nat.not_lt_zero k)
  | cons b bs ih =>
    rw [outBytes, outByte_counts h ht]
    cases k with
    | zero => exact ⟨_, rfl⟩
    | succ k => exact ih (k := k) rfl (by simpa using hk) ht

theorem repeatOut_faults {k l : Nat} {d : Byte} {s : State} (h : s.env.ioFault = some k)
    (hk : k < clamped l s) (ht : s.seq.trial = none) :
    ∃ t, repeatOut l d s = .raised .ioError t := by
  induction l generalizing s k with
  | zero => simp [clamped] at hk
  | succ l ih =>
    simp only [clamped] at hk
    rw [repeatOut, if_neg (by omega), outByte_counts h ht]
    cases k with
    | zero => exact ⟨_, rfl⟩
    | succ k => exact ih (k := k) rfl (by simp only [clamped]; omega) ht

theorem copyBack_faults {k l d : Nat} {s : State} (h : s.env.ioFault = some k)
    (hk : k < clamped l s) (ht : s.seq.trial = none) :
    ∃ t, copyBack l d s = .raised .ioError t := by
  induction l generalizing s k with
  | zero => simp [clamped] at hk
  | succ l ih =>
    simp only [clamped] at hk
    rw [copyBack, if_neg (by omega), outByteWin, outByte_counts h ht]
    cases k with
    | zero => exact ⟨_, rfl⟩
    | succ k => exact ih (k := k) rfl (by simp only [clamped]; omega) ht

/-- A raw group whose bytes are there makes one access for each byte read and, outside a trial run, one
for each byte written. -/
theorem rawOut_faults {k l : Nat} {s : State} (h : s.env.ioFault = some k)
    (hk : k < clamped l s + (if s.seq.trial = none then clamped l s else 0))
    (hd : s.work.inPos + clamped l s ≤ s.work.declLen)
    (hs : s.work.inPos + clamped l s ≤ s.env.srcLen) :
    ∃ t, rawOut l s = .raised .ioError t := by
  induction l generalizing s k with
  | zero => simp [clamped] at hk
  | succ l ih =>
    simp only [clamped] at hk hd hs
    have hne : s.work.outLen ≠ s.work.decSize := by
      intro he
      simp [he] at hk
    have hlt : s.work.outLen < s.work.decSize := by
      by_contra hge
      have h0 : s.work.decSize - s.work.outLen = 0 := by omega
      simp [h0] at hk
    rw [rawOut, if_neg hne]
    cases k with
    | zero =>
      have h1 := consume_faults (n := 1) h (by omega) (by omega) (by omega)
      simp only [consume] at h1
      cases e : inByte s with
      | ok b t => rw [e] at h1; cases h1
      | raised e' t => rw [e] at h1; cases h1; exact ⟨_, rfl⟩
    | succ k =>
      have h1 : inByte s = .ok (Memory.read s.work.inPos s.mem.imem)
          { s with env.ioFault := some k, work.inPos := s.work.inPos + 1 } := by
        simp only [inByte, portAccesses, h]
        rw [if_neg (by omega), if_neg (by omega), if_pos (by omega)]
        rfl
      rw [h1, Run.bind_ok]
      cases ht : s.seq.trial with
      | none =>
        rw [outByte_counts (s := { s with env.ioFault := some k, work.inPos := s.work.inPos + 1 })
          rfl ht]
        cases k with
        | zero => exact ⟨_, rfl⟩
        | succ k =>
          refine ih (k := k) rfl ?_ ?_ ?_
          · simp only [ht, clamped, if_true] at hk ⊢; omega
          · simp only [clamped]; omega
          · simp only [clamped]; omega
      | some tr =>
        have h2 : outByte (Memory.read s.work.inPos s.mem.imem)
            { s with env.ioFault := some k, work.inPos := s.work.inPos + 1 } = .ok () { s with
              env.ioFault := some k, work.inPos := s.work.inPos + 1,
              mem.cbuf := Memory.write s.work.outLen (Memory.read s.work.inPos s.mem.imem) s.mem.cbuf,
              work.outLen := s.work.outLen + 1 } := by
          simp [outByte, ht]
        rw [h2, Run.bind_ok]
        refine ih (k := k) rfl ?_ ?_ ?_
        · simp [ht, clamped] at hk ⊢; omega
        · simp only [clamped]; omega
        · simp only [clamped]; omega

/-- The copy-through of R252 makes two accesses for each byte, one in a trial run. -/
theorem copyThrough_faults {k l a : Nat} {s : State} (h : s.env.ioFault = some k)
    (hk : k < l + (if s.seq.trial = none then l else 0)) :
    ∃ t, copyThrough l a s = .raised .ioError t := by
  induction l generalizing a s k with
  | zero => simp at hk
  | succ l ih =>
    cases k with
    | zero => exact ⟨{ s with env.ioFault := none }, by simp [copyThrough, portAccesses, h]⟩
    | succ k =>
      have h1 : portAccesses 1 s = .ok () { s with env.ioFault := some k } := by
        simp [portAccesses, h]
      rw [copyThrough, h1, Run.bind_ok]
      cases ht : s.seq.trial with
      | none =>
        rw [outByte_counts (s := { s with env.ioFault := some k }) rfl ht]
        cases k with
        | zero => exact ⟨_, rfl⟩
        | succ k => exact ih (k := k) rfl (by simp only [ht, if_true] at hk ⊢; omega)
      | some tr =>
        have h2 : outByte (Memory.read a s.mem.imem) { s with env.ioFault := some k } = .ok () { s with
            env.ioFault := some k,
            mem.cbuf := Memory.write s.work.outLen (Memory.read a s.mem.imem) s.mem.cbuf,
            work.outLen := s.work.outLen + 1 } := by
          simp [outByte, ht]
        rw [h2, Run.bind_ok]
        exact ih (k := k) rfl (by simp [ht] at hk ⊢; omega)

end Sys2Proof.Machine
end

