-- ==== Sys2Proof/Laws/Huffman.lean ====
section
/-!
SUPPORT. The Huffman builder and its 4-bit layout: what the queues hold while the tree is built, and
that the breadth-first order always serializes (R385, R397).
-/

namespace Sys2Proof.Machine

/-! ### The queues (R375, R376) -/

/-- The internal nodes of the trees a queue holds. -/
def flatInternals (q : List (Nat × HTree)) : List HTree := q.flatMap fun e => e.2.internals

theorem enqueue_perm (p : Nat) (v : HTree) (q : List (Nat × HTree)) :
    (enqueue p v q).Perm ((p, v) :: q) := by
  induction q with
  | nil => exact .refl _
  | cons e q ih =>
    rw [enqueue]
    split
    · exact .refl _
    · exact (ih.cons e).trans (.swap _ _ _)

/-- What `PopMin` takes was in one of the queues, and the rest stays. -/
theorem popMin_perm {lq nq lq' nq' : List (Nat × HTree)} {e : Nat × HTree}
    (h : popMin lq nq = some (e, lq', nq')) : (lq ++ nq).Perm (e :: (lq' ++ nq')) := by
  unfold popMin at h
  split at h
  · cases h
  · cases h; exact .refl _
  · cases h; exact .refl _
  · split at h <;> cases h
    · exact .refl _
    · exact List.perm_middle

theorem popMin_none {lq nq : List (Nat × HTree)} (h : popMin lq nq = none) : lq ++ nq = [] := by
  unfold popMin at h
  split at h
  · rfl
  · cases h
  · cases h
  · split at h <;> cases h

/-- What the loop of `BuildTree` keeps: the ids of the internal nodes made so far are distinct and below
the next id, and every merge makes one node of two. -/
structure Forest (m id : Nat) (q : List (Nat × HTree)) : Prop where
  nodup : ((flatInternals q).map HTree.id).Nodup
  below : ∀ v ∈ flatInternals q, v.id < id
  count : (flatInternals q).length + q.length = m

theorem Forest.perm {m id : Nat} {q q' : List (Nat × HTree)} (hp : q.Perm q') (h : Forest m id q) :
    Forest m id q' := by
  have hf : (flatInternals q).Perm (flatInternals q') := hp.flatMap_right _
  exact ⟨((hf.map _).nodup_iff).1 h.nodup, fun v hv => h.below v (hf.mem_iff.2 hv),
    by rw [← hf.length_eq, ← hp.length_eq]; exact h.count⟩

/-- Two trees joined under a new node. -/
theorem Forest.join {m id p : Nat} {a b : Nat × HTree} {q : List (Nat × HTree)}
    (h : Forest m id (a :: b :: q)) : Forest m (id + 1) ((p, .node id a.2 b.2) :: q) := by
  have hf : flatInternals ((p, .node id a.2 b.2) :: q) =
      .node id a.2 b.2 :: flatInternals (a :: b :: q) := by
    simp [flatInternals, HTree.internals]
  refine ⟨?_, ?_, ?_⟩
  · rw [hf, List.map_cons, List.nodup_cons]
    refine ⟨fun hm => ?_, h.nodup⟩
    obtain ⟨v, hv, he⟩ := List.mem_map.1 hm
    have := h.below v hv
    rw [he] at this
    exact absurd this (Nat.lt_irrefl id)
  · intro v hv
    rw [hf] at hv
    rcases List.mem_cons.1 hv with rfl | hv
    · exact Nat.lt_succ_self id
    · exact Nat.lt_succ_of_lt (h.below v hv)
  · have := h.count
    rw [hf]
    simp only [List.length_cons] at *
    omega

theorem enqueue_ne_nil (p : Nat) (v : HTree) (q : List (Nat × HTree)) : enqueue p v q ≠ [] := by
  intro h
  have := (enqueue_perm p v q).length_eq
  rw [h] at this
  simp at this

/-- Every tree in the internal queue is an internal node, and stays so. -/
theorem popMin_nodes {lq nq lq' nq' : List (Nat × HTree)} {e : Nat × HTree}
    (h : popMin lq nq = some (e, lq', nq')) : ∀ x ∈ nq', x ∈ nq := by
  unfold popMin at h
  split at h
  · cases h
  · cases h; exact fun x hx => hx
  · cases h; exact fun x hx => List.mem_cons_of_mem _ hx
  · split at h <;> cases h
    · exact fun x hx => hx
    · exact fun x hx => List.mem_cons_of_mem _ hx

theorem buildLoop_forest (m f id : Nat) (lq nq : List (Nat × HTree)) (h : Forest m id (lq ++ nq))
    (hn : ∀ x ∈ nq, x.2.isLeaf = false) :
    (∃ id', Forest m id' ((buildLoop f id lq nq).1 ++ (buildLoop f id lq nq).2)) ∧
    (∀ x ∈ (buildLoop f id lq nq).2, x.2.isLeaf = false) ∧
    (nq ≠ [] → (buildLoop f id lq nq).2 ≠ []) ∧
    (0 < f → 2 ≤ (lq ++ nq).length → (buildLoop f id lq nq).2 ≠ []) := by
  induction f generalizing id lq nq with
  | zero => exact ⟨⟨id, h⟩, hn, fun h => h, fun h => absurd h (Nat.lt_irrefl 0)⟩
  | succ f ih =>
    rw [buildLoop]
    split
    · next h1 =>
      refine ⟨⟨id, h⟩, hn, fun h => h, fun _ h2 => ?_⟩
      rw [popMin_none h1] at h2
      exact absurd h2 (by decide)
    · next a lq' nq' h1 =>
      split
      · next h2 =>
        refine ⟨⟨id, h⟩, hn, fun h => h, fun _ h3 => ?_⟩
        rw [(popMin_perm h1).length_eq, popMin_none h2] at h3
        exact absurd h3 (by simp)
      · next b lq'' nq'' h2 =>
        have hp : (lq ++ nq).Perm (a :: b :: (lq'' ++ nq'')) :=
          (popMin_perm h1).trans ((popMin_perm h2).cons a)
        have hq : ((a.1 + b.1, HTree.node id a.2 b.2) :: (lq'' ++ nq'')).Perm
            (lq'' ++ enqueue (a.1 + b.1) (.node id a.2 b.2) nq'') :=
          List.perm_middle.symm.trans ((enqueue_perm _ _ _).symm.append_left _)
        have hn' : ∀ x ∈ enqueue (a.1 + b.1) (.node id a.2 b.2) nq'', x.2.isLeaf = false := by
          intro x hx
          rcases List.mem_cons.1 ((enqueue_perm _ _ _).mem_iff.1 hx) with rfl | hx
          · rfl
          · exact hn x (popMin_nodes h1 x (popMin_nodes h2 x hx))
        obtain ⟨g1, g2, g3, -⟩ := ih (id + 1) lq'' _ (((h.perm hp).join).perm hq) hn'
        exact ⟨g1, g2, fun _ => g3 (enqueue_ne_nil _ _ _), fun _ _ => g3 (enqueue_ne_nil _ _ _)⟩

/-! ### The leaf set (R372) -/

/-- At least two leaves, where the alphabet has two symbols. -/
theorem two_le_leafSet {freq : List Nat} (h : 2 ≤ freq.length) : 2 ≤ (leafSet freq).length := by
  have hsub : ∀ x ∈ (List.range freq.length).filter (fun x => freq.getD x 0 ≠ 0) ++ padSymbols freq,
      x ∈ (leafSet freq).map (·.2) := by
    intro x hx
    simp only [leafSet, List.map_map, List.mem_map, List.mem_filter, List.mem_range]
    refine ⟨x, ?_, rfl⟩
    rcases List.mem_append.1 hx with hx | hx
    · have := List.mem_filter.1 hx
      exact ⟨List.mem_range.1 this.1, by simp_all⟩
    · have h1 := List.mem_of_mem_take hx
      have h2 := List.mem_filter.1 h1
      exact ⟨List.mem_range.1 h2.1, by simp [hx]⟩
  have hnd : ((List.range freq.length).filter (fun x => freq.getD x 0 ≠ 0) ++
      padSymbols freq).Nodup := by
    refine List.Nodup.append (List.nodup_range.filter _)
      ((List.nodup_range.filter _).sublist (List.take_sublist _ _)) ?_
    intro x hx hy
    have h1 := (List.mem_filter.1 hx).2
    have h2 := (List.mem_filter.1 (List.mem_of_mem_take hy)).2
    simp_all
  have hle := (hnd.subperm hsub).length_le
  have hlen : ((List.range freq.length).filter (fun x => freq.getD x 0 ≠ 0)).length +
      ((List.range freq.length).filter (fun x => freq.getD x 0 = 0)).length = freq.length := by
    have := List.length_eq_length_filter_add (l := List.range freq.length)
      (fun x => decide (freq.getD x 0 ≠ 0))
    simp only [List.length_range] at this
    have e : (fun x => decide (freq.getD x 0 = 0)) = fun x => !decide (freq.getD x 0 ≠ 0) := by
      funext x
      simp
    rw [e]
    exact this.symm
  rw [List.length_map, List.length_append, padSymbols, List.length_take] at hle
  omega

theorem leafSet_length_le (freq : List Nat) : (leafSet freq).length ≤ freq.length := by
  rw [leafSet, List.length_map]
  exact (List.length_filter_le _ _).trans (by simp)

theorem leafQueue_leaves (leaves : List (Nat × Nat)) :
    (leafQueue leaves).length = leaves.length ∧ flatInternals (leafQueue leaves) = [] := by
  have key : ∀ (l : List ((Nat × Nat) × Nat)) (q : List (Nat × HTree)), flatInternals q = [] →
      (l.foldl (fun q l => enqueue l.1.1 (.leaf l.2 l.1.2) q) q).length = q.length + l.length ∧
      flatInternals (l.foldl (fun q l => enqueue l.1.1 (.leaf l.2 l.1.2) q) q) = [] := by
    intro l
    induction l with
    | nil => exact fun q h => ⟨rfl, h⟩
    | cons e l ih =>
      intro q h
      have hf : flatInternals (enqueue e.1.1 (.leaf e.2 e.1.2) q) = [] := by
        have : (flatInternals (enqueue e.1.1 (.leaf e.2 e.1.2) q)).Perm
            (flatInternals ((e.1.1, .leaf e.2 e.1.2) :: q)) := (enqueue_perm _ _ _).flatMap_right _
        have h2 : flatInternals ((e.1.1, HTree.leaf e.2 e.1.2) :: q) = [] := by
          simpa [flatInternals, HTree.internals] using h
        rw [h2] at this
        exact this.eq_nil
      obtain ⟨h1, h2⟩ := ih _ hf
      refine ⟨?_, h2⟩
      rw [List.foldl_cons, h1, (enqueue_perm _ _ _).length_eq]
      simp only [List.length_cons]
      omega
  obtain ⟨h1, h2⟩ := key leaves.zipIdx [] rfl
  exact ⟨by rw [leafQueue, h1]; simp, h2⟩

/-- The tree built is an internal node, its internal nodes have distinct ids, and there are fewer of
them than symbols. -/
theorem buildTree_shape {freq : List Nat} (h : 2 ≤ freq.length) :
    (buildTree freq).isLeaf = false ∧ ((buildTree freq).internals.map HTree.id).Nodup ∧
    (buildTree freq).internals.length < freq.length := by
  have h2 := two_le_leafSet h
  have hle := leafSet_length_le freq
  obtain ⟨hl, hf⟩ := leafQueue_leaves (leafSet freq)
  have hforest : Forest (leafSet freq).length (leafSet freq).length
      (leafQueue (leafSet freq) ++ []) := by
    rw [List.append_nil]
    exact ⟨by simp [hf], by simp [hf], by simp [hf, hl]⟩
  obtain ⟨⟨id', g1⟩, g2, -, g4⟩ := buildLoop_forest (leafSet freq).length (leafSet freq).length
    (leafSet freq).length (leafQueue (leafSet freq)) [] hforest (by simp)
  have g5 := g4 (by omega) (by simp [hl]; omega)
  simp only [buildTree]
  revert g1 g2 g5
  generalize buildLoop (leafSet freq).length (leafSet freq).length (leafQueue (leafSet freq)) [] = r
  obtain ⟨lq, nq⟩ := r
  intro g1 g2 g5
  cases nq with
  | nil => exact absurd rfl g5
  | cons e q =>
    refine ⟨g2 e (by simp), ?_, ?_⟩
    · have := g1.nodup
      simp only [flatInternals, List.flatMap_append, List.flatMap_cons, List.map_append] at this
      exact (this.of_append_right).of_append_left
    · have := g1.count
      simp only [flatInternals, List.flatMap_append, List.flatMap_cons, List.length_append,
        List.length_cons] at this
      show e.2.internals.length < freq.length
      omega

/-! ### The breadth-first order (R385) -/

/-- The internal nodes of a list of trees. -/
def listInternals (q : List HTree) : List HTree := q.flatMap HTree.internals

/-- The children that a node hands on. -/
theorem listInternals_children (a b : HTree) :
    listInternals ([a, b].filter fun c => !c.isLeaf) = a.internals ++ b.internals := by
  cases a <;> cases b <;> simp [listInternals, HTree.internals, HTree.isLeaf]

/-- The breadth-first order of trees whose internal nodes have distinct ids: only internal nodes of
them, no more than the fuel, and no node at or before a parent has the id of that parent's child. -/
theorem bfsOrder_spec (f : Nat) (q : List HTree) (h : ((listInternals q).map HTree.id).Nodup) :
    (bfsOrder f q).length ≤ f ∧ (∀ v ∈ bfsOrder f q, v ∈ listInternals q) ∧
    ∀ (k id : Nat) (a b : HTree), (bfsOrder f q)[k]? = some (HTree.node id a b) →
      ∀ c ∈ [a, b], c.isLeaf = false →
      ∀ j ≤ k, ∀ u : HTree, (bfsOrder f q)[j]? = some u → u.id ≠ c.id := by
  induction f generalizing q with
  | zero => simp [bfsOrder]
  | succ f ih =>
    match q with
    | [] => simp [bfsOrder]
    | .leaf _ _ :: q =>
      rw [bfsOrder]
      obtain ⟨h1, h2, h3⟩ := ih q h
      exact ⟨by omega, h2, h3⟩
    | .node id a b :: q =>
      rw [bfsOrder]
      have hp : (listInternals (.node id a b :: q)).Perm (.node id a b ::
          listInternals (q ++ [a, b].filter fun c => !c.isLeaf)) := by
        have e1 : listInternals (.node id a b :: q) =
            .node id a b :: ((a.internals ++ b.internals) ++ listInternals q) := rfl
        have e2 : listInternals (q ++ [a, b].filter fun c => !c.isLeaf) =
            listInternals q ++ (a.internals ++ b.internals) := by
          rw [← listInternals_children]; exact List.flatMap_append
        rw [e1, e2]
        exact List.perm_append_comm.cons _
      have hnd := ((hp.map HTree.id).nodup_iff).1 h
      rw [List.map_cons, List.nodup_cons] at hnd
      obtain ⟨h1, h2, h3⟩ := ih _ hnd.2
      have hnew : ∀ v ∈ listInternals (q ++ [a, b].filter fun c => !c.isLeaf), v.id ≠ id :=
        fun v hv he => hnd.1 (List.mem_map.2 ⟨v, hv, he⟩)
      have hchild : ∀ {v c : HTree} {id' : Nat} {a' b' : HTree}, v = .node id' a' b' →
          v ∈ listInternals (q ++ [a, b].filter fun c => !c.isLeaf) → c ∈ [a', b'] →
          c.isLeaf = false → c ∈ listInternals (q ++ [a, b].filter fun c => !c.isLeaf) := by
        intro v c id' a' b' hv hm hc hl
        obtain ⟨t, ht, hvt⟩ := List.mem_flatMap.1 hm
        refine List.mem_flatMap.2 ⟨t, ht, ?_⟩
        clear ht hm
        subst hv
        have hself : ∀ w : HTree, w.isLeaf = false → w ∈ w.internals := by
          intro w hw
          cases w
          · cases hw
          · exact List.mem_cons_self
        induction t with
        | leaf _ _ => simp [HTree.internals] at hvt
        | node i x y ihx ihy =>
          simp only [HTree.internals, List.mem_cons, List.mem_append] at hvt ⊢
          rcases hvt with hvt | hvt | hvt
          · cases hvt
            rcases List.mem_cons.1 hc with rfl | hc
            · exact .inr (.inl (hself _ hl))
            · obtain rfl := List.mem_singleton.1 hc
              exact .inr (.inr (hself _ hl))
          · exact .inr (.inl (ihx hvt))
          · exact .inr (.inr (ihy hvt))
      refine ⟨by simp only [List.length_cons]; omega, ?_, ?_⟩
      · intro v hv
        rcases List.mem_cons.1 hv with rfl | hv
        · exact hp.mem_iff.2 List.mem_cons_self
        · exact hp.mem_iff.2 (List.mem_cons_of_mem _ (h2 v hv))
      · intro k id' a' b' hk c hc hl j hj u hu
        have hmem : c ∈ listInternals (q ++ [a, b].filter fun c => !c.isLeaf) := by
          cases k with
          | zero =>
            simp only [List.getElem?_cons_zero, Option.some.injEq, HTree.node.injEq] at hk
            obtain ⟨rfl, rfl, rfl⟩ := hk
            refine List.mem_flatMap.2 ⟨c, ?_, ?_⟩
            · exact List.mem_append_right _ (List.mem_filter.2 ⟨hc, by simp [hl]⟩)
            · cases c
              · cases hl
              · exact List.mem_cons_self
          | succ k =>
            rw [List.getElem?_cons_succ] at hk
            exact hchild rfl (h2 _ (List.mem_of_getElem? hk)) hc hl
        cases j with
        | zero =>
          simp only [List.getElem?_cons_zero, Option.some.injEq] at hu
          subst hu
          exact (hnew c hmem).symm
        | succ j =>
          cases k with
          | zero => omega
          | succ k =>
            rw [List.getElem?_cons_succ] at hk hu
            exact h3 k id' a' b' hk c hc hl j (by omega) u hu

/-! ### Serialization (R380, R397) -/

/-- The pairs of a table serialize where every internal child's index lies in reach of its pair. -/
theorem tablePairs_isSome (order : List HTree) (vs : List HTree) (p : Nat)
    (h : ∀ (i : Nat) (v : HTree), vs[i]? = some v →
      ∃ id a b, v = .node id a b ∧ ∀ c ∈ [a, b], c.isLeaf = false →
      p + i ≤ orderIdx order c ∧ orderIdx order c ≤ p + i + Config.hufMaxOffset) :
    (tablePairs order p vs).isSome = true := by
  induction vs generalizing p with
  | nil => rfl
  | cons v vs ih =>
    obtain ⟨id, a, b, rfl, hc⟩ := h 0 v rfl
    have hb : ∀ c ∈ [a, b], ∃ x, tableByte order p c = some x := by
      intro c hm
      match c with
      | .leaf _ x => exact ⟨_, rfl⟩
      | .node i x y =>
        have := hc _ hm rfl
        refine ⟨nodeByteOf x.isLeaf y.isLeaf
          (BitVec.ofNat 6 (orderIdx order (.node i x y) - p)), ?_⟩
        simp only [tableByte, nodeByteAt, nodeOffset]
        rw [if_neg (by omega)]
        rfl
    obtain ⟨x, hx⟩ := hb a (by simp)
    obtain ⟨y, hy⟩ := hb b (by simp)
    obtain ⟨r, hr⟩ := Option.isSome_iff_exists.1 (ih (p + 1) fun i w hw => by
      obtain ⟨id', a', b', hw', hc'⟩ := h (i + 1) w hw
      exact ⟨id', a', b', hw', fun c hm hl => by have := hc' c hm hl; omega⟩)
    simp [tablePairs, hx, hy, hr]

/-- The 4-bit encoder always has a stream: its layout never fails (R385, R397 "never HUF4"). -/
theorem hufStream_huf4_ne_none (given : Option (List Nat)) (s : List Byte) :
    hufStream .huf4 given s ≠ none := by
  have hlen : (hufFreq .huf4 (hufSymbols .huf4 s)).length = 16 := by simp [hufFreq, hufAlphabet]
  obtain ⟨hr, hnd, hsz⟩ := buildTree_shape (freq := hufFreq .huf4 (hufSymbols .huf4 s)) (by omega)
  unfold hufStream
  simp only [layoutOf]
  revert hr hnd hsz
  generalize buildTree (hufFreq .huf4 (hufSymbols .huf4 s)) = root
  rw [hlen]
  intro hr hnd hsz
  obtain ⟨h1, h2, h3⟩ := bfsOrder_spec (2 * root.internals.length) [root]
    (by simpa [listInternals] using hnd)
  revert h1 h2 h3
  generalize bfsOrder (2 * root.internals.length) [root] = order
  intro h1 h2 h3
  have hidx : ∀ c, orderIdx order c ≤ order.length := fun c => List.findIdx_le_length
  have hpairs : (tablePairs order 1 order).isSome = true := by
    refine tablePairs_isSome order order 1 fun k v hv => ?_
    have hm := h2 v (List.mem_of_getElem? hv)
    obtain ⟨id, a, b, rfl⟩ : ∃ id a b, v = .node id a b := by
      have : ∀ t : HTree, v ∈ t.internals → ∃ id a b, v = .node id a b := by
        intro t
        induction t with
        | leaf _ _ => simp [HTree.internals]
        | node i x y ihx ihy =>
          simp only [HTree.internals, List.mem_cons, List.mem_append]
          rintro (rfl | h | h)
          · exact ⟨_, _, _, rfl⟩
          · exact ihx h
          · exact ihy h
      exact this root (by simpa [listInternals] using hm)
    refine ⟨id, a, b, rfl, fun c hc hl => ⟨?_, ?_⟩⟩
    · by_contra hlt
      have hk : k < order.length := (List.getElem?_eq_some_iff.1 hv).1
      have hj : orderIdx order c < order.length := by omega
      have he : ((order[orderIdx order c]'hj).id == c.id) = true := List.findIdx_getElem (w := hj)
      exact h3 k id a b hv c hc hl (orderIdx order c) (by omega) _
        (List.getElem?_eq_getElem hj) (eq_of_beq he)
    · have := hidx c
      simp only [Config.hufMaxOffset]
      omega
  obtain ⟨rest, hrest⟩ := Option.isSome_iff_exists.1 hpairs
  match root, hr with
  | .node id a b, _ =>
    have h0 := hidx (.node id a b)
    have hb : ∃ x, nodeByteAt order 0 (.node id a b) = some x := by
      refine ⟨nodeByteOf a.isLeaf b.isLeaf
        (BitVec.ofNat 6 (orderIdx order (.node id a b) - 0)), ?_⟩
      simp only [nodeByteAt, nodeOffset]
      rw [if_neg (by unfold Config.hufMaxOffset; omega)]
      rfl
    obtain ⟨x, hx⟩ := hb
    simp [serialize, hx, hrest]

end Sys2Proof.Machine
end

