-- ==== Sys2Proof/Laws/PerInstr.lean ====
section
/-!
SUPPORT. What is said of every instruction as syntax: its encoding has the number of bytes its size
tells (spec/30_encoding.md R90).
-/

namespace Sys2Proof.Laws

/-- An instruction's encoding has the length R90 gives it. -/
def EncodedSize.Statement (i : Instr) : Prop := (encode i).length = i.size

theorem EncodedSize.cmdSupports (codec : BitVec 4) :
    EncodedSize.Statement (.cmdSupports codec) := rfl

theorem EncodedSize.cmdDecompress (codec : BitVec 4) :
    EncodedSize.Statement (.cmdDecompress codec) := rfl

theorem EncodedSize.cmdCompress (codec : BitVec 4) :
    EncodedSize.Statement (.cmdCompress codec) := rfl

theorem EncodedSize.cmdSetopt (codec : BitVec 4) (option : BitVec 8) :
    EncodedSize.Statement (.cmdSetopt codec option) := rfl

theorem EncodedSize.hdrNull (n : BitVec 24) : EncodedSize.Statement (.hdrNull n) := rfl

theorem EncodedSize.hdrLz10 (n : BitVec 24) : EncodedSize.Statement (.hdrLz10 n) := rfl

theorem EncodedSize.hdrLz11 (n : BitVec 24) : EncodedSize.Statement (.hdrLz11 n) := rfl

theorem EncodedSize.hdrHuf4 (n : BitVec 24) : EncodedSize.Statement (.hdrHuf4 n) := rfl

theorem EncodedSize.hdrHuf8 (n : BitVec 24) : EncodedSize.Statement (.hdrHuf8 n) := rfl

theorem EncodedSize.hdrRle (n : BitVec 24) : EncodedSize.Statement (.hdrRle n) := rfl

theorem EncodedSize.hdrExt (n : BitVec 32) : EncodedSize.Statement (.hdrExt n) := rfl

theorem EncodedSize.lz10Flags (f : Byte) : EncodedSize.Statement (.lz10Flags f) := rfl

theorem EncodedSize.lz10Lit (d : Byte) : EncodedSize.Statement (.lz10Lit d) := rfl

theorem EncodedSize.lz10Ref (len : BitVec 4) (disp : BitVec 12) :
    EncodedSize.Statement (.lz10Ref len disp) := rfl

theorem EncodedSize.lz11Flags (f : Byte) : EncodedSize.Statement (.lz11Flags f) := rfl

theorem EncodedSize.lz11Lit (d : Byte) : EncodedSize.Statement (.lz11Lit d) := rfl

theorem EncodedSize.lz11Ref2 (ind : BitVec 4) (disp : BitVec 12) :
    EncodedSize.Statement (.lz11Ref2 ind disp) := rfl

theorem EncodedSize.lz11Ref3 (len : BitVec 8) (disp : BitVec 12) :
    EncodedSize.Statement (.lz11Ref3 len disp) := rfl

theorem EncodedSize.lz11Ref4 (len : BitVec 16) (disp : BitVec 12) :
    EncodedSize.Statement (.lz11Ref4 len disp) := rfl

theorem EncodedSize.ovlTrailer0 : EncodedSize.Statement (.ovlTrailer0) := rfl

theorem EncodedSize.ovlTrailer (cl : BitVec 24) (hs : Byte) (extra : BitVec 32) :
    EncodedSize.Statement (.ovlTrailer cl hs extra) := rfl

theorem EncodedSize.ovlFlags (f : Byte) : EncodedSize.Statement (.ovlFlags f) := rfl

theorem EncodedSize.ovlLit (d : Byte) : EncodedSize.Statement (.ovlLit d) := rfl

theorem EncodedSize.ovlRef (len : BitVec 4) (disp : BitVec 12) :
    EncodedSize.Statement (.ovlRef len disp) := rfl

theorem EncodedSize.rleRun (n : BitVec 7) (d : Byte) : EncodedSize.Statement (.rleRun n d) := rfl

theorem EncodedSize.rleRaw (n : BitVec 7) : EncodedSize.Statement (.rleRaw n) := rfl

theorem EncodedSize.hufTsize (b : Byte) : EncodedSize.Statement (.hufTsize b) := rfl

theorem EncodedSize.hufTable (root : Byte) : EncodedSize.Statement (.hufTable root) := rfl

theorem EncodedSize.hufNode (leaf0 : Bool) (leaf1 : Bool) (offset : BitVec 6) :
    EncodedSize.Statement (.hufNode leaf0 leaf1 offset) := rfl

theorem EncodedSize.hufWord (w : BitVec 32) : EncodedSize.Statement (.hufWord w) := rfl

theorem EncodedSize.hufBit (b : Bool) : EncodedSize.Statement (.hufBit b) := rfl

theorem EncodedSize.hufLeaf8 (b : Byte) : EncodedSize.Statement (.hufLeaf8 b) := rfl

theorem EncodedSize.hufLeaf4 (b : Byte) : EncodedSize.Statement (.hufLeaf4 b) := rfl

theorem EncodedSize.nullByte (d : Byte) : EncodedSize.Statement (.nullByte d) := rfl

end Sys2Proof.Laws
end

