-- ==== Sys2Proof/Tests/Slice0.lean ====
section
/-!
SUPPORT. Tests on fixed values: ill-formed terms refused, every row of the opcode table decoded from a
word written out from its encoding, one small step per instruction with the expected value taken from
a worked example or a rule of spec/, and for each obligation with hypotheses a state that meets them.
-/

namespace Sys2Proof.Tests

open Sys2Proof Sys2Proof.Machine

/-! ### WellFormed -/

theorem test_ref2_indicator_below_two_is_ill_formed :
    (Instr.lz11Ref2 0 5).wellFormed = false ∧ (Instr.lz11Ref2 1 5).wellFormed = false ∧
    (Instr.lz11Ref2 2 5).wellFormed = true := by decide

theorem test_trailer_of_extra_zero_is_ill_formed :
    (Instr.ovlTrailer 6 8 0).wellFormed = false ∧ (Instr.ovlTrailer 6 8 1).wellFormed = true := by
  decide

/-! ### Words written out from the encodings of spec/30_encoding.md -/

/-- R91: `rrrrrrrrrrrrrrrr pppppppp cccc oooo`, written as four bytes, lowest first. -/
theorem test_decode_commands :
    decode .cmd [0x11, 0, 0, 0] = .instr (.cmdSupports 1) ∧
    decode .cmd [0xA2, 0xFF, 0x34, 0x12] = .instr (.cmdDecompress 10) ∧
    decode .cmd [0x63, 0, 0, 0] = .instr (.cmdCompress 6) ∧
    decode .cmd [0x94, 0x01, 0, 0] = .instr (.cmdSetopt 9 1) ∧
    decode .cmd [0x10, 0, 0, 0] = .rejected (.illegalOp 0) ∧
    decode .cmd [0x15, 0, 0, 0] = .rejected (.illegalOp 5) := by decide

/-- R92, R93: magic, then 24 bits little-endian; `10 05 00 00` is the example of R162. -/
theorem test_decode_headers :
    decode (.header .null) [0x00, 0x01, 0x02, 0x03] = .instr (.hdrNull 0x030201) ∧
    decode (.header .lz10) [0x10, 0x05, 0x00, 0x00] = .instr (.hdrLz10 5) ∧
    decode (.header .lz11) [0x11, 0x13, 0x01, 0x00] = .instr (.hdrLz11 0x113) ∧
    decode (.header .huf4) [0x24, 0x00, 0x00, 0x80] = .instr (.hdrHuf4 0x800000) ∧
    decode (.header .huf8) [0x28, 0x04, 0x00, 0x00] = .instr (.hdrHuf8 4) ∧
    decode (.header .rle) [0x30, 0x00, 0x01, 0x00] = .instr (.hdrRle 0x100) ∧
    decode .ext [0x01, 0x02, 0x03, 0x84] = .instr (.hdrExt 0x84030201) ∧
    decode (.header .lz10) [0x11] = .rejected (.badMagic 0x11) ∧
    decode (.header .lz10) [0x10, 0x05, 0x00] = .rejected .cut := by decide

/-- R95, R96. -/
theorem test_decode_lz :
    decode .lz10Flags [0x40] = .instr (.lz10Flags 0x40) ∧
    decode (.lz10Block false) [0x41] = .instr (.lz10Lit 0x41) ∧
    decode (.lz10Block true) [0xF1, 0x02] = .instr (.lz10Ref 15 0x102) ∧
    decode .lz11Flags [0x80] = .instr (.lz11Flags 0x80) ∧
    decode (.lz11Block false) [0x42] = .instr (.lz11Lit 0x42) ∧
    decode (.lz11Block true) [0x21, 0x23] = .instr (.lz11Ref2 2 0x123) ∧
    decode (.lz11Block true) [0x0F, 0xE1, 0x23] = .instr (.lz11Ref3 0xFE 0x123) ∧
    decode (.lz11Block true) [0x1F, 0xED, 0xC1, 0x23] = .instr (.lz11Ref4 0xFEDC 0x123) ∧
    decode (.lz11Block true) [0x0F, 0xE1] = .rejected .cut := by decide

/-- R97, R95, R98: trailer, overlay region, RLE. -/
theorem test_decode_overlay_and_rle :
    decode .ovlTrailer [9, 9, 0, 0, 0, 0] = .instr .ovlTrailer0 ∧
    decode .ovlTrailer [0x01, 0x02, 0x03, 0x08, 0x04, 0x05, 0x06, 0x07] =
      .instr (.ovlTrailer 0x030201 8 0x07060504) ∧
    decode .ovlFlags [0x03] = .instr (.ovlFlags 3) ∧
    decode (.ovlBlock false) [0x41] = .instr (.ovlLit 0x41) ∧
    decode (.ovlBlock true) [0x30, 0x04] = .instr (.ovlRef 3 4) ∧
    decode .rleGroup [0x82, 0x41] = .instr (.rleRun 2 0x41) ∧
    decode .rleGroup [0x7F] = .instr (.rleRaw 0x7F) ∧
    decode .ovlTrailer [1, 0, 0, 0] = .rejected .shortTrailer := by decide

/-- R99: `00 00 00 4C` is the word `0x4C000000` (R168). -/
theorem test_decode_huffman_and_null :
    decode .hufSize [0x01] = .instr (.hufTsize 1) ∧
    decode .hufTable [0xC0] = .instr (.hufTable 0xC0) ∧
    decode .hufNode [0x83] = .instr (.hufNode true false 3) ∧
    decode .hufWord [0x00, 0x00, 0x00, 0x4C] = .instr (.hufWord 0x4C000000) ∧
    decode .hufBit [0x01] = .instr (.hufBit true) ∧
    decode (.hufLeaf .huf8) [0xFE] = .instr (.hufLeaf8 0xFE) ∧
    decode (.hufLeaf .huf4) [0x06] = .instr (.hufLeaf4 6) ∧
    decode .nullByte [0x5A] = .instr (.nullByte 0x5A) := by decide

theorem test_table_words :
    decodeTableWord 32 0x000000A3 = some (.cmdCompress 10) ∧
    decodeTableWord 32 0x00000510 = some (.hdrLz10 5) ∧
    decodeTableWord 16 0x8241 = some (.rleRun 2 0x41) ∧
    decodeTableWord 24 0x003000 = some (.lz11Ref3 3 0) ∧
    decodeTableWord 8 0x83 = some (.hufNode true false 3) ∧
    decodeTableWord 64 0x0600000803000000 = some (.ovlTrailer 6 8 3) := by decide

/-! ### One step -/

/-- A decoder at a place, with `bytes` at `IN_POS` = 4, all of them declared and delivered. -/
def at4 (phase : Phase) (bytes : List Byte) (size : Nat) : State :=
  { State.reset with
    mem.imem := Memory.store 4 bytes []
    env.srcLen := 4 + bytes.length
    work := { WorkRegs.reset with
      declLen := 4 + bytes.length, inPos := 4, decSize := size, treeBase := 4, nodePos := 1 }
    seq.phase := phase }

/-- A decoder at offset 0 of a stream. -/
def at0 (phase : Phase) (bytes : List Byte) : State :=
  { State.reset with
    mem.imem := Memory.store 0 bytes []
    env.srcLen := bytes.length
    host.argLen := BitVec.ofNat 32 bytes.length
    work.declLen := bytes.length
    seq.phase := phase }

/-- An overlay decoder in its region: two bytes of it below `OVL_IP` = 4, nothing below 2, three
bytes of five written. -/
def inRegion (bytes : List Byte) (w : Nat) : State :=
  { at4 .ovlBody [] 0 with
    mem.imem := Memory.store 2 bytes []
    mem.ovlbuf := Memory.store 4 [0x61, 0x62, 0x63] []
    ovl := { OvlRegs.reset with p := 2, u := 2 + w, ip := 4, op := 4, w := w, cl := 2 } }

/-- The state a step leads to. -/
def after (o : Host.Outcome State Fault Refusal) : State :=
  match o with
  | .next s => s
  | _ => .reset

/-- A machine about to take a command word, `bytes` loaded. -/
def commanding (w : Word32) (bytes : List Byte) : State :=
  { at0 .idle bytes with env.hostQ := [.writeCmd w] }

/-- R203: byte 0 is the magic. -/
theorem test_supports : (after (step (commanding 0x11 [0x10, 5, 0, 0]))).host.resultLen = 1 ∧
    (after (step (commanding 0x21 [0x10, 5, 0, 0]))).host.resultLen = 0 := by decide

/-- R134: the LZ10 decoder begins; R436: the NDS composite jumps on byte 0. -/
theorem test_decompress :
    (after (step (commanding 0x12 [0x10, 5, 0, 0]))).seq.phase = .header .lz10 ∧
    (after (step (commanding 0xA2 [0x10, 5, 0, 0]))).seq.phase = .header .lz10 ∧
    (after (step (commanding 0xA2 [0x30, 5, 0, 0]))).host.status = 0x0E := by decide

/-- R295, R296: `RUN 3,41` is `80 41`, after the header `30 03 00 00`. -/
theorem test_compress :
    result (after (step (commanding 0x43 [0x41, 0x41, 0x41]))) =
      [0x30, 3, 0, 0, 0x80, 0x41] := by decide

/-- R140: `-opt` of NDS sets both look-ahead bits. -/
theorem test_setopt : (after (step (commanding 0x01A4 []))).host.ctrl = 3 ∧
    (after (step (commanding 0x01A4 []))).host.resultLen = 1 := by decide

/-- R141: the LZ members of NDS take every `-opt`; RLE takes none. -/
theorem test_option_list : parseOptions .nds [1, 1, 0] = 2 ∧ parseOptions .rle [1] = 0 := by decide

/-- R142. -/
theorem test_illegal_command : (after (step (commanding 0x15 []))).host.status = 0x1A ∧
    (after (step (commanding 0x72 []))).host.status = 0x1A := by decide

/-- R162: `10 05 00 00` gives `DEC_SIZE` = 5, `IN_POS` = 4. -/
theorem test_headers :
    ((after (step (at0 (.header .lz10) [0x10, 5, 0, 0]))).work.decSize,
      (after (step (at0 (.header .lz10) [0x10, 5, 0, 0]))).work.inPos) = (5, 4) ∧
    (after (step (at0 (.header .null) [0, 1, 0, 0]))).seq.phase = .nullBody ∧
    (after (step (at0 (.header .lz11) [0x11, 0, 0, 0]))).seq.phase = .ext .lz11 ∧
    (after (step (at0 (.header .huf4) [0x24, 1, 0, 0]))).work.treeBase = 4 ∧
    (after (step (at0 (.header .huf8) [0x28, 1, 0, 0]))).seq.phase = .treeSize .huf8 ∧
    (after (step (at0 (.header .rle) [0x30, 1, 1, 0]))).work.decSize = 0x101 := by decide

/-- R163, R310: the extension word, and where a Huffman table then begins. -/
theorem test_extension :
    (after (step (at4 (.ext .huf8) [3, 0, 0, 1] 0))).work.decSize = 0x01000003 ∧
    (after (step (at4 (.ext .huf8) [3, 0, 0, 1] 0))).work.treeBase = 8 := by decide

/-- R166: bit 7 is the first flag. -/
theorem test_flags :
    nextFlagMsb (after (step (at4 .lz10Body [0x80] 1))) = true ∧
    nextFlagMsb (after (step (at4 .lz11Body [0x7F] 1))) = false ∧
    nextFlagLsb (after (step { inRegion [0, 1] 0 with ovl.u := 2 })) = true := by decide

/-- R193, R223, R442, R260: one byte appended (or stored below the overlay cursor). -/
theorem test_literals :
    Memory.read 0 (after (exec (.lz10Lit 0x41) (at4 .lz10Body [0x41] 1))).mem.omem = 0x41 ∧
    Memory.read 0 (after (exec (.lz11Lit 0x42) (at4 .lz11Body [0x42] 1))).mem.win = 0x42 ∧
    (after (exec (.nullByte 0x43) (at4 .nullBody [0x43] 1))).work.outLen = 1 ∧
    Memory.read 3 (after (exec (.ovlLit 0x44) (inRegion [0, 0x44] 3))).mem.ovlbuf = 0x44 := by
  decide

/-- After `A B` was written by an LZ decoder. -/
def wroteAB (bytes : List Byte) (size : Nat) : State :=
  { at4 .lz10Body bytes size with
    work := { (at4 .lz10Body bytes size).work with outLen := 2 }
    mem := { (at4 .lz10Body bytes size).mem with
      omem := [(0, 0x41), (1, 0x42)], win := [(0, 0x41), (1, 0x42)] } }

/-- R194, R67: `L` = 7, `D` = 2 after `A B` gives `ABABABAB..`, the vector T-LZ10-1. -/
theorem test_lz10_ref :
    Memory.range (after (exec (.lz10Ref 4 1) (wroteAB [0x40, 1] 9))).mem.omem 0 9 =
      [0x41, 0x42, 0x41, 0x42, 0x41, 0x42, 0x41, 0x42, 0x41] := by decide

/-- R224 to R226: lengths `ind + 1`, `len + 0x11`, `len + 0x111`. -/
theorem test_lz11_refs :
    (after (exec (.lz11Ref2 2 0) (wroteAB [0x20, 0] 400))).work.outLen = 5 ∧
    (after (exec (.lz11Ref3 3 0) (wroteAB [0, 0x30, 0] 400))).work.outLen = 22 ∧
    (after (exec (.lz11Ref4 1 0) (wroteAB [0x10, 0, 0x10, 0] 400))).work.outLen = 276 := by
  decide +kernel

/-- R196: `D` = 3 after two bytes is Invalid-data at the offset of `B1`. -/
theorem test_bad_displacement :
    (after (exec (.lz10Ref 0 2) (wroteAB [0, 2] 9))).host.errPos = 4 := by decide

/-- R252: the file but for its last four bytes is copied through. -/
theorem test_trailer0 :
    result (after (step (at0 .ovlTrailer [1, 2, 3, 0, 0, 0, 0]))) = [1, 2, 3] := by decide

/-- R253 to R257, on the vector T-OVL-1: `n` = 16, `P` = 2, `U` = 9. -/
theorem test_trailer :
    (after (step (at0 .ovlTrailer
      [72, 73, 0, 48, 65, 66, 67, 8, 6, 0, 0, 8, 3, 0, 0, 0]))).ovl =
      { extra := 3, hs := 8, cl := 6, p := 2, u := 9, ip := 8, op := 11, w := 0 } := by
  decide

/-- R261, R268: `D` = 3 with three bytes written; `D` beyond the bytes written runs as 2. -/
theorem test_overlay_refs :
    Memory.range (after (exec (.ovlRef 0 0) { inRegion [0, 0] 3 with ovl.u := 6 })).mem.ovlbuf 1 3 =
      [0x61, 0x62, 0x63] ∧
    Memory.range (after (exec (.ovlRef 0 9) { inRegion [9, 0] 3 with ovl.u := 6 })).mem.ovlbuf 1 3 =
      [0x62, 0x61, 0x62] := by decide

/-- R292, R293: `RUN` of `n` = 2 is five bytes; `RAW` of `n` = 1 is two. -/
theorem test_rle_groups :
    Memory.range (after (step (at4 .rleBody [0x82, 0x41] 9))).mem.omem 0 6 =
      [0x41, 0x41, 0x41, 0x41, 0x41, 0] ∧
    Memory.range (after (step (at4 .rleBody [0x01, 0x42, 0x43, 0x44] 9))).mem.omem 0 3 =
      [0x42, 0x43, 0] := by decide

/-- R312, R313: `TREE_LEN` = 2 * (1 + 1); three table bytes follow. -/
theorem test_tree :
    (after (step (at4 (.treeSize .huf8) [1] 1))).work.treeLen = 4 ∧
    Memory.range (after (step { at4 (.treeTable .huf8) [0xC0, 0x61, 0x62] 1 with
      work.treeLen := 4 })).mem.tree 0 4 = [0, 0xC0, 0x61, 0x62] := by decide

/-- R315, R318: from the root byte `C0` at position 1, bit 1 leads to the leaf at 3. -/
theorem test_walk :
    (after (step { at4 (.node .huf8) [] 1 with mem.tree := [(1, 0xC0)] })).seq.nodeByte = 0xC0 ∧
    (after (exec (.hufBit true) { at4 (.bit .huf8) [] 1 with
      work.treeLen := 4, seq.nodeByte := 0xC0 })).seq.leafPos = 3 ∧
    (after (exec (.hufBit true) { at4 (.bit .huf8) [] 1 with
      work.treeLen := 2, seq.nodeByte := 0xC0 })).host.errPos = 7 := by decide

/-- R168: the bits of `0x4C000000` begin 0, 1, 0, 0, 1, 1. -/
theorem test_word :
    (after (step (at4 (.bit .huf8) [0, 0, 0, 0x4C] 1))).work.bitbuf = 0x4C000000 ∧
    nextBit (dropBit (after (step (at4 (.bit .huf8) [0, 0, 0, 0x4C] 1)))) = true := by decide

/-- R321, R322: a symbol; a nibble kept, then completed, the first one high; a set high nibble. -/
theorem test_leaves :
    Memory.read 0 (after (exec (.hufLeaf8 0x61) (at4 (.leaf .huf8) [] 1))).mem.omem = 0x61 ∧
    (after (exec (.hufLeaf4 6) (at4 (.leaf .huf4) [] 1))).work.nib = 6 ∧
    Memory.read 0 (after (exec (.hufLeaf4 6) { at4 (.leaf .huf4) [] 1 with
      work.nib := 1, work.nibValid := true })).mem.omem = 0x16 ∧
    (after (exec (.hufLeaf4 0x16) (at4 (.leaf .huf4) [] 1))).host.status = 0x0E := by decide

/-- R194, R291, R292, R261: a token cut after its first byte has set `TOK_POS`, an RLE run its `TOK_L`. -/
theorem test_cut_tokens :
    (after (step { at4 .lz10Body [0x40] 9 with work.flags := 0x80, work.flagCnt := 1 })).work.tokPos =
      4 ∧
    ((after (step (at4 .rleBody [0x82] 9))).work.tokPos,
      (after (step (at4 .rleBody [0x82] 9))).work.tokL) = (4, 5) ∧
    (after (step { inRegion [0, 0] 3 with
      ovl := { (inRegion [0, 0] 3).ovl with u := 6, ip := 3 },
      work.flags := 1, work.flagCnt := 1 })).work.tokPos = 2 := by decide

/-- R376, R377, R380 on the frequencies 2, 1, 1: symbols 1 and 2 join first, the leaf 0 comes before the
node they make; both internal nodes have offset 0. -/
theorem test_arena :
    arenaOf (layoutOf .huf4 none (buildTree [2, 1, 1])) (buildTree [2, 1, 1]) =
      [.leaf 0 1, .leaf 1 2, .leaf 2 2, .node 1 2 1 (some 0), .node 0 3 0 (some 0)] := by decide

/-- R343: where nothing matches, the smallest admissible displacement is 1. -/
theorem test_no_match : longestMatch 18 [1, 2, 3] 1 = (0, 1) := by decide

/-- The word placed is the word the next step runs. -/
theorem test_placed_words :
    fetch (State.reset.withFetchWord 16 0x8241) =
      .instr (.rleRun 2 0x41) (State.reset.withFetchWord 16 0x8241) ∧
    (after (step (State.reset.withFetchWord 32 0x1A4))).host.ctrl = 3 := by decide +kernel

/-! ### Hypotheses that something meets

One theorem per obligation that has hypotheses; several clauses, several states. -/

/-- A composite's member on trial, the stream `bytes` loaded. -/
def onTrial (k : Codec) (rest : List Codec) (bytes : List Byte) : State :=
  { at0 (codecEntry k) bytes with seq.trial := some ⟨k, rest⟩ }

theorem memInv_at4 : MemInv (at4 .lz10Body [0x41, 0x42] 9) ∧ MemInv State.reset ∧
    MemInv (wroteAB [0x40, 1] 9) ∧ MemInv (inRegion [0, 0] 3) := by unfold MemInv; decide

/-- Each action at the head of the queue, no command running. -/
theorem witness_ResetAndHostActions :
    State.reset.seq.phase = .idle ∧ State.reset.env.hostQ = [] ∧
    ({ State.reset with env.hostQ := [.writeCtrl 0xFFFFFFFF, .reset] } : State).env.hostQ =
      .writeCtrl 0xFFFFFFFF :: [.reset] ∧
    (after (step { State.reset with env.hostQ := [.writeCtrl 0xFFFFFFFF] })).host.ctrl = 0xF := by
  decide

theorem witness_CommandStartAndEnd : State.reset.seq.trial = none := rfl

theorem witness_TrialErrorFailsTheComposite :
    (∀ x ∈ [Codec.huf8, .lz10], x ∈ trialMembers ∧ x ≠ .huf4) ∧
    (onTrial .huf4 [.huf8, .lz10] [0x24]).seq.trial = some ⟨.huf4, [.huf8, .lz10]⟩ ∧
    Memory.read 0 (onTrial .huf4 [.huf8, .lz10] [0x24]).mem.imem = Fwd.huf4.magic ∧
    (onTrial .huf4 [.huf8, .lz10] [0x24]).env.ioFault = none := by decide

/-- Every byte of the plaintext written, in and out of a trial run; the region filled. -/
theorem witness_FinishEndsTheDecode :
    (MemInv { onTrial .lz10 [] [0x10] with seq.phase := .lz10Body } ∧
      (onTrial .lz10 [] [0x10]).env.ioFault = none ∧
      (onTrial .lz10 [] [0x10]).work.decSize ≤ (onTrial .lz10 [] [0x10]).work.outLen) ∧
    MemInv (inRegion [0, 0] 3) ∧ (inRegion [0, 0] 3).env.ioFault = none ∧
    (inRegion [0, 0] 3).seq.phase = .ovlBody ∧ (inRegion [0, 0] 3).seq.trial = none ∧
    (inRegion [0, 0] 3).work.outLen = 0 ∧
    ({ inRegion [0, 0] 3 with ovl.u := 3 } : State).ovl.u ≤ (inRegion [0, 0] 3).ovl.w := by
  unfold MemInv; decide

theorem witness_SupportsByMagic :
    codecOfId 1 = some .lz10 ∧ (at0 .idle [0x10, 0, 0, 0]).env.ioFault = none ∧
    4 ≤ (at0 .idle [0x10, 0, 0, 0]).host.argLen.toNat ∧
    Memory.read 0 (at0 .idle [0x10, 0, 0, 0]).mem.imem = Fwd.lz10.magic := by decide

theorem witness_SupportsNull : (at0 .idle [0, 1, 0, 0, 9]).env.ioFault = none ∧
    (at0 .idle [0, 1, 0, 0, 9]).host.argLen.toNat = 4 + (le24 1 0 0).toNat ∧
    (at0 .idle [0, 0, 0, 0, 0, 0, 0, 0]).host.argLen.toNat = 8 + (le32 0 0 0 0).toNat := by decide

theorem witness_SupportsOverlay :
    (after (exec (.cmdSupports 3) (at0 .idle [0, 0, 0, 0]))).host.resultLen = 1 ∧
    (after (exec (.cmdSupports 3) (at0 .idle [0, 0, 0, 8, 1, 0, 0, 0]))).host.resultLen = 1 ∧
    (after (exec (.cmdSupports 3) (at0 .idle [0, 0, 0, 0, 9, 1, 0, 0, 0]))).host.resultLen = 0 ∧
    (at0 .idle [0, 0, 0, 0]).env.ioFault = none := by decide

theorem witness_SupportsComposite : State.reset.env.ioFault = none := rfl

/-- The second member of HUFANY, a stream too short for one, and a magic no member has. -/
theorem witness_CompositeDispatchesOnByteZero :
    [(Codec.huf4, Fwd.huf4), (.huf8, .huf8)] = [(.huf4, .huf4)] ++ (.huf8, .huf8) :: [] ∧
    ((at0 .idle [0x28, 0, 0, 0]).env.ioFault = none ∧
      4 ≤ (at0 .idle [0x28, 0, 0, 0]).host.argLen.toNat ∧
      0 < (at0 .idle [0x28, 0, 0, 0]).env.srcLen ∧
      Memory.read 0 (at0 .idle [0x28, 0, 0, 0]).mem.imem = Fwd.huf8.magic) ∧
    (at0 .idle [0x28, 0, 0]).host.argLen.toNat < 4 ∧
    ({ at0 .idle [0x28, 0, 0, 0] with env.srcLen := 0 } : State).env.srcLen = 0 ∧
    Memory.read 0 (at0 .idle [0x30, 0, 0, 0]).mem.imem ∉ [Fwd.huf4.magic, Fwd.huf8.magic] := by
  decide

theorem witness_CompressWritesTheStream :
    MemInv (at0 .idle [0x41, 0x41]) ∧ (at0 .idle [0x41, 0x41]).env.ioFault = none ∧
    (at0 .idle [0x41, 0x41]).host.argLen.toNat = (at0 .idle [0x41, 0x41]).env.srcLen ∧
    (at0 .idle [0x41, 0x41]).host.argLen.toNat ≤ 0xFFFFFF := by unfold MemInv; decide

/-- A layout that names no node of the tree gives no stream. -/
theorem witness_layout_that_fails : hufStream .huf8 (some [7]) [0x41] = none := by decide +kernel

theorem witness_CompressRefusesInOrder :
    codecOfId 3 = some .lzovl ∧ codecOfId 0 = some .null ∧
    0xFFFFFF < ({ State.reset with host.argLen := 0x1000000 } : State).host.argLen.toNat ∧
    ({ State.reset with host.argLen := 0xFFFFFF } : State).host.argLen.toNat ≤ 0xFFFFFF ∧
    ({ State.reset with host.argLen := 0xFFFFFF } : State).env.srcLen <
      ({ State.reset with host.argLen := 0xFFFFFF } : State).host.argLen.toNat := by decide

theorem witness_CompositeCommitsTheSmallest :
    codecOfId 10 = some .nds ∧ codecMembers .nds ≠ [] ∧ MemInv (at0 .idle [0x41, 0x41]) := by
  unfold MemInv; decide

theorem witness_IllegalWordsAreUnsupported :
    (commanding 0x15 []).seq.phase = .idle ∧ (commanding 0x15 []).env.hostQ = [.writeCmd 0x15] ∧
    ((0x15 : Word32).extractLsb' 0 4).toNat ∉ [1, 2, 3, 4] ∧
    ((0x72 : Word32).extractLsb' 4 4).toNat ∈ [7, 11, 12, 13, 14, 15] := by decide

theorem witness_HeadersGiveTheLength : Readable 4 (at0 (.header .huf4) [0x24, 0, 0, 0]) ∧
    Readable 4 (at4 (.ext .huf4) [1, 0, 0, 0] 0) := by unfold Readable; decide

theorem witness_BadMagicIsInvalidData : Readable 1 (at0 (.header .lz10) [0x11]) ∧
    Memory.read (at0 (.header .lz10) [0x11]).work.inPos (at0 (.header .lz10) [0x11]).mem.imem ≠
      Fwd.lz10.magic := by unfold Readable; decide

/-- Nothing left of what was declared; one more byte declared, which the source does not have. -/
theorem witness_MissingBytesEndTheDecode :
    (at4 .lz10Body [] 1).work.declLen ≤ (at4 .lz10Body [] 1).work.inPos ∧
    (at4 .lz10Body [] 1).work.outLen < (at4 .lz10Body [] 1).work.decSize ∧
    ({ at4 .lz10Body [0] 1 with env.srcLen := 4 } : State).env.srcLen ≤
      (at4 .lz10Body [0] 1).work.inPos ∧
    (at4 .lz10Body [0] 1).work.inPos < (at4 .lz10Body [0] 1).work.declLen := by decide

/-- A header with one byte missing, a table and a four-byte back-reference with one byte left. -/
theorem witness_MissingBytesEndTheDecode_cut :
    (3 < tokenBytes (at0 (.header .lz10) [0x10, 5, 0]) ∧
      MemInv (at0 (.header .lz10) [0x10, 5, 0]) ∧ Readable 3 (at0 (.header .lz10) [0x10, 5, 0]) ∧
      Memory.read 0 (at0 (.header .lz10) [0x10, 5, 0]).mem.imem = Fwd.lz10.magic ∧
      0 + 3 = (at0 (.header .lz10) [0x10, 5, 0]).work.declLen) ∧
    (1 < tokenBytes { at4 (.treeTable .huf8) [0xC0] 1 with work.treeLen := 4 } ∧
      Readable 1 { at4 (.treeTable .huf8) [0xC0] 1 with work.treeLen := 4 } ∧
      4 + 1 = (at4 (.treeTable .huf8) [0xC0] 1).env.srcLen) ∧
    tokenBytes { at4 .lz11Body [0x1F] 9 with work.flags := 0x80, work.flagCnt := 1 } = 4 := by
  unfold MemInv Readable; decide

/-- The trailer's three cases at their bounds; the region empty, and one byte of a back-reference. -/
theorem witness_MissingBytesEndTheDecode_overlay :
    (at0 .ovlTrailer [1, 0, 0]).work.declLen < 4 ∧
    ({ at0 .ovlTrailer [1, 0, 0, 0] with env.srcLen := 3 } : State).env.srcLen <
      (at0 .ovlTrailer [1, 0, 0, 0]).work.declLen ∧
    ((at0 .ovlTrailer [0, 0, 0, 1, 0, 0, 0]).work.declLen = 7 ∧
      (at0 .ovlTrailer [0, 0, 0, 1, 0, 0, 0]).env.srcLen = 7 ∧ le32 1 0 0 0 ≠ 0) ∧
    ({ inRegion [0, 0] 3 with ovl.ip := 2 } : State).ovl.ip ≤ (inRegion [0, 0] 3).ovl.p ∧
    (inRegion [0, 0] 3).ovl.w < (inRegion [0, 0] 3).ovl.u ∧
    ({ inRegion [0, 0] 3 with ovl.ip := 3 } : State).ovl.ip = (inRegion [0, 0] 3).ovl.p + 1 ∧
    (1 : Byte).getLsbD 0 = true := by decide

theorem witness_LzFlagByteIsLoaded : Readable 1 (at4 .lz10Body [0x80] 1) ∧
    (at4 .lz10Body [] 1).work.declLen ≤ (at4 .lz10Body [] 1).work.inPos := by
  unfold Readable; decide

theorem witness_LzLiteralIsAppended : MemInv (at4 .lz10Body [0x41, 0x42] 9) ∧
    Readable 1 (at4 .lz10Body [0x41, 0x42] 9) := ⟨memInv_at4.1, by unfold Readable; decide⟩

/-- WIN after `A B`: the two bytes of the output. -/
theorem winCoherent_wroteAB (bytes : List Byte) (size : Nat) : WinCoherent (wroteAB bytes size) := by
  intro i h _
  have h2 : i < 2 := h
  interval_cases i <;> rfl

theorem winCoherent_at4 (phase : Phase) (bytes : List Byte) (size : Nat) :
    WinCoherent (at4 phase bytes size) := fun i h _ => absurd h (Nat.not_lt_zero i)

/-- A displacement of exactly the bytes written. -/
theorem witness_BackReferenceReplaysTheOutput :
    Readable 2 (wroteAB [0x40, 1] 9) ∧ MemInv (wroteAB [0x40, 1] 9) ∧
    WinCoherent (wroteAB [0x40, 1] 9) ∧
    (1 : BitVec 12).toNat + 1 = (wroteAB [0x40, 1] 9).work.outLen ∧
    (wroteAB [0x40, 1] 9).work.outLen ≤ (wroteAB [0x40, 1] 9).work.decSize :=
  ⟨by unfold Readable; decide, memInv_at4.2.2.1, winCoherent_wroteAB _ _, by decide, by decide⟩

/-- A displacement of one byte more. -/
theorem witness_BadDisplacementWritesNothing : Readable 2 (wroteAB [0, 2] 9) ∧
    (wroteAB [0, 2] 9).work.outLen < (2 : BitVec 12).toNat + 1 := by unfold Readable; decide

theorem witness_OverlayPassesThrough : MemInv (at0 .ovlTrailer [0, 0, 0, 0]) ∧
    (at0 .ovlTrailer [0, 0, 0, 0]).env.ioFault = none ∧
    (at0 .ovlTrailer [0, 0, 0, 0]).seq.trial = none ∧
    (at0 .ovlTrailer [0, 0, 0, 0]).work.outLen = 0 ∧
    (at0 .ovlTrailer [0, 0, 0, 0]).work.declLen = 4 ∧
    (at0 .ovlTrailer [0, 0, 0, 0]).env.srcLen = 4 := by unfold MemInv; decide

/-- Three, seven and eight bytes declared; a header size of 7 and of 8. -/
theorem witness_OverlayTrailerSetsUpTheRegion :
    (at0 .ovlTrailer [1, 0, 0]).work.declLen < 4 ∧
    ({ at0 .ovlTrailer [1, 0, 0, 0] with env.srcLen := 3 } : State).env.srcLen <
      (at0 .ovlTrailer [1, 0, 0, 0]).work.declLen ∧
    (at0 .ovlTrailer [0, 0, 0, 1, 0, 0, 0]).work.declLen < 8 ∧
    (at0 .ovlTrailer [0, 0, 0, 8, 1, 0, 0, 0]).work.declLen = 8 ∧
    (at0 .ovlTrailer [0, 0, 0, 8, 1, 0, 0, 0]).env.srcLen = 8 ∧
    (7 : Byte).toNat < 8 ∧ (8 : Byte).toNat + (0 : BitVec 24).toNat ≤ 8 := by decide

theorem witness_OverlayFlagsAndLiterals : MemInv (inRegion [0, 0] 3) ∧
    (inRegion [0, 0] 3).env.ioFault = none ∧ (inRegion [0, 0] 3).ovl.p < (inRegion [0, 0] 3).ovl.ip ∧
    ({ inRegion [0, 0] 3 with ovl.ip := 2 } : State).ovl.ip ≤ (inRegion [0, 0] 3).ovl.p :=
  ⟨memInv_at4.2.2.2, by decide⟩

/-- Three bytes written: a displacement of 3 runs, one of 4 runs as 2, with one byte written none. -/
theorem witness_OverlayReferenceCopiesDownward : MemInv (inRegion [0, 0] 3) ∧
    (inRegion [0, 0] 3).env.ioFault = none ∧
    (inRegion [0, 0] 3).ovl.p + 2 = (inRegion [0, 0] 3).ovl.ip ∧
    (inRegion [0, 0] 3).ovl.w ≤ (inRegion [0, 0] 3).ovl.u ∧
    (inRegion [0, 0] 3).ovl.op + (inRegion [0, 0] 3).ovl.w =
      (inRegion [0, 0] 3).ovl.p + (inRegion [0, 0] 3).ovl.u ∧
    (0 : BitVec 12).toNat + 3 = (inRegion [0, 0] 3).ovl.w ∧
    (inRegion [0, 0] 3).ovl.w < (1 : BitVec 12).toNat + 3 ∧ (inRegion [0, 0] 1).ovl.w < 2 :=
  ⟨memInv_at4.2.2.2, by decide⟩

theorem witness_RunRepeatsItsByte : Readable 2 (at4 .lz10Body [0x41, 0x42] 9) ∧
    (at4 .lz10Body [0x41, 0x42] 9).work.outLen ≤ (at4 .lz10Body [0x41, 0x42] 9).work.decSize := by
  unfold Readable; decide

/-- A group of one byte, the last byte there is. -/
theorem witness_RawGroupCopiesItsBytes : MemInv (at4 .lz10Body [0x41, 0x42] 9) ∧
    Readable (1 + min ((0 : BitVec 7).toNat + 1) (9 - 0)) (at4 .lz10Body [0x41, 0x42] 9) :=
  ⟨memInv_at4.1, by unfold Readable; decide⟩

/-- A group of two bytes with one left, at the declared end and at the end of the source. -/
theorem witness_CutRawGroupKeepsItsBytes : Readable (1 + 1) (at4 .lz10Body [0x41, 0x42] 9) ∧
    1 < min ((1 : BitVec 7).toNat + 1) (9 - 0) ∧
    (at4 .lz10Body [0x41, 0x42] 9).work.inPos + 1 + 1 =
      (at4 .lz10Body [0x41, 0x42] 9).work.declLen ∧
    (at4 .lz10Body [0x41, 0x42] 9).work.inPos + 1 + 1 =
      (at4 .lz10Body [0x41, 0x42] 9).env.srcLen := by unfold Readable; decide

theorem witness_TreeTableIsStored : Readable 1 (at4 (.treeSize .huf4) [0] 1) ∧
    Readable (2 - 1) { at4 (.treeTable .huf4) [0] 1 with work.treeLen := 2 } ∧
    MemInv (at4 (.treeTable .huf4) [0] 1) := by unfold Readable MemInv; decide

/-- A child inside the table, and one at its end; a leaf and a node. -/
theorem witness_WalkStepsToTheChild :
    childPos 1 0xC0 true = 3 ∧ childPos 1 0xC1 false = 4 ∧ childIsLeaf 0xC0 true = true ∧
    childIsLeaf 0x80 true = false ∧ (at4 (.bit .huf8) [] 1).seq.phase = .bit .huf8 := by decide

theorem witness_BitWordIsLoaded : Readable 4 (at4 (.bit .huf8) [0, 0, 0, 0x4C] 1) := by
  unfold Readable; decide

/-- The first nibble and the second, which completes a byte; a clear and a set high nibble. -/
theorem witness_LeavesEmitTheirSymbols : MemInv (at4 (.leaf .huf4) [] 1) ∧
    (at4 (.leaf .huf4) [] 1).env.ioFault = none ∧ (at4 (.leaf .huf4) [] 1).work.nibValid = false ∧
    ({ at4 (.leaf .huf4) [] 1 with work.nibValid := true } : State).work.nibValid = true ∧
    MemInv { at4 (.leaf .huf4) [] 1 with work.nibValid := true } ∧
    (0x0F : Byte).toNat < 16 ∧ 16 ≤ (0x10 : Byte).toNat := by unfold MemInv; decide

theorem witness_NullByteIsCopied : Readable 1 (at4 .nullBody [0x5A] 1) ∧
    MemInv (at4 .nullBody [0x5A] 1) := by unfold Readable MemInv; decide

/-- The last access of a literal, of a back-reference, of an overlay token, of a second nibble. -/
theorem witness_PortFaultEndsTheCommand :
    (BytesThere (.lz10Lit 0x41) (at4 .lz10Body [0x41] 1) ∧
      1 < accesses (.lz10Lit 0x41) (at4 .lz10Body [0x41] 1)) ∧
    (BytesThere (.lz10Ref 0 1) (wroteAB [0, 1] 9) ∧
      4 < accesses (.lz10Ref 0 1) (wroteAB [0, 1] 9)) ∧
    (BytesThere (.ovlRef 0 0) (inRegion [0, 0] 3) ∧
      1 < accesses (.ovlRef 0 0) (inRegion [0, 0] 3)) ∧
    (BytesThere (.ovlTrailer 6 8 3) { at0 .ovlTrailer [] with
        work.declLen := 16, env.srcLen := 16 } ∧
      9 < accesses (.ovlTrailer 6 8 3) { at0 .ovlTrailer [] with
        work.declLen := 16, env.srcLen := 16 }) ∧
    (BytesThere (.hufLeaf4 1) { at4 (.leaf .huf4) [] 1 with work.nibValid := true } ∧
      0 < accesses (.hufLeaf4 1) { at4 (.leaf .huf4) [] 1 with work.nibValid := true }) := by
  unfold BytesThere; decide

/-- A commit, a flush and the commands. -/
theorem witness_PortFaultEndsTheCommand_rest :
    0 < ({ onTrial .lz10 [] [0x10] with
      seq.phase := .lz10Body, work.outLen := 1 } : State).work.outLen ∧
    (inRegion [0, 0] 3).seq.trial = none ∧ 7 < (inRegion [0, 0] 3).ovl.p + 6 ∧
    (at0 .idle [0, 0, 0, 0]).host.argLen.toNat = 4 ∧ (at0 .idle [0, 0, 0, 0]).env.srcLen = 4 ∧
    (encodeStream .rle (commandStart (at0 .idle [0x41, 0x41, 0x41, 0x41]))) =
      some [0x30, 4, 0, 0, 0x81, 0x41] := by decide

/-- Each place of `StepRunsTheDecodedInstruction`. -/
theorem witness_StepRunsTheDecodedInstruction :
    decode (.header .lz10) (readable (at0 (.header .lz10) [0x10, 1, 0, 0])) = .instr (.hdrLz10 1) ∧
    decode .ext (readable (at4 (.ext .rle) [1, 0, 0, 0] 0)) = .instr (.hdrExt 1) ∧
    decode .hufSize (readable (at4 (.treeSize .huf4) [1] 1)) = .instr (.hufTsize 1) ∧
    decode .hufTable (readable (at4 (.treeTable .huf4) [0xC0] 1)) = .instr (.hufTable 0xC0) ∧
    decode .nullByte (readable (at4 .nullBody [7] 1)) = .instr (.nullByte 7) ∧
    decode .rleGroup (readable (at4 .rleBody [0] 1)) = .instr (.rleRaw 0) ∧
    decode .lz10Flags (readable (at4 .lz10Body [9] 1)) = .instr (.lz10Flags 9) ∧
    decode (.lz11Block true) (readable (at4 .lz11Body [0x20, 0] 1)) = .instr (.lz11Ref2 2 0) ∧
    decode .hufWord (readable (at4 (.bit .huf8) [0, 0, 0, 0] 1)) = .instr (.hufWord 0) ∧
    decode .ovlTrailer (Memory.range (at0 .ovlTrailer [0, 0, 0, 0]).mem.imem 0 4) =
      .instr .ovlTrailer0 ∧
    decode .ovlFlags (readableBack (inRegion [0, 3] 3)) = .instr (.ovlFlags 3) ∧
    decodeCmd 0x12 = .instr (.cmdDecompress 1) := by decide

theorem witness_DecodeInvertsEncode : (Instr.lz11Ref2 2 0).wellFormed = true := rfl

theorem witness_EncodeInvertsDecode :
    decode .ovlTrailer [7, 0, 0, 0, 0] = .instr .ovlTrailer0 := by decide

theorem witness_EveryDecodeEnds : (at4 .lz10Body [] 1).seq.phase ≠ .idle := by decide

/-- A decoder just started by a command. -/
def started : State := after (step (commanding 0x12 [0x10, 1, 0, 0, 0, 0x41]))

theorem memInv_started : MemInv started := by unfold MemInv; decide +kernel

theorem controlInv_started : ControlInv started where
  status := by unfold StatusLegal; decide +kernel
  busy := by decide +kernel
  noTrial := by decide +kernel
  members := by
    intro tr h
    have h0 : started.seq.trial = none := by decide +kernel
    rw [h0] at h
    cases h
  ctrl := by decide +kernel
  failed := by decide +kernel
  errPos := by decide +kernel
  errInfo := by decide +kernel
  lastSub := .inl (by decide +kernel)

theorem decoderInv_started : DecoderInv started where
  declLen := by decide +kernel
  decSize := by decide +kernel
  flagCnt := by decide +kernel
  bitCnt := by decide +kernel
  treeLen := by decide +kernel
  tokL := by decide +kernel
  tokD := by decide +kernel
  hs := by decide +kernel
  cl := by decide +kernel
  extra := by decide +kernel
  place := by
    have h : started.seq.phase = .header .lz10 := by decide +kernel
    unfold PhaseInv
    rw [h]
    show started.work.inPos = 0 ∧ started.work.outLen = 0 ∧ started.work.decSize = 0
    decide +kernel

/-- For the three invariants a step keeps, and for append-only output. -/
theorem witness_StepKeepsTheInvariants : MemInv started ∧ ControlInv started ∧ DecoderInv started ∧
    started.seq.phase ≠ .idle ∧ step started = .next (after (step started)) :=
  ⟨memInv_started, controlInv_started, decoderInv_started, by decide +kernel, rfl⟩

theorem witness_NoInstructionWritesItsInputs :
    exec (.cmdSetopt 1 1) State.reset = .next (after (exec (.cmdSetopt 1 1) State.reset)) ∧
    exec (.hdrLz10 1) (at0 (.header .lz10) [0x10, 1, 0, 0]) =
      .next (after (exec (.hdrLz10 1) (at0 (.header .lz10) [0x10, 1, 0, 0]))) := ⟨rfl, rfl⟩

theorem witness_TokensWriteNoResponse : isToken (.nullByte 7) = true ∧
    (after (exec (.nullByte 7) (at4 .nullBody [7] 1))).seq.phase ≠ .idle := by decide

/-- Two states that an earlier command left differently, before COMPRESS and before DECOMPRESS. -/
theorem witness_CommandsIgnoreWhatWasLeft :
    isToken (.cmdCompress 4) = false ∧ isToken (.cmdDecompress 1) = false ∧
    MemInv (at0 .idle [0x41]) ∧
    MemInv { at0 .idle [0x41] with mem.omem := [(0, 7)], host.status := 0x0E, work.flagCnt := 3 } ∧
    ({ at0 .idle [0x41] with
      mem.omem := [(0, 7)], host.status := 0x0E, work.flagCnt := 3 } : State) ≠ at0 .idle [0x41] := by
  unfold MemInv; decide

theorem witness_EncodersWriteTheirTokens :
    encode (tok11 (.ref 272 4096)) = [0x0F, 0xFF, 0xFF] ∧
    encode (tok11 (.ref 273 1)) = [0x10, 0, 0, 0] ∧
    encode (tok10 (.ref 18 4096)) = [0xFF, 0xFF] ∧ encode (tok11 (.ref 16 1)) = [0xF0, 0] := by
  decide

theorem witness_TreeAndTableHoldTheLeafSet : (leafSet [0, 3]).map (·.2) = [0, 1] ∧
    (buildTree [0, 3]).internals.length = 1 ∧
    serialize (bfsOrder 2 [buildTree [0, 3]]) (buildTree [0, 3]) = some [1, 0xC0, 0, 1] := by decide

/-- A decoder fresh started on a stream of `bytes`. -/
theorem witness_RoundTrips :
    MemInv (at0 (.header .rle) (rleStream [1, 1, 1])) ∧
    Memory.range (at0 (.header .rle) (rleStream [1, 1, 1])).mem.imem 0 6 = rleStream [1, 1, 1] ∧
    (at0 (.header .rle) (rleStream [1, 1, 1])).work.declLen = (rleStream [1, 1, 1]).length ∧
    Memory.range (at0 (.header .null) (nullStream [1])).mem.imem 0 5 = nullStream [1] ∧
    MemInv (at0 (.header .lz10) (lz10Stream [1, 1] true)) ∧
    Memory.range (at0 (.header .lz10) (lz10Stream [1, 1] true)).mem.imem 0 7 =
      lz10Stream [1, 1] true ∧
    (at0 (.header .lz10) (lz10Stream [1, 1] true)).work.flagCnt = 0 := by
  unfold MemInv; decide +kernel

/-- The stream of `41 42` that R405 (a) works out. -/
theorem witness_HuffmanRoundTrip :
    hufStream .huf4 none [0x41, 0x42] =
      some [0x24, 2, 0, 0, 2, 0x80, 4, 0xC0, 1, 2, 0, 0, 0, 0x4C] ∧
    MemInv (at0 (.header .huf4) [0x24, 2, 0, 0, 2, 0x80, 4, 0xC0, 1, 2, 0, 0, 0, 0x4C]) ∧
    Memory.range (at0 (.header .huf4)
        [0x24, 2, 0, 0, 2, 0x80, 4, 0xC0, 1, 2, 0, 0, 0, 0x4C]).mem.imem 0 14 =
      [0x24, 2, 0, 0, 2, 0x80, 4, 0xC0, 1, 2, 0, 0, 0, 0x4C] := by
  unfold MemInv; decide +kernel

theorem witness_StreamLengths : ([0] : List Byte) ≠ [] := by decide

theorem witness_DecompressStartsTheDecoder :
    ((3 : BitVec 4), Phase.ovlTrailer) ∈ [((0 : BitVec 4), Phase.header .null), (3, .ovlTrailer)] := by
  decide

theorem witness_SetoptSetsLookahead :
    ((10 : BitVec 4), (3 : BitVec 32)) ∈ [((0 : BitVec 4), (0 : BitVec 32)), (10, 3)] := by decide

/-- The clause for a trial run. -/
theorem witness_OutputIsAppendOnly : MemInv (onTrial .lz10 [] [0x10, 1, 0, 0]) ∧
    (onTrial .lz10 [] [0x10, 1, 0, 0]).seq.trial ≠ none ∧
    (onTrial .lz10 [] [0x10, 1, 0, 0]).seq.phase ≠ .idle ∧
    (after (step (onTrial .lz10 [] [0x10, 1, 0, 0]))).seq.phase ≠ .idle := by
  unfold MemInv; decide

end Sys2Proof.Tests
end

/-!
SETOPT (R140): what the command does for a codec that claims the option and for one that
does not, and the statement about it (O14).
-/

namespace Sys2Proof.Machine

theorem withCodec_of_codecOfId {id : BitVec 4} {c : Codec} (hc : codecOfId id = some c) (s : State)
    (f : Codec → State → Run Unit) : withCodec id s f = f c s := by
  rw [withCodec, hc]

theorem setoptCommand_of_claimed {option : BitVec 8} {c : Codec} (h : option = 1 ∧ optBits c ≠ 0)
    (s : State) :
    setoptCommand option c s =
      .ok () (endOk 1 false noSub { s with host.ctrl := s.host.ctrl ||| optBits c }) := by
  obtain ⟨hone, hbits⟩ := h
  simp only [setoptCommand, if_pos hone, if_neg hbits]

/-- An option that is not claimed sets no bit, so `CTRL` is written with its own value. -/
theorem setoptCommand_of_not_claimed {option : BitVec 8} {c : Codec}
    (h : ¬ (option = 1 ∧ optBits c ≠ 0)) (s : State) :
    setoptCommand option c s = .ok () (endOk 0 false noSub s) := by
  have hbits : (if option = 1 then optBits c else 0) = 0 := by
    split
    case isTrue hone => exact not_not.1 fun hne => h ⟨hone, hne⟩
    case isFalse => rfl
  have hctrl : s.host.ctrl ||| 0 = s.host.ctrl := BitVec.or_zero
  simp only [setoptCommand, hbits, ↓reduceIte, hctrl]

theorem exec_cmdSetopt {id : BitVec 4} {c : Codec} (hc : codecOfId id = some c)
    (option : BitVec 8) (s : State) :
    exec (.cmdSetopt id option) s = settle (setoptCommand option c (commandStart s)) :=
  congrArg settle (withCodec_of_codecOfId hc (commandStart s) (setoptCommand option))

/-- Settles O14: each row of the table is a codec's id with the bits `optBits` gives it, and then
the option is claimed or it is not. -/
theorem setoptSetsLookahead : Obligations.SetoptSetsLookahead := by
  intro id bits option s hrow
  obtain ⟨c, hc, hbits⟩ : ∃ c, codecOfId id = some c ∧ optBits c = bits := by
    simp only [List.mem_cons, Prod.mk.injEq, List.not_mem_nil, or_false] at hrow
    obtain ⟨rfl, rfl⟩ | ⟨rfl, rfl⟩ | ⟨rfl, rfl⟩ | ⟨rfl, rfl⟩ | ⟨rfl, rfl⟩ | ⟨rfl, rfl⟩ |
      ⟨rfl, rfl⟩ | ⟨rfl, rfl⟩ | ⟨rfl, rfl⟩ | ⟨rfl, rfl⟩ := hrow <;> exact ⟨_, rfl, rfl⟩
  subst hbits
  rw [exec_cmdSetopt hc]
  split
  case isTrue hclaimed => rw [setoptCommand_of_claimed hclaimed, settle_ok]; rfl
  case isFalse hunclaimed => rw [setoptCommand_of_not_claimed hunclaimed, settle_ok]; rfl

end Sys2Proof.Machine

/-!
The bit-word writer (R170): what the word being filled holds as bits are put in from bit 31 down,
how many bytes come out and which bit of the stream stands where, and the statement about it (O56).
-/

namespace Sys2Proof.Machine

/-- Bit `j` of a stream of little-endian 32-bit words, bit 31 of each word first. -/
def wordBit (bytes : List Byte) (j : Nat) : Bool :=
  (bytes.getD (j / 32 * 4 + (3 - j % 32 / 8)) 0).getLsbD (7 - j % 8)

theorem wordBit_nil (j : Nat) : wordBit [] j = false := by
  simp [wordBit]

@[simp] theorem length_bytes32 (w : BitVec 32) : (bytes32 w).length = 4 := rfl

theorem getD_bytes32 (w : BitVec 32) {k : Nat} (hk : k < 4) :
    (bytes32 w).getD k 0 = w.extractLsb' (8 * k) 8 := by
  match k, hk with
  | 0, _ | 1, _ | 2, _ | 3, _ => rfl

theorem wordBit_bytes32_append (w : BitVec 32) (rest : List Byte) {j : Nat} (hj : j < 32) :
    wordBit (bytes32 w ++ rest) j = w.getLsbD (31 - j) := by
  have hbyte : j / 32 * 4 + (3 - j % 32 / 8) = 3 - j / 8 := by omega
  have hpos : 8 * (3 - j / 8) + (7 - j % 8) = 31 - j := by omega
  rw [wordBit, hbyte, List.getD_append _ _ _ _ (by rw [length_bytes32]; omega),
    getD_bytes32 w (by omega), BitVec.getLsbD_extractLsb', hpos, decide_eq_true (by omega),
    Bool.true_and]

theorem wordBit_bytes32_append_right (w : BitVec 32) (rest : List Byte) {j : Nat} (hj : 32 ≤ j) :
    wordBit (bytes32 w ++ rest) j = wordBit rest (j - 32) := by
  have hbyte : j / 32 * 4 + (3 - j % 32 / 8) - 4 =
      (j - 32) / 32 * 4 + (3 - (j - 32) % 32 / 8) := by omega
  have hpos : j % 8 = (j - 32) % 8 := by omega
  rw [wordBit, List.getD_append_right _ _ _ _ (by rw [length_bytes32]; omega), length_bytes32,
    hbyte, hpos, wordBit]

/-- `WBUF` with one more code bit, after the `wcnt` it has. -/
def putBit (wbuf : BitVec 32) (wcnt : Nat) (b : Bool) : BitVec 32 :=
  if b then wbuf ||| ((1 : BitVec 32) <<< (31 - wcnt)) else wbuf

theorem getLsbD_putBit (wbuf : BitVec 32) {wcnt : Nat} (hcnt : wcnt < 32) (b : Bool) {j : Nat}
    (hj : j < 32) :
    (putBit wbuf wcnt b).getLsbD (31 - j) =
      (wbuf.getLsbD (31 - j) || (decide (j = wcnt) && b)) := by
  have hone : ((1 : BitVec 32) <<< (31 - wcnt)).getLsbD (31 - j) = decide (j = wcnt) := by
    change (BitVec.twoPow 32 (31 - wcnt)).getLsbD (31 - j) = decide (j = wcnt)
    rw [BitVec.getLsbD_twoPow, decide_eq_true (by omega), Bool.true_and, decide_eq_decide]
    omega
  cases b with
  | false => simp [putBit]
  | true => rw [putBit, if_pos rfl, BitVec.getLsbD_or, hone, Bool.and_true]

theorem writeBits_nil_zero (wbuf : BitVec 32) : writeBits [] wbuf 0 = [] := rfl

theorem writeBits_nil_of_pos (wbuf : BitVec 32) {wcnt : Nat} (h : wcnt ≠ 0) :
    writeBits [] wbuf wcnt = bytes32 wbuf := if_neg h

theorem writeBits_cons_of_full (b : Bool) (bits : List Bool) (wbuf : BitVec 32) {wcnt : Nat}
    (h : wcnt + 1 = 32) :
    writeBits (b :: bits) wbuf wcnt = bytes32 (putBit wbuf wcnt b) ++ writeBits bits 0 0 :=
  if_pos h

theorem writeBits_cons_of_not_full (b : Bool) (bits : List Bool) (wbuf : BitVec 32) {wcnt : Nat}
    (h : wcnt + 1 ≠ 32) :
    writeBits (b :: bits) wbuf wcnt = writeBits bits (putBit wbuf wcnt b) (wcnt + 1) :=
  if_neg h

theorem length_writeBits (bits : List Bool) (wbuf : BitVec 32) {wcnt : Nat} (hcnt : wcnt < 32) :
    (writeBits bits wbuf wcnt).length = (wcnt + bits.length + 31) / 32 * 4 := by
  induction bits generalizing wbuf wcnt with
  | nil =>
    by_cases hzero : wcnt = 0
    · subst hzero; rfl
    · rw [writeBits_nil_of_pos wbuf hzero, length_bytes32, List.length_nil]; omega
  | cons b bits ih =>
    rw [List.length_cons]
    by_cases hfull : wcnt + 1 = 32
    · rw [writeBits_cons_of_full b bits wbuf hfull, List.length_append, length_bytes32,
        ih 0 (by omega)]
      omega
    · rw [writeBits_cons_of_not_full b bits wbuf hfull, ih _ (by omega)]; omega

/-- `WBUF` holds the code bits `pending` from bit 31 down and zeros below them. -/
def HoldsBits (wbuf : BitVec 32) (pending : List Bool) : Prop :=
  ∀ j < 32, wbuf.getLsbD (31 - j) = pending.getD j false

theorem holdsBits_zero_nil : HoldsBits 0 [] := fun j _ => by
  simp

theorem HoldsBits.append_putBit {wbuf : BitVec 32} {pending : List Bool}
    (h : HoldsBits wbuf pending) (hcnt : pending.length < 32) (b : Bool) :
    HoldsBits (putBit wbuf pending.length b) (pending ++ [b]) := by
  intro j hj
  rw [getLsbD_putBit wbuf hcnt b hj, h j hj]
  obtain hlt | rfl | hgt := Nat.lt_trichotomy j pending.length
  · simp [List.getElem?_append_left, hlt, hlt.ne]
  · simp
  · have hout : pending.length + 1 ≤ j := hgt
    simp [List.getElem?_eq_none, hgt.le, hgt.ne', hout]

/-- The stream is the bits pending in `WBUF`, then the bits still to come, then zeros. -/
theorem wordBit_writeBits (bits : List Bool) {wbuf : BitVec 32} {pending : List Bool}
    (h : HoldsBits wbuf pending) (hcnt : pending.length < 32) (j : Nat) :
    wordBit (writeBits bits wbuf pending.length) j = (pending ++ bits).getD j false := by
  induction bits generalizing wbuf pending j with
  | nil =>
    rw [List.append_nil]
    by_cases hzero : pending = []
    · subst hzero
      exact wordBit_nil j
    · rw [writeBits_nil_of_pos wbuf (by simpa using hzero), ← List.append_nil (bytes32 wbuf)]
      by_cases hj : j < 32
      · rw [wordBit_bytes32_append wbuf [] hj, h j hj]
      · rw [wordBit_bytes32_append_right wbuf [] (by omega), wordBit_nil,
          List.getD_eq_default _ _ (by omega)]
  | cons b bits ih =>
    have hput := h.append_putBit hcnt b
    have hlen : (pending ++ [b]).length = pending.length + 1 := List.length_append
    rw [List.append_cons]
    by_cases hfull : pending.length + 1 = 32
    · rw [writeBits_cons_of_full b bits wbuf hfull]
      by_cases hj : j < 32
      · rw [wordBit_bytes32_append _ _ hj, hput j hj,
          List.getD_append (pending ++ [b]) bits _ _ (by omega)]
      · rw [wordBit_bytes32_append_right _ _ (by omega),
          List.getD_append_right _ _ _ _ (by omega), hlen, hfull]
        exact ih holdsBits_zero_nil (by decide) (j - 32)
    · rw [writeBits_cons_of_not_full b bits wbuf hfull, ← hlen]
      exact ih hput (by omega) j

/-- Settles O56: the writer starts with nothing pending. -/
theorem bitWriterFillsFromTheTop : Obligations.BitWriterFillsFromTheTop := by
  intro bits
  refine ⟨?_, fun j _ => wordBit_writeBits bits holdsBits_zero_nil (by decide) j⟩
  rw [length_writeBits bits 0 (by decide), Nat.zero_add]

end Sys2Proof.Machine

/-!
SUPPORTS of the codecs known by their magic (R203, R233, R298, R324): the codec is asked through
`supportsMagic`, and the statement about it (O5).
-/

namespace Sys2Proof.Machine

theorem exec_cmdSupports {id : BitVec 4} {c : Codec} (hc : codecOfId id = some c) (s : State) :
    exec (.cmdSupports id) s = settle (supportsCommand c (commandStart s)) :=
  congrArg settle (withCodec_of_codecOfId hc (commandStart s) supportsCommand)

theorem supportsCommand_of_supports {c : Codec} {b : Bool} {s t : State}
    (h : supports c s = .ok b t) :
    supportsCommand c s = .ok () (endOk b.toNat false noSub t) := by
  rw [supportsCommand, h, Run.bind_ok]

theorem supports_eq_supportsMagic {c : Codec} {f : Fwd}
    (h : (c, f) ∈ [(Codec.lz10, Fwd.lz10), (.lz11, .lz11), (.rle, .rle), (.huf4, .huf4),
      (.huf8, .huf8)]) (s : State) :
    supports c s = supportsMagic f s := by
  simp only [List.mem_cons, Prod.mk.injEq, List.not_mem_nil, or_false] at h
  obtain ⟨rfl, rfl⟩ | ⟨rfl, rfl⟩ | ⟨rfl, rfl⟩ | ⟨rfl, rfl⟩ | ⟨rfl, rfl⟩ := h <;> rfl

/-- Settles O5: command start leaves the fault, the source and IMEM as they are, and `DECL_LEN` is
`ARG_LEN`. -/
theorem supportsByMagic : Obligations.SupportsByMagic := by
  intro id c f s hc hmem hfault
  have hask : supports c (commandStart s) = .ok (decide (4 ≤ s.host.argLen.toNat ∧
      0 < s.env.srcLen ∧ Memory.read 0 s.mem.imem = f.magic)) (commandStart s) := by
    rw [supports_eq_supportsMagic hmem]
    exact supportsMagic_noFault f (commandStart s) hfault
  rw [exec_cmdSupports hc, supportsCommand_of_supports hask, settle_ok, Bool.toNat, Bool.cond_decide]
  rfl

end Sys2Proof.Machine

/-!
The literal of LZ10 and LZ11 (R193, R223): its byte is consumed, then put out and into WIN, and the
statement about it (O20).
-/

namespace Sys2Proof.Machine

/-- With the fault count kept, what `Moved` leaves open are the two cursors and three memories. -/
theorem Moved.eq_of_ioFault {s t : State} (h : Moved s t) (hf : t.env.ioFault = s.env.ioFault) :
    t = { s with
      work.inPos := t.work.inPos, work.outLen := t.work.outLen,
      mem := { s.mem with omem := t.mem.omem, cbuf := t.mem.cbuf, win := t.mem.win } } := by
  obtain ⟨hhost, henv, hwork, hovl, henc, hmem, hseq⟩ := h
  rw [hf] at henv
  calc t = ⟨t.host, t.env, t.work, t.ovl, t.enc, t.mem, t.seq⟩ := rfl
    _ = _ := by rw [hhost, henv, hwork, hovl, henc, hmem, hseq]

theorem consume_succ_undeclared {s : State} (n : Nat) (h : s.work.declLen ≤ s.work.inPos) :
    consume (n + 1) s = .raised (.notEnoughData s.work.outLen s.work.decSize) s := by
  rw [consume, inByte_undeclared h, Run.bind_raised]

theorem consume_succ_undelivered {s : State} (n : Nat) (hdecl : s.work.inPos < s.work.declLen)
    (hsrc : s.env.srcLen ≤ s.work.inPos) : consume (n + 1) s = .raised .streamTooShort s := by
  rw [consume, inByte_undelivered hdecl hsrc, Run.bind_raised]

theorem exec_eq_literalToken {d : Byte} {i : Instr} (h : i ∈ [Instr.lz10Lit d, .lz11Lit d])
    (s : State) : exec i s = settle (literalToken d s) := by
  simp only [List.mem_cons, List.not_mem_nil, or_false] at h
  obtain rfl | rfl := h <;> rfl

/-- A literal whose byte is there: appended and kept in WIN, every cursor but the two as before. -/
theorem literalToken_readable {d : Byte} {s : State} (hm : MemInv s) (hr : Readable 1 s) :
    ∃ t, literalToken d s = .ok () t ∧ Appended s t [d] ∧
      Stored s.mem.win t.mem.win (s.work.outLen % Config.winSize) [d] ∧
      t = { s with
        work.inPos := s.work.inPos + 1, work.outLen := s.work.outLen + 1,
        mem := { s.mem with omem := t.mem.omem, cbuf := t.mem.cbuf, win := t.mem.win } } := by
  have hfault : s.env.ioFault = none := hr.2.2
  have hmem : MemInv { s with work.inPos := s.work.inPos + 1 } := hm
  obtain ⟨t, hput, htfault⟩ :=
    outByteWin_ends d { s with work.inPos := s.work.inPos + 1 } hfault
  obtain ⟨hmoved, hpos, happ, hwin, -⟩ := outByteWin_ok hmem hput
  have hlen : t.work.outLen = s.work.outLen + 1 := happ.1
  refine ⟨t, ?_, happ, ?_, ?_⟩
  · rw [literalToken, consume_readable hr, Run.bind_ok, hput]
  · rw [hwin]
    exact Memory.stored_write _ d hm.win
  · have hframe := hmoved.eq_of_ioFault (htfault.trans hfault.symm)
    rwa [hpos, hlen] at hframe

/-- Settles O20: the byte is there, or `InByte` raises before anything is written. -/
theorem lzLiteralIsAppended : Obligations.LzLiteralIsAppended := by
  intro d i s hi hm
  rw [exec_eq_literalToken hi]
  refine ⟨fun hr => ?readable, fun hdecl => ?undeclared, fun hdecl hsrc => ?undelivered⟩
  case readable =>
    obtain ⟨t, hrun, happ, hwin, hframe⟩ := literalToken_readable hm hr
    exact ⟨t, by rw [hrun, settle_ok], happ, hwin, hframe⟩
  case undeclared =>
    rw [literalToken, consume_succ_undeclared 0 hdecl, Run.bind_raised, settle_raised]
  case undelivered =>
    rw [literalToken, consume_succ_undelivered 0 hdecl hsrc, Run.bind_raised, settle_raised]

end Sys2Proof.Machine

/-!
The back-references of LZ10 and LZ11 (R194, R196, R224 to R227): the four forms as one token, and the
statement about a displacement beyond the output (O22).
-/

namespace Sys2Proof.Machine

/-- `i` is a back-reference of `n` bytes with length `l` and displacement `d` (R194, R224 to R226). -/
def IsLzRef (i : Instr) (n l d : Nat) : Prop :=
  (∃ len disp, i = .lz10Ref len disp ∧ n = 2 ∧ l = len.toNat + 3 ∧ d = disp.toNat + 1) ∨
  (∃ ind disp, i = .lz11Ref2 ind disp ∧ n = 2 ∧ l = ind.toNat + 1 ∧ d = disp.toNat + 1) ∨
  (∃ len disp, i = .lz11Ref3 len disp ∧ n = 3 ∧ l = len.toNat + 0x11 ∧ d = disp.toNat + 1) ∨
  (∃ len disp, i = .lz11Ref4 len disp ∧ n = 4 ∧ l = len.toNat + 0x111 ∧ d = disp.toNat + 1)

theorem exec_eq_refToken {i : Instr} {n l d : Nat} (h : IsLzRef i n l d) (s : State) :
    exec i s = settle (refToken n l d s) := by
  obtain ⟨len, disp, rfl, rfl, rfl, rfl⟩ | ⟨ind, disp, rfl, rfl, rfl, rfl⟩ |
    ⟨len, disp, rfl, rfl, rfl, rfl⟩ | ⟨len, disp, rfl, rfl, rfl, rfl⟩ := h <;> rfl

/-- A back-reference whose bytes are there comes to its displacement check with all of them passed
and its place, length and displacement recorded. -/
theorem refToken_readable {n : Nat} {s : State} (l d : Nat) (hr : Readable n s) :
    refToken n l d s = (checkDisp { s with
      work.inPos := s.work.inPos + n, work.tokPos := s.work.inPos, work.tokL := l,
      work.tokD := d }).bind fun _ t => copyBack l d t := by
  rw [refToken, consume_readable (s := beginToken s) hr]
  rfl

theorem checkDisp_beyond {s : State} (h : s.work.outLen < s.work.tokD) :
    checkDisp s = .raised (.invalidData s.work.tokPos) s :=
  if_pos h

/-- Settles O22: the check comes before `CopyBack`, which is not reached. -/
theorem badDisplacementWritesNothing : Obligations.BadDisplacementWritesNothing := by
  intro i n l d s hi hr hd
  rw [exec_eq_refToken hi, refToken_readable l d hr, checkDisp_beyond hd, Run.bind_raised,
    settle_raised]

end Sys2Proof.Machine

/-!
The flag byte of LZ10 and LZ11 (R192, R222): consumed, then loaded, and the statement about it
(O19).
-/

namespace Sys2Proof.Machine

theorem exec_eq_flagsToken {f : Byte} {i : Instr} (h : i ∈ [Instr.lz10Flags f, .lz11Flags f])
    (s : State) : exec i s = settle (flagsToken f s) := by
  simp only [List.mem_cons, List.not_mem_nil, or_false] at h
  obtain rfl | rfl := h <;> rfl

theorem flagsToken_readable {s : State} (f : Byte) (hr : Readable 1 s) :
    flagsToken f s = .ok () (loadFlags f { s with work.inPos := s.work.inPos + 1 }) := by
  rw [flagsToken, consume_readable hr, Run.bind_ok]

/-- Settles O19: the byte is there and `FLAGS[7]` is the next flag (R166), or `InByte` raises before
`FLAGS` is written. -/
theorem lzFlagByteIsLoaded : Obligations.LzFlagByteIsLoaded := by
  intro f i s hi
  rw [exec_eq_flagsToken hi]
  refine ⟨fun hr => ?readable, fun hdecl => ?undeclared, fun hdecl hsrc => ?undelivered⟩
  case readable =>
    refine ⟨loadFlags f { s with work.inPos := s.work.inPos + 1 }, ?_, rfl, rfl⟩
    rw [flagsToken_readable f hr, settle_ok]
  case undeclared =>
    rw [flagsToken, consume_succ_undeclared 0 hdecl, Run.bind_raised, settle_raised]
  case undelivered =>
    rw [flagsToken, consume_succ_undelivered 0 hdecl hsrc, Run.bind_raised, settle_raised]

end Sys2Proof.Machine

/-!
The bytes of the encoders' tokens (R164, R165, R200, R230 to R232, R296): fields cut from and joined
to numbers, then each token over them, and the statement about them (O50).
-/

namespace Sys2Proof.Machine

/-- The field of `k` bits from bit `i` on is the number divided by `2 ^ i`. -/
theorem extractLsb'_ofNat {i k w : Nat} (h : i + k ≤ w) (n : Nat) :
    (BitVec.ofNat w n).extractLsb' i k = BitVec.ofNat k (n / 2 ^ i) := by
  refine BitVec.eq_of_getLsbD_eq fun j hj => ?_
  rw [BitVec.getLsbD_extractLsb', BitVec.getLsbD_ofNat, BitVec.getLsbD_ofNat,
    decide_eq_true (show i + j < w by omega), Nat.testBit_div_two_pow, Bool.true_and, Nat.add_comm]

/-- A field joined above a number that fits the bits below it. -/
theorem append_ofNat {k m n : Nat} (x : BitVec k) (h : n < 2 ^ m) :
    x ++ BitVec.ofNat m n = BitVec.ofNat (k + m) (x.toNat * 2 ^ m + n) := by
  have hnat : (x ++ BitVec.ofNat m n).toNat = x.toNat * 2 ^ m + n := by
    rw [BitVec.toNat_append, BitVec.toNat_ofNat, Nat.mod_eq_of_lt h,
      ← Nat.shiftLeft_add_eq_or_of_lt h, Nat.shiftLeft_eq]
  rw [← hnat, BitVec.ofNat_toNat, BitVec.setWidth_eq]

theorem bytes24_ofNat (n : Nat) : bytes24 (BitVec.ofNat 24 n) =
    [BitVec.ofNat 8 n, BitVec.ofNat 8 (n / 256), BitVec.ofNat 8 (n / 65536)] := by
  simp [bytes24, extractLsb'_ofNat]

/-- Every header token has the same three length bytes behind its magic (R93). -/
theorem encode_header (c : Fwd) (n : BitVec 24) : encode (c.header n) = c.magic :: bytes24 n := by
  cases c <;> rfl

theorem emitHeader_eq (c : Fwd) (n : Nat) : emitHeader c n =
    [c.magic, BitVec.ofNat 8 n, BitVec.ofNat 8 (n / 256), BitVec.ofNat 8 (n / 65536)] ++
      (if n = 0 then [0, 0, 0, 0] else []) := by
  have hext : encode (.hdrExt 0) = [0, 0, 0, 0] := by decide
  rw [emitHeader, encode_header, bytes24_ofNat, hext]

/-- The tail of a back-reference: its first byte is the nibble over the high 4 bits of `D - 1`. -/
theorem refTail_ofNat (nib : BitVec 4) {d : Nat} (hd : d < 4096) :
    refTail nib (BitVec.ofNat 12 d) =
      [BitVec.ofNat 8 (nib.toNat * 16 + d / 256), BitVec.ofNat 8 d] := by
  have hhigh : d / 2 ^ 8 < 2 ^ 4 := by omega
  rw [refTail, extractLsb'_ofNat (by decide), extractLsb'_ofNat (by decide), append_ofNat nib hhigh]
  simp

theorem encode_tok10_ref {l d : Nat} (hl : l ≤ 18) (hd : d ≤ 4096) :
    encode (tok10 (.ref l d)) =
      [BitVec.ofNat 8 ((l - 3) * 16 + (d - 1) / 256), BitVec.ofNat 8 (d - 1)] := by
  have hnib : (BitVec.ofNat 4 (l - 3)).toNat = l - 3 := Nat.mod_eq_of_lt (by omega)
  rw [tok10, encode, refTail_ofNat _ (by omega), hnib]

/-- The 2-byte form (R230). -/
theorem encode_tok11_ref_short {l d : Nat} (hl : l ≤ 16) (hd : d ≤ 4096) :
    encode (tok11 (.ref l d)) =
      [BitVec.ofNat 8 ((l - 1) * 16 + (d - 1) / 256), BitVec.ofNat 8 (d - 1)] := by
  have hnib : (BitVec.ofNat 4 (l - 1)).toNat = l - 1 := Nat.mod_eq_of_lt (by omega)
  rw [tok11, if_pos hl, encode, refTail_ofNat _ (by omega), hnib]

/-- The 3-byte form (R231): the indicator nibble is 0. -/
theorem encode_tok11_ref_medium {l d : Nat} (hlow : 17 ≤ l) (hl : l ≤ 272) (hd : d ≤ 4096) :
    encode (tok11 (.ref l d)) =
      [BitVec.ofNat 8 ((l - 17) / 16),
        BitVec.ofNat 8 ((l - 17) % 16 * 16 + (d - 1) / 256), BitVec.ofNat 8 (d - 1)] := by
  have hhigh : (l - 17) / 2 ^ 4 < 2 ^ 4 := by omega
  rw [tok11, if_neg (by omega), if_pos hl, encode, refTail_ofNat _ (by omega),
    extractLsb'_ofNat (by decide), extractLsb'_ofNat (by decide), append_ofNat 0 hhigh]
  simp

/-- The 4-byte form (R232): the indicator nibble is 1. -/
theorem encode_tok11_ref_long {l d : Nat} (hlow : 273 ≤ l) (hl : l ≤ 65808) (hd : d ≤ 4096) :
    encode (tok11 (.ref l d)) =
      [BitVec.ofNat 8 (16 + (l - 273) / 4096), BitVec.ofNat 8 ((l - 273) / 16),
        BitVec.ofNat 8 ((l - 273) % 16 * 16 + (d - 1) / 256), BitVec.ofNat 8 (d - 1)] := by
  have hhigh : (l - 273) / 2 ^ 12 < 2 ^ 4 := by omega
  rw [tok11, if_neg (by omega), if_neg (by omega), encode, refTail_ofNat _ (by omega),
    extractLsb'_ofNat (by decide), extractLsb'_ofNat (by decide), extractLsb'_ofNat (by decide),
    append_ofNat 1 hhigh]
  simp

theorem encode_rleRun_ofNat (b : Byte) {n : Nat} (hn : n < 128) :
    encode (.rleRun (BitVec.ofNat 7 n) b) = [BitVec.ofNat 8 (0x80 + n), b] := by
  rw [encode, append_ofNat 1 (m := 7) hn]
  rfl

theorem encode_rleRaw_ofNat {n : Nat} (hn : n < 128) :
    encode (.rleRaw (BitVec.ofNat 7 n)) = [BitVec.ofNat 8 n] := by
  rw [encode, append_ofNat 0 (m := 7) hn]
  simp

theorem flushRaw_of_ne_nil {lits : List Byte} (hne : lits ≠ []) (hlen : lits.length ≤ 128) :
    flushRaw lits = BitVec.ofNat 8 (lits.length - 1) :: lits := by
  rw [flushRaw, if_neg hne, encode_rleRaw_ofNat (by omega), List.singleton_append]

/-- Settles O50: a length or displacement in its range fits the fields it is cut into, so no byte
loses a bit of it. -/
theorem encodersWriteTheirTokens : Obligations.EncodersWriteTheirTokens := by
  refine ⟨fun c n _ => emitHeader_eq c n, fun b => ⟨rfl, rfl⟩, fun l d _ hd => ?refs,
    fun l b _ hl => encode_rleRun_ofNat b (by omega), fun lits => flushRaw_of_ne_nil⟩
  case refs =>
    exact ⟨fun _ hl => encode_tok10_ref hl hd, fun _ hl => encode_tok11_ref_short hl hd,
      fun hlow hl => encode_tok11_ref_medium hlow hl hd,
      fun hlow hl => encode_tok11_ref_long hlow hl hd⟩

end Sys2Proof.Machine

/-!
SUPPORTS of LZ-Overlay (R274): what the peeks give where the bytes are there, the test of the trailer
and its padding, and the statement about it (O7).
-/

namespace Sys2Proof.Machine

theorem le32_eq_zero_iff {b0 b1 b2 b3 : Byte} :
    le32 b0 b1 b2 b3 = 0 ↔ b0 = 0 ∧ b1 = 0 ∧ b2 = 0 ∧ b3 = 0 := by
  have hnat : (le32 b0 b1 b2 b3).toNat =
      ((b3.toNat * 256 + b2.toNat) * 256 + b1.toNat) * 256 + b0.toNat := by
    simp only [le32, BitVec.toNat_append]
    rw [← Nat.shiftLeft_add_eq_or_of_lt b2.isLt, ← Nat.shiftLeft_add_eq_or_of_lt b1.isLt,
      ← Nat.shiftLeft_add_eq_or_of_lt b0.isLt]
    simp only [Nat.shiftLeft_eq, Nat.reducePow]
  simp only [BitVec.toNat_eq, hnat, BitVec.toNat_zero, BitVec.ofNat_eq_ofNat]
  omega

theorem trailerBad_eq_false_iff {n hs cl : Nat} :
    trailerBad n hs cl = false ↔ 8 ≤ hs ∧ hs ≤ n ∧ hs + cl ≤ n := by
  simp only [trailerBad, Bool.or_eq_false_iff, decide_eq_false_iff_not, not_lt, and_assoc]

theorem inPeek_readable {a : Nat} {s : State} (hf : s.env.ioFault = none)
    (hdecl : a < s.work.declLen) (hsrc : a < s.env.srcLen) :
    inPeek a s = .ok (some (Memory.read a s.mem.imem)) s := by
  rw [inPeek_noFault a s hf, if_pos ⟨hdecl, hsrc⟩]

theorem peekAll_readable {as : List Nat} {s : State} (hf : s.env.ioFault = none)
    (h : ∀ a ∈ as, a < s.work.declLen ∧ a < s.env.srcLen) :
    peekAll as s = .ok (some (as.map fun a => Memory.read a s.mem.imem)) s := by
  rw [peekAll_noFault as s hf, if_pos h]

/-- The padding test over `n` bytes that are there, from `a` on (R274). -/
theorem paddingOk_readable {n a : Nat} {s : State} (hf : s.env.ioFault = none)
    (hdecl : a + n ≤ s.work.declLen) (hsrc : a + n ≤ s.env.srcLen) :
    paddingOk n a s =
      .ok (decide (∀ x < a + n, a ≤ x → Memory.read x s.mem.imem = 0xFF)) s := by
  induction n generalizing a with
  | zero =>
    rw [paddingOk, decide_eq_true fun x hx hax => absurd hx (by omega)]
  | succ n ih =>
    rw [paddingOk, inPeek_readable hf (by omega) (by omega), Run.bind_ok]
    by_cases hbyte : Memory.read a s.mem.imem = 0xFF
    · rw [if_pos (by rw [hbyte]; rfl), ih (by omega) (by omega)]
      congr 1
      rw [decide_eq_decide]
      constructor
      · intro h x hx hax
        obtain rfl | hlt := hax.eq_or_lt
        · exact hbyte
        · exact h x (by omega) hlt
      · exact fun h x hx hax => h x (by omega) (by omega)
    · rw [if_neg (by simpa using hbyte), decide_eq_false fun h => hbyte (h a (by omega) le_rfl)]

/-- The test of R274 on a file of `n` bytes whose trailer gives `extra`, `hs` and `cl`. -/
theorem supportsOvl_noFault {s : State} {n hs cl : Nat} {extra : BitVec 32}
    (hf : s.env.ioFault = none) (hn : n = s.work.declLen)
    (hextra : extra = le32 (Memory.read (n - 4) s.mem.imem) (Memory.read (n - 3) s.mem.imem)
      (Memory.read (n - 2) s.mem.imem) (Memory.read (n - 1) s.mem.imem))
    (hhs : hs = (Memory.read (n - 5) s.mem.imem).toNat)
    (hcl : cl = (le24 (Memory.read (n - 8) s.mem.imem) (Memory.read (n - 7) s.mem.imem)
      (Memory.read (n - 6) s.mem.imem)).toNat) :
    supportsOvl s = .ok (decide (4 ≤ n ∧ n ≤ s.env.srcLen ∧ (extra = 0 ∨
      (8 ≤ n ∧ 8 ≤ hs ∧ hs ≤ n ∧ hs + cl ≤ n ∧
        ∀ a < n - 8, n - hs ≤ a → Memory.read a s.mem.imem = 0xFF)))) s := by
  rw [supportsOvl, ← hn]
  have hzero : (some ([n - 4, n - 3, n - 2, n - 1].map fun a => Memory.read a s.mem.imem) ==
      some [0, 0, 0, 0]) = true ↔ extra = 0 := by
    rw [hextra, le32_eq_zero_iff]
    simp
  by_cases hthere : n < 4 ∨ s.env.srcLen < n
  · rw [if_pos hthere, decide_eq_false (by omega)]
  rw [if_neg hthere, peekAll_readable hf (by simp; omega), Run.bind_ok]
  by_cases hplain : extra = 0
  · rw [if_pos (hzero.2 hplain), decide_eq_true ⟨by omega, by omega, .inl hplain⟩]
  rw [if_neg (mt hzero.1 hplain)]
  simp only [hplain, false_or]
  by_cases hshort : n < 8
  · rw [if_pos hshort, decide_eq_false (by omega)]
  rw [if_neg hshort, peekAll_readable hf (by simp; omega), Run.bind_ok]
  simp only [List.map_cons, List.map_nil, ← hhs, ← hcl]
  cases hbad : trailerBad n hs cl with
  | true =>
    have hsizes : ¬ (8 ≤ hs ∧ hs ≤ n ∧ hs + cl ≤ n) :=
      mt trailerBad_eq_false_iff.2 (by simp [hbad])
    rw [if_pos rfl, decide_eq_false fun ⟨_, _, _, hlow, hhigh, hregion, _⟩ =>
      hsizes ⟨hlow, hhigh, hregion⟩]
  | false =>
    obtain ⟨hlow, hhigh, hregion⟩ := trailerBad_eq_false_iff.1 hbad
    have hend : n - hs + (hs - 8) = n - 8 := by omega
    have hfile : 4 ≤ n ∧ n ≤ s.env.srcLen ∧ 8 ≤ n := by omega
    rw [if_neg (by decide), paddingOk_readable hf (by omega) (by omega), hend]
    simp only [hfile, hlow, hhigh, hregion, true_and]

/-- Settles O7: command start leaves the fault, the source and IMEM as they are, and `DECL_LEN` is
`ARG_LEN`. -/
theorem supportsOverlay : Obligations.SupportsOverlay := by
  intro s n hs cl extra hfault hn hextra hhs hcl
  have hask : supports .lzovl (commandStart s) = _ :=
    supportsOvl_noFault (s := commandStart s) hfault hn hextra hhs hcl
  rw [exec_cmdSupports (c := .lzovl) rfl, supportsCommand_of_supports hask, settle_ok, Bool.toNat,
    Bool.cond_decide]
  rfl

end Sys2Proof.Machine

/-!
The tokens of the LZ-Overlay region (R257 to R261, R268, R269): which displacement runs, what a
back-reference's copy leaves, and the statements about references (O26), flag bytes and literals
(O25).
-/

namespace Sys2Proof.Machine

/-- Where only `n` bytes from `a` on changed, what was stored is what stands there now. -/
theorem Memory.stored_range {m m' : Memory} {a n : Nat}
    (h : ∀ x, x < a ∨ a + n ≤ x → Memory.read x m' = Memory.read x m) :
    Stored m m' a (Memory.range m' a n) := by
  intro x
  rw [Memory.range_length]
  split
  case isTrue hin =>
    rw [Memory.range_getD m' a n (x - a) (by omega), Nat.add_sub_cancel' hin.1]
  case isFalse hout => exact h x (by omega)

theorem rdBack_usedUp {s : State} (h : s.ovl.ip ≤ s.ovl.p) :
    rdBack s = .raised (.notEnoughData s.ovl.w s.ovl.u) s :=
  if_pos h

/-- The displacement that runs, written with 0 for none (R268, R269). -/
theorem ovlEffDisp_eq {l d : Nat} {s : State} (hl : l ≠ 0)
    (hd : d = if l ≤ s.ovl.w then l
      else if 2 ≤ s.ovl.w ∧ s.host.ctrl.getLsbD 3 = false then 2 else 0) :
    ovlEffDisp l s = if d = 0 then none else some d := by
  subst hd
  rw [ovlEffDisp, ctrlOvlStrict]
  by_cases hnatural : l ≤ s.ovl.w
  · simp only [if_pos hnatural, if_neg hl]
  · by_cases hsubst : 2 ≤ s.ovl.w ∧ s.host.ctrl.getLsbD 3 = false
    · simp only [if_neg hnatural, if_pos hsubst, OfNat.ofNat_ne_zero, ↓reduceIte]
    · simp only [if_neg hnatural, if_neg hsubst, ↓reduceIte]

/-- The state once the two bytes of a back-reference are read: its place, length and displacement
are recorded (R261). -/
def ovlRefRead (l d : Nat) (s : State) : State :=
  { s with
    ovl.ip := s.ovl.ip - 2, work.tokPos := s.ovl.ip - 1, work.tokL := l, work.tokD := d }

/-- A back-reference whose bytes are there runs with the displacement `ovlEffDisp` gives, or is
Invalid-data at its first byte, the natural displacement recorded. -/
theorem exec_ovlRef_noFault (len : BitVec 4) (disp : BitVec 12) {s : State}
    (hf : s.env.ioFault = none) (hp : s.ovl.p + 2 ≤ s.ovl.ip) :
    exec (.ovlRef len disp) s = .next ((ovlEffDisp (disp.toNat + 3) s).elim
      (takeError (.invalidData (s.ovl.ip - 1)) (ovlRefRead (len.toNat + 3) (disp.toNat + 3) s))
      fun d => ovlCopy (len.toNat + 3) d (ovlRefRead (len.toNat + 3) d s)) := by
  rw [exec, execOvlRef, rdBackRef_noFault hf hp, Run.bind_ok]
  dsimp only
  split
  case h_1 hnone => rw [show ovlEffDisp (disp.toNat + 3) s = none from hnone]; rfl
  case h_2 d hsome => rw [show ovlEffDisp (disp.toNat + 3) s = some d from hsome]; rfl

/-- Settles O26: the copy stays above the plain first part, since the cursors leave `OVL_U - OVL_W`
bytes of the buffer below `OVL_OP`. -/
theorem overlayReferenceCopiesDownward : Obligations.OverlayReferenceCopiesDownward := by
  intro len disp d s hm hf hp hw hcur hd
  have heff := ovlEffDisp_eq (by omega) hd
  refine ⟨fun hrun => ?copies, fun hnone => ?invalid⟩
  case invalid =>
    rw [exec_ovlRef_noFault len disp hf hp, heff, if_pos hnone]
    rfl
  case copies =>
    have hexec := exec_ovlRef_noFault len disp hf hp
    rw [heff, if_neg hrun] at hexec
    have hroom : clampedOvl (len.toNat + 3) s ≤ s.ovl.op := by rw [clampedOvl]; omega
    obtain ⟨hframe, hkeep, hcopy⟩ := ovlCopy_spec (len.toNat + 3) d
      (ovlRefRead (len.toNat + 3) d s) hm (by omega) hw hroom
    refine ⟨_, clampedOvl (len.toNat + 3) s, _, rfl, hexec,
      Memory.range_length _ _ _, Memory.stored_range fun x hx => hkeep x ?_, hcopy, hframe⟩
    rwa [Nat.sub_add_cancel hroom] at hx

/-- Settles O25: `RdBack` reads the byte, or raises before anything is written. -/
theorem overlayFlagsAndLiterals : Obligations.OverlayFlagsAndLiterals := by
  intro b s hm hf
  refine ⟨fun hleft => ⟨?flags, ?literal⟩, fun hused i hi => ?used⟩
  case flags =>
    refine ⟨loadFlags b { s with ovl.ip := s.ovl.ip - 1 }, ?_, rfl, rfl⟩
    rw [exec, execOvlFlags, rdBack_noFault hf hleft, Run.bind_ok, settle_ok]
  case literal =>
    refine ⟨ovlPut b { s with ovl.ip := s.ovl.ip - 1 }, ?_, ?_, rfl⟩
    · rw [exec, execOvlLit, rdBack_noFault hf hleft, Run.bind_ok, settle_ok]
    · exact Memory.stored_write _ b hm.ovlbuf
  case used =>
    simp only [List.mem_cons, List.not_mem_nil, or_false] at hi
    obtain rfl | rfl := hi
    · rw [exec, execOvlFlags, rdBack_usedUp hused, Run.bind_raised, settle_raised]
    · rw [exec, execOvlLit, rdBack_usedUp hused, Run.bind_raised, settle_raised]

end Sys2Proof.Machine

/-!
NULL (R442, R443): a byte of the body is consumed and put out, and the statement about it (O34); the
header SUPPORTS asks for, in its short and its extended form, and the statement about it (O6).
-/

namespace Sys2Proof.Machine

/-- A body byte that is there: appended, every cursor but the two as before. -/
theorem execNullByte_readable (d : Byte) {s : State} (hm : MemInv s) (hr : Readable 1 s) :
    ∃ t, execNullByte d s = .next t ∧ Appended s t [d] ∧
      t = { s with
        work.inPos := s.work.inPos + 1, work.outLen := s.work.outLen + 1,
        mem := { s.mem with omem := t.mem.omem, cbuf := t.mem.cbuf } } := by
  have hfault : s.env.ioFault = none := hr.2.2
  have hmem : MemInv { s with work.inPos := s.work.inPos + 1 } := hm
  have hput := outByte_noFault d { s with work.inPos := s.work.inPos + 1 } hfault
  have happ := outByte_appended hmem hput
  refine ⟨_, ?_, happ, rfl⟩
  rw [execNullByte, consume_readable hr, Run.bind_ok, hput, settle_ok]

/-- Settles O34: the byte is there, or `InByte` raises before anything is written. -/
theorem nullByteIsCopied : Obligations.NullByteIsCopied := by
  intro d s hm
  refine ⟨execNullByte_readable d hm, fun hdecl => ?undeclared, fun hdecl hsrc => ?undelivered⟩
  case undeclared =>
    rw [exec, execNullByte, consume_succ_undeclared 0 hdecl, Run.bind_raised, settle_raised]
  case undelivered =>
    rw [exec, execNullByte, consume_succ_undelivered 0 hdecl hsrc, Run.bind_raised, settle_raised]

/-- One byte beyond the source makes the whole peek fail. -/
theorem peekAll_undelivered {as : List Nat} {a : Nat} {s : State} (hf : s.env.ioFault = none)
    (ha : a ∈ as) (hsrc : s.env.srcLen ≤ a) : peekAll as s = .ok none s := by
  rw [peekAll_noFault as s hf, if_neg fun h => (h a ha).2.not_ge hsrc]

/-- The four bytes of a NULL header are declared and delivered, with its magic (R443). -/
def NullHeaderThere (s : State) : Prop :=
  4 ≤ s.work.declLen ∧ 4 ≤ s.env.srcLen ∧ Memory.read 0 s.mem.imem = 0

/-- With no such header the magic test fails, or the peek of the length does. -/
theorem supportsNull_of_not_header {s : State} (hf : s.env.ioFault = none)
    (h : ¬ NullHeaderThere s) : supportsNull s = .ok false s := by
  rw [supportsNull, supportsMagic_noFault .null s hf, Run.bind_ok]
  split
  case isFalse => rfl
  case isTrue hmagic =>
    obtain ⟨hdecl, -, hzero⟩ := of_decide_eq_true hmagic
    have hsrc : s.env.srcLen ≤ 3 := by
      by_contra hlong
      exact h ⟨hdecl, by omega, hzero⟩
    rw [peekAll_undelivered hf (by simp) hsrc, Run.bind_ok]

/-- The short form: the 24-bit length is the one compared. -/
theorem supportsNull_of_len24 {s : State} {n : BitVec 24} (hf : s.env.ioFault = none)
    (h : NullHeaderThere s)
    (hn : n = le24 (Memory.read 1 s.mem.imem) (Memory.read 2 s.mem.imem)
      (Memory.read 3 s.mem.imem)) (hlen : n ≠ 0) :
    supportsNull s = .ok (decide (s.work.declLen = 4 + n.toNat)) s := by
  obtain ⟨hdecl, hsrc, hzero⟩ := h
  rw [supportsNull, supportsMagic_noFault .null s hf, Run.bind_ok,
    if_pos (decide_eq_true ⟨hdecl, by omega, hzero⟩),
    peekAll_readable hf (by simp; omega), Run.bind_ok]
  simp only [List.map_cons, List.map_nil, ← hn, if_pos hlen, beq_eq_decide]

/-- The extended form: four more bytes hold the length compared. -/
theorem supportsNull_of_len32 {s : State} {m : BitVec 32} (hf : s.env.ioFault = none)
    (h : NullHeaderThere s)
    (hn : le24 (Memory.read 1 s.mem.imem) (Memory.read 2 s.mem.imem)
      (Memory.read 3 s.mem.imem) = 0)
    (hm : m = le32 (Memory.read 4 s.mem.imem) (Memory.read 5 s.mem.imem)
      (Memory.read 6 s.mem.imem) (Memory.read 7 s.mem.imem)) :
    supportsNull s =
      .ok (decide (8 ≤ s.env.srcLen ∧ s.work.declLen = 8 + m.toNat)) s := by
  obtain ⟨hdecl, hsrc, hzero⟩ := h
  rw [supportsNull, supportsMagic_noFault .null s hf, Run.bind_ok,
    if_pos (decide_eq_true ⟨hdecl, by omega, hzero⟩),
    peekAll_readable hf (by simp; omega), Run.bind_ok]
  simp only [List.map_cons, List.map_nil, hn, ne_eq, not_true_eq_false, ↓reduceIte]
  by_cases hdecl8 : s.work.declLen < 8
  · rw [if_pos hdecl8, decide_eq_false (by omega)]
  rw [if_neg hdecl8]
  by_cases hsrc8 : 8 ≤ s.env.srcLen
  · rw [peekAll_readable hf (by simp; omega), Run.bind_ok]
    simp only [List.map_cons, List.map_nil, ← hm, beq_eq_decide, hsrc8, true_and]
  · rw [peekAll_undelivered (a := 7) hf (by simp) (by omega), Run.bind_ok,
      decide_eq_false fun hext => hsrc8 hext.1]

/-- The test of R443 on a stream whose header gives the 24-bit length `n` and whose next four bytes
give `m`. -/
theorem supportsNull_noFault {s : State} {n : BitVec 24} {m : BitVec 32}
    (hf : s.env.ioFault = none)
    (hn : n = le24 (Memory.read 1 s.mem.imem) (Memory.read 2 s.mem.imem)
      (Memory.read 3 s.mem.imem))
    (hm : m = le32 (Memory.read 4 s.mem.imem) (Memory.read 5 s.mem.imem)
      (Memory.read 6 s.mem.imem) (Memory.read 7 s.mem.imem)) :
    supportsNull s = .ok (decide (
      (4 ≤ s.work.declLen ∧ 4 ≤ s.env.srcLen ∧ Memory.read 0 s.mem.imem = 0 ∧ n ≠ 0 ∧
        s.work.declLen = 4 + n.toNat) ∨
      (8 ≤ s.work.declLen ∧ 8 ≤ s.env.srcLen ∧ Memory.read 0 s.mem.imem = 0 ∧ n = 0 ∧
        s.work.declLen = 8 + m.toNat))) s := by
  by_cases hhead : NullHeaderThere s
  case neg =>
    rw [supportsNull_of_not_header hf hhead, decide_eq_false]
    rintro (⟨hdecl, hsrc, hzero, -⟩ | ⟨hdecl, hsrc, hzero, -⟩) <;>
      exact hhead ⟨by omega, by omega, hzero⟩
  have ⟨hdecl, hsrc, hzero⟩ := hhead
  by_cases hlen : n = 0
  case pos =>
    rw [supportsNull_of_len32 hf hhead (hn.symm.trans hlen) hm]
    congr 1
    simp only [decide_eq_decide, hzero, hlen, ne_eq, not_true_eq_false, true_and, false_and,
      and_false, false_or]
    omega
  case neg =>
    rw [supportsNull_of_len24 hf hhead hn hlen]
    congr 1
    simp only [hdecl, hsrc, hzero, hlen, ne_eq, not_false_eq_true, true_and, false_and, and_false,
      or_false]

/-- Settles O6: command start leaves the fault, the source and IMEM as they are, and `DECL_LEN` is
`ARG_LEN`. The plain name is that of the model's own predicate. -/
theorem Null.supportsNull : Obligations.SupportsNull := by
  intro s hfault
  have hask : supports .null (commandStart s) = _ :=
    supportsNull_noFault (s := commandStart s) hfault rfl rfl
  rw [exec_cmdSupports (c := .null) rfl, supportsCommand_of_supports hask, settle_ok, Bool.toNat,
    Bool.cond_decide]
  rfl

end Sys2Proof.Machine

/-!
The decoder and the encoder are inverse (spec/30_encoding.md R90 to R103): the fields of a word cut
apart and joined again, then the bytes of each place over them, and the statements about them (O37,
O38, O39).
-/
namespace Sys2Proof.Machine

/-! ### Fields -/

@[simp] theorem le24_extract (n : BitVec 24) :
    le24 (n.extractLsb' 0 8) (n.extractLsb' 8 8) (n.extractLsb' 16 8) = n := by
  ext i hi; grind [le24]

@[simp] theorem le32_extract (n : BitVec 32) :
    le32 (n.extractLsb' 0 8) (n.extractLsb' 8 8) (n.extractLsb' 16 8) (n.extractLsb' 24 8) = n := by
  ext i hi; grind [le32]

@[simp] theorem bytes24_le24 (a b c : Byte) : bytes24 (le24 a b c) = [a, b, c] := by
  simp only [bytes24, le24, List.cons.injEq, and_true]
  refine ⟨?_, ?_, ?_⟩ <;> ext i hi <;> grind

@[simp] theorem bytes32_le32 (a b c d : Byte) : bytes32 (le32 a b c d) = [a, b, c, d] := by
  simp only [bytes32, le32, List.cons.injEq, and_true]
  refine ⟨?_, ?_, ?_, ?_⟩ <;> ext i hi <;> grind

@[simp] theorem hiNib_append (a b : BitVec 4) : hiNib (a ++ b) = a := by
  ext i hi; grind [hiNib]

@[simp] theorem loNib_append (a b : BitVec 4) : loNib (a ++ b) = b := by
  ext i hi; grind [loNib]

@[simp] theorem hiNib_append_loNib (b : Byte) : hiNib b ++ loNib b = b := by
  ext i hi; grind [hiNib, loNib]

/-- A length field cut into a high part and its last nibble. -/
theorem extractLsb'_append_nibble (n : BitVec 8) :
    n.extractLsb' 4 4 ++ n.extractLsb' 0 4 = n := hiNib_append_loNib n

theorem extractLsb'_append_byte_nibble (n : BitVec 16) :
    n.extractLsb' 12 4 ++ n.extractLsb' 4 8 ++ n.extractLsb' 0 4 = n := by
  ext i hi; grind

/-- The displacement field of a back-reference's last two bytes, whatever nibble stands above it. -/
@[simp] theorem dispField_refTail (nib : BitVec 4) (disp : BitVec 12) :
    dispField (nib ++ disp.extractLsb' 8 4) (disp.extractLsb' 0 8) = disp := by
  ext i hi; grind [dispField, loNib]

@[simp] theorem refTail_dispField (b c : Byte) : refTail (hiNib b) (dispField b c) = [b, c] := by
  simp only [refTail, dispField, List.cons.injEq, and_true]
  refine ⟨?_, ?_⟩ <;> ext i hi <;> grind [hiNib, loNib]

/-- The parts of a command word of format C. -/
theorem cmdWord_fields (op codec : BitVec 4) (option : BitVec 8) :
    (cmdWord op codec option).extractLsb' 0 4 = op ∧
    (cmdWord op codec option).extractLsb' 4 4 = codec ∧
    (cmdWord op codec option).extractLsb' 8 8 = option := by
  unfold cmdWord
  refine ⟨?_, ?_, ?_⟩ <;> ext i hi <;> grind

/-- The parts of a flag byte of an RLE group. -/
theorem rleFlagByte_fields (b : BitVec 1) (n : BitVec 7) :
    ((b ++ n : BitVec 8).extractLsb' 0 7 = n) ∧ (b ++ n : BitVec 8).getLsbD 7 = b.getLsbD 0 := by
  refine ⟨?_, ?_⟩
  · ext i hi; grind
  · grind

theorem rleFlagByte_join {f : Byte} {b : BitVec 1} (h : b.getLsbD 0 = f.getLsbD 7) :
    b ++ f.extractLsb' 0 7 = f := by
  ext i hi; grind

/-- The parts of a node byte of format N. -/
theorem nodeByte_fields (x y : Bool) (o : BitVec 6) :
    (BitVec.ofBool x ++ BitVec.ofBool y ++ o : BitVec 8).getLsbD 7 = x ∧
    (BitVec.ofBool x ++ BitVec.ofBool y ++ o : BitVec 8).getLsbD 6 = y ∧
    (BitVec.ofBool x ++ BitVec.ofBool y ++ o : BitVec 8).extractLsb' 0 6 = o := by
  refine ⟨?_, ?_, ?_⟩
  · grind
  · grind
  · ext i hi; grind

theorem nodeByte_join (n : Byte) :
    BitVec.ofBool (n.getLsbD 7) ++ BitVec.ofBool (n.getLsbD 6) ++ n.extractLsb' 0 6 = n := by
  ext i hi; grind

theorem bitByte_getLsbD_zero (b : Bool) : ((0 : BitVec 7) ++ BitVec.ofBool b).getLsbD 0 = b := by
  grind

/-! ### Encoded, then decoded -/

@[simp] theorem decode_cmd_bytes32 (w : Word32) (around : List Byte) :
    decode .cmd (bytes32 w ++ around) = decodeCmd w := by
  simp [bytes32, decode]

theorem decodeHeader_encode (c : Fwd) (n : BitVec 24) (around : List Byte) :
    decodeHeader c (c.magic :: bytes24 n ++ around) = .instr (c.header n) := by
  simp [bytes24, decodeHeader]

theorem decodeLz11Ref_ref2 {ind : BitVec 4} (h : 2 ≤ ind.toNat) (disp : BitVec 12)
    (around : List Byte) :
    decodeLz11Ref (encode (.lz11Ref2 ind disp) ++ around) = .instr (.lz11Ref2 ind disp) := by
  simp [encode, refTail, decodeLz11Ref, h]

theorem decodeLz11Ref_ref3 (len : BitVec 8) (disp : BitVec 12) (around : List Byte) :
    decodeLz11Ref (encode (.lz11Ref3 len disp) ++ around) = .instr (.lz11Ref3 len disp) := by
  simp [encode, refTail, decodeLz11Ref, extractLsb'_append_nibble]

theorem decodeLz11Ref_ref4 (len : BitVec 16) (disp : BitVec 12) (around : List Byte) :
    decodeLz11Ref (encode (.lz11Ref4 len disp) ++ around) = .instr (.lz11Ref4 len disp) := by
  simp [encode, refTail, decodeLz11Ref, extractLsb'_append_byte_nibble]

/-- The four-byte trailer, whatever stands before it. -/
theorem decodeTrailer_zero (around : List Byte) :
    decodeTrailer (around ++ [0, 0, 0, 0]) = .instr .ovlTrailer0 := by
  simp [decodeTrailer, le32]

/-- The eight-byte trailer: its `extraSize` is not 0. -/
theorem decodeTrailer_encode (cl : BitVec 24) (hs : Byte) {extra : BitVec 32} (h : extra ≠ 0)
    (around : List Byte) :
    decodeTrailer (around ++ encode (.ovlTrailer cl hs extra)) =
      .instr (.ovlTrailer cl hs extra) := by
  have hne : ¬ extra = 0#32 := h
  simp [encode, bytes24, bytes32, decodeTrailer, hne]

theorem decodeRle_run (n : BitVec 7) (d : Byte) (around : List Byte) :
    decodeRle (encode (.rleRun n d) ++ around) = .instr (.rleRun n d) := by
  obtain ⟨hn, hb⟩ := rleFlagByte_fields 1 n
  simp only [encode, List.cons_append, List.nil_append, decodeRle, hn, hb]
  rfl

theorem decodeRle_raw (n : BitVec 7) (around : List Byte) :
    decodeRle (encode (.rleRaw n) ++ around) = .instr (.rleRaw n) := by
  obtain ⟨hn, hb⟩ := rleFlagByte_fields 0 n
  simp only [encode, List.cons_append, List.nil_append, decodeRle, hn, hb]
  rfl

/-- Settles O38: by the instruction, each place's decoder finding the fields its encoder wrote. -/
theorem decodeInvertsEncode : Obligations.DecodeInvertsEncode := by
  intro i around hwf
  cases i with
  | cmdSupports c | cmdDecompress c | cmdCompress c =>
    simp [Instr.place, encode, decodeCmd, cmdWord_fields]
  | cmdSetopt c o => simp [Instr.place, encode, decodeCmd, cmdWord_fields]
  | hdrNull n => exact decodeHeader_encode .null n around
  | hdrLz10 n => exact decodeHeader_encode .lz10 n around
  | hdrLz11 n => exact decodeHeader_encode .lz11 n around
  | hdrHuf4 n => exact decodeHeader_encode .huf4 n around
  | hdrHuf8 n => exact decodeHeader_encode .huf8 n around
  | hdrRle n => exact decodeHeader_encode .rle n around
  | hdrExt n | hufWord n => simp [Instr.place, encode, decode, bytes32]
  | lz10Flags b | lz10Lit b | lz11Flags b | lz11Lit b | ovlFlags b | ovlLit b | hufTsize b
  | hufTable b | hufLeaf8 b | hufLeaf4 b | nullByte b => rfl
  | lz10Ref len disp | ovlRef len disp => simp [Instr.place, encode, decode, refTail]
  | lz11Ref2 ind disp => exact decodeLz11Ref_ref2 (by simpa [Instr.wellFormed] using hwf) disp around
  | lz11Ref3 len disp => exact decodeLz11Ref_ref3 len disp around
  | lz11Ref4 len disp => exact decodeLz11Ref_ref4 len disp around
  | ovlTrailer0 => exact decodeTrailer_zero around
  | ovlTrailer cl hs extra =>
    exact decodeTrailer_encode cl hs (by simpa [Instr.wellFormed] using hwf) around
  | rleRun n d => exact decodeRle_run n d around
  | rleRaw n => exact decodeRle_raw n around
  | hufNode x y o =>
    obtain ⟨h7, h6, h0⟩ := nodeByte_fields x y o
    simp only [Instr.place, encode, decode, List.cons_append, reduceCtorEq, if_false, h7, h6, h0]
  | hufBit b =>
    simp only [Instr.place, encode, decode, List.cons_append, reduceCtorEq, if_false,
      bitByte_getLsbD_zero]

/-! ### Decoded, then encoded -/

/-- `bs` begins with the encoding of `i`, a well-formed instruction of a place read forward. -/
def BeginsWith (p : Place) (bs : List Byte) (i : Instr) : Prop :=
  i.place = p ∧ i.wellFormed = true ∧ i.size ≤ bs.length ∧ encode i = bs.take i.size

theorem decodeCmd_cases {w : Word32} {i : Instr} (h : decodeCmd w = .instr i) :
    i.place = .cmd ∧ i.wellFormed = true ∧ i.size = 4 := by
  unfold decodeCmd at h
  split at h <;> cases h <;> exact ⟨rfl, rfl, rfl⟩

theorem header_beginsWith (c : Fwd) (n0 n1 n2 : Byte) (rest : List Byte) :
    BeginsWith (.header c) (c.magic :: n0 :: n1 :: n2 :: rest) (c.header (le24 n0 n1 n2)) := by
  cases c <;> simp [BeginsWith, Fwd.header, Instr.place, Instr.wellFormed, Instr.size, encode]

theorem decodeHeader_beginsWith {c : Fwd} {bs : List Byte} {i : Instr}
    (h : decodeHeader c bs = .instr i) : BeginsWith (.header c) bs i := by
  unfold decodeHeader at h
  split at h
  · cases h
  · split at h
    · cases h
    · next hm =>
      split at h
      · cases h
        rw [not_not.mp hm]
        exact header_beginsWith c _ _ _ _
      · cases h

/-- The three-byte back-reference has indicator 0. -/
theorem encode_ref3_fields {b1 : Byte} (h : hiNib b1 = 0) (b2 b3 : Byte) :
    encode (.lz11Ref3 (loNib b1 ++ hiNib b2) (dispField b2 b3)) = [b1, b2, b3] := by
  have hhi : (loNib b1 ++ hiNib b2 : BitVec 8).extractLsb' 4 4 = loNib b1 := hiNib_append _ _
  have hlo : (loNib b1 ++ hiNib b2 : BitVec 8).extractLsb' 0 4 = hiNib b2 := loNib_append _ _
  have hb1 : (0 : BitVec 4) ++ loNib b1 = b1 := h ▸ hiNib_append_loNib b1
  simp only [encode, hhi, hlo, hb1, refTail_dispField]

/-- The four-byte back-reference has indicator 1. -/
theorem encode_ref4_fields {b1 : Byte} (h : hiNib b1 = 1) (b2 b3 b4 : Byte) :
    encode (.lz11Ref4 (loNib b1 ++ b2 ++ hiNib b3) (dispField b3 b4)) = [b1, b2, b3, b4] := by
  have hhi : (loNib b1 ++ b2 ++ hiNib b3 : BitVec 16).extractLsb' 12 4 = loNib b1 := by
    ext i hi; grind
  have hmid : (loNib b1 ++ b2 ++ hiNib b3 : BitVec 16).extractLsb' 4 8 = b2 := by
    ext i hi; grind
  have hlo : (loNib b1 ++ b2 ++ hiNib b3 : BitVec 16).extractLsb' 0 4 = hiNib b3 := by
    ext i hi; grind
  have hb1 : (1 : BitVec 4) ++ loNib b1 = b1 := h ▸ hiNib_append_loNib b1
  simp only [encode, hhi, hmid, hlo, hb1, refTail_dispField]

/-- An indicator that is neither 0 nor above 1 is 1. -/
theorem indicator_eq_one {n : BitVec 4} (h : ¬ 2 ≤ n.toNat) (h0 : n ≠ 0) : n = 1 := by
  have hne : n.toNat ≠ 0 := fun e => h0 (BitVec.eq_of_toNat_eq e)
  exact BitVec.eq_of_toNat_eq (by rw [show (1 : BitVec 4).toNat = 1 from rfl]; omega)

theorem decodeLz11Ref_beginsWith {bs : List Byte} {i : Instr} (h : decodeLz11Ref bs = .instr i) :
    BeginsWith (.lz11Block true) bs i := by
  unfold decodeLz11Ref at h
  split at h
  · cases h
  next b1 rest =>
    split at h
    · next hind =>
      split at h <;> cases h
      simp [BeginsWith, Instr.place, Instr.wellFormed, Instr.size, encode, hind]
    · next hind =>
      split at h
      · next hzero =>
        split at h <;> cases h
        refine ⟨rfl, rfl, by simp [Instr.size], encode_ref3_fields hzero _ _⟩
      · next hone =>
        split at h <;> cases h
        refine ⟨rfl, rfl, by simp [Instr.size],
          encode_ref4_fields (indicator_eq_one hind hone) _ _ _⟩

/-- The trailer is the end of the bytes given. -/
theorem decodeTrailer_cases {bs : List Byte} {i : Instr} (h : decodeTrailer bs = .instr i) :
    i.place = .ovlTrailer ∧ i.wellFormed = true ∧ i.size ≤ bs.length ∧
      encode i = bs.drop (bs.length - i.size) := by
  unfold decodeTrailer at h
  split at h
  · next e3 e2 e1 e0 below hbs =>
    have hbs' : bs = below.reverse ++ [e0, e1, e2, e3] := by
      rw [← List.reverse_reverse bs, hbs]; simp
    simp only [] at h
    split at h
    · next hextra =>
      cases h
      obtain ⟨rfl, rfl, rfl, rfl⟩ := le32_eq_zero_iff.mp hextra
      simp [Instr.place, Instr.wellFormed, Instr.size, encode, hbs']
    · next hextra =>
      split at h <;> cases h
      next hs c2 c1 c0 below' =>
      have hne : ¬ le32 e0 e1 e2 e3 = 0#32 := hextra
      simp [Instr.place, Instr.wellFormed, Instr.size, encode, hbs', hne]
  · cases h

theorem decodeRle_beginsWith {bs : List Byte} {i : Instr} (h : decodeRle bs = .instr i) :
    BeginsWith .rleGroup bs i := by
  unfold decodeRle at h
  split at h
  · cases h
  next f rest =>
    simp only [] at h
    split at h
    · next hrun =>
      split at h <;> cases h
      exact ⟨rfl, rfl, by simp [Instr.size],
        congrArg ([·, _]) (rleFlagByte_join (b := 1) hrun.symm)⟩
    · next hrun =>
      cases h
      exact ⟨rfl, rfl, by simp [Instr.size],
        congrArg ([·]) (rleFlagByte_join (b := 0) (Bool.eq_false_of_not_eq_true hrun).symm)⟩

/-- What decodes forward, but for commands and bits, is what the bytes begin with. -/
theorem decode_beginsWith {p : Place} {bs : List Byte} {i : Instr} (h : decode p bs = .instr i)
    (hcmd : p ≠ .cmd) (hbit : p ≠ .hufBit) (htrailer : p ≠ .ovlTrailer) : BeginsWith p bs i := by
  cases p with
  | cmd => exact absurd rfl hcmd
  | hufBit => exact absurd rfl hbit
  | ovlTrailer => exact absurd rfl htrailer
  | header c => exact decodeHeader_beginsWith h
  | rleGroup => exact decodeRle_beginsWith h
  | ext | hufWord =>
    match bs, h with
    | b0 :: b1 :: b2 :: b3 :: rest, h =>
      cases h
      exact ⟨rfl, rfl, by simp [Instr.size], bytes32_le32 b0 b1 b2 b3⟩
  | lz10Flags | lz11Flags | ovlFlags | hufSize | hufTable | nullByte =>
    match bs, h with
    | b :: rest, h => cases h; exact ⟨rfl, rfl, by simp [Instr.size], rfl⟩
  | hufLeaf k =>
    match k, bs, h with
    | .huf4, b :: rest, h | .huf8, b :: rest, h =>
      cases h; exact ⟨rfl, rfl, by simp [Instr.size], rfl⟩
  | hufNode =>
    match bs, h with
    | b :: rest, h =>
      cases h
      exact ⟨rfl, rfl, by simp [Instr.size], congrArg ([·]) (nodeByte_join b)⟩
  | lz11Block flag =>
    match flag, bs, h with
    | true, bs, h => exact decodeLz11Ref_beginsWith h
    | false, b :: rest, h => cases h; exact ⟨rfl, rfl, by simp [Instr.size], rfl⟩
  | lz10Block flag | ovlBlock flag =>
    match flag, bs, h with
    | true, b1 :: b2 :: rest, h =>
      cases h; exact ⟨rfl, rfl, by simp [Instr.size], refTail_dispField b1 b2⟩
    | false, b :: rest, h => cases h; exact ⟨rfl, rfl, by simp [Instr.size], rfl⟩

/-- Settles O39: commands and bits first, whose ignored bits the encoder does not give back, then the
trailer, which is the end of its bytes, then the places read forward. -/
theorem encodeInvertsDecode : Obligations.EncodeInvertsDecode := by
  intro p bs i h
  by_cases hcmd : p = .cmd
  · subst hcmd
    match bs, h with
    | b0 :: b1 :: b2 :: b3 :: rest, h =>
      obtain ⟨hplace, hwf, hsize⟩ := decodeCmd_cases h
      exact ⟨hplace, hwf, by simp [hsize], fun hne => absurd rfl hne⟩
  by_cases hbit : p = .hufBit
  · subst hbit
    match bs, h with
    | b :: rest, h => cases h; exact ⟨rfl, rfl, by simp [Instr.size], fun _ hne => absurd rfl hne⟩
  by_cases htrailer : p = .ovlTrailer
  · subst htrailer
    obtain ⟨hplace, hwf, hsize, hbytes⟩ := decodeTrailer_cases h
    exact ⟨hplace, hwf, hsize, fun _ _ => by rw [if_pos rfl, hbytes]⟩
  · obtain ⟨hplace, hwf, hsize, hbytes⟩ := decode_beginsWith h hcmd hbit htrailer
    exact ⟨hplace, hwf, hsize, fun _ _ => by rw [if_neg htrailer, hbytes]⟩

/-- Settles O37: each of the ten words runs through its place's decoder. -/
theorem wordsDecodeAsEncoded : Obligations.WordsDecodeAsEncoded := by
  refine ⟨?_, ?_, ?_, ?_, ?_, ?_, ?_, ?_, ?_, ?_⟩ <;> decide

end Sys2Proof.Machine

/-!
Every step settles one piece (R461): the piece an instruction's meaning is and the piece a step takes,
which the later proofs reason about, and the statements that no step stops and that a step runs what
stands next (O40, O36).
-/
namespace Sys2Proof.Machine

/-- The piece that an instruction settles: `exec` without the taking of an error. -/
def meaning (i : Instr) (s : State) : Run Unit :=
  match i with
  | .cmdSupports codec => withCodec codec (commandStart s) supportsCommand
  | .cmdDecompress codec =>
    withCodec codec (commandStart s) fun c s => .ok () (decompressCommand c s)
  | .cmdCompress codec => withCodec codec (commandStart s) compressCommand
  | .cmdSetopt codec option => withCodec codec (commandStart s) (setoptCommand option)
  | .hdrNull n => parseHeader .null n s
  | .hdrLz10 n => parseHeader .lz10 n s
  | .hdrLz11 n => parseHeader .lz11 n s
  | .hdrHuf4 n => parseHeader .huf4 n s
  | .hdrHuf8 n => parseHeader .huf8 n s
  | .hdrRle n => parseHeader .rle n s
  | .hdrExt n => (consume 4 s).bind fun _ s => .ok () (extDone { s with work.decSize := n.toNat })
  | .lz10Flags f | .lz11Flags f => flagsToken f s
  | .lz10Lit d | .lz11Lit d => literalToken d s
  | .lz10Ref len disp => refToken 2 (lzLen len) (lzDisp disp) s
  | .lz11Ref2 ind disp => refToken 2 (lz11Len2 ind) (lzDisp disp) s
  | .lz11Ref3 len disp => refToken 3 (lz11Len3 len) (lzDisp disp) s
  | .lz11Ref4 len disp => refToken 4 (lz11Len4 len) (lzDisp disp) s
  | .ovlTrailer0 => (ovlEntry s).bind fun _ s =>
    (copyThrough (s.work.declLen - 4) 0 { s with ovl.extra := 0 }).bind fun _ s =>
      endDecode false s
  | .ovlTrailer cl hs extra => (ovlEntry s).bind fun _ s =>
    let n := s.work.declLen
    let s := { s with ovl.extra := extra.toNat }
    if n < 8 then .raised (.invalidData (n - 4)) s
    else (portAccesses 4 s).bind fun _ s =>
      let s := { s with ovl.hs := hs.toNat, ovl.cl := cl.toNat }
      if trailerBad n hs.toNat cl.toNat then .raised (.invalidData (n - 8)) s
      else (portAccesses (n - hs.toNat - cl.toNat) s).bind fun _ s => .ok () (ovlStart s)
  | .ovlFlags f => (rdBack s).bind fun _ s => .ok () (loadFlags f s)
  | .ovlLit d => (rdBack s).bind fun _ s => .ok () (ovlPut d s)
  | .ovlRef len disp => (rdBackRef s).bind fun _ s =>
    let s := { s with work.tokL := lzLen len, work.tokD := ovlDisp disp }
    match ovlEffDisp (ovlDisp disp) s with
    | none => .raised (.invalidData s.work.tokPos) s
    | some d => .ok () (ovlCopy (lzLen len) d { s with work.tokD := d })
  | .rleRun n d => (rleFlag (rleRunLen n) s).bind fun _ s =>
    (consume 1 s).bind fun _ s => repeatOut (rleRunLen n) d s
  | .rleRaw n => (rleFlag (rleRawLen n) s).bind fun _ s => rawOut (rleRawLen n) s
  | .hufTsize b => (consume 1 s).bind fun _ s =>
    .ok () { s with mem.tree := Memory.write 0 b s.mem.tree, work.treeLen := treeLenOf b,
                    seq.phase := afterTreeSize s.seq.phase }
  | .hufTable root => (consume 1 s).bind fun _ s =>
    (readTable (s.work.treeLen - 2) 2
        { s with mem.tree := Memory.write 1 root s.mem.tree }).bind fun _ s =>
      .ok () { s with work := { s.work with nodePos := 1, bitCnt := 0, nibValid := false },
                      seq.phase := afterTreeTable s.seq.phase }
  | .hufNode leaf0 leaf1 offset =>
    .ok () { s with seq.nodeByte := nodeByteOf leaf0 leaf1 offset,
                    seq.phase := afterNode s.seq.phase }
  | .hufWord w => (consume 4 s).bind fun _ s => .ok () (loadBits w s)
  | .hufBit b => walkBit b s
  | .hufLeaf8 b => (outByte b s).bind fun _ s => .ok () (toRoot s)
  | .hufLeaf4 b => (leafNibble b s).bind fun _ s => .ok () (toRoot s)
  | .nullByte d => (consume 1 s).bind fun _ s => outByte d s

theorem exec_eq_settle (i : Instr) (s : State) : exec i s = settle (meaning i s) := by
  cases i <;> rfl

/-- The piece a step takes. -/
def stepRun (s : State) : Run Unit :=
  match fetch s with
  | .instr i t => meaning i t
  | .piece r => r

theorem step_eq_settle (s : State) : step s = settle (stepRun s) := by
  cases h : fetch s with
  | instr i t => simp only [step, stepRun, h, exec_eq_settle]
  | piece r => simp only [step, stepRun, h]

theorem step_of_fetch_instr {s t : State} {i : Instr} (h : fetch s = .instr i t) :
    step s = exec i t := by
  rw [step, h]

theorem step_of_fetch_piece {s : State} {r : Run Unit} (h : fetch s = .piece r) :
    step s = settle r := by
  rw [step, h]

/-- Settles O40: whatever a step takes settles into a next state. -/
theorem everyStepAnswersNext : Obligations.EveryStepAnswersNext := by
  intro s
  rw [step_eq_settle]
  exact settle_next _

/-! ### What is fetched at each place -/

theorem fetchForward_instr {p : Place} {s : State} {i : Instr}
    (h : decode p (readable s) = .instr i) : fetchForward p s = .instr i s := by
  rw [fetchForward, h]

theorem fetchBack_instr {p : Place} {s : State} {i : Instr}
    (h : decode p (readableBack s) = .instr i) : fetchBack p s = .instr i s := by
  rw [fetchBack, h]

theorem fetchTree_instr {p : Place} {a : Nat} {s : State} {i : Instr}
    (h : decode p [Memory.read a s.mem.tree] = .instr i) : fetchTree p a s = .instr i s := by
  rw [fetchTree, h]

theorem fetchLoop_running {s : State} (next : State → Fetched)
    (h : s.work.outLen < s.work.decSize) : fetchLoop next s = next s := if_pos h

theorem fetchLoop_done {s : State} (next : State → Fetched)
    (h : s.work.decSize ≤ s.work.outLen) : fetchLoop next s = .piece (finishForward s) :=
  if_neg (by omega)

theorem fetchLz_flags {s : State} (p : Place) (b : Bool → Place) (h : s.work.flagCnt = 0) :
    fetchLz p b s = fetchForward p s := if_pos h

theorem fetchLz_block {s : State} (p : Place) (b : Bool → Place) (h : s.work.flagCnt ≠ 0) :
    fetchLz p b s = fetchForward (b (nextFlagMsb s)) (dropFlagMsb s) := if_neg h

theorem fetchOvl_flags {s : State} (h : s.work.flagCnt = 0) :
    fetchOvl s = fetchBack .ovlFlags s := if_pos h

theorem fetchOvl_block {s : State} (h : s.work.flagCnt ≠ 0) :
    fetchOvl s = fetchBack (.ovlBlock (nextFlagLsb s)) (dropFlagLsb s) := if_neg h

theorem fetchBit_word {s : State} (h : s.work.bitCnt = 0) :
    fetchBit s = fetchForward .hufWord s := if_pos h

theorem fetchBit_bit {s : State} (h : s.work.bitCnt ≠ 0) :
    fetchBit s = .instr (.hufBit (nextBit s)) (dropBit s) := if_neg h

/-- A trailer found where the whole declared range is there. -/
theorem fetchTrailer_instr {s : State} {i : Instr} (h4 : 4 ≤ s.work.declLen)
    (hsrc : s.work.declLen ≤ s.env.srcLen)
    (h : decode .ovlTrailer (Memory.range s.mem.imem (s.work.declLen - min s.work.declLen 8)
      (min s.work.declLen 8)) = .instr i) : fetchTrailer s = .instr i s := by
  have hn : ¬ s.work.declLen < 4 := by omega
  have hs : ¬ s.env.srcLen < s.work.declLen := by omega
  simp only [fetchTrailer, if_neg hn, if_neg hs, h]

/-- Settles O36: `fetch` at each place of the decoder, then `exec` of what was found. -/
theorem stepRunsTheDecodedInstruction : Obligations.StepRunsTheDecodedInstruction := by
  intro s i
  refine ⟨?header, ?ext, ?size, ?table, ?loop, ?bit, ?leaf, ?trailer, ?region, ?command⟩
  case header | ext | size | table =>
    intro c hp hd
    exact step_of_fetch_instr (by simp only [fetch, hp, fetchForward_instr hd])
  case leaf =>
    intro k hp hd
    exact step_of_fetch_instr (by simp only [fetch, hp, fetchTree_instr hd])
  case loop =>
    intro hlt
    refine ⟨?null, ?rle, ?lz, ?node⟩
    case null | rle =>
      intro hp hd
      exact step_of_fetch_instr (by
        simp only [fetch, hp, fetchLoop_running _ hlt, fetchForward_instr hd])
    case node =>
      intro k hp hd
      exact step_of_fetch_instr (by
        simp only [fetch, hp, fetchLoop_running _ hlt, fetchTree_instr hd])
    case lz =>
      intro flagsPlace blockPlace hmem
      have hf : fetch s = fetchLz flagsPlace blockPlace s := by
        simp only [List.mem_cons, Prod.mk.injEq, List.not_mem_nil, or_false] at hmem
        obtain ⟨hp, rfl, rfl⟩ | ⟨hp, rfl, rfl⟩ := hmem <;>
          simp only [fetch, hp, fetchLoop_running _ hlt]
      refine ⟨fun hc hd => ?_, fun hc hd => ?_⟩
      · exact step_of_fetch_instr (by rw [hf, fetchLz_flags _ _ hc, fetchForward_instr hd])
      · exact step_of_fetch_instr (t := dropFlagMsb s) (by
          rw [hf, fetchLz_block _ _ hc]; exact fetchForward_instr (s := dropFlagMsb s) hd)
  case bit =>
    intro k hp
    refine ⟨fun hc hd => ?_, fun hc => ?_⟩
    · exact step_of_fetch_instr (by
        simp only [fetch, hp, fetchBit_word hc, fetchForward_instr hd])
    · exact step_of_fetch_instr (by simp only [fetch, hp, fetchBit_bit hc, dropBit, nextBit])
  case trailer =>
    intro hp h4 hsrc hd
    exact step_of_fetch_instr (by simp only [fetch, hp, fetchTrailer_instr h4 hsrc hd])
  case region =>
    intro hp hw
    refine ⟨fun hc hd => ?_, fun hc hd => ?_⟩
    · exact step_of_fetch_instr (by
        simp only [fetch, hp, if_pos hw, fetchOvl_flags hc, fetchBack_instr hd])
    · exact step_of_fetch_instr (t := dropFlagLsb s) (by
        simp only [fetch, hp, if_pos hw, fetchOvl_block hc]
        exact fetchBack_instr (s := dropFlagLsb s) hd)
  case command =>
    intro w q hp hq hd
    exact step_of_fetch_instr (by simp only [fetch, hp, fetchHost, hq, fetchCommand, hd, hostAct])

end Sys2Proof.Machine

/-!
The match finder and its two selections (spec/47_match_finder.md R340 to R355): what a valid token list
of a plaintext is, that both selections give one, that a valid list stays in the window and expands to
the plaintext, and that none costs less than the optimal one. The statements about them (O51, O52).
-/
namespace Sys2Proof.Machine

/-! ### Matches (R342, R343, R345) -/

theorem agree_le (k : Nat) (xs ys : List Byte) : agree k xs ys ≤ k ∧ agree k xs ys ≤ xs.length := by
  induction k generalizing xs ys with
  | zero => simp [agree]
  | succ k ih =>
    match xs, ys with
    | [], _ | _ :: _, [] => simp [agree]
    | x :: xs, y :: ys =>
      have := ih xs ys
      simp only [agree, List.length_cons]
      split <;> omega

theorem getD_eq_of_lt_agree {k j : Nat} {xs ys : List Byte} (h : j < agree k xs ys) :
    xs.getD j 0 = ys.getD j 0 := by
  induction k generalizing xs ys j with
  | zero => simp [agree] at h
  | succ k ih =>
    match xs, ys with
    | [], _ | _ :: _, [] => simp [agree] at h
    | x :: xs, y :: ys =>
      simp only [agree] at h
      split at h
      · next hxy =>
        match j with
        | 0 => simpa using hxy
        | j + 1 => simpa using ih (by omega)
      · omega

theorem matchLen_le (maxL : Nat) (s : List Byte) (i d : Nat) :
    matchLen maxL s i d ≤ maxL ∧ matchLen maxL s i d ≤ s.length - i := by
  simpa [matchLen] using agree_le maxL (s.drop i) (s.drop (i - d))

theorem getD_of_lt_matchLen {maxL i d j : Nat} {s : List Byte} (h : j < matchLen maxL s i d) :
    s.getD (i + j) 0 = s.getD (i - d + j) 0 := by
  simpa [List.getD_eq_getElem?_getD] using getD_eq_of_lt_agree h

/-- The longest match among the displacements 1..k is one of theirs, and none is longer. -/
theorem longestUpTo_spec (maxL : Nat) (s : List Byte) (i k : Nat) :
    (k = 0 ∧ longestUpTo maxL s i k = (0, 0) ∨
      1 ≤ (longestUpTo maxL s i k).2 ∧ (longestUpTo maxL s i k).2 ≤ k ∧
      (longestUpTo maxL s i k).1 = matchLen maxL s i (longestUpTo maxL s i k).2) ∧
    ∀ d, 1 ≤ d → d ≤ k → matchLen maxL s i d ≤ (longestUpTo maxL s i k).1 := by
  induction k with
  | zero => exact ⟨.inl ⟨rfl, rfl⟩, fun d h1 h2 => by omega⟩
  | succ k ih =>
    obtain ⟨hbest, hmax⟩ := ih
    simp only [longestUpTo]
    split
    · next h =>
      refine ⟨.inr ⟨by simp, by simp, rfl⟩, fun d h1 h2 => ?_⟩
      by_cases hd : d = k + 1
      · rw [hd]
      · have := hmax d h1 (by omega)
        simp only; omega
    · next h =>
      refine ⟨.inr ?_, fun d h1 h2 => ?_⟩
      · obtain ⟨h0, -⟩ | ⟨h1, h2, h3⟩ := hbest
        · exact absurd (.inl h0) h
        · exact ⟨h1, by omega, h3⟩
      · by_cases hd : d = k + 1
        · rw [hd]; omega
        · exact hmax d h1 (by omega)

/-- A displacement is found where one up to `k` reaches the length. -/
theorem dispUpTo_spec {maxL i l k : Nat} {s : List Byte} :
    (dispUpTo maxL s i l k ≠ 0 → 1 ≤ dispUpTo maxL s i l k ∧ dispUpTo maxL s i l k ≤ k ∧
      l ≤ matchLen maxL s i (dispUpTo maxL s i l k)) ∧
    (∀ d, 1 ≤ d → d ≤ k → l ≤ matchLen maxL s i d → dispUpTo maxL s i l k ≠ 0) := by
  induction k with
  | zero => exact ⟨fun h => absurd rfl h, fun d h1 h2 => by omega⟩
  | succ k ih =>
    obtain ⟨hfound, hfinds⟩ := ih
    simp only [dispUpTo]
    split
    · next h => exact ⟨fun _ => ⟨(hfound h).1, by have := (hfound h).2.1; omega, (hfound h).2.2⟩,
        fun _ _ _ _ => h⟩
    · next h =>
      split
      · next hl => exact ⟨fun _ => ⟨by omega, by omega, hl⟩, fun _ _ _ _ => by omega⟩
      · next hl =>
        refine ⟨fun h => absurd rfl h, fun d h1 h2 h3 => ?_⟩
        by_cases hd : d = k + 1
        · exact absurd (hd ▸ h3) hl
        · exact absurd (hfinds d h1 (by omega) h3) h

theorem longestMatch_le (maxL : Nat) (s : List Byte) (i : Nat) :
    (longestMatch maxL s i).1 ≤ s.length - i := by
  obtain ⟨⟨-, h⟩ | ⟨-, -, h⟩, -⟩ := longestUpTo_spec maxL s i (min i Config.winSize)
  · simp [longestMatch, h]
  · rw [longestMatch, h]; exact (matchLen_le ..).2

/-! ### Valid token lists -/

/-- The tokens stand for the plaintext `s` from position `i` on: each literal is the byte there, each
back-reference a match of at least 3 bytes in the window. -/
def Parses (maxL : Nat) (s : List Byte) : List LzTok → Nat → Prop
  | [], i => i = s.length
  | .lit b :: ts, i => i < s.length ∧ b = s.getD i 0 ∧ Parses maxL s ts (i + 1)
  | .ref l d :: ts, i =>
    3 ≤ l ∧ 1 ≤ d ∧ d ≤ min Config.winSize i ∧ l ≤ matchLen maxL s i d ∧
      Parses maxL s ts (i + l)

theorem Parses.bounded {maxL : Nat} {s : List Byte} {ts : List LzTok} {i : Nat}
    (h : Parses maxL s ts i) : Bounded maxL ts i := by
  induction ts generalizing i with
  | nil => trivial
  | cons t ts ih =>
    cases t with
    | lit b => exact ih h.2.2
    | ref l d =>
      obtain ⟨hl, hd1, hd, hm, hrest⟩ := h
      exact ⟨hl, hm.trans (matchLen_le ..).1, hd1, hd, ih hrest⟩

theorem take_append_getD {s : List Byte} {i : Nat} (h : i < s.length) :
    s.take i ++ [s.getD i 0] = s.take (i + 1) := by
  rw [List.take_add_one, List.getElem?_eq_getElem h, List.getD_eq_getElem _ _ h]; rfl

/-- Replaying a match on the bytes below it gives the bytes it stands for (R341, R342). -/
theorem replay_take {i d l : Nat} {s : List Byte} (hd1 : 1 ≤ d) (hd : d ≤ i)
    (h : ∀ j < l, s.getD (i + j) 0 = s.getD (i - d + j) 0) (hl : i + l ≤ s.length) :
    replay l d (s.take i) = s.take (i + l) := by
  induction l generalizing i with
  | zero => rfl
  | succ l ih =>
    have hlen : (s.take i).length = i := by simp; omega
    have hbyte : (s.take i).getD (i - d) 0 = s.getD i 0 := by
      have := h 0 (by omega)
      simp only [Nat.add_zero] at this
      rw [this, List.getD_eq_getElem?_getD, List.getElem?_take_of_lt (by omega),
        ← List.getD_eq_getElem?_getD]
    rw [replay, hlen, hbyte, take_append_getD (by omega), ih (by omega) _ (by omega)]
    · congr 1; omega
    · intro j hj
      have := h (j + 1) (by omega)
      rwa [show i + 1 + j = i + (j + 1) by omega, show i + 1 - d + j = i - d + (j + 1) by omega]

/-- A valid list, expanded on the bytes before it, gives the plaintext. -/
theorem Parses.expand {maxL : Nat} {s : List Byte} {ts : List LzTok} {i : Nat}
    (h : Parses maxL s ts i) : ts.foldl expandTok (s.take i) = s := by
  induction ts generalizing i with
  | nil => rw [show i = s.length from h]; simp
  | cons t ts ih =>
    cases t with
    | lit b =>
      obtain ⟨hi, rfl, hrest⟩ := h
      rw [List.foldl_cons, expandTok, take_append_getD hi, ih hrest]
    | ref l d =>
      obtain ⟨hl, hd1, hd, hm, hrest⟩ := h
      have hle := (matchLen_le maxL s i d).2
      rw [List.foldl_cons, expandTok,
        replay_take hd1 (by omega) (fun j hj => getD_of_lt_matchLen (maxL := maxL) (by omega)) (by omega),
        ih hrest]

/-! ### The greedy selection (R350) -/

theorem greedy_parses (maxL : Nat) (s : List Byte) {f i : Nat} (hf : s.length - i ≤ f)
    (hi : i ≤ s.length) : Parses maxL s (greedy maxL s f i) i := by
  induction f generalizing i with
  | zero => exact show i = s.length by omega
  | succ f ih =>
    rw [greedy]
    split
    · next hlt =>
      have hle := longestMatch_le maxL s i
      obtain ⟨hbest, -⟩ := longestUpTo_spec maxL s i (min i Config.winSize)
      simp only []
      split
      · next hl =>
        obtain ⟨-, h0⟩ | ⟨hd1, hd, hm⟩ := hbest
        · rw [longestMatch, h0] at hl; omega
        · refine ⟨hl, hd1, ?_, hm.le, ih (by omega) (by omega)⟩
          rw [min_comm]; exact hd
      · exact ⟨hlt, rfl, ih (by omega) (by omega)⟩
    · exact show i = s.length by omega

/-! ### The optimal selection (R352 to R354) -/

/-- The choice is a literal or a length in 3..L, and the cost is that of the choice. -/
theorem bestChoice_attained (cost : Nat → Nat) (after : List Nat) (l : Nat) :
    let b := bestChoice cost after l
    (b.2 = 1 ∧ b.1 = 9 + after.getD 0 0) ∨
      (3 ≤ b.2 ∧ b.2 ≤ l ∧ b.1 = cost b.2 + after.getD (b.2 - 1) 0) := by
  induction l with
  | zero => exact .inl ⟨rfl, rfl⟩
  | succ l ih =>
    simp only [bestChoice]
    split
    · exact ih.imp_right fun ⟨h1, h2, h3⟩ => ⟨h1, by omega, h3⟩
    · split
      · exact .inr ⟨by simp only; omega, le_rfl, rfl⟩
      · exact ih.imp_right fun ⟨h1, h2, h3⟩ => ⟨h1, by omega, h3⟩

/-- No literal and no length in 3..L costs less. -/
theorem bestChoice_le (cost : Nat → Nat) (after : List Nat) (l : Nat) :
    (bestChoice cost after l).1 ≤ 9 + after.getD 0 0 ∧
    ∀ k, 3 ≤ k → k ≤ l → (bestChoice cost after l).1 ≤ cost k + after.getD (k - 1) 0 := by
  induction l with
  | zero => exact ⟨le_rfl, fun k h1 h2 => by omega⟩
  | succ l ih =>
    obtain ⟨hlit, href⟩ := ih
    simp only [bestChoice]
    split
    · exact ⟨hlit, fun k h1 h2 => by omega⟩
    · split
      · next hc =>
        refine ⟨hc.trans hlit, fun k h1 h2 => ?_⟩
        by_cases hk : k = l + 1
        · subst hk; rfl
        · exact hc.trans (href k h1 (by omega))
      · next hc =>
        refine ⟨hlit, fun k h1 h2 => ?_⟩
        by_cases hk : k = l + 1
        · subst hk; simp only [Nat.add_sub_cancel]; omega
        · exact href k h1 (by omega)

/-- `COST[i]` of `Optimal` (R352). -/
def optCost (maxL : Nat) (cost : Nat → Nat) (s : List Byte) (i : Nat) : Nat :=
  (optTable maxL cost s (s.length - i)).1.getD 0 0

/-- `COST[i]` and `CHOICE[i]` together (R352). -/
def optBest (maxL : Nat) (cost : Nat → Nat) (s : List Byte) (i : Nat) : Nat × Nat :=
  bestChoice cost (optTable maxL cost s (s.length - (i + 1))).1 (longestMatch maxL s i).1

/-- The table of a longer suffix holds that of a shorter one. -/
theorem optTable_cost_getD (maxL : Nat) (cost : Nat → Nat) (s : List Byte) {j k : Nat}
    (h : k ≤ j) : (optTable maxL cost s j).1.getD k 0 =
      (optTable maxL cost s (j - k)).1.getD 0 0 := by
  induction k generalizing j with
  | zero => rfl
  | succ k ih =>
    match j with
    | j + 1 =>
      rw [Nat.add_sub_add_right, ← ih (Nat.le_of_succ_le_succ h)]
      simp [optTable]

theorem optTable_choice_getD (maxL : Nat) (cost : Nat → Nat) (s : List Byte) {j k : Nat}
    (h : k < j) : (optTable maxL cost s j).2.getD k 1 =
      (optTable maxL cost s (j - k)).2.getD 0 1 := by
  induction k generalizing j with
  | zero => rfl
  | succ k ih =>
    match j with
    | j + 1 =>
      rw [Nat.add_sub_add_right, ← ih (Nat.lt_of_succ_lt_succ h)]
      simp [optTable]

theorem optTable_head (maxL : Nat) (cost : Nat → Nat) {s : List Byte} {i : Nat}
    (h : i < s.length) :
    (optTable maxL cost s (s.length - i)).1.getD 0 0 = (optBest maxL cost s i).1 ∧
    (optTable maxL cost s (s.length - i)).2.getD 0 1 = (optBest maxL cost s i).2 := by
  obtain ⟨j, hj⟩ : ∃ j, s.length - i = j + 1 := ⟨s.length - i - 1, by omega⟩
  have hi : s.length - (j + 1) = i := by omega
  have hj' : s.length - (i + 1) = j := by omega
  simp [hj, optTable, optBest, hi, hj']

theorem optCost_end (maxL : Nat) (cost : Nat → Nat) (s : List Byte) :
    optCost maxL cost s s.length = 0 := by
  simp [optCost, optTable]

/-- What the loop at position `i` reads of the table is `COST` further on. -/
theorem optTable_after (maxL : Nat) (cost : Nat → Nat) {s : List Byte} {i l : Nat} (h1 : 1 ≤ l)
    (h : i + l ≤ s.length) :
    (optTable maxL cost s (s.length - (i + 1))).1.getD (l - 1) 0 = optCost maxL cost s (i + l) := by
  rw [optTable_cost_getD maxL cost s (by omega), optCost]
  congr 3; omega

/-- The optimal choice at `i`, and what it costs. -/
theorem optBest_cases (maxL : Nat) (cost : Nat → Nat) {s : List Byte} {i : Nat}
    (h : i < s.length) :
    let l := (optBest maxL cost s i).2
    (l = 1 ∧ optCost maxL cost s i = 9 + optCost maxL cost s (i + 1)) ∨
    (3 ≤ l ∧ l ≤ (longestMatch maxL s i).1 ∧
      optCost maxL cost s i = cost l + optCost maxL cost s (i + l)) := by
  have hcost : optCost maxL cost s i = (optBest maxL cost s i).1 := (optTable_head maxL cost h).1
  have hle := longestMatch_le maxL s i
  obtain ⟨h1, h2⟩ | ⟨h1, h2, h3⟩ := bestChoice_attained cost
    (optTable maxL cost s (s.length - (i + 1))).1 (longestMatch maxL s i).1
  · refine .inl ⟨h1, ?_⟩
    rw [hcost, ← optTable_after maxL cost le_rfl (by omega)]; exact h2
  · refine .inr ⟨h1, h2, ?_⟩
    rw [hcost, ← optTable_after maxL cost (by rw [optBest]; omega) (by rw [optBest]; omega)]
    exact h3

theorem emitChoice_step (maxL : Nat) (cost : Nat → Nat) {s : List Byte} {i : Nat} (f : Nat)
    (h : i < s.length) :
    emitChoice maxL s (optTable maxL cost s s.length).2 (f + 1) i =
      if (optBest maxL cost s i).2 = 1 then
        .lit (s.getD i 0) :: emitChoice maxL s (optTable maxL cost s s.length).2 f (i + 1)
      else .ref (optBest maxL cost s i).2 (dispFor maxL s i (optBest maxL cost s i).2) ::
        emitChoice maxL s (optTable maxL cost s s.length).2 f (i + (optBest maxL cost s i).2) := by
  rw [emitChoice, if_pos h, optTable_choice_getD maxL cost s h, (optTable_head maxL cost h).2]

/-- A length up to the longest match's has a displacement (R345). -/
theorem dispFor_spec {maxL i l : Nat} {s : List Byte} (h3 : 3 ≤ l)
    (hl : l ≤ (longestMatch maxL s i).1) :
    1 ≤ dispFor maxL s i l ∧ dispFor maxL s i l ≤ min Config.winSize i ∧
      l ≤ matchLen maxL s i (dispFor maxL s i l) := by
  obtain ⟨hfound, hfinds⟩ := dispUpTo_spec (maxL := maxL) (s := s) (i := i) (l := l)
    (k := min i Config.winSize)
  obtain ⟨-, h0⟩ | ⟨hd1, hd, hm⟩ := (longestUpTo_spec maxL s i (min i Config.winSize)).1
  · rw [longestMatch, h0] at hl; simp only at hl; omega
  · rw [min_comm]
    exact hfound (hfinds _ hd1 hd (hm ▸ hl))

/-- The emission is a valid list, and costs what the table says. -/
theorem emitChoice_spec (maxL : Nat) (cost : Nat → Nat) (s : List Byte) {f i : Nat}
    (hf : s.length - i ≤ f) (hi : i ≤ s.length) :
    Parses maxL s (emitChoice maxL s (optTable maxL cost s s.length).2 f i) i ∧
    bitsOf cost (emitChoice maxL s (optTable maxL cost s s.length).2 f i) =
      optCost maxL cost s i := by
  induction f generalizing i with
  | zero =>
    obtain rfl : i = s.length := by omega
    exact ⟨rfl, (optCost_end maxL cost s).symm⟩
  | succ f ih =>
    by_cases hlt : i < s.length
    · have hle := longestMatch_le maxL s i
      rw [emitChoice_step maxL cost f hlt]
      obtain ⟨h1, hcost⟩ | ⟨h3, hl, hcost⟩ := optBest_cases maxL cost hlt
      · obtain ⟨hp, hb⟩ := ih (i := i + 1) (by omega) (by omega)
        rw [if_pos h1, hcost]
        exact ⟨⟨hlt, rfl, hp⟩, by rw [bitsOf, hb]⟩
      · obtain ⟨hp, hb⟩ := ih (i := i + (optBest maxL cost s i).2) (by omega) (by omega)
        obtain ⟨hd1, hd, hm⟩ := dispFor_spec h3 hl
        rw [if_neg (by omega), hcost]
        exact ⟨⟨h3, hd1, hd, hm, hp⟩, by rw [bitsOf, hb]⟩
    · obtain rfl : i = s.length := by omega
      rw [emitChoice, if_neg hlt]
      exact ⟨rfl, (optCost_end maxL cost s).symm⟩

/-- No valid list costs less than the table says (R353). -/
theorem optCost_le_bitsOf {maxL : Nat} (cost : Nat → Nat) {s : List Byte} {ts : List LzTok}
    {i : Nat} (h : Parses maxL s ts i) : optCost maxL cost s i ≤ bitsOf cost ts := by
  induction ts generalizing i with
  | nil => rw [show i = s.length from h, optCost_end]; exact Nat.zero_le _
  | cons t ts ih =>
    cases t with
    | lit b =>
      obtain ⟨hi, -, hrest⟩ := h
      obtain ⟨hlit, -⟩ := bestChoice_le cost (optTable maxL cost s (s.length - (i + 1))).1
        (longestMatch maxL s i).1
      calc optCost maxL cost s i = (optBest maxL cost s i).1 := (optTable_head maxL cost hi).1
        _ ≤ 9 + optCost maxL cost s (i + 1) := hlit
        _ ≤ 9 + bitsOf cost ts := Nat.add_le_add_left (ih hrest) _
    | ref l d =>
      obtain ⟨hl, hd1, hd, hm, hrest⟩ := h
      have hle := (matchLen_le maxL s i d).2
      have hmax : matchLen maxL s i d ≤ (longestMatch maxL s i).1 :=
        (longestUpTo_spec maxL s i (min i Config.winSize)).2 d hd1 (by rwa [min_comm])
      obtain ⟨-, href⟩ := bestChoice_le cost (optTable maxL cost s (s.length - (i + 1))).1
        (longestMatch maxL s i).1
      calc optCost maxL cost s i = (optBest maxL cost s i).1 :=
            (optTable_head maxL cost (by omega)).1
        _ ≤ cost l + (optTable maxL cost s (s.length - (i + 1))).1.getD (l - 1) 0 :=
            href l hl (hm.trans hmax)
        _ = cost l + optCost maxL cost s (i + l) := by
            rw [optTable_after maxL cost (by omega) (by omega)]
        _ ≤ cost l + bitsOf cost ts := Nat.add_le_add_left (ih hrest) _

/-! ### Either selection -/

theorem selectTokens_parses (s : List Byte) (maxL : Nat) (cost : Nat → Nat) (optimal : Bool) :
    Parses maxL s (selectTokens s maxL cost optimal) 0 := by
  cases optimal
  · exact greedy_parses maxL s (by simp) (Nat.zero_le _)
  · exact (emitChoice_spec maxL cost s (by simp) (Nat.zero_le _)).1

/-- Settles O51: both selections are valid lists, which expand to the plaintext. -/
theorem selectionExpandsToThePlaintext : Obligations.SelectionExpandsToThePlaintext :=
  fun s maxL cost optimal => (selectTokens_parses s maxL cost optimal).expand

/-- Settles O52: both selections are valid lists, whose back-references are in the window. -/
theorem selectionStaysInTheWindow : Obligations.SelectionStaysInTheWindow :=
  fun s maxL cost optimal => (selectTokens_parses s maxL cost optimal).bounded

theorem bitsOf_optimal_le (s : List Byte) (maxL : Nat) (cost : Nat → Nat) :
    bitsOf cost (selectTokens s maxL cost true) ≤
      bitsOf cost (selectTokens s maxL cost false) := by
  have hopt : bitsOf cost (selectTokens s maxL cost true) = optCost maxL cost s 0 :=
    (emitChoice_spec maxL cost s (by simp) (Nat.zero_le _)).2
  rw [hopt]
  exact optCost_le_bitsOf cost (selectTokens_parses s maxL cost false)

end Sys2Proof.Machine

/-!
The lengths of the streams (R201, R234, R297): what the flag-group writer puts out, the payload of the
LZ tokens in bits, and the RLE loop's worst case. The statements about them (O54, O53, O55).
-/
namespace Sys2Proof.Machine

/-! ### LZ streams (R169, R201, R234, R355) -/

/-- The payload of a token list, in bytes. -/
def payload (enc : LzTok → List Byte) (ts : List LzTok) : Nat := (ts.map fun t => (enc t).length).sum

@[simp] theorem payload_nil (enc : LzTok → List Byte) : payload enc [] = 0 := rfl

@[simp] theorem payload_cons (enc : LzTok → List Byte) (t : LzTok) (ts : List LzTok) :
    payload enc (t :: ts) = (enc t).length + payload enc ts := by simp [payload]

/-- The group in hand, the payload, and one flag byte for every eight tokens begun. -/
theorem length_writeGroups (enc : LzTok → List Byte) (ts : List LzTok) (fl : Byte) {c : Nat}
    {grp : List Byte} (hc : c < 8) (h0 : c = 0 → grp = []) :
    (writeGroups enc ts fl c grp).length =
      grp.length + payload enc ts + (c + ts.length + 7) / 8 := by
  induction ts generalizing fl c grp with
  | nil =>
    by_cases h : c = 0
    · simp [writeGroups, h, h0 h]
    · simp [writeGroups, h]; omega
  | cons t ts ih =>
    simp only [writeGroups, payload_cons, List.length_cons]
    split
    · rw [List.length_append, ih _ (by omega) (fun _ => rfl)]
      simp only [List.length_cons, List.length_append, List.length_nil]
      omega
    · rw [ih _ (by omega) (by omega), List.length_append]
      omega

/-- A token's bits are its bytes' and its flag's. -/
theorem bitsOf_eq {cost : Nat → Nat} {enc : LzTok → List Byte} (ts : List LzTok)
    (hlit : ∀ b, (enc (.lit b)).length = 1) (href : ∀ l d, 8 * (enc (.ref l d)).length + 1 = cost l) :
    bitsOf cost ts = 8 * payload enc ts + ts.length := by
  induction ts with
  | nil => rfl
  | cons t ts ih =>
    cases t with
    | lit b => rw [bitsOf, ih, payload_cons, hlit, List.length_cons]; omega
    | ref l d => rw [bitsOf, ih, payload_cons, ← href l d, List.length_cons]; omega

theorem length_writeGroups_eq_bits {cost : Nat → Nat} {enc : LzTok → List Byte} (ts : List LzTok)
    (hlit : ∀ b, (enc (.lit b)).length = 1) (href : ∀ l d, 8 * (enc (.ref l d)).length + 1 = cost l) :
    (writeGroups enc ts 0 0 []).length = (bitsOf cost ts + 7) / 8 := by
  rw [length_writeGroups enc ts 0 (by omega) (fun _ => rfl), bitsOf_eq ts hlit href]
  simp only [List.length_nil]
  omega

theorem length_encode_tok10_ref (l d : Nat) :
    8 * (encode (tok10 (.ref l d))).length + 1 = cost10 l := rfl

theorem length_encode_tok11_ref (l d : Nat) :
    8 * (encode (tok11 (.ref l d))).length + 1 = cost11 l := by
  simp only [tok11, cost11]
  split
  · rfl
  · split <;> rfl

theorem length_emitHeader (c : Fwd) (n : Nat) :
    (emitHeader c n).length = if n = 0 then 8 else 4 := by
  rw [emitHeader_eq]; split <;> rfl

theorem length_lz10Stream (s : List Byte) (optimal : Bool) :
    (lz10Stream s optimal).length = (emitHeader .lz10 s.length).length +
      (bitsOf cost10 (selectTokens s Config.lz10MaxLen cost10 optimal) + 7) / 8 := by
  rw [lz10Stream, List.length_append,
    length_writeGroups_eq_bits _ (fun _ => rfl) length_encode_tok10_ref]

theorem length_lz11Stream (s : List Byte) (optimal : Bool) :
    (lz11Stream s optimal).length = (emitHeader .lz11 s.length).length +
      (bitsOf cost11 (selectTokens s Config.lz11MaxLen cost11 optimal) + 7) / 8 := by
  rw [lz11Stream, List.length_append,
    length_writeGroups_eq_bits _ (fun _ => rfl) length_encode_tok11_ref]

/-- Settles O54: a plaintext that is not empty has a header of four bytes. -/
theorem lzStreamLength : Obligations.LzStreamLength := by
  intro s optimal hs
  have hn : s.length ≠ 0 := fun h => hs (List.eq_nil_of_length_eq_zero h)
  rw [length_lz10Stream, length_lz11Stream, length_emitHeader, length_emitHeader, if_neg hn]
  exact ⟨rfl, rfl⟩

/-- Settles O53: no valid list costs less than the optimal one, and a stream's length grows with its
bits. -/
theorem optimalIsNoLonger : Obligations.OptimalIsNoLonger := by
  refine ⟨bitsOf_optimal_le, fun s => ?_⟩
  rw [length_lz10Stream, length_lz10Stream, length_lz11Stream, length_lz11Stream]
  have h10 := bitsOf_optimal_le s Config.lz10MaxLen cost10
  have h11 := bitsOf_optimal_le s Config.lz11MaxLen cost11
  omega

/-! ### RLE streams (R295, R297) -/

theorem sameRun_le (b : Byte) (k : Nat) (xs : List Byte) :
    sameRun b k xs ≤ k ∧ sameRun b k xs ≤ xs.length := by
  induction k generalizing xs with
  | zero => simp [sameRun]
  | succ k ih =>
    cases xs with
    | nil => simp [sameRun]
    | cons x xs =>
      have := ih xs
      simp only [sameRun, List.length_cons]
      split <;> omega

theorem length_flushRaw (lits : List Byte) :
    (flushRaw lits).length = if lits = [] then 0 else lits.length + 1 := by
  unfold flushRaw
  split
  · rfl
  · rw [List.length_append]; exact Nat.add_comm 1 _

theorem length_flushRaw_le (lits xs : List Byte) : (flushRaw lits).length ≤
    lits.length + xs.length + (lits.length + xs.length + 127) / 128 := by
  rw [length_flushRaw]
  split
  · omega
  · next hne =>
    have := List.length_pos_of_ne_nil hne
    omega

/-- Every byte pending or to come costs itself, and every 128 of them begun one flag byte: a run of
three or more pays for its own two bytes and for the flag of the raw bytes before it. -/
theorem length_rleLoop_le (f : Nat) (xs lits : List Byte) (h : lits.length < 128) :
    (rleLoop f xs lits).length ≤
      lits.length + xs.length + (lits.length + xs.length + 127) / 128 := by
  induction f generalizing xs lits with
  | zero => exact length_flushRaw_le lits xs
  | succ f ih =>
    cases xs with
    | nil => exact length_flushRaw_le lits []
    | cons b rest =>
      have hrun := (sameRun_le b (Config.rleRunMax - 1) rest).2
      have hmax : Config.rleRawMax = 128 := rfl
      simp only [rleLoop, List.length_cons]
      split
      · next h3 =>
        have hrest := ih (rest.drop (sameRun b (Config.rleRunMax - 1) rest + 1 - 1)) [] (by simp)
        have htok : (encode (.rleRun (BitVec.ofNat 7
          (sameRun b (Config.rleRunMax - 1) rest + 1 - 3)) b)).length = 2 := rfl
        have hlits := length_flushRaw lits
        simp only [List.length_append, List.length_drop, List.length_nil, Nat.zero_add] at hrest ⊢
        split at hlits <;> omega
      · split
        · next hfull =>
          have hrest := ih rest [] (by simp)
          have hlits := length_flushRaw (lits ++ [b])
          simp only [List.append_eq_nil_iff, List.cons_ne_nil, and_false, if_false,
            List.length_append, List.length_cons, List.length_nil, Nat.zero_add] at hrest hlits ⊢
          omega
        · next hfull =>
          have hrest := ih rest (lits ++ [b]) (by simp; omega)
          simp only [List.length_append, List.length_cons, List.length_nil] at hrest
          omega

/-- Settles O55: the loop begins with nothing pending. -/
theorem rleStreamIsBounded : Obligations.RleStreamIsBounded := by
  refine ⟨rfl, fun s hs => ?_⟩
  have hn : s.length ≠ 0 := fun h => hs (List.eq_nil_of_length_eq_zero h)
  have hloop := length_rleLoop_le s.length s [] (by simp)
  rw [rleStream, List.length_append, length_emitHeader, if_neg hn]
  simp only [List.length_nil] at hloop
  omega

end Sys2Proof.Machine

/-!
Reset and the host's actions (spec/10_state.md R46, spec/70_reset_and_hazards.md R511), command start
and end (spec/40_codec_interface.md R138, R139, R142) and taking an error (spec/60_exceptions.md R470):
what a step does between commands and at a command's two ends, and the statements about it (O1, O2, O9,
O12, O15, O45).
-/
namespace Sys2Proof.Machine

/-! ### Between commands -/

theorem fetch_idle {s : State} (h : s.seq.phase = .idle) : fetch s = fetchHost s := by
  simp only [fetch, h]

/-- With nothing asked the block holds still (R46). -/
theorem step_idle_nil {s : State} (h : s.seq.phase = .idle) (hq : s.env.hostQ = []) :
    step s = .next s :=
  step_of_fetch_piece (r := .ok () s) (by simp only [fetch_idle h, fetchHost, hq])

/-- An action that is no command is taken whole in one step. -/
theorem step_hostAct {s : State} {a : HostAction} {q : List HostAction} (h : s.seq.phase = .idle)
    (hq : s.env.hostQ = a :: q) (ha : ∀ w, a ≠ .writeCmd w) :
    step s = .next (hostAct a { s with env.hostQ := q }) := by
  refine step_of_fetch_piece (r := .ok () _) ?_
  rw [fetch_idle h, fetchHost, hq]
  cases a with
  | writeCmd w => exact absurd rfl (ha w)
  | _ => rfl

/-- A write of `CMD` is the command word's step. -/
theorem fetch_writeCmd {s : State} {w : Word32} {q : List HostAction} (h : s.seq.phase = .idle)
    (hq : s.env.hostQ = .writeCmd w :: q) :
    fetch s = fetchCommand w { s with host.cmd := w, env.hostQ := q } := by
  simp only [fetch_idle h, fetchHost, hq, hostAct]

theorem getLsbD_ctrlWrite (v : BitVec 32) {b : Nat} (h : b < 32) :
    (ctrlWrite v).getLsbD b = (decide (b < 4) && v.getLsbD b) := by
  have hmask : ∀ b < 32, ctrlMask.getLsbD b = decide (b < 4) := by decide
  rw [ctrlWrite, BitVec.getLsbD_and, hmask b h, Bool.and_comm]

/-- Settles O1: each action writes its own part of the state. -/
theorem resetAndHostActions : Obligations.ResetAndHostActions := by
  refine ⟨⟨rfl, rfl, rfl, rfl, rfl, rfl, rfl, rfl, rfl⟩, fun s q h => ?_⟩
  refine ⟨step_idle_nil h, ?argLen, ?ctrl, ?load, ?empty, ?fault, ?order, ?reset⟩
  case argLen | fault | order => exact fun v hq => step_hostAct h hq (by simp)
  case ctrl =>
    exact fun v hq => ⟨_, step_hostAct h hq (by simp), fun b hb => getLsbD_ctrlWrite v hb, rfl⟩
  case load =>
    exact fun bytes hq => ⟨_, step_hostAct h hq (by simp),
      Memory.stored_store bytes 0 Memory.wf_nil, rfl⟩
  case empty => exact fun hq => step_hostAct h hq (by simp)
  case reset =>
    exact fun hq => ⟨_, step_hostAct h hq (by simp), rfl, rfl, rfl, rfl, rfl, rfl, rfl, rfl, rfl,
      rfl, rfl, rfl⟩

/-- Settles O45: a block at reset waits, every register inside its width. -/
theorem resetMeetsTheInvariants : Obligations.ResetMeetsTheInvariants := by
  refine ⟨⟨rfl, rfl, rfl, rfl, rfl, rfl⟩, ?_, ?_⟩
  · exact {
      status := ⟨rfl, by decide, by decide, by decide⟩
      busy := by decide
      noTrial := fun _ => rfl
      members := fun tr h => nomatch h
      ctrl := rfl
      failed := fun h => absurd rfl h
      errPos := fun h => absurd rfl h
      errInfo := fun h => absurd rfl (h.elim id fun hx => absurd rfl hx)
      lastSub := .inl rfl }
  · constructor <;> first | exact trivial | decide

/-! ### Command start and end -/

/-! The response registers after each error that a decoder raises (R460, R470). -/

@[simp] theorem failWith_notEnoughData_host (w x : Nat) (s : State) :
    (failWith (.notEnoughData w x) s).host = afterNotEnough w x s.host := by
  simp only [failWith, errCode]; rfl

@[simp] theorem failWith_streamTooShort_host (s : State) :
    (failWith .streamTooShort s).host = afterTooShort s.host := rfl

@[simp] theorem failWith_invalidData_host (pos : Nat) (s : State) :
    (failWith (.invalidData pos) s).host = afterInvalid pos s.host := by
  simp only [failWith, errCode]; rfl

/-- The host registers after an end without error (R139). -/
def afterOk (n : Nat) (tmi : Bool) (sub : BitVec 4) (h : HostRegs) : HostRegs :=
  { h with
    status := if tmi then 0x42 else 0x02, resultLen := n, errPos := 0, errWritten := 0,
    errExpected := 0, lastSub := sub }

@[simp] theorem endOk_host (n : Nat) (tmi : Bool) (sub : BitVec 4) (s : State) :
    (endOk n tmi sub s).host = afterOk n tmi sub s.host := by
  cases tmi <;> rfl

@[simp] theorem failWith_ioError_host (s : State) :
    (failWith .ioError s).host = afterIoError s.host := rfl

/-- Settles O2: an error outside a trial run ends the command, with what it carries. -/
theorem commandStartAndEnd : Obligations.CommandStartAndEnd := by
  refine ⟨fun s => ⟨statusState_busy _, rfl, rfl, rfl⟩, fun n tmi sub s =>
    ⟨endOk_host n tmi sub s, rfl, rfl⟩, fun e s h => ?_⟩
  · rw [takeError_plain e s h]
    refine ⟨?_, rfl, rfl, rfl, rfl⟩
    cases e with
    | notEnoughData w x => exact failWith_notEnoughData_host w x s
    | invalidData pos => exact failWith_invalidData_host pos s
    | _ => rfl

/-- Settles O9: a simple codec has no members, and its entry is its decoder's first place. -/
theorem decompressStartsTheDecoder : Obligations.DecompressStartsTheDecoder := by
  intro id ph s h
  simp only [List.mem_cons, Prod.mk.injEq, List.not_mem_nil, or_false] at h
  obtain ⟨rfl, rfl⟩ | ⟨rfl, rfl⟩ | ⟨rfl, rfl⟩ | ⟨rfl, rfl⟩ | ⟨rfl, rfl⟩ | ⟨rfl, rfl⟩ |
    ⟨rfl, rfl⟩ := h <;> rfl

/-! ### Refusals (R142, R467, R463) -/

theorem exec_cmdCompress {id : BitVec 4} {c : Codec} (hc : codecOfId id = some c) (s : State) :
    exec (.cmdCompress id) s = settle (compressCommand c (commandStart s)) := by
  rw [exec, execCmdCompress, withCodec_of_codecOfId hc]

theorem exec_cmdDecompress {id : BitVec 4} {c : Codec} (hc : codecOfId id = some c) (s : State) :
    exec (.cmdDecompress id) s = .next (decompressCommand c (commandStart s)) := by
  rw [exec, execCmdDecompress, withCodec_of_codecOfId hc, settle_ok]

theorem codecCanCompress_eq_false {c : Codec} : codecCanCompress c = false ↔ c = .lzovl := by
  cases c <;> simp [codecCanCompress]

/-- An error of a command's own piece ends the command. -/
theorem settle_raised_commandStart (e : Err) (s : State) :
    settle (.raised e (commandStart s)) = .next (failWith e (commandStart s)) := by
  rw [settle_raised, takeError_plain e (commandStart s) rfl]

/-- Settles O12: the three tests of COMPRESS, the first that fails ending the command. -/
theorem compressRefusesInOrder : Obligations.CompressRefusesInOrder := by
  intro id c s hc
  simp only [exec_cmdCompress hc, compressCommand, codecCanCompress_eq_false]
  refine ⟨fun h => ?_, fun h hlarge => ?_, fun h hlen hsrc => ?_⟩
  · rw [if_pos h, settle_raised_commandStart]
  · have hd : Config.len24Max < (commandStart s).work.declLen := hlarge
    rw [if_neg h, if_pos hd, settle_raised_commandStart]
  · have hd : ¬ Config.len24Max < (commandStart s).work.declLen := Nat.not_lt.mpr hlen
    have hs : (commandStart s).env.srcLen < (commandStart s).work.declLen := hsrc
    rw [if_neg h, if_neg hd, if_pos hs, settle_raised_commandStart]

theorem decodeCmd_illegal {w : Word32} (h : (w.extractLsb' 0 4).toNat ∉ [1, 2, 3, 4]) :
    ∃ e, decodeCmd w = .rejected e := by
  simp only [List.mem_cons, List.not_mem_nil, or_false, not_or] at h
  obtain ⟨h1, h2, h3, h4⟩ := h
  unfold decodeCmd
  split
  · exact absurd ‹_› h1
  · exact absurd ‹_› h2
  · exact absurd ‹_› h3
  · exact absurd ‹_› h4
  · exact ⟨_, rfl⟩

theorem codecOfId_eq_none {id : BitVec 4} (h : id.toNat ∈ [7, 11, 12, 13, 14, 15]) :
    codecOfId id = none := by
  revert h
  revert id
  decide

/-- A legal operation on a codec id that names none is refused before anything else. -/
theorem exec_decodeCmd_noCodec {w : Word32} {i : Instr} (h : decodeCmd w = .instr i)
    (hc : codecOfId (w.extractLsb' 4 4) = none) (s : State) :
    exec i s = settle (.raised .unsupported (commandStart s)) := by
  unfold decodeCmd at h
  split at h <;> cases h <;>
    simp only [exec, execCmdSupports, execCmdDecompress, execCmdCompress, execCmdSetopt, withCodec,
      hc]

/-- Settles O15: an illegal operation is refused as the word is fetched, an illegal codec as its command
runs. -/
theorem illegalWordsAreUnsupported : Obligations.IllegalWordsAreUnsupported := by
  intro w q s hp hq h
  have hstep : step s = settle (.raised .unsupported
      (commandStart { s with host.cmd := w, env.hostQ := q })) := by
    have hfetch := fetch_writeCmd hp hq
    cases hd : decodeCmd w with
    | rejected e => rw [fetchCommand, hd] at hfetch; exact step_of_fetch_piece hfetch
    | instr i =>
      rw [fetchCommand, hd] at hfetch
      rw [step_of_fetch_instr hfetch]
      refine exec_decodeCmd_noCodec hd (codecOfId_eq_none (h.resolve_left fun hop => ?_)) _
      obtain ⟨e, he⟩ := decodeCmd_illegal hop
      rw [hd] at he; cases he
  rw [hstep, settle_raised_commandStart]
  exact ⟨_, rfl, rfl, rfl, rfl, rfl⟩

end Sys2Proof.Machine

/-!
The tokens whose meaning is one case (spec/41_bitstream_parser.md R162, R163, spec/46_huffman_decoder.md
R312 to R322): headers, the bit word, the walk, the leaves, and the statements about them (O16, O32,
O31, O33).
-/
namespace Sys2Proof.Machine

/-- A header whose four bytes are there (R162, R310). -/
theorem parseHeader_readable (c : Fwd) (n : BitVec 24) {s : State} (h : Readable 4 s) :
    parseHeader c n s = .ok () { s with
      work.tokPos := s.work.inPos, work.inPos := s.work.inPos + 4, work.decSize := n.toNat,
      work.treeBase := if c = .huf4 ∨ c = .huf8 then s.work.inPos + 4 else s.work.treeBase,
      seq.phase := if n = 0 then .ext c else fwdBody c } := by
  rw [parseHeader, consume_readable (s := beginToken s) h]
  cases c <;> rfl

/-- An extension word whose four bytes are there (R163). -/
theorem ext_readable {c : Fwd} (n : BitVec 32) {s : State} (h : Readable 4 s)
    (hp : s.seq.phase = .ext c) :
    meaning (.hdrExt n) s = .ok () { s with
      work.inPos := s.work.inPos + 4, work.decSize := n.toNat,
      work.treeBase := if c = .huf4 ∨ c = .huf8 then s.work.inPos + 4 else s.work.treeBase,
      seq.phase := fwdBody c } := by
  rw [meaning, consume_readable h]
  simp only [Run.bind_ok, extDone, hp]
  cases c <;> rfl

/-- Settles O16: the header token of each codec is `ParseHeader` of it. -/
theorem headersGiveTheLength : Obligations.HeadersGiveTheLength := by
  refine ⟨fun c n i s hr hi => ?_, fun c n s hr hp => ?_⟩
  · have hexec : exec i s = settle (parseHeader c n s) := by
      simp only [List.mem_cons, Prod.mk.injEq, List.not_mem_nil, or_false] at hi
      obtain ⟨rfl, rfl⟩ | ⟨rfl, rfl⟩ | ⟨rfl, rfl⟩ | ⟨rfl, rfl⟩ | ⟨rfl, rfl⟩ | ⟨rfl, rfl⟩ := hi <;>
        rfl
    rw [hexec, parseHeader_readable c n hr, settle_ok]
  · rw [exec_eq_settle, ext_readable n hr hp, settle_ok]

/-- A bit word whose four bytes are there (R316). -/
theorem hufWord_readable (w : BitVec 32) {s : State} (h : Readable 4 s) :
    meaning (.hufWord w) s = .ok () { s with
      work.inPos := s.work.inPos + 4, work.bitbuf := w, work.bitCnt := 32 } := by
  rw [meaning, consume_readable h]
  rfl

/-- Settles O32: the next bit is `BITBUF[31]` (R168). -/
theorem bitWordIsLoaded : Obligations.BitWordIsLoaded := by
  intro w s hr
  rw [exec_eq_settle, hufWord_readable w hr, settle_ok]
  exact ⟨_, rfl, rfl, rfl⟩

/-- The three things a bit can lead to (R318, R320). -/
theorem walkBit_eq (b : Bool) {k : HufKind} {s : State} (hp : s.seq.phase = .bit k) :
    walkBit b s =
      if s.work.treeLen ≤ childPos s.work.nodePos s.seq.nodeByte b then
        .raised (.invalidData (s.work.treeBase + childPos s.work.nodePos s.seq.nodeByte b)) s
      else if childIsLeaf s.seq.nodeByte b then
        .ok () { s with seq.leafPos := childPos s.work.nodePos s.seq.nodeByte b, seq.phase := .leaf k }
      else .ok () { s with
        work.nodePos := childPos s.work.nodePos s.seq.nodeByte b, seq.phase := .node k } := by
  simp only [walkBit, hp, afterBit, if_true, Bool.false_eq_true, if_false]

/-- Settles O31: the child's position and its leaf bit are the formulas of R315. -/
theorem walkStepsToTheChild : Obligations.WalkStepsToTheChild := by
  refine ⟨fun leaf0 leaf1 offset k s hp => ?_, fun b leaf c k s hp hc hleaf => ?_⟩
  · obtain ⟨h7, h6, h0⟩ := nodeByte_fields leaf0 leaf1 offset
    refine ⟨_, rfl, h7, h6, h0, ?_⟩
    rw [hp, afterNode]
  · have hpos : childPos s.work.nodePos s.seq.nodeByte b = c := by
      rw [hc, childPos]; cases b <;> rfl
    have hbit : childIsLeaf s.seq.nodeByte b = leaf := by
      rw [hleaf, childIsLeaf]; cases b <;> rfl
    rw [exec_eq_settle, meaning, walkBit_eq b hp, hpos, hbit]
    split
    · rw [settle_raised]
    · cases leaf <;> rfl

theorem toRoot_leaf {k : HufKind} {s : State} (hp : s.seq.phase = .leaf k) :
    toRoot s = { s with work.nodePos := 1, seq.phase := .node k } := by
  rw [toRoot, hp, afterLeaf]

theorem hiNib_eq_zero_iff {b : Byte} : hiNib b = 0 ↔ b.toNat < 16 := by
  have hzero : (0 : BitVec 4).toNat = 0 := rfl
  have hlt := b.isLt
  rw [hiNib, ← BitVec.toNat_inj, BitVec.extractLsb'_toNat, hzero, Nat.shiftRight_eq_div_pow]
  omega

theorem toNat_loNib {b : Byte} (h : b.toNat < 16) : (loNib b).toNat = b.toNat := by
  rw [loNib, BitVec.extractLsb'_toNat, Nat.shiftRight_zero]
  exact Nat.mod_eq_of_lt h

/-- A leaf whose byte goes out, and the walk is back at the root. -/
theorem outByte_toRoot (b : Byte) {k : HufKind} {s : State} (hm : MemInv s)
    (hf : s.env.ioFault = none) (hp : s.seq.phase = .leaf k) :
    ∃ t, outByte b s = .ok () t ∧ Appended s (toRoot t) [b] ∧
      toRoot t = { s with
        work.outLen := s.work.outLen + 1, work.nodePos := 1, seq.phase := .node k,
        mem := { s.mem with omem := (toRoot t).mem.omem, cbuf := (toRoot t).mem.cbuf } } := by
  have hput := outByte_noFault b s hf
  have happ : Appended s _ [b] := outByte_appended hm hput
  exact ⟨_, hput, happ, by rw [toRoot_leaf (k := k) (by exact hp)]⟩

/-- Settles O33: a leaf either puts its byte out, keeps its nibble, or is invalid. -/
theorem leavesEmitTheirSymbols : Obligations.LeavesEmitTheirSymbols := by
  intro b k s hm hf hp
  refine ⟨?leaf8, fun hb => ?invalid, fun hb hv => ?first, fun hb hv => ?second⟩
  case leaf8 =>
    obtain ⟨t, hput, happ, hframe⟩ := outByte_toRoot b hm hf hp
    exact ⟨toRoot t, by rw [exec, execHufLeaf8, hput, Run.bind_ok, settle_ok], happ, hframe⟩
  case invalid =>
    rw [exec, execHufLeaf4, leafNibble, if_pos (by rw [ne_eq, hiNib_eq_zero_iff]; omega),
      Run.bind_raised, settle_raised]
  case first =>
    rw [exec, execHufLeaf4, leafNibble, if_neg (by rw [ne_eq, not_not, hiNib_eq_zero_iff]; omega),
      if_neg (by simp [hv]), Run.bind_ok, settle_ok, toRoot_leaf (k := k) (by exact hp)]
    exact ⟨_, rfl, toNat_loNib hb, rfl⟩
  case second =>
    obtain ⟨t, hput, happ, hframe⟩ := outByte_toRoot (s.work.nib ++ loNib b) hm hf hp
    refine ⟨toRoot { t with work.nibValid := false }, s.work.nib ++ loNib b, ?_, ?_, happ, ?_⟩
    · rw [exec, execHufLeaf4, leafNibble,
        if_neg (by rw [ne_eq, not_not, hiNib_eq_zero_iff]; omega), if_pos hv, hput]
      rfl
    · rw [BitVec.toNat_append, toNat_loNib hb, ← Nat.shiftLeft_add_eq_or_of_lt hb,
        Nat.shiftLeft_eq]
      omega
    · exact congrArg (fun u : State => { u with work.nibValid := false }) hframe

end Sys2Proof.Machine

/-!
The tokens that copy bytes (spec/42_lz10.md R194, spec/45_rle.md R292, R293, spec/44_lz_overlay.md R252 to
R257, spec/46_huffman_decoder.md R312, R313) and the wrong magic (spec/41_bitstream_parser.md R162), with
every byte there or one missing, and the statements about them (O17, O21, O27, O28, O29, O30, O23, O24).
-/
namespace Sys2Proof.Machine

/-! ### A wrong magic (R162, R465) -/

/-- Where a byte is there, it is the first that can be read. -/
theorem readable_cons {s : State} (h : Readable 1 s) :
    ∃ rest, readable s = Memory.read s.work.inPos s.mem.imem :: rest := by
  obtain ⟨hdecl, hsrc, -⟩ := h
  obtain ⟨n, hn⟩ : ∃ n, min 4 (min s.work.declLen s.env.srcLen - s.work.inPos) = n + 1 :=
    ⟨min 4 (min s.work.declLen s.env.srcLen - s.work.inPos) - 1, by omega⟩
  exact ⟨_, by rw [readable, hn, Memory.range]⟩

theorem fetch_header {c : Fwd} {s : State} (hp : s.seq.phase = .header c) :
    fetch s = fetchForward (.header c) s := by
  simp only [fetch, hp]

/-- Settles O17: the byte is read, and the error carries the place it was read at. -/
theorem badMagicIsInvalidData : Obligations.BadMagicIsInvalidData := by
  intro c s hp ht hr hne
  obtain ⟨rest, hrest⟩ := readable_cons hr
  have hfetch : fetch s = .piece ((consume 1 (beginToken s)).bind fun _ t =>
      .raised (.invalidData t.work.tokPos) t) := by
    simp only [fetch_header hp, fetchForward, hrest, decode, decodeHeader, if_pos hne]
  rw [step_of_fetch_piece hfetch, consume_readable (s := beginToken s) hr, Run.bind_ok,
    settle_raised, takeError_plain _ _ (by exact ht)]
  exact ⟨_, rfl, rfl, rfl, failWith_invalidData_host _ _⟩

/-! ### Back-references (R194, R227) -/

theorem IsLzRef.disp_bounds {i : Instr} {n l d : Nat} (h : IsLzRef i n l d) :
    1 ≤ d ∧ d ≤ Config.winSize := by
  have hw : Config.winSize = 2 ^ 12 := rfl
  obtain ⟨_, disp, -, -, -, rfl⟩ | ⟨_, disp, -, -, -, rfl⟩ | ⟨_, disp, -, -, -, rfl⟩ |
    ⟨_, disp, -, -, -, rfl⟩ := h <;> have := disp.isLt <;> omega

theorem checkDisp_within {s : State} (h : s.work.tokD ≤ s.work.outLen) : checkDisp s = .ok () s :=
  if_neg (Nat.not_lt.mpr h)

/-- Settles O21: the displacement check passes, and `CopyBack` runs (R67, R68). -/
theorem backReferenceReplaysTheOutput : Obligations.BackReferenceReplaysTheOutput := by
  intro i n l d s hi hr hm hc hd hl
  obtain ⟨hd1, hdw⟩ := IsLzRef.disp_bounds hi
  let s1 : State := { s with
    work.inPos := s.work.inPos + n, work.tokPos := s.work.inPos, work.tokL := l, work.tokD := d }
  have hfault : s1.env.ioFault = none := hr.2.2
  obtain ⟨t, hcopy, htf⟩ := copyBack_ends l d s1 hfault
  obtain ⟨hmoved, hpos, hwin, ⟨bs, hlen, happ⟩, hreplay, hkeep⟩ :=
    copyBack_ok (s := s1) hm hc hd1 hd hdw hl hcopy
  have hrun : refToken n l d s = .ok () t := by
    rw [refToken_readable l d hr, checkDisp_within (s := s1) hd, Run.bind_ok, hcopy]
  refine ⟨t, bs, ?_, hlen, happ, hwin, ?_, ?_, ?_⟩
  · rw [exec_eq_refToken hi, hrun, settle_ok]
  · intro k hk
    exact hreplay k (hlen ▸ hk)
  · intro x hx
    exact hkeep x fun k hk => hx k (hlen ▸ hk)
  · have hframe := hmoved.eq_of_ioFault (htf.trans hfault.symm)
    rwa [hpos] at hframe

/-! ### RLE (R292, R293) -/

/-- What `Moved` leaves open where WIN and the count of the I/O fault are kept. -/
theorem Moved.eq_of_win {s t : State} (h : Moved s t) (hf : t.env.ioFault = s.env.ioFault)
    (hw : t.mem.win = s.mem.win) :
    t = { s with
      work.inPos := t.work.inPos, work.outLen := t.work.outLen,
      mem := { s.mem with omem := t.mem.omem, cbuf := t.mem.cbuf } } := by
  have hframe := h.eq_of_ioFault hf
  rwa [hw] at hframe

theorem Readable.mono {n m : Nat} {s : State} (h : Readable m s) (hn : n ≤ m) : Readable n s := by
  obtain ⟨hdecl, hsrc, hfault⟩ := h
  exact ⟨by omega, by omega, hfault⟩

/-- What is readable once the first `n` bytes are passed. -/
theorem Readable.later {n m : Nat} {s t : State} (h : Readable (n + m) s)
    (hpos : t.work.inPos = s.work.inPos + n) (hdecl : t.work.declLen = s.work.declLen)
    (hsrc : t.env.srcLen = s.env.srcLen) (hfault : t.env.ioFault = s.env.ioFault) :
    Readable m t := by
  obtain ⟨h1, h2, h3⟩ := h
  exact ⟨by omega, by omega, hfault.trans h3⟩

/-- Settles O27: both bytes are there, and the loop of R292 ends. -/
theorem runRepeatsItsByte : Obligations.RunRepeatsItsByte := by
  intro n d s hr hm hl
  have hfault : s.env.ioFault = none := hr.2.2
  let s1 : State := { s with
    work.tokPos := s.work.inPos, work.inPos := s.work.inPos + 1, work.tokL := rleRunLen n }
  have h1 : rleFlag (rleRunLen n) s = .ok () s1 := rleFlag_readable (hr.mono (by omega))
  have h2 : consume 1 s1 = .ok () { s1 with work.inPos := s1.work.inPos + 1 } :=
    consume_readable (hr.later (n := 1) (t := s1) rfl rfl rfl rfl)
  obtain ⟨t, hrep, htf⟩ := repeatOut_ends (rleRunLen n) d
    { s1 with work.inPos := s1.work.inPos + 1 } hfault
  obtain ⟨hmoved, hpos, hwin, happ⟩ := repeatOut_ok
    (s := { s1 with work.inPos := s1.work.inPos + 1 }) hm hl hrep
  refine ⟨t, ?_, happ, ?_⟩
  · rw [exec, execRleRun, h1, Run.bind_ok, h2, Run.bind_ok, hrep, settle_ok]
  · have hframe := hmoved.eq_of_win (htf.trans hfault.symm) hwin
    rwa [hpos] at hframe

/-- One raw byte read and put out (R293). -/
theorem rawOut_succ_readable {l : Nat} {s : State} (hr : Readable 1 s)
    (hl : s.work.outLen < s.work.decSize) :
    ∃ u, rawOut (l + 1) s = rawOut l u ∧ Moved s u ∧ u.env.ioFault = none ∧
      u.work.inPos = s.work.inPos + 1 ∧ u.mem.win = s.mem.win ∧
      (MemInv s → Appended s u [Memory.read s.work.inPos s.mem.imem] ∧ MemInv u) := by
  have hfault := hr.2.2
  let s1 : State := { s with work.inPos := s.work.inPos + 1 }
  have hput := outByte_noFault (Memory.read s.work.inPos s.mem.imem) s1 hfault
  have hmoved := outByte_moved (Memory.read s.work.inPos s.mem.imem) s1
  rw [hput, Run.final_ok] at hmoved
  have hread : Moved s s1 := by
    have h := inByte_moved s
    rwa [inByte_readable hr] at h
  refine ⟨_, ?_, hread.trans _ _ _ hmoved, hfault, rfl, rfl, fun hm => ⟨outByte_appended (s := s1) hm hput, ?_⟩⟩
  · rw [rawOut, if_neg (by omega), inByte_readable hr, Run.bind_ok, hput, Run.bind_ok]
  · have hkeep := outByte_mem (Memory.read s.work.inPos s.mem.imem) s1
    rw [hput] at hkeep
    exact hkeep hm

theorem clamped_succ {l : Nat} {s u : State} (hl : s.work.outLen < s.work.decSize)
    (hlen : u.work.outLen = s.work.outLen + 1) (hsize : u.work.decSize = s.work.decSize) :
    clamped (l + 1) s = clamped l u + 1 := by
  rw [clamped, clamped, hlen, hsize]; omega

theorem Moved.decSize {s t : State} (h : Moved s t) : t.work.decSize = s.work.decSize := by
  rw [h.work]

theorem Moved.declLen {s t : State} (h : Moved s t) : t.work.declLen = s.work.declLen := by
  rw [h.work]

theorem Moved.srcLen {s t : State} (h : Moved s t) : t.env.srcLen = s.env.srcLen := by
  rw [h.env]

theorem Moved.imem {s t : State} (h : Moved s t) : t.mem.imem = s.mem.imem := by
  rw [h.mem]

/-- The raw bytes that are there go out; if the loop asks for one more, it raises what `InByte` raises
(R293, R472). -/
theorem rawOut_spec {l j : Nat} {s : State} (hm : MemInv s) (hr : Readable j s)
    (hl : s.work.outLen ≤ s.work.decSize) (hj : j ≤ clamped l s) :
    ∃ t, Moved s t ∧ t.env.ioFault = none ∧ t.work.inPos = s.work.inPos + j ∧
      t.mem.win = s.mem.win ∧ Appended s t (Memory.range s.mem.imem s.work.inPos j) ∧
      rawOut l s = if j = clamped l s then .ok () t else rawOut (l - j) t := by
  induction j generalizing l s with
  | zero =>
    refine ⟨s, Moved.refl s, hr.2.2, rfl, rfl, Appended.refl s, ?_⟩
    split
    · next h0 =>
      cases l with
      | zero => rfl
      | succ l =>
        rw [rawOut, if_pos]
        rw [clamped] at h0; omega
    · rfl
  | succ j ih =>
    obtain ⟨hdecl, hsrc, hfault⟩ := hr
    have hlt : s.work.outLen < s.work.decSize := by rw [clamped] at hj; omega
    obtain ⟨l, rfl⟩ : ∃ l', l = l' + 1 := ⟨l - 1, by rw [clamped] at hj; omega⟩
    obtain ⟨u, hstep, hmoved, huf, hupos, huwin, happ⟩ :=
      rawOut_succ_readable (l := l) ⟨by omega, by omega, hfault⟩ hlt
    obtain ⟨happ, hum⟩ := happ hm
    have hulen : u.work.outLen = s.work.outLen + 1 := happ.1
    have hclamp := clamped_succ (l := l) hlt hulen hmoved.decSize
    obtain ⟨t, htm, htf, htpos, htwin, htapp, hrun⟩ := ih (l := l) hum
      ⟨by rw [hupos, hmoved.declLen]; omega, by rw [hupos, hmoved.srcLen]; omega, huf⟩
      (by rw [hulen, hmoved.decSize]; omega) (by omega)
    refine ⟨t, hmoved.trans _ _ _ htm, htf, by rw [htpos, hupos]; omega, htwin.trans huwin, ?_, ?_⟩
    · rw [hmoved.imem, hupos] at htapp
      exact happ.trans (by rw [hmoved.seq]) htapp
    · rw [hstep, hrun, hclamp, Nat.add_sub_add_right]
      simp only [Nat.add_right_cancel_iff]

/-- Settles O28: every byte up to the clamp is there. -/
theorem rawGroupCopiesItsBytes : Obligations.RawGroupCopiesItsBytes := by
  intro n s l hm hl hlen hr
  have hfault : s.env.ioFault = none := hr.2.2
  let s1 : State := { s with
    work.tokPos := s.work.inPos, work.inPos := s.work.inPos + 1, work.tokL := rleRawLen n }
  have h1 : rleFlag (rleRawLen n) s = .ok () s1 := rleFlag_readable (hr.mono (by omega))
  have hclamp : l = clamped (rleRawLen n) s1 := hlen
  obtain ⟨t, hmoved, htf, hpos, hwin, happ, hrun⟩ := rawOut_spec (s := s1) (l := rleRawLen n)
    (j := l) hm (hr.later (t := s1) rfl rfl rfl rfl) hl hclamp.le
  rw [if_pos hclamp] at hrun
  refine ⟨t, by rw [exec, execRleRaw, h1, Run.bind_ok, hrun, settle_ok], happ, ?_⟩
  have hframe := hmoved.eq_of_win (htf.trans hfault.symm) hwin
  rwa [hpos, show t.work.outLen = s.work.outLen + l by rw [happ.1, Memory.range_length]] at hframe

/-- The byte the loop asks for next is missing (R63, R65). -/
theorem rawOut_cut {l : Nat} {s : State} (hl : s.work.outLen < s.work.decSize)
    (he : s.work.inPos = s.work.declLen ∨ s.work.inPos = s.env.srcLen)
    (hd : s.work.inPos ≤ s.work.declLen) :
    rawOut (l + 1) s = .raised (if s.work.inPos = s.work.declLen then
      .notEnoughData s.work.outLen s.work.decSize else .streamTooShort) s := by
  rw [rawOut, if_neg (by omega)]
  split
  · next h => rw [inByte_undeclared h.ge, Run.bind_raised]
  · next h =>
    rw [inByte_undelivered (by omega) (by omega), Run.bind_raised]

/-- Settles O29: the bytes there go out, and the next one raises. -/
theorem cutRawGroupKeepsItsBytes : Obligations.CutRawGroupKeepsItsBytes := by
  intro n s j hm ht hr hj hl he
  obtain ⟨hdecl, hsrc, hfault⟩ := id hr
  let s1 : State := { s with
    work.tokPos := s.work.inPos, work.inPos := s.work.inPos + 1, work.tokL := rleRawLen n }
  have h1 : rleFlag (rleRawLen n) s = .ok () s1 := rleFlag_readable (hr.mono (by omega))
  have hclamp : j < clamped (rleRawLen n) s1 := hj
  obtain ⟨t, hmoved, htf, hpos, hwin, happ, hrun⟩ := rawOut_spec (s := s1) (l := rleRawLen n)
    (j := j) hm (hr.later (t := s1) rfl rfl rfl rfl) hl hclamp.le
  have htpos : t.work.inPos = s.work.inPos + 1 + j := hpos
  have htlen : t.work.outLen = s.work.outLen + j := by rw [happ.1, Memory.range_length]
  have htsize : t.work.decSize = s.work.decSize := hmoved.decSize
  have htdecl : t.work.declLen = s.work.declLen := hmoved.declLen
  have htsrc : t.env.srcLen = s.env.srcLen := hmoved.srcLen
  have hthost : t.host = s.host := hmoved.host
  have httrial : t.seq.trial = none := by rw [hmoved.seq]; exact ht
  obtain ⟨m, hm'⟩ : ∃ m, rleRawLen n - j = m + 1 :=
    ⟨rleRawLen n - j - 1, by rw [rleRawLen]; omega⟩
  have hsink : Stored s.mem.omem t.mem.omem s.work.outLen
      (Memory.range s.mem.imem (s.work.inPos + 1) j) ∧ t.mem.cbuf = s.mem.cbuf := by
    have h := happ.2
    simp only [show s1.seq.trial = none from ht] at h
    exact h
  rw [exec, execRleRaw, h1, Run.bind_ok, hrun, if_neg hclamp.ne, hm', rawOut_cut (by omega)
    (by omega) (by omega), settle_raised, takeError_plain _ _ httrial, htpos, htdecl, htlen, htsize]
  refine ⟨_, rfl, rfl, hsink.1, ?_, ?_⟩
  · show t.mem = _
    rw [hmoved.mem, hwin, hsink.2]
    rfl
  · split
    · rw [failWith_notEnoughData_host, hthost]; rfl
    · rw [failWith_streamTooShort_host, hthost]; rfl

/-! ### The tree table (R312, R313) -/

/-- Settles O30: every byte of the size and of the table is there. -/
theorem treeTableIsStored : Obligations.TreeTableIsStored := by
  refine ⟨fun b k s hm hr hp => ?_, fun root k s hm hlen hr hp => ?_⟩
  · rw [exec, execHufTsize, consume_readable hr, Run.bind_ok, settle_ok, hp]
    exact ⟨_, rfl, Memory.stored_write 0 b hm.tree, rfl⟩
  · have hsplit : s.work.treeLen - 1 = 1 + (s.work.treeLen - 2) := by omega
    rw [hsplit] at hr
    let s1 : State := { s with
      work.inPos := s.work.inPos + 1, mem.tree := Memory.write 1 root s.mem.tree }
    have h1 : consume 1 s = .ok () { s with work.inPos := s.work.inPos + 1 } :=
      consume_readable (hr.mono (by omega))
    obtain ⟨m, hread, -, hstored⟩ := readTable_readable (n := s.work.treeLen - 2) (p := 2) (s := s1)
      (Memory.wf_write hm.tree) (hr.later (t := s1) rfl rfl rfl rfl)
    have hroot : Stored s.mem.tree s1.mem.tree 1 [root] := Memory.stored_write 1 root hm.tree
    rw [exec, execHufTable, h1, Run.bind_ok, hread, Run.bind_ok, settle_ok]
    refine ⟨_, rfl, hroot.append hstored, ?_⟩
    have hpos : s1.work.inPos + (s.work.treeLen - 2) = s.work.inPos + (s.work.treeLen - 1) := by
      show s.work.inPos + 1 + _ = _; omega
    simp only [hpos, s1, hp, afterTreeTable]

/-! ### The overlay's trailers (R251 to R257) -/

/-- The entry's tests in their order (R251, R471 (e)). -/
theorem ovlEntry_noFault {s : State} (h : s.env.ioFault = none) :
    ovlEntry s = if s.work.declLen < 4 then .raised (.notEnoughData 0 0) s
      else if s.env.srcLen < s.work.declLen then .raised .streamTooShort s else .ok () s := by
  rw [ovlEntry, portAccesses_noFault 4 s h]

theorem ovlEntry_there {s : State} (h : s.env.ioFault = none) (h4 : 4 ≤ s.work.declLen)
    (hsrc : s.work.declLen ≤ s.env.srcLen) : ovlEntry s = .ok () s := by
  rw [ovlEntry_noFault h, if_neg (by omega), if_neg (by omega)]

/-- Settles O23: everything but the last four bytes is copied, and the decode ends. -/
theorem overlayPassesThrough : Obligations.OverlayPassesThrough := by
  intro s hm hf ht hout h4 hsrc
  let s1 : State := { s with ovl.extra := 0 }
  obtain ⟨t, hcopy, htf⟩ := copyThrough_ends (s.work.declLen - 4) 0 s1 hf
  obtain ⟨hmoved, -, hwin, happ⟩ := copyThrough_ok (s := s1) hm hcopy
  have httrial : t.seq.trial = none := by rw [hmoved.seq]; exact ht
  have hlen : t.work.outLen = s.work.declLen - 4 := by
    rw [happ.1, Memory.range_length, show s1.work.outLen = 0 from hout, Nat.zero_add]
  have hsink : Stored s.mem.omem t.mem.omem 0
      (Memory.range s.mem.imem 0 (s.work.declLen - 4)) ∧ t.mem.cbuf = s.mem.cbuf := by
    have h := happ.2
    simp only [show s1.seq.trial = none from ht, show s1.work.outLen = 0 from hout] at h
    exact h
  rw [exec, execOvlTrailer0, ovlEntry_there hf h4 hsrc, Run.bind_ok, hcopy, Run.bind_ok, endDecode,
    httrial, settle_ok, hlen]
  refine ⟨_, rfl, rfl, hsink.1, ?_, ?_⟩
  · show t.mem = _
    rw [hmoved.mem, hwin, hsink.2]
    rfl
  · have hthost : t.host = s.host := hmoved.host
    rw [endOk_host, hthost]
    rfl

/-- Settles O24: the tests in the order of R471 (e), then `ovlStart`. -/
theorem overlayTrailerSetsUpTheRegion : Obligations.OverlayTrailerSetsUpTheRegion := by
  intro cl hs extra s hf
  have hbad : ∀ n, trailerBad n hs.toNat cl.toNat = true ↔
      hs.toNat < 8 ∨ n < hs.toNat ∨ n < hs.toNat + cl.toNat := by
    intro n
    simp [trailerBad, or_assoc]
  rw [exec_eq_settle, meaning]
  refine ⟨fun h => ?short, fun h4 hsrc => ?cut, fun h4 hsrc h8 => ?noTrailer,
    fun h8 hsrc hsizes => ?contradict, fun h8 hsrc hhs hsum => ?region⟩
  case short => rw [ovlEntry_noFault hf, if_pos h, Run.bind_raised, settle_raised]
  case cut =>
    rw [ovlEntry_noFault hf, if_neg (by omega), if_pos hsrc, Run.bind_raised, settle_raised]
  case noTrailer =>
    rw [ovlEntry_there hf h4 hsrc, Run.bind_ok]
    simp only [if_pos h8, settle_raised]
  case contradict =>
    rw [ovlEntry_there hf (by omega) hsrc, Run.bind_ok]
    simp only [if_neg (show ¬ s.work.declLen < 8 by omega), hf, portAccesses_noFault, Run.bind_ok,
      if_pos ((hbad _).mpr hsizes), settle_raised]
  case region =>
    rw [ovlEntry_there hf (by omega) hsrc, Run.bind_ok]
    have hgood : ¬ trailerBad s.work.declLen hs.toNat cl.toNat = true := by
      rw [hbad]; omega
    simp only [if_neg (show ¬ s.work.declLen < 8 by omega), hf, portAccesses_noFault, Run.bind_ok,
      if_neg hgood, settle_ok]
    exact ⟨_, _, rfl, rfl, Memory.stored_store _ 0 Memory.wf_nil, rfl⟩

end Sys2Proof.Machine

/-!
The composites and byte 0 of the stream (spec/49_composite_null.md R426, R427, R436): which member
supports it, which gets the trial run, and the statements about it (O3, O8, O10).
-/
namespace Sys2Proof.Machine

/-- The members of the built-in composites, each with the forward codec whose magic it tests (R424). -/
def memberFwds : List (Codec × Fwd) :=
  [(.huf4, .huf4), (.huf8, .huf8), (.lz10, .lz10), (.lz11, .lz11)]

/-- The stream a run from a fresh start would read has this magic at byte 0, and four bytes (R426). -/
def MagicThere (f : Fwd) (s : State) : Prop :=
  4 ≤ s.host.argLen.toNat ∧ 0 < s.env.srcLen ∧ Memory.read 0 s.mem.imem = f.magic

theorem mem_memberFwds {k : Codec} {f : Fwd} (h : (k, f) ∈ memberFwds) :
    (k = .huf4 ∧ f = .huf4) ∨ (k = .huf8 ∧ f = .huf8) ∨ (k = .lz10 ∧ f = .lz10) ∨
      (k = .lz11 ∧ f = .lz11) := by
  simpa [memberFwds] using h

/-- A member asked from a fresh start, no fault due: it looks at byte 0 alone. -/
theorem supportsSimple_member {k : Codec} {f : Fwd} (h : (k, f) ∈ memberFwds) {s : State}
    (hf : s.env.ioFault = none) [Decidable (MagicThere f s)] :
    supportsSimple k (startRun s) = .ok (decide (MagicThere f s)) (startRun s) := by
  have hask : supportsSimple k (startRun s) = supportsMagic f (startRun s) := by
    obtain ⟨rfl, rfl⟩ | ⟨rfl, rfl⟩ | ⟨rfl, rfl⟩ | ⟨rfl, rfl⟩ := mem_memberFwds h <;> rfl
  rw [hask, supportsMagic_noFault f (startRun s) hf]
  exact congrArg (Run.ok · (startRun s)) (decide_eq_decide.mpr Iff.rfl)

theorem codecEntry_member {k : Codec} {f : Fwd} (h : (k, f) ∈ memberFwds) :
    codecEntry k = .header f := by
  obtain ⟨rfl, rfl⟩ | ⟨rfl, rfl⟩ | ⟨rfl, rfl⟩ | ⟨rfl, rfl⟩ := mem_memberFwds h <;> rfl

/-- A member whose magic the stream has gets the trial run (R427). -/
theorem tryMembers_taken {k : Codec} {f : Fwd} (h : (k, f) ∈ memberFwds) (ks : List Codec)
    {s : State} (hf : s.env.ioFault = none) (hm : MagicThere f s) :
    tryMembers (k :: ks) s = { beginTrial k ks s with seq.phase := .header f } := by
  have := Classical.dec (MagicThere f s)
  rw [tryMembers, supportsSimple_member h hf, decide_eq_true hm, codecEntry_member h]
  rfl

/-- A member whose magic the stream has not is passed over. -/
theorem tryMembers_passed {k : Codec} {f : Fwd} (h : (k, f) ∈ memberFwds) (ks : List Codec)
    {s : State} (hf : s.env.ioFault = none) (hm : ¬ MagicThere f s) :
    tryMembers (k :: ks) s = tryMembers ks (startRun s) := by
  have := Classical.dec (MagicThere f s)
  rw [tryMembers, supportsSimple_member h hf, decide_eq_false hm]

/-- Where no member has the stream's magic the command fails, from the state the loop began in or a
fresh start of it. -/
theorem tryMembers_none {members : List (Codec × Fwd)} (hk : ∀ kf ∈ members, kf ∈ memberFwds)
    {s : State} (hf : s.env.ioFault = none) (hm : ∀ kf ∈ members, ¬ MagicThere kf.2 s) :
    ∃ u, tryMembers (members.map (·.1)) s = failWith (.invalidData 0) u ∧
      (u = s ∨ u = startRun s) := by
  induction members generalizing s with
  | nil => exact ⟨s, rfl, .inl rfl⟩
  | cons kf members ih =>
    rw [List.map_cons, tryMembers_passed (hk kf (by simp)) _ hf (hm kf (by simp))]
    obtain ⟨u, hu, hs⟩ := ih (s := startRun s) (fun x hx => hk x (by simp [hx])) hf
      (fun x hx => hm x (by simp [hx]))
    exact ⟨u, hu, .inr (hs.elim id id)⟩

/-- Members before the one that has the magic are passed over. -/
theorem tryMembers_first {before : List (Codec × Fwd)} {k : Codec} {f : Fwd}
    {after : List (Codec × Fwd)} (hk : ∀ kf ∈ before ++ (k, f) :: after, kf ∈ memberFwds)
    {s : State} (hf : s.env.ioFault = none) (hb : ∀ kf ∈ before, ¬ MagicThere kf.2 s)
    (hm : MagicThere f s) :
    ∃ u, (u = s ∨ u = startRun s) ∧ tryMembers ((before ++ (k, f) :: after).map (·.1)) s =
      { beginTrial k (after.map (·.1)) u with seq.phase := .header f } := by
  induction before generalizing s with
  | nil => exact ⟨s, .inl rfl, tryMembers_taken (hk (k, f) (by simp)) _ hf hm⟩
  | cons kf before ih =>
    rw [List.cons_append, List.map_cons,
      tryMembers_passed (hk kf (by simp)) _ hf (hb kf (by simp))]
    obtain ⟨u, hs, hu⟩ := ih (s := startRun s) (fun x hx => hk x (by simp_all)) hf
      (fun x hx => hb x (by simp [hx])) hm
    exact ⟨u, .inr (hs.elim id id), hu⟩

/-- Two members have two magics. -/
theorem memberFwds_magic_inj {a b : Codec × Fwd} (ha : a ∈ memberFwds) (hb : b ∈ memberFwds)
    (h : a.2.magic = b.2.magic) : a = b := by
  have hall : ∀ a ∈ memberFwds, ∀ b ∈ memberFwds, a.2.magic = b.2.magic → a = b := by decide
  exact hall a ha b hb h

theorem exists_memberFwd {x : Codec} (h : x ∈ trialMembers) : ∃ g, (x, g) ∈ memberFwds := by
  have hall : ∀ x ∈ trialMembers, x ∈ memberFwds.map (·.1) := by decide
  obtain ⟨⟨_, g⟩, hg, rfl⟩ := List.mem_map.mp (hall x h)
  exact ⟨g, hg⟩

/-- Settles O3: the members left are others, whose magics the stream has not. -/
theorem trialErrorFailsTheComposite : Obligations.TrialErrorFailsTheComposite := by
  intro s tr e k f ht hk hrest hkf hmagic hf
  by_cases he : e = .ioError
  · exact ⟨s, rfl, rfl, by rw [he, takeError_io, if_pos rfl]⟩
  · obtain ⟨members, hmap, hmembers⟩ : ∃ members : List (Codec × Fwd),
        members.map (·.1) = tr.rest ∧ ∀ kf ∈ members, kf ∈ memberFwds := by
      refine ⟨tr.rest.pmap (fun x h => (x, (exists_memberFwd h).choose)) fun x hx => (hrest x hx).1, ?_, ?_⟩
      · simp [List.map_pmap]
      · intro kf hkf
        obtain ⟨x, hx, rfl⟩ := List.mem_pmap.mp hkf
        exact (exists_memberFwd (hrest x hx).1).choose_spec
    obtain ⟨u, hu, hs⟩ := tryMembers_none hmembers hf (fun kf hin hthere => by
      obtain ⟨-, -, hread⟩ := hthere
      have heq := memberFwds_magic_inj (hmembers kf hin) hkf (hread.symm.trans hmagic)
      exact (hrest k (hmap ▸ List.mem_map.mpr ⟨kf, hin, by rw [heq]⟩)).2 rfl)
    refine ⟨u, ?_, ?_, ?_⟩
    · obtain rfl | rfl := hs <;> rfl
    · obtain rfl | rfl := hs <;> rfl
    · rw [if_neg he, ← hu, hmap]
      simp only [takeError, ht, if_neg he]

/-! ### The composite commands -/

/-- The three composites with the forward codecs of their members (R424). -/
def compositeFwds : List (BitVec 4 × List (Codec × Fwd)) :=
  [(8, [(.huf4, .huf4), (.huf8, .huf8)]),
    (9, [(.huf4, .huf4), (.huf8, .huf8), (.lz10, .lz10)]),
    (10, [(.huf4, .huf4), (.huf8, .huf8), (.lz10, .lz10), (.lz11, .lz11)])]

theorem compositeFwds_spec {id : BitVec 4} {members : List (Codec × Fwd)}
    (h : (id, members) ∈ compositeFwds) :
    ∃ c, codecOfId id = some c ∧ codecMembers c = members.map (·.1) ∧ members ≠ [] ∧
      (∀ kf ∈ members, kf ∈ memberFwds) ∧ members.Nodup := by
  simp only [compositeFwds, List.mem_cons, Prod.mk.injEq, List.not_mem_nil, or_false] at h
  obtain ⟨rfl, rfl⟩ | ⟨rfl, rfl⟩ | ⟨rfl, rfl⟩ := h
  · exact ⟨.hufany, rfl, rfl, by decide, by decide, by decide⟩
  · exact ⟨.gba, rfl, rfl, by decide, by decide, by decide⟩
  · exact ⟨.nds, rfl, rfl, by decide, by decide, by decide⟩

theorem decompressCommand_composite {c : Codec} (h : codecMembers c ≠ []) (s : State) :
    decompressCommand c s = tryMembers (codecMembers c) s := by
  unfold decompressCommand
  split
  · exact absurd ‹_› h
  · rfl

theorem supports_composite {c : Codec} (h : codecMembers c ≠ []) (s : State) :
    supports c s = supportsAny (codecMembers c) s := by
  unfold supports
  split
  · exact absurd ‹_› h
  · rfl

/-- Settles O10: the members before the one with the magic have others. -/
theorem compositeDispatchesOnByteZero : Obligations.CompositeDispatchesOnByteZero := by
  intro id members s h hf
  obtain ⟨c, hc, hmap, hne, hmem, hnodup⟩ := compositeFwds_spec h
  have hexec : exec (.cmdDecompress id) s =
      .next (tryMembers (members.map (·.1)) (commandStart s)) := by
    rw [exec_cmdDecompress hc, decompressCommand_composite (by simp [hmap, hne]), hmap]
  have hfresh : startRun (commandStart s) = commandStart s := rfl
  refine ⟨fun before k f after hsplit h4 hsrc hread => ?_, fun hno => ?_⟩
  · subst hsplit
    obtain ⟨u, hs, hu⟩ := tryMembers_first (s := commandStart s) hmem hf (fun kf hin hthere => by
      have heq := memberFwds_magic_inj (hmem kf (by simp [hin])) (hmem (k, f) (by simp))
        (hthere.2.2.symm.trans hread)
      rw [List.nodup_append] at hnodup
      exact hnodup.2.2 kf hin (k, f) (by simp) heq) ⟨h4, hsrc, hread⟩
    rw [hexec, hu, show u = commandStart s from hs.elim (fun e => e) fun e => e.trans hfresh]
    rfl
  · obtain ⟨u, hu, hs⟩ := tryMembers_none (s := commandStart s) hmem hf (fun kf hin hthere => by
      obtain ⟨h4, hsrc, hread⟩ := hthere
      obtain hlt | hzero | hother := hno
      · exact absurd h4 (Nat.not_le.mpr hlt)
      · exact absurd hsrc (by rw [show (commandStart s).env.srcLen = 0 from hzero]; simp)
      · exact hother kf hin hread)
    rw [hexec, hu, show u = commandStart s from hs.elim (fun e => e) fun e => e.trans hfresh]

/-- The members' answers together (R426), no fault due. -/
theorem supportsAny_noFault {members : List (Codec × Fwd)} (hk : ∀ kf ∈ members, kf ∈ memberFwds)
    {s : State} (hf : s.env.ioFault = none) :
    supportsAny (members.map (·.1)) s = .ok (decide (4 ≤ s.work.declLen ∧ 0 < s.env.srcLen ∧
      Memory.read 0 s.mem.imem ∈ members.map (·.2.magic))) s := by
  induction members with
  | nil => simp [supportsAny]
  | cons kf members ih =>
    have hask : supportsSimple kf.1 s = supportsMagic kf.2 s := by
      obtain ⟨h1, h2⟩ | ⟨h1, h2⟩ | ⟨h1, h2⟩ | ⟨h1, h2⟩ := mem_memberFwds (hk kf (by simp)) <;>
        rw [h1, h2] <;> rfl
    rw [List.map_cons, supportsAny, hask, supportsMagic_noFault _ _ hf, Run.bind_ok,
      ih fun x hx => hk x (by simp [hx])]
    by_cases hthere : 4 ≤ s.work.declLen ∧ 0 < s.env.srcLen ∧
      Memory.read 0 s.mem.imem = kf.2.magic
    · simp [hthere]
    · simp only [hthere, decide_false, Bool.false_eq_true, if_false, List.map_cons, List.mem_cons]
      congr 2
      exact propext ⟨fun ⟨a, b, c⟩ => ⟨a, b, .inr c⟩,
        fun ⟨a, b, c⟩ => ⟨a, b, c.resolve_left fun e => hthere ⟨a, b, e⟩⟩⟩

/-- Settles O8: the magics listed are those of the members. -/
theorem supportsComposite : Obligations.SupportsComposite := by
  intro id magics s h hf
  obtain ⟨members, hin, rfl⟩ : ∃ members, (id, members) ∈ compositeFwds ∧
      magics = members.map (·.2.magic) := by
    simp only [List.mem_cons, Prod.mk.injEq, List.not_mem_nil, or_false] at h
    obtain ⟨rfl, rfl⟩ | ⟨rfl, rfl⟩ | ⟨rfl, rfl⟩ := h
    · exact ⟨[(.huf4, .huf4), (.huf8, .huf8)], by decide, rfl⟩
    · exact ⟨[(.huf4, .huf4), (.huf8, .huf8), (.lz10, .lz10)], by decide, rfl⟩
    · exact ⟨[(.huf4, .huf4), (.huf8, .huf8), (.lz10, .lz10), (.lz11, .lz11)], by decide, rfl⟩
  obtain ⟨c, hc, hmap, hne, hmem, -⟩ := compositeFwds_spec hin
  have hask : supports c (commandStart s) = _ :=
    (supports_composite (by simp [hmap, hne]) _).trans
      (hmap ▸ supportsAny_noFault (s := commandStart s) hmem hf)
  rw [exec_cmdSupports hc, supportsCommand_of_supports hask, settle_ok, Bool.toNat,
    Bool.cond_decide]
  rfl

end Sys2Proof.Machine

/-!
What a running decoder's piece can do, said once: every token moves the cursors, the output and the
scratch and leaves the rest (`TokenMoves`), or the decode ends; then what taking an error or the end of
the decode makes of it. The statements about every step rest on this.
-/
namespace Sys2Proof.Machine

/-- The registers whose widths R21 and R29 give are inside them, whatever the decoder's place. -/
def WidthInv (s : State) : Prop :=
  s.work.declLen < 2 ^ 32 ∧ s.work.decSize < 2 ^ 32 ∧ s.work.flagCnt ≤ 8 ∧ s.work.bitCnt ≤ 32 ∧
  s.work.treeLen ≤ 512 ∧ s.work.tokL ≤ Config.lz11MaxLen ∧ s.work.tokD ≤ 4098 ∧
  s.ovl.hs < 2 ^ 8 ∧ s.ovl.cl < 2 ^ 24 ∧ s.ovl.extra < 2 ^ 32

/-- Registers inside their widths stay so. -/
def KeepsWidths (s t : State) : Prop := WidthInv s → WidthInv t

theorem Moved.widths {s t : State} (h : Moved s t) : KeepsWidths s t := by
  unfold KeepsWidths WidthInv
  rw [h.work, h.ovl]
  exact id

/-- The input cursor has not gone back, nor beyond `DECL_LEN`. -/
def CursorUp (s t : State) : Prop :=
  s.work.inPos ≤ t.work.inPos ∧ (s.work.inPos ≤ s.work.declLen → t.work.inPos ≤ t.work.declLen)

theorem CursorUp.refl (s : State) : CursorUp s s := ⟨le_rfl, id⟩

theorem CursorUp.trans {a b c : State} (h1 : CursorUp a b) (h2 : CursorUp b c) : CursorUp a c :=
  ⟨h1.1.trans h2.1, fun h => h2.2 (h1.2 h)⟩

theorem CursorUp.ofEq {s t : State} (hdecl : t.work.declLen = s.work.declLen)
    (hpos : t.work.inPos = s.work.inPos) : CursorUp s t :=
  ⟨hpos.ge, fun h => by rwa [hpos, hdecl]⟩

/-- From `s` to `t` a token has moved: the host registers, the inputs, the encoder's part and the trial
run are as before, the input cursor has not gone back, the output has grown at its end only, in OMEM only
outside a trial run, the memories are still canonical, the registers inside their widths, and a running
decoder still runs. -/
structure TokenMoves (s t : State) : Prop where
  host : t.host = s.host
  env : t.env = { s.env with ioFault := t.env.ioFault }
  enc : t.enc = s.enc
  imem : t.mem.imem = s.mem.imem
  trial : t.seq.trial = s.seq.trial
  declLen : t.work.declLen = s.work.declLen
  grows : s.work.outLen ≤ t.work.outLen
  inTrial : s.seq.trial ≠ none → t.mem.omem = s.mem.omem
  below : MemInv s → s.seq.trial = none →
    ∀ a < s.work.outLen, Memory.read a t.mem.omem = Memory.read a s.mem.omem
  mem : KeepsMem s t
  running : s.seq.phase ≠ .idle → t.seq.phase ≠ .idle
  widths : KeepsWidths s t
  cursor : CursorUp s t

theorem TokenMoves.refl (s : State) : TokenMoves s s :=
  ⟨rfl, rfl, rfl, rfl, rfl, rfl, le_rfl, fun _ => rfl, fun _ _ _ _ => rfl, id, id, id,
    .refl s⟩

theorem TokenMoves.trans (a b c : State) (h1 : TokenMoves a b) (h2 : TokenMoves b c) :
    TokenMoves a c where
  host := h2.host.trans h1.host
  env := by rw [h2.env, h1.env]
  enc := h2.enc.trans h1.enc
  imem := h2.imem.trans h1.imem
  trial := h2.trial.trans h1.trial
  declLen := h2.declLen.trans h1.declLen
  grows := h1.grows.trans h2.grows
  inTrial := fun h => (h2.inTrial (h1.trial ▸ h)).trans (h1.inTrial h)
  below := fun hm ht a ha => (h2.below (h1.mem hm) (h1.trial.trans ht) a
    (ha.trans_le h1.grows)).trans (h1.below hm ht a ha)
  mem := KeepsMem.trans a b c h1.mem h2.mem
  running := fun h => h2.running (h1.running h)
  widths := fun h => h2.widths (h1.widths h)
  cursor := h1.cursor.trans h2.cursor

/-- Two moves in a row, the second given first. -/
theorem TokenMoves.before {s u t : State} (h : TokenMoves u t) (h1 : TokenMoves s u) :
    TokenMoves s t := h1.trans _ _ _ h

theorem TokenMoves.bind {α β : Type} {s : State} {r : Run α} {f : α → State → Run β}
    (h1 : TokenMoves s r.final) (h2 : ∀ a u, TokenMoves u (f a u).final) :
    TokenMoves s (r.bind f).final :=
  Run.final_bind (P := TokenMoves) TokenMoves.trans h1 h2

/-- A token that only moves registers it may move. -/
theorem TokenMoves.ofRegs {s t : State} (host : t.host = s.host)
    (env : t.env = { s.env with ioFault := t.env.ioFault }) (enc : t.enc = s.enc)
    (mem : t.mem = s.mem) (trial : t.seq.trial = s.seq.trial)
    (declLen : t.work.declLen = s.work.declLen) (outLen : t.work.outLen = s.work.outLen)
    (inPos : t.work.inPos = s.work.inPos)
    (running : s.seq.phase ≠ .idle → t.seq.phase ≠ .idle) (widths : KeepsWidths s t) :
    TokenMoves s t :=
  ⟨host, env, enc, by rw [mem], trial, declLen, outLen.ge, fun _ => by rw [mem],
    fun _ _ a _ => by rw [mem], KeepsMem.ofEq mem, running, widths, .ofEq declLen inPos⟩

/-! ### The operations -/

theorem Peeked.tokenMoves {s t : State} (h : Peeked s t) : TokenMoves s t := by
  obtain ⟨k, rfl⟩ := h
  exact .ofRegs rfl rfl rfl rfl rfl rfl rfl rfl id id

theorem portAccesses_moves (n : Nat) (s : State) : TokenMoves s (portAccesses n s).final :=
  (portAccesses_peeked n s).tokenMoves

theorem inByte_moves (s : State) : TokenMoves s (inByte s).final := by
  rcases inByte_cases s with ⟨k, hd, -, h⟩ | ⟨-, h⟩ | ⟨-, -, h⟩ | ⟨-, -, h⟩ <;> rw [h]
  · exact ⟨rfl, rfl, rfl, rfl, rfl, rfl, le_rfl, fun _ => rfl, fun _ _ _ _ => rfl, id, id, id,
      Nat.le_succ _, fun _ => hd⟩
  all_goals exact .ofRegs rfl rfl rfl rfl rfl rfl rfl rfl id id

theorem consume_moves (n : Nat) (s : State) : TokenMoves s (consume n s).final := by
  induction n generalizing s with
  | zero => exact TokenMoves.refl s
  | succ n ih => exact (inByte_moves s).bind fun _ u => ih u

theorem beginToken_moves (s : State) : TokenMoves s (beginToken s) :=
  .ofRegs rfl rfl rfl rfl rfl rfl rfl rfl id id

theorem rleFlag_moves {l : Nat} (hl : l ≤ Config.lz11MaxLen) (s : State) :
    TokenMoves s (rleFlag l s).final :=
  ((beginToken_moves s).trans _ _ _ (consume_moves 1 _)).bind fun _ _ =>
    .ofRegs rfl rfl rfl rfl rfl rfl rfl rfl id
      fun ⟨h1, h2, h3, h4, h5, _, h7⟩ => ⟨h1, h2, h3, h4, h5, hl, h7⟩

theorem outByte_moves (b : Byte) (s : State) : TokenMoves s (outByte b s).final := by
  have hmoved := outByte_moved b s
  have hmem := outByte_mem b s
  rcases outByte_cases b s with ⟨t, e, hlen, hpos, -, hsink⟩ | ⟨-, e⟩ <;> rw [e] at hmoved hmem ⊢
  · simp only [Run.final_ok] at hmoved hmem ⊢
    refine ⟨hmoved.host, hmoved.env, hmoved.enc, hmoved.imem, by rw [hmoved.seq], hmoved.declLen,
      by omega, fun ht => ?_, fun hm ht a ha => ?_, hmem, fun h => by rwa [hmoved.seq],
      hmoved.widths, .ofEq hmoved.declLen hpos⟩
    · obtain ⟨hn, -, -⟩ | ⟨-, -, ho⟩ := hsink
      · exact absurd hn ht
      · exact ho
    · obtain ⟨-, ho, -⟩ | ⟨hn, -, -⟩ := hsink
      · rw [ho, Memory.read_write _ _ _ _ hm.omem, if_neg (by omega)]
      · exact absurd ht hn
  · exact .ofRegs rfl rfl rfl rfl rfl rfl rfl rfl id id

theorem outByteWin_moves (b : Byte) (s : State) : TokenMoves s (outByteWin b s).final :=
  (outByte_moves b s).bind fun _ _ =>
    ⟨rfl, rfl, rfl, rfl, rfl, rfl, le_rfl, fun _ => rfl, fun _ _ _ _ => rfl,
      fun ⟨h1, h2, h3, h4, h5, h6⟩ => ⟨h1, h2, Memory.wf_write h3, h4, h5, h6⟩, id, id,
      .refl _⟩

theorem outBytes_moves (bs : List Byte) (s : State) : TokenMoves s (outBytes bs s).final := by
  induction bs generalizing s with
  | nil => exact TokenMoves.refl s
  | cons b bs ih => exact (outByte_moves b s).bind fun _ u => ih u

theorem copyBack_moves (l d : Nat) (s : State) : TokenMoves s (copyBack l d s).final := by
  induction l generalizing s with
  | zero => exact TokenMoves.refl s
  | succ l ih =>
    rw [copyBack]
    split
    · exact TokenMoves.refl s
    · exact (outByteWin_moves _ s).bind fun _ u => ih u

theorem repeatOut_moves (l : Nat) (d : Byte) (s : State) :
    TokenMoves s (repeatOut l d s).final := by
  induction l generalizing s with
  | zero => exact TokenMoves.refl s
  | succ l ih =>
    rw [repeatOut]
    split
    · exact TokenMoves.refl s
    · exact (outByte_moves _ s).bind fun _ u => ih u

theorem rawOut_moves (l : Nat) (s : State) : TokenMoves s (rawOut l s).final := by
  induction l generalizing s with
  | zero => exact TokenMoves.refl s
  | succ l ih =>
    rw [rawOut]
    split
    · exact TokenMoves.refl s
    · exact (inByte_moves s).bind fun b u => (outByte_moves b u).bind fun _ v => ih v

theorem copyThrough_moves (l a : Nat) (s : State) : TokenMoves s (copyThrough l a s).final := by
  induction l generalizing a s with
  | zero => exact TokenMoves.refl s
  | succ l ih =>
    exact (portAccesses_moves 1 s).bind fun _ u => (outByte_moves _ u).bind fun _ v => ih (a + 1) v

/-- A byte stored in TREE. -/
theorem treeWrite_moves (a : Nat) (b : Byte) (s : State) :
    TokenMoves s { s with mem.tree := Memory.write a b s.mem.tree } :=
  ⟨rfl, rfl, rfl, rfl, rfl, rfl, le_rfl, fun _ => rfl, fun _ _ _ _ => rfl,
    fun ⟨h1, h2, h3, h4, h5, h6⟩ => ⟨h1, h2, h3, Memory.wf_write h4, h5, h6⟩, id, id, .refl _⟩

theorem readTable_moves (n p : Nat) (s : State) : TokenMoves s (readTable n p s).final := by
  induction n generalizing p s with
  | zero => exact TokenMoves.refl s
  | succ n ih =>
    exact (inByte_moves s).bind fun b u =>
      (treeWrite_moves p b u).trans _ _ _ (ih (p + 1) _)

theorem rdBack_moves (s : State) : TokenMoves s (rdBack s).final := by
  rcases rdBack_cases s with ⟨k, -, h⟩ | ⟨-, h⟩ | ⟨-, h⟩ <;> rw [h] <;>
    exact .ofRegs rfl rfl rfl rfl rfl rfl rfl rfl id id

theorem rdBackRef_moves (s : State) : TokenMoves s (rdBackRef s).final := by
  rcases rdBackRef_cases s with ⟨k, -, h⟩ | ⟨-, h⟩ | ⟨k, -, h⟩ | ⟨ip, pos, h⟩ <;> rw [h] <;>
    exact .ofRegs rfl rfl rfl rfl rfl rfl rfl rfl id id

theorem ovlPut_moves (b : Byte) (s : State) : TokenMoves s (ovlPut b s) :=
  ⟨rfl, rfl, rfl, rfl, rfl, rfl, le_rfl, fun _ => rfl, fun _ _ _ _ => rfl,
    fun ⟨h1, h2, h3, h4, h5, h6⟩ => ⟨h1, h2, h3, h4, Memory.wf_write h5, h6⟩, id, id, .refl _⟩

theorem ovlCopy_moves (l d : Nat) (s : State) : TokenMoves s (ovlCopy l d s) := by
  induction l generalizing s with
  | zero => exact TokenMoves.refl s
  | succ l ih =>
    rw [ovlCopy]
    split
    · exact TokenMoves.refl s
    · exact (ovlPut_moves _ s).trans _ _ _ (ih _)

/-! ### The tokens -/

theorem fwdBody_ne_idle (c : Fwd) : fwdBody c ≠ .idle := by cases c <;> simp [fwdBody]

theorem noteTreeBase_moves (c : Fwd) (s : State) : TokenMoves s (noteTreeBase c s) := by
  unfold noteTreeBase
  split
  · exact .ofRegs rfl rfl rfl rfl rfl rfl rfl rfl id id
  · exact TokenMoves.refl s

theorem parseHeader_moves (c : Fwd) (n : BitVec 24) (s : State) :
    TokenMoves s (parseHeader c n s).final := by
  refine ((beginToken_moves s).trans _ _ _ (consume_moves 4 _)).bind fun _ u => ?_
  have hn : n.toNat < 2 ^ 32 := n.isLt.trans (by decide)
  refine (noteTreeBase_moves c _).before (.ofRegs rfl rfl rfl rfl rfl rfl rfl rfl (fun _ => ?_)
    fun ⟨h1, _, h3⟩ => ⟨h1, hn, h3⟩)
  show (if n = 0 then Phase.ext c else fwdBody c) ≠ .idle
  split
  · simp
  · exact fwdBody_ne_idle c

theorem extDone_moves (s : State) : TokenMoves s (extDone s) := by
  unfold extDone
  split
  · next c h =>
    refine (noteTreeBase_moves c _).before ?_
    exact .ofRegs rfl rfl rfl rfl rfl rfl rfl rfl (fun _ => fwdBody_ne_idle c) id
  · exact TokenMoves.refl s

theorem checkDisp_moves (s : State) : TokenMoves s (checkDisp s).final := by
  unfold checkDisp
  split <;> exact TokenMoves.refl s

theorem refToken_moves (n : Nat) {l d : Nat} (hl : l ≤ Config.lz11MaxLen) (hd : d ≤ 4098)
    (s : State) : TokenMoves s (refToken n l d s).final := by
  refine ((consume_moves n _).before (beginToken_moves s)).bind fun _ u => ?_
  refine ((checkDisp_moves _).bind fun _ v => copyBack_moves l d v).before ?_
  exact .ofRegs rfl rfl rfl rfl rfl rfl rfl rfl id
    fun ⟨h1, h2, h3, h4, h5, _, _, h8⟩ => ⟨h1, h2, h3, h4, h5, hl, hd, h8⟩

/-- A length or a displacement of a token's fields is inside its register (R101). -/
theorem operand_widths :
    (∀ len : BitVec 4, lzLen len ≤ Config.lz11MaxLen) ∧
    (∀ ind : BitVec 4, lz11Len2 ind ≤ Config.lz11MaxLen) ∧
    (∀ len : BitVec 8, lz11Len3 len ≤ Config.lz11MaxLen) ∧
    (∀ len : BitVec 16, lz11Len4 len ≤ Config.lz11MaxLen) ∧
    (∀ n : BitVec 7, rleRunLen n ≤ Config.lz11MaxLen) ∧
    (∀ n : BitVec 7, rleRawLen n ≤ Config.lz11MaxLen) ∧
    (∀ disp : BitVec 12, lzDisp disp ≤ 4098) ∧ (∀ disp : BitVec 12, ovlDisp disp ≤ 4098) := by
  have hmax : Config.lz11MaxLen = 65808 := rfl
  refine ⟨fun x => ?_, fun x => ?_, fun x => ?_, fun x => ?_, fun x => ?_, fun x => ?_, fun x => ?_,
    fun x => ?_⟩ <;> have := x.isLt <;>
    simp only [lzLen, lz11Len2, lz11Len3, lz11Len4, rleRunLen, rleRawLen, lzDisp, ovlDisp] <;> omega

theorem ovlEntry_moves (s : State) : TokenMoves s (ovlEntry s).final := by
  unfold ovlEntry
  split
  · exact TokenMoves.refl s
  · split
    · exact TokenMoves.refl s
    · exact portAccesses_moves 4 s

theorem ovlStart_moves (s : State) : TokenMoves s (ovlStart s) :=
  ⟨rfl, rfl, rfl, rfl, rfl, rfl, le_rfl, fun _ => rfl, fun _ _ _ _ => rfl,
    fun ⟨h1, h2, h3, h4, _, h6⟩ => ⟨h1, h2, h3, h4, Memory.wf_store _ _ Memory.wf_nil, h6⟩,
    fun _ => by simp, fun ⟨h1, h2, _, h4⟩ => ⟨h1, h2, Nat.zero_le 8, h4⟩, .refl _⟩

theorem walkBit_moves (b : Bool) (s : State) : TokenMoves s (walkBit b s).final := by
  have hphase : ∀ leaf, s.seq.phase ≠ .idle → afterBit leaf s.seq.phase ≠ .idle := by
    intro leaf h
    unfold afterBit
    split
    · split <;> simp
    · exact h
  unfold walkBit
  simp only []
  split
  · exact TokenMoves.refl s
  · split
    · exact .ofRegs rfl rfl rfl rfl rfl rfl rfl rfl (hphase true) id
    · exact .ofRegs rfl rfl rfl rfl rfl rfl rfl rfl (hphase false) id

theorem toRoot_moves (s : State) : TokenMoves s (toRoot s) := by
  refine .ofRegs rfl rfl rfl rfl rfl rfl rfl rfl (fun h => ?_) id
  show afterLeaf s.seq.phase ≠ .idle
  unfold afterLeaf
  split
  · simp
  · exact h

theorem leafNibble_moves (b : Byte) (s : State) : TokenMoves s (leafNibble b s).final := by
  unfold leafNibble
  split
  · exact TokenMoves.refl s
  · split
    · exact (outByte_moves _ s).bind fun _ _ => .ofRegs rfl rfl rfl rfl rfl rfl rfl rfl id id
    · exact .ofRegs rfl rfl rfl rfl rfl rfl rfl rfl id id

theorem hufTsize_moves (b : Byte) (s : State) :
    TokenMoves s (meaning (.hufTsize b) s).final := by
  have hlen : treeLenOf b ≤ 512 := by have := b.isLt; unfold treeLenOf; omega
  refine (consume_moves 1 s).bind fun _ u => ?_
  refine TokenMoves.trans _ _ _ (treeWrite_moves 0 b u)
    (.ofRegs rfl rfl rfl rfl rfl rfl rfl rfl (fun h => ?_)
      fun ⟨h1, h2, h3, h4, _, h6⟩ => ⟨h1, h2, h3, h4, hlen, h6⟩)
  show afterTreeSize u.seq.phase ≠ .idle
  unfold afterTreeSize
  split
  · simp
  · exact h

theorem hufTable_moves (root : Byte) (s : State) :
    TokenMoves s (meaning (.hufTable root) s).final := by
  refine (consume_moves 1 s).bind fun _ u => ((treeWrite_moves 1 root u).trans _ _ _
    (readTable_moves _ 2 _)).bind fun _ v => .ofRegs rfl rfl rfl rfl rfl rfl rfl rfl (fun h => ?_)
      fun ⟨h1, h2, h3, _, h5⟩ => ⟨h1, h2, h3, Nat.zero_le 32, h5⟩
  show afterTreeTable v.seq.phase ≠ .idle
  unfold afterTreeTable
  split
  · simp
  · exact h

theorem hufNode_moves (x y : Bool) (o : BitVec 6) (s : State) :
    TokenMoves s (meaning (.hufNode x y o) s).final := by
  refine .ofRegs rfl rfl rfl rfl rfl rfl rfl rfl (fun h => ?_) id
  show afterNode s.seq.phase ≠ .idle
  unfold afterNode
  split
  · simp
  · exact h

theorem ovlTrailer_moves (cl : BitVec 24) (hs : Byte) (extra : BitVec 32) (s : State) :
    TokenMoves s (meaning (.ovlTrailer cl hs extra) s).final := by
  have hextra : ∀ u : State, TokenMoves u { u with ovl.extra := extra.toNat } := fun u =>
    .ofRegs rfl rfl rfl rfl rfl rfl rfl rfl id
      fun ⟨h1, h2, h3, h4, h5, h6, h7, h8, h9, _⟩ =>
        ⟨h1, h2, h3, h4, h5, h6, h7, h8, h9, extra.isLt⟩
  have hsizes : ∀ u : State, TokenMoves u { u with ovl.hs := hs.toNat, ovl.cl := cl.toNat } :=
    fun u => .ofRegs rfl rfl rfl rfl rfl rfl rfl rfl id
      fun ⟨h1, h2, h3, h4, h5, h6, h7, _, _, h10⟩ =>
        ⟨h1, h2, h3, h4, h5, h6, h7, hs.isLt, cl.isLt, h10⟩
  refine (ovlEntry_moves s).bind fun _ u => ?_
  simp only []
  split
  · exact hextra u
  · refine TokenMoves.before (u := { u with ovl.extra := extra.toNat })
      ((portAccesses_moves 4 _).bind fun _ v => ?_) (hextra u)
    split
    · exact hsizes v
    · exact TokenMoves.before (u := { v with ovl.hs := hs.toNat, ovl.cl := cl.toNat })
        ((portAccesses_moves _ _).bind fun _ w => ovlStart_moves w) (hsizes v)

/-- The displacement that runs is inside its register (R268). -/
theorem ovlEffDisp_le {d e : Nat} {s : State} (hd : d ≤ 4098) (h : ovlEffDisp d s = some e) :
    e ≤ 4098 := by
  unfold ovlEffDisp at h
  split at h
  · cases h; exact hd
  · split at h
    · cases h; omega
    · cases h

theorem ovlRef_moves (len : BitVec 4) (disp : BitVec 12) (s : State) :
    TokenMoves s (meaning (.ovlRef len disp) s).final := by
  obtain ⟨hlen, -, -, -, -, -, -, hdisp⟩ := operand_widths
  have hfields : ∀ (u : State) (d : Nat), d ≤ 4098 →
      TokenMoves u { u with work.tokL := lzLen len, work.tokD := d } := fun u d hd =>
    .ofRegs rfl rfl rfl rfl rfl rfl rfl rfl id
      fun ⟨h1, h2, h3, h4, h5, _, _, h8⟩ => ⟨h1, h2, h3, h4, h5, hlen len, hd, h8⟩
  refine (rdBackRef_moves s).bind fun _ u => ?_
  simp only []
  split
  · exact hfields u _ (hdisp disp)
  · next d hd =>
    exact (ovlCopy_moves _ _ _).before (hfields u d (ovlEffDisp_le (hdisp disp) hd))

/-- A running decoder's piece: a token, ended or raising, or the end of the decode. -/
def DecoderPiece (s : State) (r : Run Unit) : Prop :=
  TokenMoves s r.final ∨ ∃ tmi u, TokenMoves s u ∧ r = endDecode tmi u

theorem DecoderPiece.after {s u : State} {r : Run Unit} (h : DecoderPiece u r)
    (hm : TokenMoves s u) : DecoderPiece s r :=
  h.imp (hm.trans _ _ _) fun ⟨tmi, v, hv, e⟩ => ⟨tmi, v, hm.trans _ _ _ hv, e⟩

/-- A piece that either raises or goes on to the end of the decode. -/
theorem DecoderPiece.ofBind {α : Type} {s : State} {r : Run α} {tmi : Bool}
    (h : TokenMoves s r.final) : DecoderPiece s (r.bind fun _ u => endDecode tmi u) := by
  cases r with
  | ok a u => exact .inr ⟨tmi, u, h, rfl⟩
  | raised e u => exact .inl h

theorem loadFlags_moves (f : Byte) (s : State) : TokenMoves s (loadFlags f s) :=
  .ofRegs rfl rfl rfl rfl rfl rfl rfl rfl id fun ⟨h1, h2, _, h4⟩ => ⟨h1, h2, le_rfl, h4⟩

/-- Every stream token is such a piece; only the four-byte trailer of LZ-Overlay ends the decode. -/
theorem meaning_decoderPiece {i : Instr} (h : isToken i = true) (s : State) :
    DecoderPiece s (meaning i s) := by
  obtain ⟨hlz, hlz2, hlz3, hlz4, hrun, hraw, hdisp, -⟩ := operand_widths
  cases i with
  | cmdSupports c | cmdDecompress c | cmdCompress c | cmdSetopt c o => cases h
  | hdrNull n | hdrLz10 n | hdrLz11 n | hdrHuf4 n | hdrHuf8 n | hdrRle n =>
    exact .inl (parseHeader_moves _ n s)
  | hdrExt n =>
    refine .inl ((consume_moves 4 s).bind fun _ u => (extDone_moves _).before ?_)
    exact .ofRegs rfl rfl rfl rfl rfl rfl rfl rfl id fun ⟨h1, _, h3⟩ => ⟨h1, n.isLt, h3⟩
  | lz10Flags f | lz11Flags f =>
    exact .inl ((consume_moves 1 s).bind fun _ u => loadFlags_moves f u)
  | lz10Lit d | lz11Lit d => exact .inl ((consume_moves 1 s).bind fun _ u => outByteWin_moves d u)
  | lz10Ref len disp => exact .inl (refToken_moves _ (hlz len) (hdisp disp) s)
  | lz11Ref2 ind disp => exact .inl (refToken_moves _ (hlz2 ind) (hdisp disp) s)
  | lz11Ref3 len disp => exact .inl (refToken_moves _ (hlz3 len) (hdisp disp) s)
  | lz11Ref4 len disp => exact .inl (refToken_moves _ (hlz4 len) (hdisp disp) s)
  | ovlTrailer0 =>
    rw [meaning]
    cases he : ovlEntry s with
    | raised e u => exact .inl (by have hm := ovlEntry_moves s; rwa [he] at hm)
    | ok a u =>
      have hm : TokenMoves s u := by have hm := ovlEntry_moves s; rwa [he] at hm
      refine (DecoderPiece.ofBind ((copyThrough_moves _ 0 _).before ?_)).after hm
      exact .ofRegs rfl rfl rfl rfl rfl rfl rfl rfl id
        fun ⟨h1, h2, h3, h4, h5, h6, h7, h8, h9, _⟩ =>
          ⟨h1, h2, h3, h4, h5, h6, h7, h8, h9, Nat.two_pow_pos 32⟩
  | ovlTrailer cl hs extra => exact .inl (ovlTrailer_moves cl hs extra s)
  | ovlFlags f => exact .inl ((rdBack_moves s).bind fun _ u => loadFlags_moves f u)
  | ovlLit d => exact .inl ((rdBack_moves s).bind fun _ u => ovlPut_moves d u)
  | ovlRef len disp => exact .inl (ovlRef_moves len disp s)
  | rleRun n d =>
    exact .inl ((rleFlag_moves (hrun n) s).bind fun _ u => (consume_moves 1 u).bind fun _ v =>
      repeatOut_moves _ d v)
  | rleRaw n => exact .inl ((rleFlag_moves (hraw n) s).bind fun _ u => rawOut_moves _ u)
  | hufTsize b => exact .inl (hufTsize_moves b s)
  | hufTable root => exact .inl (hufTable_moves root s)
  | hufNode x y o => exact .inl (hufNode_moves x y o s)
  | hufWord w =>
    exact .inl ((consume_moves 4 s).bind fun _ _ => .ofRegs rfl rfl rfl rfl rfl rfl rfl rfl id
      fun ⟨h1, h2, h3, _, h5⟩ => ⟨h1, h2, h3, le_rfl, h5⟩)
  | hufBit b => exact .inl (walkBit_moves b s)
  | hufLeaf8 b => exact .inl ((outByte_moves b s).bind fun _ u => toRoot_moves u)
  | hufLeaf4 b => exact .inl ((leafNibble_moves b s).bind fun _ u => toRoot_moves u)
  | nullByte d => exact .inl ((consume_moves 1 s).bind fun _ u => outByte_moves d u)

/-! ### What is fetched -/

/-- What a fetched thing does, as one piece. -/
def Fetched.run : Fetched → Run Unit
  | .instr i t => meaning i t
  | .piece r => r

theorem stepRun_eq (s : State) : stepRun s = (fetch s).run := by
  unfold stepRun Fetched.run
  cases fetch s <;> rfl

theorem cutToken_moves (p : Place) (s : State) : TokenMoves s (cutToken p s).final := by
  unfold cutToken
  split
  · exact (beginToken_moves s).trans _ _ _ (consume_moves 1 _)
  · exact (rleFlag_moves (operand_widths.2.2.2.2.1 _) s).bind fun _ u => consume_moves 1 u
  · split
    · exact (beginToken_moves s).trans _ _ _ (consume_moves _ _)
    · exact consume_moves _ s

theorem cutBack_moves (p : Place) (s : State) : TokenMoves s (cutBack p s).final := by
  unfold cutBack
  split
  · exact rdBackRef_moves s
  · exact (rdBack_moves s).bind fun _ u => TokenMoves.refl u

/-- What decodes at a place but `CMD`'s is a stream token. -/
theorem isToken_of_decode {p : Place} {bs : List Byte} {i : Instr} (h : decode p bs = .instr i)
    (hp : p ≠ .cmd) : isToken i = true := by
  have hplace := (encodeInvertsDecode p bs i h).1
  cases i with
  | cmdSupports c | cmdDecompress c | cmdCompress c | cmdSetopt c o => exact absurd hplace.symm hp
  | _ => rfl

theorem fetchForward_decoderPiece {p : Place} (hp : p ≠ .cmd) (s : State) :
    DecoderPiece s (fetchForward p s).run := by
  unfold fetchForward
  split
  · next i h => exact meaning_decoderPiece (isToken_of_decode h hp) s
  · exact .inl (((beginToken_moves s).trans _ _ _ (consume_moves 1 _)).bind fun _ u =>
      TokenMoves.refl u)
  · exact .inl (cutToken_moves p s)

theorem fetchBack_decoderPiece {p : Place} (hp : p ≠ .cmd) (s : State) :
    DecoderPiece s (fetchBack p s).run := by
  unfold fetchBack
  split
  · next i h => exact meaning_decoderPiece (isToken_of_decode h hp) s
  · exact .inl (cutBack_moves p s)

theorem fetchTree_decoderPiece {p : Place} (hp : p ≠ .cmd) (a : Nat) (s : State) :
    DecoderPiece s (fetchTree p a s).run := by
  unfold fetchTree
  split
  · next i h => exact meaning_decoderPiece (isToken_of_decode h hp) s
  · exact .inl (TokenMoves.refl s)

theorem fetchTrailer_decoderPiece (s : State) : DecoderPiece s (fetchTrailer s).run := by
  unfold fetchTrailer
  simp only []
  split
  · exact .inl (TokenMoves.refl s)
  · split
    · exact .inl (TokenMoves.refl s)
    · split
      · next i h => exact meaning_decoderPiece (isToken_of_decode h (by simp)) s
      · exact .inl ((portAccesses_moves 4 s).bind fun _ u =>
          .ofRegs rfl rfl rfl rfl rfl rfl rfl rfl id
            fun ⟨h1, h2, h3, h4, h5, h6, h7, h8, h9, _⟩ =>
              ⟨h1, h2, h3, h4, h5, h6, h7, h8, h9, (trailerExtra u).isLt⟩)

theorem fetchLoop_decoderPiece {next : State → Fetched} {s : State}
    (h : DecoderPiece s (next s).run) : DecoderPiece s (fetchLoop next s).run := by
  unfold fetchLoop
  split
  · exact h
  · exact .inr ⟨_, s, TokenMoves.refl s, rfl⟩

/-- A flag taken. -/
theorem dropFlag_moves (s : State) :
    TokenMoves s (dropFlagMsb s) ∧ TokenMoves s (dropFlagLsb s) :=
  ⟨.ofRegs rfl rfl rfl rfl rfl rfl rfl rfl id
      fun ⟨h1, h2, h3, h4⟩ => ⟨h1, h2, (Nat.sub_le _ _).trans h3, h4⟩,
    .ofRegs rfl rfl rfl rfl rfl rfl rfl rfl id
      fun ⟨h1, h2, h3, h4⟩ => ⟨h1, h2, (Nat.sub_le _ _).trans h3, h4⟩⟩

/-- A bit taken. -/
theorem dropBit_moves (s : State) : TokenMoves s (dropBit s) :=
  .ofRegs rfl rfl rfl rfl rfl rfl rfl rfl id
    fun ⟨h1, h2, h3, h4, h5⟩ => ⟨h1, h2, h3, (Nat.sub_le _ _).trans h4, h5⟩

theorem fetchLz_decoderPiece {p : Place} {b : Bool → Place} (hp : p ≠ .cmd)
    (hb : ∀ x, b x ≠ .cmd) (s : State) : DecoderPiece s (fetchLz p b s).run := by
  unfold fetchLz
  split
  · exact fetchForward_decoderPiece hp s
  · exact (fetchForward_decoderPiece (hb _) _).after (dropFlag_moves s).1

/-- A step of a running decoder takes such a piece. -/
theorem stepRun_decoderPiece {s : State} (h : s.seq.phase ≠ .idle) :
    DecoderPiece s (stepRun s) := by
  rw [stepRun_eq]
  unfold fetch
  split
  · exact absurd ‹_› h
  · exact fetchForward_decoderPiece (by simp) s
  · exact fetchForward_decoderPiece (by simp) s
  · exact fetchLoop_decoderPiece (fetchForward_decoderPiece (by simp) s)
  · exact fetchLoop_decoderPiece (fetchLz_decoderPiece (by simp) (by simp) s)
  · exact fetchLoop_decoderPiece (fetchLz_decoderPiece (by simp) (by simp) s)
  · exact fetchLoop_decoderPiece (fetchForward_decoderPiece (by simp) s)
  · exact fetchForward_decoderPiece (by simp) s
  · exact fetchForward_decoderPiece (by simp) s
  · exact fetchLoop_decoderPiece (fetchTree_decoderPiece (by simp) _ s)
  · unfold fetchBit
    split
    · exact fetchForward_decoderPiece (by simp) s
    · exact (meaning_decoderPiece (i := .hufBit (nextBit s)) rfl _).after (dropBit_moves s)
  · exact fetchTree_decoderPiece (by simp) _ s
  · exact fetchTrailer_decoderPiece s
  · split
    · unfold fetchOvl
      split
      · exact fetchBack_decoderPiece (by simp) s
      · exact (fetchBack_decoderPiece (by simp) _).after (dropFlag_moves s).2
    · exact DecoderPiece.ofBind (outBytes_moves _ s)

end Sys2Proof.Machine

/-!
What a step can lead to, said once: a running decoder's step (a token, an error, a composite's next
member, the end), a command's first step and a host action. The statements every step meets follow: the
memories stay canonical, the control registers legal, the output append-only, the inputs and the
response registers kept (O42, O43, O46, O47, O48).
-/
namespace Sys2Proof.Machine

/-- From `s` to `t` the host registers, the inputs of the call and IMEM are as before, the memories
still canonical and the registers inside their widths. -/
structure InputsKept (s t : State) : Prop where
  host : t.host = s.host
  env : t.env = { s.env with ioFault := t.env.ioFault }
  imem : t.mem.imem = s.mem.imem
  mem : KeepsMem s t
  widths : KeepsWidths s t

theorem InputsKept.refl (s : State) : InputsKept s s := ⟨rfl, rfl, rfl, id, id⟩

theorem InputsKept.trans (a b c : State) (h1 : InputsKept a b) (h2 : InputsKept b c) :
    InputsKept a c :=
  ⟨h2.host.trans h1.host, by rw [h2.env, h1.env], h2.imem.trans h1.imem,
    KeepsMem.trans a b c h1.mem h2.mem, fun h => h2.widths (h1.widths h)⟩

theorem TokenMoves.inputsKept {s t : State} (h : TokenMoves s t) : InputsKept s t :=
  ⟨h.host, h.env, h.imem, h.mem, h.widths⟩

/-- A fresh start of a run keeps the registers inside their widths. -/
theorem startRun_widths (s : State) : KeepsWidths s (startRun s) :=
  fun ⟨_, _, _, _, h⟩ => ⟨s.host.argLen.isLt, Nat.two_pow_pos 32, Nat.zero_le 8, Nat.zero_le 32, h⟩

theorem Restarted.inputsKept {s t : State} (h : Restarted s t) : InputsKept s t := by
  obtain ⟨k, rfl⟩ := h
  exact ⟨rfl, rfl, rfl, id, startRun_widths s⟩

theorem beginTrial_inputsKept (k : Codec) (rest : List Codec) (s : State) :
    InputsKept s (beginTrial k rest s) :=
  ⟨rfl, rfl, rfl, fun ⟨h1, h2, h3, h4, h5, _⟩ => ⟨h1, h2, h3, h4, h5, Memory.wf_nil⟩,
    startRun_widths s⟩

/-! ### A running decoder's step -/

/-- `t` is where a composite goes on with member `k`, taken from `u` (R427). -/
def onMember (k : Codec) (rest : List Codec) (u : State) : State :=
  { beginTrial k rest u with seq.phase := codecEntry k }

/-- What a running decoder's piece `r` settles into. -/
inductive DecoderNext (r : Run Unit) (s t : State) : Prop where
  /-- A token, after which the decoder runs on. -/
  | runs (h : TokenMoves s t) (ok : r = .ok () t)
  /-- The command has failed. -/
  | fails (e : Err) (u : State) (ht : t = failWith e u) (kept : InputsKept s u)
      (plain : s.seq.trial = none → TokenMoves s u)
  /-- A composite goes on with a later member. -/
  | tries (tr : Trial) (k : Codec) (rest : List Codec) (u : State) (htr : s.seq.trial = some tr)
      (hk : k ∈ tr.rest) (hrest : ∀ x ∈ rest, x ∈ tr.rest) (hlen : rest.length < tr.rest.length)
      (ht : t = onMember k rest u) (kept : InputsKept s u) (omem : u.mem.omem = s.mem.omem)
  /-- The decode has ended. -/
  | ends (n : Nat) (tmi : Bool) (sub : BitVec 4) (u : State) (ht : t = endOk n tmi sub u)
      (kept : InputsKept s u) (plain : s.seq.trial = none → TokenMoves s u)
      (hsub : sub = noSub ∨ ∃ tr, s.seq.trial = some tr ∧ sub = codecId tr.member)

/-- A member of the members a composite tries has an entry of its own. -/
theorem codecEntry_ne_idle {k : Codec} (h : k ∈ trialMembers) : codecEntry k ≠ .idle := by
  have hall : ∀ k ∈ trialMembers, codecEntry k ≠ .idle := by decide
  exact hall k h

theorem takeError_next {r : Run Unit} {e : Err} {s u : State} (h : TokenMoves s u) :
    DecoderNext r s (takeError e u) := by
  by_cases ht : u.seq.trial = none
  · exact .fails e u (takeError_plain e u ht) h.inputsKept fun _ => h
  · rcases takeError_cases e u with ⟨e', v, he, hv⟩ | ⟨tr, k, rest, v, htr, hk, hrest, hlen, hv, he⟩
    · refine .fails e' v he ?_ fun hn => absurd (h.trial.trans hn) ht
      obtain rfl | hv := hv
      · exact h.inputsKept
      · exact h.inputsKept.trans _ _ _ hv.inputsKept
    · exact .tries tr k rest v (h.trial ▸ htr) hk hrest hlen he
        (h.inputsKept.trans _ _ _ hv.inputsKept)
        ((congrArg Mems.omem hv.mem).trans (h.inTrial (h.trial ▸ ht)))

/-- The commit of a trial run: its output goes out, or the port faults (R425). -/
theorem commit_cases (buf : Memory) (len : Nat) (k : Codec) (tmi : Bool) (s : State) :
    (∃ u, InputsKept s u ∧ commit buf len k tmi s =
      .ok () (endOk u.work.outLen tmi (codecId k) u)) ∨
    (∃ e u, InputsKept s u ∧ u.seq.trial = none ∧ commit buf len k tmi s = .raised e u) := by
  have hm := outBytes_moves (Memory.range buf 0 len)
    { s with seq.trial := none, work.outLen := 0 }
  have hs : InputsKept s { s with seq.trial := none, work.outLen := 0 } := ⟨rfl, rfl, rfl, id, id⟩
  unfold commit
  cases h : outBytes (Memory.range buf 0 len) { s with seq.trial := none, work.outLen := 0 } with
  | ok a u =>
    rw [h] at hm
    exact .inl ⟨u, hs.trans _ _ _ (TokenMoves.inputsKept hm), rfl⟩
  | raised e u =>
    rw [h] at hm
    exact .inr ⟨e, u, hs.trans _ _ _ (TokenMoves.inputsKept hm), hm.trial, rfl⟩

theorem endDecode_next {r : Run Unit} {tmi : Bool} {s u t : State} (h : TokenMoves s u)
    (e : settle (endDecode tmi u) = .next t) : DecoderNext r s t := by
  unfold endDecode at e
  split at e
  · next ht =>
    cases e
    exact .ends _ _ _ u rfl h.inputsKept (fun _ => h) (.inl rfl)
  · next tr ht =>
    have hne : s.seq.trial ≠ none := by rw [← h.trial, ht]; simp
    rcases commit_cases u.mem.cbuf u.work.outLen tr.member tmi u with ⟨v, hv, hc⟩ | ⟨e', v, hv, hn, hc⟩
    · rw [hc] at e
      cases e
      exact .ends _ _ _ v rfl (h.inputsKept.trans _ _ _ hv) (fun hn => absurd hn hne)
        (.inr ⟨tr, h.trial ▸ ht, rfl⟩)
    · rw [hc, settle_raised, takeError_plain _ _ hn] at e
      cases e
      exact .fails e' v rfl (h.inputsKept.trans _ _ _ hv) fun hn => absurd hn hne

/-- Everything a running decoder's piece can settle into. -/
theorem DecoderPiece.next {s t : State} {r : Run Unit} (h : DecoderPiece s r)
    (e : settle r = .next t) : DecoderNext r s t := by
  obtain hm | ⟨tmi, u, hm, rfl⟩ := h
  · cases r with
    | ok a u => cases e; exact .runs hm rfl
    | raised er u =>
      rw [settle_raised] at e
      cases e
      exact takeError_next hm
  · exact endDecode_next hm e

theorem step_decoderNext {s t : State} (h : s.seq.phase ≠ .idle) (e : step s = .next t) :
    DecoderNext (stepRun s) s t :=
  (stepRun_decoderPiece h).next (step_eq_settle s ▸ e)

theorem exec_decoderNext {i : Instr} {s t : State} (h : isToken i = true) (e : exec i s = .next t) :
    DecoderNext (meaning i s) s t :=
  (meaning_decoderPiece h s).next (exec_eq_settle i s ▸ e)

/-! ### A command's first step -/

/-- What a command's piece settles into, from its clean start. -/
inductive CommandNext (i : Instr) (s t : State) : Prop where
  | fails (e : Err) (u : State) (ht : t = failWith e u) (kept : InputsKept (commandStart s) u)
  | ends (n : Nat) (sub : BitVec 4) (u : State) (ht : t = endOk n false sub u)
      (kept : InputsKept (commandStart s) u)
      (hsub : sub = noSub ∨ ∃ k ∈ trialMembers, sub = codecId k)
  /-- SETOPT has set bits of `CTRL`, look-ahead bits alone (R140). -/
  | sets (n : Nat) (bits : BitVec 32) (c : BitVec 4) (o : BitVec 8) (hi : i = .cmdSetopt c o)
      (hbits : bits &&& 7 = bits) (ht : t = endOk n false noSub
        { commandStart s with host.ctrl := s.host.ctrl ||| bits })
  /-- A decoder of a simple codec begins. -/
  | begins (c : Codec) (hc : codecMembers c = [])
      (ht : t = { commandStart s with seq.phase := codecEntry c })
  /-- A member's trial run begins. -/
  | tries (k : Codec) (rest : List Codec) (u : State) (hk : k ∈ trialMembers)
      (hrest : ∀ x ∈ rest, x ∈ trialMembers) (ht : t = onMember k rest u)
      (kept : InputsKept (commandStart s) u)

theorem codecMembers_subset (c : Codec) : ∀ k ∈ codecMembers c, k ∈ trialMembers := by
  have hall : ∀ c : Codec, codecMembers c ⊆ trialMembers := by
    intro c; cases c <;> decide
  exact fun k hk => hall c hk

theorem runEncoder_inputsKept (c : Codec) (s : State) :
    InputsKept s (runEncoder c s).final ∧ (runEncoder c s).final.seq.trial = s.seq.trial := by
  have hread := portAccesses_moves s.work.declLen s
  unfold runEncoder
  cases h : portAccesses s.work.declLen s with
  | raised e u => rw [h] at hread; exact ⟨TokenMoves.inputsKept hread, hread.trial⟩
  | ok a u =>
    rw [h] at hread
    have hu : InputsKept s u := TokenMoves.inputsKept hread
    have ht : u.seq.trial = s.seq.trial := hread.trial
    rw [Run.bind_ok]
    split
    · exact ⟨hu.trans _ _ _ ⟨rfl, rfl, rfl, id, id⟩, ht⟩
    · next bytes _ =>
      have hout := outBytes_moves bytes { u with enc := encodeScratch c u }
      have henc : InputsKept u { u with enc := encodeScratch c u } := ⟨rfl, rfl, rfl, id, id⟩
      exact ⟨hu.trans _ _ _ (henc.trans _ _ _ hout.inputsKept), hout.trial.trans ht⟩

theorem compressMembers_cases (ks : List Codec) (best : Option TrialRun) (firstErr : Option Err)
    (s : State) (hk : ∀ k ∈ ks, k ∈ trialMembers) (hb : ∀ b, best = some b → b.member ∈ trialMembers) :
    (∃ n k u, InputsKept s u ∧ k ∈ trialMembers ∧ compressMembers ks best firstErr s =
      .ok () (endOk n false (codecId k) u)) ∨
    (∃ e u, InputsKept s u ∧ u.seq.trial = none ∧
      compressMembers ks best firstErr s = .raised e u) := by
  induction ks generalizing best firstErr s with
  | nil =>
    cases best with
    | none => exact .inr ⟨_, { s with seq.trial := none }, ⟨rfl, rfl, rfl, id, id⟩, rfl, rfl⟩
    | some b =>
      rcases commit_cases b.buf b.len b.member false s with ⟨u, hu, h⟩ | ⟨e, u, hu, hn, h⟩
      · exact .inl ⟨_, _, u, hu, hb b rfl, h⟩
      · exact .inr ⟨e, u, hu, hn, h⟩
  | cons k ks ih =>
    have hks : ∀ x ∈ ks, x ∈ trialMembers := fun x hx => hk x (by simp [hx])
    have hstart := beginTrial_inputsKept k ks s
    have hrun := (runEncoder_inputsKept k (beginTrial k ks s)).1
    simp only [compressMembers]
    split
    · split
      · next u hu =>
        rw [hu] at hrun
        have hsu := hstart.trans _ _ _ hrun
        refine (ih _ _ _ hks ?_).imp
          (fun ⟨n, j, v, hv, hj, e⟩ => ⟨n, j, v, hsu.trans _ _ _ hv, hj, e⟩)
          (fun ⟨e, v, hv, hn, h⟩ => ⟨e, v, hsu.trans _ _ _ hv, hn, h⟩)
        intro b hbest
        split at hbest
        · cases hbest; exact hk k (by simp)
        · exact hb b hbest
      · next e u hu =>
        rw [hu] at hrun
        have hsu := hstart.trans _ _ _ hrun
        split
        · exact .inr ⟨e, { u with seq.trial := none }, hsu.trans _ _ _ ⟨rfl, rfl, rfl, id, id⟩, rfl,
            rfl⟩
        · exact (ih _ _ _ hks hb).imp
            (fun ⟨n, j, v, hv, hj, e⟩ => ⟨n, j, v, hsu.trans _ _ _ hv, hj, e⟩)
            (fun ⟨e, v, hv, hn, h⟩ => ⟨e, v, hsu.trans _ _ _ hv, hn, h⟩)
    · exact ih _ _ _ hks hb

theorem compressCommand_next {i : Instr} {c : Codec} {s t : State}
    (e : settle (compressCommand c (commandStart s)) = .next t) : CommandNext i s t := by
  have hraise : ∀ {er}, settle (.raised er (commandStart s)) = .next t → CommandNext i s t := by
    intro er h
    rw [settle_raised_commandStart] at h
    cases h
    exact .fails _ _ rfl (InputsKept.refl _)
  unfold compressCommand at e
  split at e
  · exact hraise e
  split at e
  · exact hraise e
  split at e
  · exact hraise e
  split at e
  · obtain ⟨hkept, htrial⟩ := runEncoder_inputsKept c (commandStart s)
    cases h : runEncoder c (commandStart s) with
    | ok a u =>
      rw [h] at e hkept
      cases e
      exact .ends _ _ u rfl hkept (.inl rfl)
    | raised er u =>
      rw [h] at e hkept htrial
      rw [Run.bind_raised, settle_raised, takeError_plain er u htrial] at e
      cases e
      exact .fails _ u rfl hkept
  · rcases compressMembers_cases (codecMembers c) none none (commandStart s)
      (codecMembers_subset c) (by simp) with ⟨n, k, u, hu, hk, h⟩ | ⟨er, u, hu, hn, h⟩
    · rw [h] at e
      cases e
      exact .ends _ _ u rfl hu (.inr ⟨k, hk, rfl⟩)
    · rw [h, settle_raised, takeError_plain er u hn] at e
      cases e
      exact .fails _ u rfl hu

theorem decompressCommand_next {i : Instr} (c : Codec) (s : State) :
    CommandNext i s (decompressCommand c (commandStart s)) := by
  by_cases hc : codecMembers c = []
  · exact .begins c hc (by simp only [decompressCommand, hc])
  · rw [decompressCommand_composite hc]
    have hsub := codecMembers_subset c
    rcases tryMembers_cases (codecMembers c) (commandStart s) with
      ⟨e, u, h, hu, -⟩ | ⟨k, rest, u, hk, hrest, hu, -, -, h⟩
    · refine .fails e u h ?_
      obtain rfl | hu := hu
      · exact InputsKept.refl _
      · exact hu.inputsKept
    · exact .tries k rest u (hsub k hk) (fun x hx => hsub x (hrest x hx)) h hu.inputsKept

theorem supportsCommand_next {i : Instr} {c : Codec} {s t : State}
    (e : settle (supportsCommand c (commandStart s)) = .next t) : CommandNext i s t := by
  have hpeek := (supports_peeked c (commandStart s)).tokenMoves
  unfold supportsCommand at e
  cases h : supports c (commandStart s) with
  | ok b u =>
    rw [h] at e hpeek
    cases e
    exact .ends _ _ u rfl hpeek.inputsKept (.inl rfl)
  | raised er u =>
    rw [h] at e hpeek
    rw [Run.bind_raised, settle_raised, takeError_plain er u hpeek.trial] at e
    cases e
    exact .fails _ u rfl hpeek.inputsKept

theorem optBits_lookahead (c : Codec) : optBits c &&& 7 = optBits c := by cases c <;> decide

/-- Everything a command's first step can lead to. -/
theorem exec_commandNext {i : Instr} {s t : State} (h : isToken i = false)
    (e : exec i s = .next t) : CommandNext i s t := by
  have hcodec : ∀ {id : BitVec 4} {f : Codec → State → Run Unit},
      settle (withCodec id (commandStart s) f) = .next t →
      (∀ c, settle (f c (commandStart s)) = .next t → CommandNext i s t) → CommandNext i s t := by
    intro id f hset hf
    unfold withCodec at hset
    split at hset
    · rw [settle_raised_commandStart] at hset
      cases hset
      exact .fails _ _ rfl (InputsKept.refl _)
    · exact hf _ hset
  cases i with
  | cmdSupports id => exact hcodec e fun c => supportsCommand_next
  | cmdDecompress id =>
    refine hcodec e fun c hc => ?_
    cases hc
    exact decompressCommand_next c s
  | cmdCompress id => exact hcodec e fun c => compressCommand_next
  | cmdSetopt id o =>
    refine hcodec e fun c hc => ?_
    by_cases hclaim : o = 1 ∧ optBits c ≠ 0
    · rw [setoptCommand_of_claimed hclaim] at hc
      cases hc
      exact .sets _ (optBits c) id o rfl (optBits_lookahead c) rfl
    · rw [setoptCommand_of_not_claimed hclaim] at hc
      cases hc
      exact .ends _ _ _ rfl (InputsKept.refl _) (.inl rfl)
  | _ => cases h

/-- What a step between commands can lead to: nothing, a host action, or a command. -/
theorem step_idle_cases {s t : State} (h : s.seq.phase = .idle) (e : step s = .next t) :
    t = s ∨ (∃ a q, (∀ w, a ≠ .writeCmd w) ∧ t = hostAct a { s with env.hostQ := q }) ∨
    (∃ w q i, CommandNext i { s with host.cmd := w, env.hostQ := q } t) := by
  cases hq : s.env.hostQ with
  | nil => rw [step_idle_nil h hq] at e; cases e; exact .inl rfl
  | cons a q =>
    by_cases ha : ∀ w, a ≠ .writeCmd w
    · rw [step_hostAct h hq ha] at e
      cases e
      exact .inr (.inl ⟨a, q, ha, rfl⟩)
    · obtain ⟨w, hw⟩ := not_forall.mp ha
      obtain rfl := not_not.mp hw
      refine .inr (.inr ?_)
      have hf := fetch_writeCmd h hq
      unfold fetchCommand at hf
      split at hf
      · next i hd =>
        rw [step_of_fetch_instr hf] at e
        refine ⟨w, q, i, exec_commandNext ?_ e⟩
        unfold decodeCmd at hd
        split at hd <;> cases hd <;> rfl
      · rw [step_of_fetch_piece hf, settle_raised_commandStart] at e
        cases e
        exact ⟨w, q, .cmdSupports 0, .fails _ _ rfl (InputsKept.refl _)⟩

/-! ### The memories stay canonical (O42) -/

theorem hostAct_mem (a : HostAction) (s : State) : KeepsMem s (hostAct a s) := by
  rintro ⟨h1, h2, h3, h4, h5, h6⟩
  cases a with
  | loadInput bytes => exact ⟨Memory.wf_store _ _ Memory.wf_nil, h2, h3, h4, h5, h6⟩
  | emptyOutput => exact ⟨h1, Memory.wf_nil, h3, h4, h5, h6⟩
  | reset => exact ⟨h1, h2, Memory.wf_nil, Memory.wf_nil, Memory.wf_nil, Memory.wf_nil⟩
  | _ => exact ⟨h1, h2, h3, h4, h5, h6⟩

theorem onMember_mem (k : Codec) (rest : List Codec) (s : State) :
    KeepsMem s (onMember k rest s) := (beginTrial_inputsKept k rest s).mem

theorem CommandNext.mem {i : Instr} {s t : State} (h : CommandNext i s t) : KeepsMem s t := by
  cases h with
  | fails e u ht kept => subst ht; exact kept.mem
  | ends n sub u ht kept => subst ht; exact kept.mem
  | sets n bits c o hi hbits ht => subst ht; exact id
  | begins c hc ht => subst ht; exact id
  | tries k rest u hk hrest ht kept =>
    subst ht; exact KeepsMem.trans _ _ _ kept.mem (onMember_mem k rest u)

theorem DecoderNext.mem {r : Run Unit} {s t : State} (h : DecoderNext r s t) : KeepsMem s t := by
  cases h with
  | runs h => exact h.mem
  | fails e u ht kept => subst ht; exact kept.mem
  | tries tr k rest u htr hk hrest hlen ht kept =>
    subst ht; exact KeepsMem.trans _ _ _ kept.mem (onMember_mem k rest u)
  | ends n tmi sub u ht kept => subst ht; exact kept.mem

/-- Settles O42: each of the things a step can lead to keeps them so. -/
theorem stepKeepsMemoriesCanonical : Obligations.StepKeepsMemoriesCanonical := by
  intro s t hm e
  by_cases h : s.seq.phase = .idle
  · obtain rfl | ⟨a, q, -, rfl⟩ | ⟨w, q, i, hc⟩ := step_idle_cases h e
    · exact hm
    · exact hostAct_mem a _ hm
    · exact hc.mem hm
  · exact (step_decoderNext h e).mem hm

/-! ### The control registers stay legal (O43) -/

theorem errCode_le (e : Err) : (errCode e).toNat ≤ 6 ∧ errCode e ≠ 0 := by
  cases e <;> exact ⟨by simp [errCode], by simp [errCode]⟩

/-- DONE stands where nothing runs. -/
theorem done_iff {p : Phase} (h : p = .idle) : stateDone = stateBusy ↔ p ≠ .idle :=
  iff_of_false (by decide) (not_not.mpr h)

theorem controlInv_failWith (e : Err) {u : State} (h : u.host.ctrl.extractLsb' 4 28 = 0) :
    ControlInv (failWith e u) where
  status := by
    rw [failWith_status]
    exact ⟨statusReserved_word .., by rw [statusState_word]; decide,
      by rw [statusErr_word]; exact (errCode_le e).1, by rw [statusTmi_word]; exact nofun⟩
  busy := by rw [failWith_status, statusState_word]; exact done_iff rfl
  noTrial := fun _ => rfl
  members := fun tr ht => nomatch ht
  ctrl := h
  failed := fun _ => ⟨rfl, rfl⟩
  errPos := fun hp => by
    rw [failWith_status, statusErr_word]
    cases e with
    | invalidData pos => rfl
    | _ => exact absurd rfl hp
  errInfo := fun hp => by
    rw [failWith_status, statusErr_word]
    cases e with
    | notEnoughData w x => rfl
    | _ => exact absurd rfl (hp.elim id id)
  lastSub := .inl rfl

theorem controlInv_endOk (n : Nat) (tmi : Bool) {sub : BitVec 4} {u : State}
    (h : u.host.ctrl.extractLsb' 4 28 = 0)
    (hsub : sub = noSub ∨ ∃ k ∈ trialMembers, sub = codecId k) :
    ControlInv (endOk n tmi sub u) where
  status := by
    rw [endOk_status]
    exact ⟨statusReserved_word .., by rw [statusState_word]; decide,
      by rw [statusErr_word]; decide, fun _ => statusErr_word ..⟩
  busy := by rw [endOk_status, statusState_word]; exact done_iff rfl
  noTrial := fun _ => rfl
  members := fun tr ht => nomatch ht
  ctrl := h
  failed := fun he => absurd (statusErr_word ..) he
  errPos := fun hp => absurd rfl hp
  errInfo := fun hp => absurd rfl (hp.elim id id)
  lastSub := hsub

/-- A decoder runs on, or a composite goes on: the registers are as before. -/
theorem ControlInv.running {s t : State} (h : ControlInv s) (hs : s.seq.phase ≠ .idle)
    (host : t.host = s.host) (ht : t.seq.phase ≠ .idle)
    (members : ∀ tr, t.seq.trial = some tr → ∀ k ∈ tr.member :: tr.rest, k ∈ trialMembers) :
    ControlInv t where
  status := host ▸ h.status
  busy := by rw [host, h.busy]; exact iff_of_true hs ht
  noTrial := fun hn => absurd hn ht
  members := members
  ctrl := host ▸ h.ctrl
  failed := host ▸ h.failed
  errPos := host ▸ h.errPos
  errInfo := host ▸ h.errInfo
  lastSub := host ▸ h.lastSub

/-- The registers with BUSY in `STATUS` (R138). -/
theorem ControlInv.starting {s t : State} {w : Word32} (h : ControlInv s)
    (host : t.host = { s.host with cmd := w, status := statusBusy s.host.status })
    (ht : t.seq.phase ≠ .idle)
    (members : ∀ tr, t.seq.trial = some tr → ∀ k ∈ tr.member :: tr.rest, k ∈ trialMembers) :
    ControlInv t := by
  obtain ⟨hreserved, -, herr, htmi⟩ := h.status
  refine ⟨?_, ?_, fun hn => absurd hn ht, members, ?_, ?_, ?_, ?_, ?_⟩ <;> rw [host]
  · refine ⟨statusReserved_word _ _ _, ?_, ?_, ?_⟩
    · rw [statusState_busy]; decide
    · rw [statusErr_busy]; exact herr
    · rw [statusErr_busy, statusTmi_busy]; exact htmi
  · exact iff_of_true (statusState_busy _) ht
  · exact h.ctrl
  · simpa only [statusErr_busy] using h.failed
  · simpa only [statusErr_busy] using h.errPos
  · simpa only [statusErr_busy] using h.errInfo
  · exact h.lastSub

theorem onMember_members {k : Codec} {rest : List Codec} (u : State) (hk : k ∈ trialMembers)
    (hrest : ∀ x ∈ rest, x ∈ trialMembers) :
    ∀ tr, (onMember k rest u).seq.trial = some tr → ∀ x ∈ tr.member :: tr.rest, x ∈ trialMembers := by
  rintro tr ht x hx
  obtain rfl : Trial.mk k rest = tr := Option.some.inj ht
  obtain rfl | hx := List.mem_cons.mp hx
  · exact hk
  · exact hrest x hx

theorem codecEntry_simple_ne_idle {c : Codec} (h : codecMembers c = []) :
    codecEntry c ≠ .idle := by
  cases c <;> simp [codecMembers, codecEntry] at h ⊢

theorem ctrl_or_lookahead {c bits : BitVec 32} (hc : c.extractLsb' 4 28 = 0)
    (hb : bits &&& 7 = bits) : (c ||| bits).extractLsb' 4 28 = 0 := by
  have hz : bits.extractLsb' 4 28 = 0 := by
    rw [← hb, BitVec.extractLsb'_and]
    exact BitVec.and_zero
  rw [BitVec.extractLsb'_or, hc, hz]
  rfl

theorem DecoderNext.controlInv {r : Run Unit} {s t : State} (h : DecoderNext r s t)
    (hs : s.seq.phase ≠ .idle)
    (hc : ControlInv s) : ControlInv t := by
  cases h with
  | runs h => exact hc.running hs h.host (h.running hs) (h.trial ▸ hc.members)
  | fails e u ht kept => subst ht; exact controlInv_failWith e (kept.host ▸ hc.ctrl)
  | tries tr k rest u htr hk hrest hlen ht kept =>
    subst ht
    have hmem := hc.members tr htr
    exact hc.running hs kept.host (codecEntry_ne_idle (hmem k (by simp [hk])))
      (onMember_members u (hmem k (by simp [hk])) fun x hx => hmem x (by simp [hrest x hx]))
  | ends n tmi sub u ht kept plain hsub =>
    subst ht
    refine controlInv_endOk n tmi (kept.host ▸ hc.ctrl) (hsub.imp_right ?_)
    rintro ⟨tr, htr, rfl⟩
    exact ⟨tr.member, hc.members tr htr _ (by simp), rfl⟩

theorem CommandNext.controlInv {i : Instr} {s t : State} {w : Word32} {q : List HostAction}
    (h : CommandNext i { s with host.cmd := w, env.hostQ := q } t) (hc : ControlInv s) :
    ControlInv t := by
  cases h with
  | fails e u ht kept => subst ht; exact controlInv_failWith e (kept.host ▸ hc.ctrl)
  | ends n sub u ht kept hsub => subst ht; exact controlInv_endOk n _ (kept.host ▸ hc.ctrl) hsub
  | sets n bits c o hi hbits ht =>
    subst ht
    exact controlInv_endOk n _ (ctrl_or_lookahead hc.ctrl hbits) (.inl rfl)
  | begins c hm ht =>
    subst ht
    exact hc.starting rfl (codecEntry_simple_ne_idle hm) fun tr ht => nomatch ht
  | tries k rest u hk hrest ht kept =>
    subst ht
    exact hc.starting (w := w) kept.host (codecEntry_ne_idle hk) (onMember_members u hk hrest)

theorem hostAct_controlInv {a : HostAction} {s : State} (q : List HostAction)
    (hc : ControlInv s) : ControlInv (hostAct a { s with env.hostQ := q }) := by
  obtain ⟨h1, h2, h3, h4, h5, h6, h7, h8, h9⟩ := hc
  cases a with
  | writeCtrl v =>
    refine ⟨h1, h2, h3, h4, ?_, h6, h7, h8, h9⟩
    show (v &&& ctrlMask).extractLsb' 4 28 = 0
    rw [BitVec.extractLsb'_and]
    exact BitVec.and_zero
  | reset =>
    obtain ⟨-, ⟨g1, g2, g3, g4, g5, g6, g7, g8, g9⟩, -⟩ := resetMeetsTheInvariants
    exact ⟨g1, g2, g3, g4, g5, g6, g7, g8, g9⟩
  | _ => exact ⟨h1, h2, h3, h4, h5, h6, h7, h8, h9⟩

/-- Settles O43: the ends of a command write legal words, and nothing else writes them. -/
theorem stepKeepsTheControlLegal : Obligations.StepKeepsTheControlLegal := by
  intro s t hc e
  by_cases h : s.seq.phase = .idle
  · obtain rfl | ⟨a, q, -, rfl⟩ | ⟨w, q, i, hn⟩ := step_idle_cases h e
    · exact hc
    · exact hostAct_controlInv q hc
    · exact hn.controlInv hc
  · exact (step_decoderNext h e).controlInv h hc

/-! ### The output is append-only (O46) -/

/-- Settles O46: a token appends, an error and the end of the decode write no byte below `OUT_LEN`, and
in a trial run OMEM waits for the commit. -/
theorem outputIsAppendOnly : Obligations.OutputIsAppendOnly := by
  intro s t hm hs e
  cases step_decoderNext hs e with
  | runs h => exact ⟨fun ht => ⟨h.grows, h.below hm ht⟩, fun ht _ => h.inTrial ht⟩
  | fails er u ht kept plain =>
    subst ht
    exact ⟨fun hn => ⟨(plain hn).grows, (plain hn).below hm hn⟩, fun _ hp => absurd rfl hp⟩
  | tries tr k rest u htr hk hrest hlen ht kept omem =>
    subst ht
    exact ⟨fun hn => (by rw [htr] at hn; cases hn), fun _ _ => omem⟩
  | ends n tmi sub u ht kept plain =>
    subst ht
    exact ⟨fun hn => ⟨(plain hn).grows, (plain hn).below hm hn⟩, fun _ hp => absurd rfl hp⟩

/-! ### No instruction writes its inputs (O47), no token a response (O48) -/

theorem InputsKept.env_fields {s t : State} (h : InputsKept s t) :
    t.env.srcLen = s.env.srcLen ∧ t.env.huf8Order = s.env.huf8Order ∧ t.env.hostQ = s.env.hostQ := by
  rw [h.env]
  exact ⟨rfl, rfl, rfl⟩

theorem and_or_lookahead {c bits : BitVec 32} (hb : bits &&& 7 = bits) :
    c &&& (c ||| bits) = c ∧ (c ||| bits) &&& 0xFFFFFFF8 = c &&& 0xFFFFFFF8 := by
  have hz : bits &&& 0xFFFFFFF8 = 0 := by
    rw [← hb, BitVec.and_assoc]
    exact BitVec.and_zero
  refine ⟨?_, ?_⟩
  · ext j hj
    grind
  · have hdistrib : (c ||| bits) &&& 0xFFFFFFF8 = (c &&& 0xFFFFFFF8) ||| (bits &&& 0xFFFFFFF8) := by
      ext j hj
      grind
    rw [hdistrib, hz]
    exact BitVec.or_zero

/-- What O47 says an instruction keeps. -/
def KeepsInputs (i : Instr) (s t : State) : Prop :=
  t.mem.imem = s.mem.imem ∧ t.host.argLen = s.host.argLen ∧ t.host.cmd = s.host.cmd ∧
  t.env.srcLen = s.env.srcLen ∧ t.env.huf8Order = s.env.huf8Order ∧
  t.env.hostQ = s.env.hostQ ∧
  ((∀ c o, i ≠ .cmdSetopt c o) → t.host.ctrl = s.host.ctrl) ∧
  s.host.ctrl &&& t.host.ctrl = s.host.ctrl ∧ t.host.ctrl &&& 0xFFFFFFF8 =
    s.host.ctrl &&& 0xFFFFFFF8

/-- What the inputs are kept up to, an end of a command or a next member keeps too. -/
theorem InputsKept.keepsInputs {s u t : State} (h : InputsKept s u) (i : Instr)
    (imem : t.mem.imem = u.mem.imem) (argLen : t.host.argLen = u.host.argLen)
    (cmd : t.host.cmd = u.host.cmd) (ctrl : t.host.ctrl = u.host.ctrl)
    (env : t.env = { u.env with ioFault := t.env.ioFault }) : KeepsInputs i s t := by
  obtain ⟨h1, h2, h3⟩ := h.env_fields
  unfold KeepsInputs
  rw [imem, argLen, cmd, ctrl, env, h.imem, h.host]
  exact ⟨rfl, rfl, rfl, h1, h2, h3, fun _ => rfl, BitVec.and_self, rfl⟩

/-- Settles O47: each thing an instruction can lead to keeps the inputs, but for the bits SETOPT sets. -/
theorem noInstructionWritesItsInputs : Obligations.NoInstructionWritesItsInputs := by
  intro i s t e
  show KeepsInputs i s t
  cases hi : isToken i with
  | true =>
    cases exec_decoderNext hi e with
    | runs h => exact h.inputsKept.keepsInputs i rfl rfl rfl rfl rfl
    | fails er u ht kept => subst ht; exact kept.keepsInputs i rfl rfl rfl rfl rfl
    | tries tr k rest u htr hk hrest hlen ht kept =>
      subst ht; exact kept.keepsInputs i rfl rfl rfl rfl rfl
    | ends n tmi sub u ht kept => subst ht; exact kept.keepsInputs i rfl rfl rfl rfl rfl
  | false =>
    have hstart := InputsKept.refl (commandStart s)
    cases exec_commandNext hi e with
    | fails er u ht kept => subst ht; exact kept.keepsInputs i rfl rfl rfl rfl rfl
    | ends n sub u ht kept => subst ht; exact kept.keepsInputs i rfl rfl rfl rfl rfl
    | sets n bits c o hi hbits ht =>
      subst ht
      obtain ⟨hclear, htouch⟩ := and_or_lookahead (c := s.host.ctrl) hbits
      exact ⟨rfl, rfl, rfl, rfl, rfl, rfl, fun hne => absurd hi (hne c o), hclear, htouch⟩
    | begins c hc ht => subst ht; exact hstart.keepsInputs i rfl rfl rfl rfl rfl
    | tries k rest u hk hrest ht kept => subst ht; exact kept.keepsInputs i rfl rfl rfl rfl rfl

/-- Settles O48: only the ends of a command write the responses. -/
theorem tokensWriteNoResponse : Obligations.TokensWriteNoResponse := by
  intro i s t hi e
  cases exec_decoderNext hi e with
  | runs h => exact ⟨fun _ => h.host, fun _ => h.enc⟩
  | fails er u ht kept plain => subst ht; exact ⟨fun hp => absurd rfl hp, fun hn => (plain hn).enc⟩
  | tries tr k rest u htr hk hrest hlen ht kept =>
    subst ht
    exact ⟨fun _ => kept.host, fun hn => by rw [htr] at hn; cases hn⟩
  | ends n tmi sub u ht kept plain =>
    subst ht; exact ⟨fun hp => absurd rfl hp, fun hn => (plain hn).enc⟩

end Sys2Proof.Machine

/-!
The ends of commands without error (spec/41_bitstream_parser.md R171, spec/44_lz_overlay.md R273,
spec/40_codec_interface.md R135, spec/49_composite_null.md R425, R428): bytes put out one by one are one
store, which gives `Finish`, the flush, COMPRESS of a simple codec and of a composite, and the statements
about them (O4, O11, O13).
-/
namespace Sys2Proof.Machine

/-! ### Bytes put out as one store -/

/-- Outside a trial run, no fault due, the bytes are stored in OMEM. -/
theorem outBytes_port (bs : List Byte) {s : State} (ht : s.seq.trial = none)
    (hf : s.env.ioFault = none) :
    outBytes bs s = .ok () { s with
      mem.omem := Memory.store s.work.outLen bs s.mem.omem,
      work.outLen := s.work.outLen + bs.length } := by
  induction bs generalizing s with
  | nil => rfl
  | cons b bs ih =>
    rw [outBytes, outByte, ht]
    simp only [portAccesses_noFault 1 s hf, Run.bind_ok]
    rw [ih (by exact ht) (by exact hf)]
    simp only [Memory.store, List.length_cons, Nat.add_assoc, Nat.add_comm 1]

/-- In a trial run they are stored in CBUF, which is no port (R425). -/
theorem outBytes_trial (bs : List Byte) {s : State} {tr : Trial} (ht : s.seq.trial = some tr) :
    outBytes bs s = .ok () { s with
      mem.cbuf := Memory.store s.work.outLen bs s.mem.cbuf,
      work.outLen := s.work.outLen + bs.length } := by
  induction bs generalizing s with
  | nil => rfl
  | cons b bs ih =>
    rw [outBytes, outByte, ht]
    simp only [Run.bind_ok]
    rw [ih (by exact ht)]
    simp only [Memory.store, List.length_cons, Nat.add_assoc, Nat.add_comm 1]

/-- A range that reads as a byte string is that string. -/
theorem Memory.range_eq {m : Memory} {a : Nat} {bs : List Byte}
    (h : ∀ i < bs.length, Memory.read (a + i) m = bs.getD i 0) :
    Memory.range m a bs.length = bs := by
  induction bs generalizing a with
  | nil => rfl
  | cons b bs ih =>
    rw [List.length_cons, Memory.range, ih fun i hi => ?_]
    · have h0 := h 0 (by simp)
      simp only [Nat.add_zero, List.getD_cons_zero] at h0
      rw [h0]
    · have hi' := h (i + 1) (by simp; omega)
      rwa [List.getD_cons_succ, Nat.add_comm i 1, ← Nat.add_assoc] at hi'

theorem Stored.range {m m' : Memory} {a : Nat} {bs : List Byte} (h : Stored m m' a bs) :
    Memory.range m' a bs.length = bs :=
  Memory.range_eq fun i hi => by
    rw [h (a + i), if_pos ⟨by omega, by omega⟩, Nat.add_sub_cancel_left]

/-! ### Finish and flush (O4) -/

theorem endDecode_plain (tmi : Bool) {s : State} (ht : s.seq.trial = none) :
    endDecode tmi s = .ok () (endOk s.work.outLen tmi noSub s) := by
  rw [endDecode, ht]

/-- The commit with no fault due: the run's buffer is stored in OMEM from index 0. -/
theorem commit_noFault (buf : Memory) (len : Nat) (k : Codec) (tmi : Bool) {s : State}
    (hf : s.env.ioFault = none) :
    commit buf len k tmi s = .ok () (endOk len tmi (codecId k) { s with
      seq.trial := none, work.outLen := len,
      mem.omem := Memory.store 0 (Memory.range buf 0 len) s.mem.omem }) := by
  rw [commit, outBytes_port _ rfl (by exact hf)]
  simp only [Run.bind_ok, Memory.range_length, Nat.zero_add]

theorem codecId_mem (k : Codec) : (k, codecId k) ∈ ([(.null, 0), (.lz10, 1), (.lz11, 2),
    (.lzovl, 3), (.rle, 4), (.huf4, 5), (.huf8, 6), (.hufany, 8), (.gba, 9), (.nds, 10)] :
      List (Codec × BitVec 4)) := by
  cases k <;> decide

/-- A step at the head of a forward loop with `DEC_SIZE` bytes written is `Finish`. -/
theorem step_finish {s : State} (hp : s.seq.phase = .nullBody ∨ s.seq.phase = .rleBody ∨
      s.seq.phase = .lz10Body ∨ s.seq.phase = .lz11Body ∨ ∃ k, s.seq.phase = .node k)
    (hd : s.work.decSize ≤ s.work.outLen) : step s = settle (finishForward s) := by
  apply step_of_fetch_piece
  obtain h | h | h | h | ⟨k, h⟩ := hp <;> simp only [fetch, h, fetchLoop_done _ hd]

theorem step_flush {s : State} (hp : s.seq.phase = .ovlBody) (hw : s.ovl.u ≤ s.ovl.w) :
    step s = settle (flushOvl s) := by
  apply step_of_fetch_piece
  simp only [fetch, hp, if_neg (Nat.not_lt.mpr hw)]

/-- Settles O4: outside a trial run the output stands already; in one the commit puts it out; the flush
puts the region's buffer out. -/
theorem finishEndsTheDecode : Obligations.FinishEndsTheDecode := by
  intro s hm hf
  refine ⟨fun hp hd => ?_, fun hp ht hout hw => ?_⟩
  · rw [step_finish hp hd, finishForward]
    have htmi : ∀ n sub, afterOk n (decide (align4 s.work.inPos < s.work.declLen)) sub s.host =
        { s.host with
          status := if (s.work.inPos + 3) / 4 * 4 < s.work.declLen then 0x42 else 0x02,
          resultLen := n, errPos := 0, errWritten := 0, errExpected := 0, lastSub := sub } := by
      intro n sub
      rw [afterOk]
      congr 1
      exact if_congr decide_eq_true_iff rfl rfl
    cases htr : s.seq.trial with
    | none =>
      rw [endDecode_plain _ htr, settle_ok]
      exact ⟨_, noSub, rfl, rfl, rfl, rfl, by rw [endOk_host, htmi], rfl⟩
    | some tr =>
      rw [endDecode, htr]
      simp only [commit_noFault _ _ _ _ hf, settle_ok]
      refine ⟨_, codecId tr.member, rfl, rfl, rfl, codecId_mem tr.member,
        by rw [endOk_host, htmi], ?_, rfl⟩
      exact Memory.stored_store _ 0 hm.omem
  · rw [step_flush hp hw, flushOvl, outBytes_port _ ht hf, Run.bind_ok,
      endDecode_plain _ (by exact ht), settle_ok]
    refine ⟨_, rfl, rfl, rfl, ?_, rfl, rfl, ?_⟩
    · have h := Memory.stored_store (Memory.range s.mem.ovlbuf 0 (s.ovl.p + s.ovl.u)) 0 hm.omem
      rwa [← hout] at h ⊢
    · rw [endOk_host]
      simp only [hout, Memory.range_length, Nat.zero_add]
      rfl

/-! ### COMPRESS of a simple codec (O11) -/

/-- The encoder's run with no fault due, where there is no stream (R397). -/
theorem runEncoder_failed {c : Codec} {s : State} (hf : s.env.ioFault = none)
    (h : encodeStream c s = none) :
    runEncoder c s = .raised (.invalidData 0) { s with enc := encodeScratch c s } := by
  rw [runEncoder, portAccesses_noFault _ s hf, Run.bind_ok]
  simp only [h]

/-- The encoder's run with no fault due writes its stream. -/
theorem runEncoder_writes {c : Codec} {s : State} {bytes : List Byte} (hf : s.env.ioFault = none)
    (h : encodeStream c s = some bytes) :
    runEncoder c s = outBytes bytes { s with enc := encodeScratch c s } := by
  rw [runEncoder, portAccesses_noFault _ s hf, Run.bind_ok]
  simp only [h]

/-- The three tests of COMPRESS are passed by a simple codec. -/
theorem compressCommand_simple {c : Codec} {s : State} (hm : codecMembers c = []) (hc : c ≠ .lzovl)
    (hlen : s.work.declLen ≤ 0xFFFFFF) (hsrc : s.work.declLen ≤ s.env.srcLen) :
    compressCommand c s =
      (runEncoder c s).bind fun _ s => .ok () (endOk s.work.outLen false noSub s) := by
  have hmax : ¬ Config.len24Max < s.work.declLen := Nat.not_lt.mpr hlen
  rw [compressCommand, if_neg (by rwa [codecCanCompress_eq_false]), if_neg hmax,
    if_neg (Nat.not_lt.mpr hsrc)]
  simp only [hm]

/-- The three tests of COMPRESS are passed by a composite. -/
theorem compressCommand_composite {c : Codec} {s : State} (hm : codecMembers c ≠ [])
    (hlen : s.work.declLen ≤ 0xFFFFFF) (hsrc : s.work.declLen ≤ s.env.srcLen) :
    compressCommand c s = compressMembers (codecMembers c) none none s := by
  have hc : c ≠ .lzovl := by rintro rfl; exact hm rfl
  have hmax : ¬ Config.len24Max < s.work.declLen := Nat.not_lt.mpr hlen
  rw [compressCommand, if_neg (by rwa [codecCanCompress_eq_false]), if_neg hmax,
    if_neg (Nat.not_lt.mpr hsrc)]
  split
  · exact absurd ‹_› hm
  · rfl

/-- The simple codecs of COMPRESS with the streams of their encoders. -/
theorem encodeStream_simple {id : BitVec 4} {s : State} {x : List Byte} {stream : Option (List Byte)}
    (hx : x = Memory.range s.mem.imem 0 s.host.argLen.toNat)
    (h : (id, stream) ∈ ([(0, some (nullStream x)),
      (1, some (lz10Stream x (s.host.ctrl.getLsbD 0))),
      (2, some (lz11Stream x (s.host.ctrl.getLsbD 1))), (4, some (rleStream x)),
      (5, hufStream .huf4 none x), (6, hufStream .huf8 s.env.huf8Order x)] :
        List (BitVec 4 × Option (List Byte)))) :
    (id ≠ 6 → stream ≠ none) ∧ ∃ c, codecOfId id = some c ∧ codecMembers c = [] ∧ c ≠ .lzovl ∧
      encodeStream c (commandStart s) = stream := by
  subst hx
  simp only [List.mem_cons, Prod.mk.injEq, List.not_mem_nil, or_false] at h
  obtain ⟨rfl, rfl⟩ | ⟨rfl, rfl⟩ | ⟨rfl, rfl⟩ | ⟨rfl, rfl⟩ | ⟨rfl, rfl⟩ | ⟨rfl, rfl⟩ := h
  · exact ⟨fun _ => by simp, .null, rfl, rfl, by simp, rfl⟩
  · exact ⟨fun _ => by simp, .lz10, rfl, rfl, by simp, rfl⟩
  · exact ⟨fun _ => by simp, .lz11, rfl, rfl, by simp, rfl⟩
  · exact ⟨fun _ => by simp, .rle, rfl, rfl, by simp, rfl⟩
  · exact ⟨fun _ => hufStream_huf4_ne_none none _, .huf4, rfl, rfl, by simp, rfl⟩
  · exact ⟨fun h => absurd rfl h, .huf8, rfl, rfl, by simp, rfl⟩

/-- Settles O11: the plaintext is read, and the stream is stored, or there is none. -/
theorem compressWritesTheStream : Obligations.CompressWritesTheStream := by
  intro id s x stream hm hf hlen hsrc hx h
  obtain ⟨hne, c, hc, hmembers, hovl, henc⟩ := encodeStream_simple hx h
  refine ⟨hne, ?_⟩
  rw [exec_cmdCompress hc, compressCommand_simple hmembers hovl hlen hsrc]
  cases stream with
  | none =>
    rw [runEncoder_failed (by exact hf) henc, Run.bind_raised, settle_raised,
      takeError_plain _ _ rfl]
    exact ⟨_, rfl, rfl, rfl, rfl, failWith_invalidData_host 0 _⟩
  | some bytes =>
    rw [runEncoder_writes (by exact hf) henc, outBytes_port bytes rfl (by exact hf), Run.bind_ok,
      settle_ok]
    refine ⟨_, rfl, rfl, rfl, Memory.stored_store bytes 0 hm.omem, ?_⟩
    rw [endOk_host]
    exact congrArg (afterOk · false 0xF s.host) (Nat.zero_add _)

/-! ### COMPRESS of a composite (O13) -/

/-- What the loop of `Composite_Compress` keeps from its start: only CBUF, the encoder's part and the
run's registers change (R428). -/
structure Compressing (s t : State) : Prop where
  host : t.host = s.host
  env : t.env = s.env
  mem : t.mem = { s.mem with cbuf := t.mem.cbuf }

theorem encodeStream_congr (k : Codec) {s t : State} (hlen : t.work.declLen = s.work.declLen)
    (hmem : t.mem.imem = s.mem.imem) (hhost : t.host.ctrl = s.host.ctrl)
    (henv : t.env.huf8Order = s.env.huf8Order) : encodeStream k t = encodeStream k s := by
  unfold encodeStream plaintext
  rw [hlen, hmem, hhost, henv]

/-- A member's encoder works from the same plaintext and options as at the command's start. -/
theorem encodeStream_beginTrial (k j : Codec) (ks : List Codec) {s t : State}
    (h : Compressing (commandStart s) t) :
    encodeStream j (beginTrial k ks t) = encodeStream j (commandStart s) := by
  refine encodeStream_congr j ?_ ?_ ?_ ?_
  · show t.host.argLen.toNat = _
    rw [h.host]; rfl
  · show t.mem.imem = _
    rw [h.mem]
  · show t.host.ctrl = _
    rw [h.host]
  · show t.env.huf8Order = _
    rw [h.env]

/-- `best` is the smallest of the streams of the members done, the earliest among equals (R428). -/
def BestOf (s : State) (done : List Codec) : Option TrialRun → Prop
  | none => ∀ j ∈ done, encodeStream j (commandStart s) = none
  | some b => ∃ before after bytes, done = before ++ b.member :: after ∧
    encodeStream b.member (commandStart s) = some bytes ∧ b.len = bytes.length ∧
    b.buf = Memory.store 0 bytes [] ∧
    (∀ j ∈ before, ∀ other, encodeStream j (commandStart s) = some other →
      bytes.length < other.length) ∧
    (∀ j ∈ after, ∀ other, encodeStream j (commandStart s) = some other →
      bytes.length ≤ other.length)

theorem BestOf.failed {s : State} {done : List Codec} {best : Option TrialRun} {k : Codec}
    (h : BestOf s done best) (hk : encodeStream k (commandStart s) = none) :
    BestOf s (done ++ [k]) best := by
  cases best with
  | none =>
    intro j hj
    obtain hj | hj := List.mem_append.mp hj
    · exact h j hj
    · rw [List.mem_singleton.mp hj, hk]
  | some b =>
    obtain ⟨before, after, bytes, hdone, henc, hlen, hbuf, hbefore, hafter⟩ := h
    refine ⟨before, after ++ [k], bytes, by simp [hdone], henc, hlen, hbuf, hbefore, ?_⟩
    intro j hj other hother
    obtain hj | hj := List.mem_append.mp hj
    · exact hafter j hj other hother
    · rw [List.mem_singleton.mp hj, hk] at hother; cases hother

/-- A finished run is put beside the best so far. -/
theorem BestOf.finished {s : State} {done : List Codec} {best : Option TrialRun} {k : Codec}
    {bytes : List Byte} (h : BestOf s done best)
    (hk : encodeStream k (commandStart s) = some bytes) :
    BestOf s (done ++ [k]) (if improves bytes.length best then
      some ⟨k, bytes.length, Memory.store 0 bytes []⟩ else best) := by
  cases best with
  | none =>
    refine ⟨done, [], bytes, rfl, hk, rfl, rfl, fun j hj other ho => ?_, fun j hj => nomatch hj⟩
    rw [h j hj] at ho; cases ho
  | some b =>
    obtain ⟨before, after, least, hdone, henc, hlen, hbuf, hbefore, hafter⟩ := h
    by_cases himp : bytes.length < b.len
    · rw [if_pos (by simpa [improves] using himp)]
      refine ⟨done, [], bytes, rfl, hk, rfl, rfl, fun j hj other ho => ?_, fun j hj => nomatch hj⟩
      rw [hlen] at himp
      rw [hdone] at hj
      obtain hj | hj := List.mem_append.mp hj
      · exact himp.trans (hbefore j hj other ho)
      · obtain rfl | hj := List.mem_cons.mp hj
        · rw [henc] at ho; cases ho; exact himp
        · exact himp.trans_le (hafter j hj other ho)
    · rw [if_neg (by simpa [improves] using himp)]
      refine ⟨before, after ++ [k], least, by simp [hdone], henc, hlen, hbuf, hbefore, ?_⟩
      intro j hj other ho
      obtain hj | hj := List.mem_append.mp hj
      · exact hafter j hj other ho
      · rw [List.mem_singleton.mp hj, hk] at ho; cases ho; omega

/-- The loop with no fault due: it commits the best of all members, or the first error is Invalid-data
at 0. -/
theorem compressMembers_noFault {s t : State} (ks done : List Codec) (best : Option TrialRun)
    {firstErr : Option Err} (hk : ∀ k ∈ ks, k ≠ .lzovl) (ht : Compressing (commandStart s) t)
    (hf : s.env.ioFault = none) (hb : BestOf s done best)
    (he : firstErr.getD (.invalidData 0) = .invalidData 0) :
    ∃ u best', Compressing (commandStart s) u ∧ BestOf s (done ++ ks) best' ∧
      compressMembers ks best firstErr t = compressMembers [] best' none u := by
  induction ks generalizing done best firstErr t with
  | nil =>
    refine ⟨t, best, ht, by simpa using hb, ?_⟩
    cases best with
    | none => rw [compressMembers, he]; rfl
    | some b => rfl
  | cons k ks ih =>
    have hcan : codecCanCompress k = true := by
      rw [← Bool.not_eq_false, codecCanCompress_eq_false]
      exact hk k (by simp)
    have hks : ∀ x ∈ ks, x ≠ .lzovl := fun x hx => hk x (by simp [hx])
    have hfault : (beginTrial k ks t).env.ioFault = none := by
      show t.env.ioFault = none
      rw [ht.env]; exact hf
    have henc := encodeStream_beginTrial k k ks ht
    have hdone : done ++ k :: ks = (done ++ [k]) ++ ks := by simp
    rw [compressMembers, if_pos hcan, hdone]
    cases hstream : encodeStream k (commandStart s) with
    | none =>
      rw [runEncoder_failed hfault (henc.trans hstream)]
      simp only [reduceCtorEq, if_false]
      refine ih (done ++ [k]) best hks ⟨ht.host, ht.env, ?_⟩ (hb.failed hstream) ?_
      · show { t.mem with cbuf := [] } = _
        rw [ht.mem]; rfl
      · cases firstErr with
        | none => rfl
        | some e => exact he
    | some bytes =>
      rw [runEncoder_writes hfault (henc.trans hstream), outBytes_trial bytes (tr := ⟨k, ks⟩) rfl]
      simp only [beginTrial, startRun, Nat.zero_add]
      refine ih (done ++ [k]) _ hks ⟨ht.host, ht.env, ?_⟩ (hb.finished hstream) he
      rw [ht.mem]

theorem codecId_trialMember {k : Codec} (h : k ∈ trialMembers) :
    (k, codecId k) ∈ ([(.huf4, 5), (.huf8, 6), (.lz10, 1), (.lz11, 2)] :
      List (Codec × BitVec 4)) := by
  have hall : ∀ k ∈ trialMembers, (k, codecId k) ∈ ([(.huf4, 5), (.huf8, 6), (.lz10, 1), (.lz11, 2)] :
      List (Codec × BitVec 4)) := by decide
  exact hall k h

/-- Settles O13: the loop's best run, or the first error. -/
theorem compositeCommitsTheSmallest : Obligations.CompositeCommitsTheSmallest := by
  intro id c s hc hmembers hm hf hlen hsrc
  have hsub := codecMembers_subset c
  obtain ⟨u, best, hu, hbest, hrun⟩ := compressMembers_noFault (s := s) (t := commandStart s)
    (firstErr := none) (codecMembers c) [] none
    (fun k hk => by rintro rfl; exact absurd (hsub _ hk) (by decide)) ⟨rfl, rfl, rfl⟩ hf
    (fun j hj => nomatch hj) rfl
  rw [List.nil_append] at hbest
  have hfault : u.env.ioFault = none := by rw [hu.env]; exact hf
  rw [exec_cmdCompress hc, compressCommand_composite hmembers hlen hsrc, hrun]
  cases best with
  | none =>
    rw [compressMembers, settle_raised, takeError_plain _ _ rfl]
    refine ⟨_, rfl, rfl, rfl, ?_, .inr ⟨hbest, ?_, ?_⟩⟩
    · show u.mem = _
      rw [hu.mem]; rfl
    · show u.mem.omem = _
      rw [hu.mem]; rfl
    · show (failWith (.invalidData 0) _).host = _
      rw [failWith_invalidData_host]
      show afterInvalid 0 u.host = _
      rw [hu.host]; rfl
  | some b =>
    obtain ⟨before, after, bytes, hsplit, henc, hblen, hbuf, hbefore, hafter⟩ := hbest
    have hrange : Memory.range b.buf 0 b.len = bytes := by
      rw [hbuf, hblen]
      exact (Memory.stored_store bytes 0 Memory.wf_nil).range
    rw [compressMembers, commit_noFault _ _ _ _ hfault, settle_ok, hrange]
    refine ⟨_, rfl, rfl, rfl, ?_, .inl ⟨before, b.member, after, bytes, codecId b.member, hsplit,
      codecId_trialMember (hsub _ (by simp [hsplit])), henc, hbefore, hafter, ?_, ?_⟩⟩
    · exact congrArg (fun m : Mems => { m with omem := Memory.store 0 bytes u.mem.omem }) hu.mem
    · show Stored s.mem.omem (Memory.store 0 bytes u.mem.omem) 0 bytes
      rw [hu.mem]
      exact Memory.stored_store bytes 0 hm.omem
    · rw [endOk_host, hblen]
      show afterOk _ _ _ u.host = _
      rw [hu.host]; rfl

end Sys2Proof.Machine

/-!
What a running decoder's step can have done, said once: the token found at its place, with the fields it
was found with (`TokenRun`), where the step ended and the decoder runs on. The statements that every
decode ends and that a decoder stays in its bounds rest on it (O41, O44).
-/
namespace Sys2Proof.Machine

/-! ### Bytes that are no token -/

/-- A forward place: its tokens are read at `IN_POS` and are no longer than four bytes. -/
def isForward : Place → Bool
  | .cmd | .ovlTrailer | .hufNode | .hufBit | .hufLeaf _ | .ovlFlags | .ovlBlock _ => false
  | _ => true

/-- Four bytes are a token of a forward place, but for a byte 0 that is not the magic. -/
theorem decode_four {p : Place} (hp : isForward p = true) (b0 b1 b2 b3 : Byte) (bs : List Byte)
    {e : DecodeError} (h : decode p (b0 :: b1 :: b2 :: b3 :: bs) = .rejected e) :
    ∃ b, e = .badMagic b := by
  cases p with
  | cmd | ovlTrailer | hufNode | hufBit | hufLeaf k | ovlFlags | ovlBlock f => cases hp
  | header c =>
    simp only [decode, decodeHeader] at h
    split at h
    · cases h; exact ⟨b0, rfl⟩
    · cases h
  | lz11Block f =>
    cases f with
    | false => cases h
    | true =>
      simp only [decode, decodeLz11Ref] at h
      split at h
      · cases h
      · split at h <;> cases h
  | rleGroup =>
    simp only [decode, decodeRle] at h
    split at h <;> cases h
  | lz10Block f => cases f <;> cases h
  | _ => cases h

theorem length_readable (s : State) :
    (readable s).length = min 4 (min s.work.declLen s.env.srcLen - s.work.inPos) := by
  simp [readable]

/-- A cut token never ends well: the byte it misses is not there. -/
theorem cutToken_ne_ok {p : Place} (hp : isForward p = true) {s t : State} {e : DecodeError}
    (h : decode p (readable s) = .rejected e) (hm : ∀ b, e ≠ .badMagic b) :
    cutToken p s ≠ .ok () t := by
  have hshort : (readable s).length < 4 := by
    by_contra hlong
    obtain ⟨b0, b1, b2, b3, bs, hbs⟩ : ∃ b0 b1 b2 b3 bs, readable s = b0 :: b1 :: b2 :: b3 :: bs := by
      match hr : readable s with
      | b0 :: b1 :: b2 :: b3 :: bs => exact ⟨b0, b1, b2, b3, bs, rfl⟩
      | [] | [_] | [_, _] | [_, _, _] => rw [hr] at hlong; simp at hlong
    rw [hbs] at h
    obtain ⟨b, hb⟩ := decode_four hp _ _ _ _ _ h
    exact hm b hb
  rw [length_readable] at hshort
  have hmiss : ∀ {n : Nat} {u v : State}, consume (n + 1) u = .ok () v →
      u.work.inPos + (n + 1) ≤ u.work.declLen ∧ u.work.inPos + (n + 1) ≤ u.env.srcLen := by
    intro n u v hc
    obtain ⟨k, -, h0 | h1⟩ := consume_ok hc
    · cases h0
    · exact h1
  intro hcut
  unfold cutToken at hcut
  split at hcut
  · next hr =>
    have := hmiss hcut
    have hlen := length_readable s
    rw [hr] at hlen
    simp only [beginToken, List.length_nil] at this hlen
    omega
  · next f bs hr =>
    obtain ⟨_, u, hf, hc⟩ := Run.bind_eq_ok hcut
    obtain ⟨_, v, hv, hu⟩ := Run.bind_eq_ok hf
    obtain ⟨k, rfl, -⟩ := consume_ok hv
    cases hu
    have := hmiss hc
    have hlen := length_readable s
    rw [hr] at h hlen
    cases bs with
    | nil => simp only [beginToken, List.length_singleton] at hlen this; omega
    | cons d bs =>
      simp only [decode, decodeRle] at h
      split at h <;> cases h
  · have := hmiss hcut
    rw [length_readable] at this
    have hpos : ∀ b : Bool, (if b then beginToken s else s).work.inPos = s.work.inPos ∧
        (if b then beginToken s else s).work.declLen = s.work.declLen ∧
        (if b then beginToken s else s).env = s.env := by intro b; cases b <;> exact ⟨rfl, rfl, rfl⟩
    obtain ⟨h1, h2, h3⟩ := hpos (marksPos _)
    rw [h1, h2, h3] at this
    omega

/-- A forward piece that ended is a token found at `IN_POS`. -/
theorem fetchForward_ok {p : Place} (hp : isForward p = true) {s t : State}
    (h : (fetchForward p s).run = .ok () t) :
    ∃ i, decode p (readable s) = .instr i ∧ (fetchForward p s).run = meaning i s := by
  unfold fetchForward at h ⊢
  split at h
  · next i hi => exact ⟨i, hi, rfl⟩
  · obtain ⟨_, u, -, hu⟩ := Run.bind_eq_ok h
    cases hu
  · next e hm hd => exact absurd h (cutToken_ne_ok hp hd (fun b hb => hm b hb))

/-- A piece of the overlay region that ended is a token found at the downward cursor. -/
theorem fetchBack_ok {p : Place} (hp : p = .ovlFlags ∨ ∃ f, p = .ovlBlock f) {s t : State}
    (h : (fetchBack p s).run = .ok () t) :
    ∃ i, decode p (readableBack s) = .instr i ∧ (fetchBack p s).run = meaning i s := by
  unfold fetchBack at h ⊢
  split at h
  · next i hi => exact ⟨i, hi, rfl⟩
  next e hd =>
    have hlen : (readableBack s).length = min 2 (s.ovl.ip - s.ovl.p) := by simp [readableBack]
    have hone : ∀ {b u}, rdBack s = .ok b u → 1 ≤ (readableBack s).length := by
      intro b u hr
      rcases rdBack_cases s with ⟨k, hlt, -⟩ | ⟨-, hc⟩ | ⟨-, hc⟩
      · omega
      · rw [hc] at hr; cases hr
      · rw [hc] at hr; cases hr
    have htwo : ∀ {u}, rdBackRef s = .ok () u → 2 ≤ (readableBack s).length := by
      intro u hr
      rcases rdBackRef_cases s with ⟨k, hlt, -⟩ | ⟨-, hc⟩ | ⟨k, -, hc⟩ | ⟨ip, pos, hc⟩
      · omega
      all_goals rw [hc] at hr; cases hr
    exfalso
    simp only [Fetched.run] at h
    unfold cutBack at h
    split at h
    · have hl := htwo h
      match hr : readableBack s with
      | b1 :: b2 :: bs => rw [hr] at hd; cases hd
      | [] | [_] => rw [hr] at hl; simp at hl
    · next hp' =>
      obtain ⟨b, u, hu, -⟩ := Run.bind_eq_ok h
      have hl := hone hu
      match hr : readableBack s with
      | b1 :: bs =>
        rw [hr] at hd
        obtain rfl | ⟨f, rfl⟩ := hp
        · cases hd
        · cases f with
          | false => cases hd
          | true => exact hp' rfl
      | [] => rw [hr] at hl; simp at hl

/-! ### The token of each place -/

/-- The token found at a running decoder's place, as the piece it runs. -/
inductive TokenRun (s : State) : Run Unit → Prop where
  | header (c : Fwd) (n : BitVec 24) (hp : s.seq.phase = .header c) :
    TokenRun s (parseHeader c n s)
  | ext (c : Fwd) (n : BitVec 32) (hp : s.seq.phase = .ext c) : TokenRun s (meaning (.hdrExt n) s)
  | nullByte (d : Byte) (hp : s.seq.phase = .nullBody) (hlt : s.work.outLen < s.work.decSize) :
    TokenRun s (meaning (.nullByte d) s)
  | flags (f : Byte) (hp : s.seq.phase = .lz10Body ∨ s.seq.phase = .lz11Body)
    (hlt : s.work.outLen < s.work.decSize) : TokenRun s (flagsToken f s)
  | lit (d : Byte) (hp : s.seq.phase = .lz10Body ∨ s.seq.phase = .lz11Body)
    (hlt : s.work.outLen < s.work.decSize) : TokenRun s (literalToken d (dropFlagMsb s))
  | ref (n l : Nat) (disp : BitVec 12) (hp : s.seq.phase = .lz10Body ∨ s.seq.phase = .lz11Body)
    (hlt : s.work.outLen < s.work.decSize) (hn : 1 ≤ n) :
    TokenRun s (refToken n l (lzDisp disp) (dropFlagMsb s))
  | rleRun (n : BitVec 7) (d : Byte) (hp : s.seq.phase = .rleBody)
    (hlt : s.work.outLen < s.work.decSize) : TokenRun s (meaning (.rleRun n d) s)
  | rleRaw (n : BitVec 7) (hp : s.seq.phase = .rleBody) (hlt : s.work.outLen < s.work.decSize) :
    TokenRun s (meaning (.rleRaw n) s)
  | treeSize (k : HufKind) (b : Byte) (bs : List Byte) (hp : s.seq.phase = .treeSize k)
    (hb : readable s = b :: bs) : TokenRun s (meaning (.hufTsize b) s)
  | treeTable (k : HufKind) (b : Byte) (bs : List Byte) (hp : s.seq.phase = .treeTable k)
    (hb : readable s = b :: bs) : TokenRun s (meaning (.hufTable b) s)
  | node (k : HufKind) (hp : s.seq.phase = .node k) (hlt : s.work.outLen < s.work.decSize) :
    TokenRun s (.ok () { s with seq.nodeByte := Memory.read s.work.nodePos s.mem.tree,
                                seq.phase := .bit k })
  | word (k : HufKind) (w : BitVec 32) (hp : s.seq.phase = .bit k) (hc : s.work.bitCnt = 0) :
    TokenRun s (meaning (.hufWord w) s)
  | bit (k : HufKind) (b : Bool) (hp : s.seq.phase = .bit k) (hc : s.work.bitCnt ≠ 0) :
    TokenRun s (walkBit b (dropBit s))
  | leaf8 (b : Byte) (hp : s.seq.phase = .leaf .huf8) : TokenRun s (meaning (.hufLeaf8 b) s)
  | leaf4 (b : Byte) (hp : s.seq.phase = .leaf .huf4) : TokenRun s (meaning (.hufLeaf4 b) s)
  | trailer (cl : BitVec 24) (hs : Byte) (extra : BitVec 32) (hp : s.seq.phase = .ovlTrailer) :
    TokenRun s (meaning (.ovlTrailer cl hs extra) s)
  | ovlFlags (f : Byte) (hp : s.seq.phase = .ovlBody) (hlt : s.ovl.w < s.ovl.u) :
    TokenRun s (meaning (.ovlFlags f) s)
  | ovlLit (d : Byte) (hp : s.seq.phase = .ovlBody) (hlt : s.ovl.w < s.ovl.u) :
    TokenRun s (meaning (.ovlLit d) (dropFlagLsb s))
  | ovlRef (len : BitVec 4) (disp : BitVec 12) (hp : s.seq.phase = .ovlBody)
    (hlt : s.ovl.w < s.ovl.u) : TokenRun s (meaning (.ovlRef len disp) (dropFlagLsb s))

/-- What decodes stands at its place. -/
theorem place_of_decode {p : Place} {bs : List Byte} {i : Instr} (h : decode p bs = .instr i) :
    i.place = p := (encodeInvertsDecode p bs i h).1

/-- The end of a decode ends in a state in which nothing runs. -/
theorem endDecode_ok_idle {tmi : Bool} {s t : State} (h : endDecode tmi s = .ok () t) :
    t.seq.phase = .idle := by
  unfold endDecode at h
  split at h
  · cases h; rfl
  · next tr _ =>
    rcases commit_cases s.mem.cbuf s.work.outLen tr.member tmi s with ⟨v, -, hc⟩ | ⟨e, v, -, -, hc⟩
    · rw [hc] at h; cases h; rfl
    · rw [hc] at h; cases h

/-- A loop's piece after which the decoder runs on is its body's. -/
theorem fetchLoop_ok {next : State → Fetched} {s t : State} (h : (fetchLoop next s).run = .ok () t)
    (ht : t.seq.phase ≠ .idle) :
    s.work.outLen < s.work.decSize ∧ (fetchLoop next s).run = (next s).run := by
  unfold fetchLoop at h ⊢
  split at h
  · next hlt => exact ⟨hlt, by rw [if_pos hlt]⟩
  · exact absurd (endDecode_ok_idle h) ht

theorem fetchLz_ok {p : Place} {b : Bool → Place} (hp : isForward p = true)
    (hb : ∀ f, isForward (b f) = true) {s t : State} (h : (fetchLz p b s).run = .ok () t) :
    (∃ i, i.place = p ∧ (fetchLz p b s).run = meaning i s) ∨
    (∃ i f, i.place = b f ∧ (fetchLz p b s).run = meaning i (dropFlagMsb s)) := by
  by_cases hc : s.work.flagCnt = 0
  · rw [fetchLz_flags p b hc] at h ⊢
    obtain ⟨i, hi, hrun⟩ := fetchForward_ok hp h
    exact .inl ⟨i, place_of_decode hi, hrun⟩
  · rw [fetchLz_block p b hc] at h ⊢
    obtain ⟨i, hi, hrun⟩ := fetchForward_ok (hb _) h
    exact .inr ⟨i, _, place_of_decode hi, hrun⟩

/-- The first byte a place can read is the one at `IN_POS`. -/
theorem readable_head {s : State} {b : Byte} {bs : List Byte} (h : readable s = b :: bs) :
    b = Memory.read s.work.inPos s.mem.imem := by
  have hlen : 0 < (readable s).length := by rw [h]; simp
  have hget := Memory.range_getD s.mem.imem s.work.inPos
    (min 4 (min s.work.declLen s.env.srcLen - s.work.inPos)) 0 (by simpa [readable] using hlen)
  change (readable s).getD 0 0 = _ at hget
  rw [h] at hget
  simpa using hget

/-- The token of an LZ decoder's loop. -/
theorem TokenRun.ofLz {s t : State} {p : Place} {b : Bool → Place}
    (h : (fetchLoop (fetchLz p b) s).run = .ok () t) (ht : t.seq.phase ≠ .idle)
    (hlz : (s.seq.phase = .lz10Body ∧ p = .lz10Flags ∧ b = .lz10Block) ∨
      (s.seq.phase = .lz11Body ∧ p = .lz11Flags ∧ b = .lz11Block)) :
    TokenRun s (fetchLoop (fetchLz p b) s).run := by
  obtain ⟨hlt, hrun⟩ := fetchLoop_ok h ht
  have hp : s.seq.phase = .lz10Body ∨ s.seq.phase = .lz11Body := hlz.imp (·.1) (·.1)
  have hfwd : isForward p = true ∧ ∀ f, isForward (b f) = true := by
    obtain ⟨-, rfl, rfl⟩ | ⟨-, rfl, rfl⟩ := hlz <;> exact ⟨rfl, fun _ => rfl⟩
  rw [hrun] at h ⊢
  rcases fetchLz_ok hfwd.1 hfwd.2 h with ⟨i, hi, e⟩ | ⟨i, f, hi, e⟩
  · rw [e]
    cases i with
    | lz10Flags d | lz11Flags d => exact .flags d hp hlt
    | _ => obtain ⟨-, rfl, rfl⟩ | ⟨-, rfl, rfl⟩ := hlz <;> cases hi
  · rw [e]
    cases i with
    | lz10Lit d | lz11Lit d => exact .lit d hp hlt
    | lz10Ref len disp | lz11Ref2 len disp | lz11Ref3 len disp | lz11Ref4 len disp =>
      exact .ref _ _ disp hp hlt (by decide)
    | _ => obtain ⟨-, rfl, rfl⟩ | ⟨-, rfl, rfl⟩ := hlz <;> cases hi

/-- A step of a running decoder that ended, the decoder running on, is the token of its place. -/
theorem stepRun_token {s t : State} (hs : s.seq.phase ≠ .idle) (h : stepRun s = .ok () t)
    (ht : t.seq.phase ≠ .idle) : TokenRun s (stepRun s) := by
  rw [stepRun_eq] at h ⊢
  unfold fetch at h ⊢
  cases hp : s.seq.phase with
  | idle => exact absurd hp hs
  | header c =>
    simp only [hp] at h ⊢
    obtain ⟨i, hi, e⟩ := fetchForward_ok rfl h
    have hplace := place_of_decode hi
    rw [e]
    cases i <;> cases hplace <;> exact .header _ _ hp
  | ext c =>
    simp only [hp] at h ⊢
    obtain ⟨i, hi, e⟩ := fetchForward_ok rfl h
    have hplace := place_of_decode hi
    rw [e]
    cases i <;> cases hplace
    exact .ext c _ hp
  | nullBody =>
    simp only [hp] at h ⊢
    obtain ⟨hlt, hrun⟩ := fetchLoop_ok h ht
    rw [hrun] at h ⊢
    obtain ⟨i, hi, e⟩ := fetchForward_ok rfl h
    have hplace := place_of_decode hi
    rw [e]
    cases i <;> cases hplace
    exact .nullByte _ hp hlt
  | lz10Body =>
    simp only [hp] at h ⊢
    exact .ofLz h ht (.inl ⟨hp, rfl, rfl⟩)
  | lz11Body =>
    simp only [hp] at h ⊢
    exact .ofLz h ht (.inr ⟨hp, rfl, rfl⟩)
  | rleBody =>
    simp only [hp] at h ⊢
    obtain ⟨hlt, hrun⟩ := fetchLoop_ok h ht
    rw [hrun] at h ⊢
    obtain ⟨i, hi, e⟩ := fetchForward_ok rfl h
    have hplace := place_of_decode hi
    rw [e]
    cases i <;> cases hplace
    · exact .rleRun _ _ hp hlt
    · exact .rleRaw _ hp hlt
  | treeSize k =>
    simp only [hp] at h ⊢
    obtain ⟨i, hi, e⟩ := fetchForward_ok rfl h
    have hplace := place_of_decode hi
    rw [e]
    cases i <;> cases hplace
    next b =>
      match hr : readable s with
      | [] => rw [hr] at hi; cases hi
      | b' :: bs => rw [hr] at hi; cases hi; exact .treeSize k b bs hp hr
  | treeTable k =>
    simp only [hp] at h ⊢
    obtain ⟨i, hi, e⟩ := fetchForward_ok rfl h
    have hplace := place_of_decode hi
    rw [e]
    cases i <;> cases hplace
    next b =>
      match hr : readable s with
      | [] => rw [hr] at hi; cases hi
      | b' :: bs => rw [hr] at hi; cases hi; exact .treeTable k b bs hp hr
  | node k =>
    simp only [hp] at h ⊢
    obtain ⟨hlt, hrun⟩ := fetchLoop_ok h ht
    rw [hrun]
    have htoken := TokenRun.node k hp hlt
    rwa [show (fetchTree .hufNode s.work.nodePos s).run = _ from ?_]
    simp only [fetchTree, decode, Fetched.run, meaning, nodeByte_join, nodeByteOf, hp, afterNode]
  | bit k =>
    simp only [hp] at h ⊢
    by_cases hc : s.work.bitCnt = 0
    · rw [fetchBit_word hc] at h ⊢
      obtain ⟨i, hi, e⟩ := fetchForward_ok rfl h
      have hplace := place_of_decode hi
      rw [e]
      cases i <;> cases hplace
      exact .word k _ hp hc
    · rw [fetchBit_bit hc]
      exact .bit k _ hp hc
  | leaf k =>
    simp only [hp] at h ⊢
    cases k with
    | huf8 => exact .leaf8 _ hp
    | huf4 => exact .leaf4 _ hp
  | ovlTrailer =>
    simp only [hp] at h ⊢
    unfold fetchTrailer at h ⊢
    simp only [] at h ⊢
    split at h
    · cases h
    · split at h
      · cases h
      · next h1 h2 =>
        rw [if_neg h1, if_neg h2]
        split at h
        · next i hi =>
          have hplace := place_of_decode hi
          cases i <;> cases hplace
          · obtain ⟨_, u, -, hu⟩ := Run.bind_eq_ok h
            obtain ⟨_, v, -, hv⟩ := Run.bind_eq_ok hu
            exact absurd (endDecode_ok_idle hv) ht
          · exact .trailer _ _ _ hp
        · obtain ⟨_, u, -, hu⟩ := Run.bind_eq_ok h
          cases hu
  | ovlBody =>
    simp only [hp] at h ⊢
    split at h
    · next hlt =>
      rw [if_pos hlt]
      by_cases hc : s.work.flagCnt = 0
      · rw [fetchOvl_flags hc] at h ⊢
        obtain ⟨i, hi, e⟩ := fetchBack_ok (.inl rfl) h
        have hplace := place_of_decode hi
        rw [e]
        cases i <;> cases hplace
        exact .ovlFlags _ hp hlt
      · rw [fetchOvl_block hc] at h ⊢
        obtain ⟨i, hi, e⟩ := fetchBack_ok (.inr ⟨_, rfl⟩) h
        have hplace := place_of_decode hi
        rw [e]
        generalize nextFlagLsb s = f at hplace
        cases i <;> cases hplace
        · exact .ovlLit _ hp hlt
        · exact .ovlRef _ _ hp hlt
    · obtain ⟨_, u, -, hu⟩ := Run.bind_eq_ok h
      exact absurd (endDecode_ok_idle hu) ht

end Sys2Proof.Machine

/-!
Every decode ends (O41): a measure of the input left, of the bits and the places inside a walk, and of
the members left to try, which every step of a running decoder lowers. No invariant is needed.
-/
namespace Sys2Proof.Machine

/-! ### Runs -/

theorem Runs.zero (s : State) : Runs 0 s s := rfl

theorem Runs.succ {k : Nat} {s u t : State} (e : step s = .next u) (h : Runs k u t) :
    Runs (k + 1) s t := by
  have hcore : Sys2Proof.core.step s = .next u := e
  simp only [Runs, Host.Core.run, hcore]
  exact h

/-- A run splits after its first step. -/
theorem Runs.of_succ {k : Nat} {s t : State} (h : Runs (k + 1) s t) :
    ∃ u, step s = .next u ∧ Runs k u t := by
  obtain ⟨u, e⟩ := settle_next (stepRun s)
  rw [← step_eq_settle] at e
  have hcore : Sys2Proof.core.step s = .next u := e
  simp only [Runs, Host.Core.run, hcore] at h
  exact ⟨u, e, h⟩

theorem Runs.trans {j k : Nat} {s u t : State} (h1 : Runs j s u) (h2 : Runs k u t) :
    Runs (j + k) s t := by
  induction j generalizing s with
  | zero =>
    cases h1
    rwa [Nat.zero_add]
  | succ j ih =>
    obtain ⟨v, e, hv⟩ := h1.of_succ
    rw [Nat.succ_add]
    exact .succ e (ih hv)

/-! ### The measure -/

/-- The bytes of input not yet read. -/
def inputLeft (s : State) : Nat := s.work.declLen - s.work.inPos

/-- What a decoder has still to do: forty for each byte of input left, and in a walk five for each bit
left and up to four for its place; in the overlay region one for each byte of it left. -/
def workLeft (s : State) : Nat :=
  match s.seq.phase with
  | .idle => 0
  | .node _ => 40 * inputLeft s + 5 * s.work.bitCnt + 3
  | .bit _ => 40 * inputLeft s + 5 * s.work.bitCnt + if s.work.bitCnt = 0 then 2 else 1
  | .leaf _ => 40 * inputLeft s + 5 * s.work.bitCnt + 4
  | .ovlTrailer => 2 ^ 24
  | .ovlBody => s.ovl.ip - s.ovl.p
  | _ => 40 * inputLeft s

/-- A place whose work is the input left alone. -/
def CountsInput (p : Phase) : Prop := ∀ s : State, s.seq.phase = p → workLeft s = 40 * inputLeft s

theorem CountsInput.lt {s t : State} (hs : CountsInput s.seq.phase) (ht : CountsInput t.seq.phase)
    (h : inputLeft t < inputLeft s) : workLeft t < workLeft s := by
  rw [hs s rfl, ht t rfl]
  omega

theorem countsInput_of {p : Phase}
    (h : p ∈ [.nullBody, .lz10Body, .lz11Body, .rleBody] ∨ (∃ c, p = .header c) ∨ (∃ c, p = .ext c) ∨
      (∃ k, p = .treeSize k) ∨ ∃ k, p = .treeTable k) : CountsInput p := by
  intro s hs
  simp only [List.mem_cons, List.not_mem_nil, or_false] at h
  obtain (rfl | rfl | rfl | rfl) | ⟨c, rfl⟩ | ⟨c, rfl⟩ | ⟨k, rfl⟩ | ⟨k, rfl⟩ := h <;>
    simp only [workLeft, hs]

theorem countsInput_fwdBody (c : Fwd) : CountsInput (fwdBody c) := by
  cases c <;> exact countsInput_of (by simp [fwdBody])

/-- A piece that consumes bytes first and ends: they were declared, and the rest ends after them. -/
theorem consume_bind_ok {s t : State} {n : Nat} {f : Unit → State → Run Unit} (hn : 1 ≤ n)
    (h : (consume n s).bind f = .ok () t) :
    s.work.inPos + n ≤ s.work.declLen ∧
    ∃ k, f () { s with env.ioFault := k, work.inPos := s.work.inPos + n } = .ok () t := by
  obtain ⟨_, u, hu, ht⟩ := Run.bind_eq_ok h
  obtain ⟨k, rfl, h0 | ⟨hd, -⟩⟩ := consume_ok hu
  · omega
  · exact ⟨hd, k, ht⟩

theorem noteTreeBase_eq (c : Fwd) (s : State) : noteTreeBase c s =
    { s with work.treeBase := if fwdHasTree c then s.work.inPos else s.work.treeBase } := by
  unfold noteTreeBase
  split <;> rfl

theorem readTable_seq {n p : Nat} {s t : State} (h : readTable n p s = .ok () t) :
    t.seq = s.seq := by
  induction n generalizing p s with
  | zero => cases h; rfl
  | succ n ih =>
    obtain ⟨b, u, hu, ht⟩ := Run.bind_eq_ok h
    have hm := inByte_moved s
    rw [hu] at hm
    exact (ih ht).trans hm.seq

theorem extDone_eq {c : Fwd} {s : State} (hp : s.seq.phase = .ext c) :
    extDone s = noteTreeBase c { s with seq.phase := fwdBody c } := by
  simp only [extDone, hp]

/-- The cursor has passed bytes that were declared, and what followed has not put it back. -/
theorem inputLeft_lt {s u t : State} (hm : TokenMoves u t) (hd : s.work.inPos + 1 ≤ s.work.declLen)
    (hpos : s.work.inPos + 1 ≤ u.work.inPos) (hdecl : u.work.declLen = s.work.declLen) :
    inputLeft t < inputLeft s := by
  have hcur := hm.cursor.1
  have hdec := hm.declLen
  unfold inputLeft
  omega

theorem TokenMoves.ofOk {s t : State} {r : Run Unit} (h : TokenMoves s r.final) (e : r = .ok () t) :
    TokenMoves s t := by rwa [e] at h

theorem Moved.ofOk {s t : State} {r : Run Unit} (h : Moved s r.final) (e : r = .ok () t) :
    Moved s t := by rwa [e] at h

/-- A leaf's symbol is out and the walk goes back to the root. -/
theorem leaf_workLeft_lt {k : HufKind} {s t : State} (hp : s.seq.phase = .leaf k)
    (hm : TokenMoves s t) (hmoved : Moved s t) : workLeft (toRoot t) < workLeft s := by
  have hcur := hm.cursor.1
  have hdec := hm.declLen
  have hbit : t.work.bitCnt = s.work.bitCnt := by rw [hmoved.work]
  simp only [workLeft, hp, toRoot, hmoved.seq, afterLeaf, inputLeft]
  omega

theorem rdBack_ok {s t : State} {b : Byte} (h : rdBack s = .ok b t) :
    ∃ k, s.ovl.p < s.ovl.ip ∧ t = { s with env.ioFault := k, ovl.ip := s.ovl.ip - 1 } := by
  rcases rdBack_cases s with ⟨k, hlt, hc⟩ | ⟨-, hc⟩ | ⟨-, hc⟩ <;> rw [hc] at h <;> cases h
  exact ⟨k, hlt, rfl⟩

theorem rdBackRef_ok {s t : State} (h : rdBackRef s = .ok () t) :
    ∃ k, s.ovl.p + 2 ≤ s.ovl.ip ∧
      t = { s with env.ioFault := k, ovl.ip := s.ovl.ip - 2, work.tokPos := s.ovl.ip - 1 } := by
  rcases rdBackRef_cases s with ⟨k, hlt, hc⟩ | ⟨-, hc⟩ | ⟨k, -, hc⟩ | ⟨ip, pos, hc⟩ <;>
    rw [hc] at h <;> cases h
  exact ⟨k, hlt, rfl⟩

/-- The copy of the overlay region reads no input. -/
theorem ovlCopy_cursors (l d : Nat) (s : State) : (ovlCopy l d s).seq = s.seq ∧
    (ovlCopy l d s).ovl.p = s.ovl.p ∧ (ovlCopy l d s).ovl.ip = s.ovl.ip := by
  induction l generalizing s with
  | zero => exact ⟨rfl, rfl, rfl⟩
  | succ l ih =>
    rw [ovlCopy]
    split
    · exact ⟨rfl, rfl, rfl⟩
    · exact ih _

theorem workLeft_ovlCopy (l d : Nat) {s : State} (hp : s.seq.phase = .ovlBody) :
    workLeft (ovlCopy l d s) = s.ovl.ip - s.ovl.p := by
  obtain ⟨hseq, hlow, hip⟩ := ovlCopy_cursors l d s
  simp only [workLeft, hseq, hp, hlow, hip]

/-- A token after which the decoder runs on leaves less work. -/
theorem TokenRun.workLeft_lt {s t : State} {r : Run Unit} (h : TokenRun s r) (e : r = .ok () t) :
    workLeft t < workLeft s := by
  cases h with
  | header c n hp =>
    obtain ⟨hd, k, ht⟩ := consume_bind_ok (by decide) e
    rw [noteTreeBase_eq] at ht
    cases ht
    refine CountsInput.lt (countsInput_of (by simp [hp])) ?_ ?_
    · show CountsInput (if n = 0 then .ext c else fwdBody c)
      split
      · exact countsInput_of (by simp)
      · exact countsInput_fwdBody c
    · exact inputLeft_lt (.refl _) (by simp only [beginToken] at hd; omega) (by simp [beginToken]) rfl
  | ext c n hp =>
    obtain ⟨hd, k, ht⟩ := consume_bind_ok (by decide) e
    rw [extDone_eq (c := c) (by exact hp), noteTreeBase_eq] at ht
    cases ht
    exact CountsInput.lt (countsInput_of (by simp [hp])) (countsInput_fwdBody c)
      (inputLeft_lt (.refl _) (by omega) (by simp) rfl)
  | nullByte d hp hlt =>
    obtain ⟨hd, k, ht⟩ := consume_bind_ok le_rfl e
    have hseq := ((outByte_moved d _).ofOk ht).seq
    refine CountsInput.lt (countsInput_of (by simp [hp])) (countsInput_of (by simp [hseq, hp])) ?_
    exact inputLeft_lt ((outByte_moves d _).ofOk ht) hd le_rfl rfl
  | flags f hp hlt =>
    obtain ⟨hd, k, ht⟩ := consume_bind_ok le_rfl e
    cases ht
    have hc : CountsInput s.seq.phase := countsInput_of (by obtain h | h := hp <;> simp [h])
    exact hc.lt hc (inputLeft_lt (loadFlags_moves f _) hd le_rfl rfl)
  | lit d hp hlt =>
    obtain ⟨hd, k, ht⟩ := consume_bind_ok le_rfl e
    have hseq := ((outByteWin_moved d _).ofOk ht).seq
    have hc : CountsInput s.seq.phase := countsInput_of (by obtain h | h := hp <;> simp [h])
    exact hc.lt (hseq ▸ hc) (inputLeft_lt ((outByteWin_moves d _).ofOk ht) hd le_rfl rfl)
  | ref n l disp hp hlt hn =>
    obtain ⟨hd, k, ht⟩ := consume_bind_ok hn e
    obtain ⟨_, u, hu, hcopy⟩ := Run.bind_eq_ok ht
    unfold checkDisp at hu
    split at hu
    · cases hu
    cases hu
    have hseq := ((copyBack_moved l _ _).ofOk hcopy).seq
    have hc : CountsInput s.seq.phase := countsInput_of (by obtain h | h := hp <;> simp [h])
    simp only [beginToken, dropFlagMsb] at hd
    exact hc.lt (hseq ▸ hc) (inputLeft_lt ((copyBack_moves l _ _).ofOk hcopy) (by omega)
      (by simp [beginToken, dropFlagMsb]; omega) rfl)
  | rleRun n d hp hlt =>
    obtain ⟨_, u, hu, hrun⟩ := Run.bind_eq_ok e
    obtain ⟨hd, k, hu⟩ := consume_bind_ok le_rfl hu
    cases hu
    obtain ⟨_, v, hv, hrep⟩ := Run.bind_eq_ok hrun
    have hseq := ((repeatOut_moved _ d _).ofOk hrep).seq.trans ((consume_moved 1 _).ofOk hv).seq
    have hc : CountsInput s.seq.phase := countsInput_of (by simp [hp])
    exact hc.lt (hseq ▸ hc) (inputLeft_lt (((consume_moves 1 _).ofOk hv).trans _ _ _
      ((repeatOut_moves _ d _).ofOk hrep)) hd le_rfl rfl)
  | rleRaw n hp hlt =>
    obtain ⟨_, u, hu, hraw⟩ := Run.bind_eq_ok e
    obtain ⟨hd, k, hu⟩ := consume_bind_ok le_rfl hu
    cases hu
    have hseq := ((rawOut_moved _ _).ofOk hraw).seq
    have hc : CountsInput s.seq.phase := countsInput_of (by simp [hp])
    exact hc.lt (hseq ▸ hc) (inputLeft_lt ((rawOut_moves _ _).ofOk hraw) hd le_rfl rfl)
  | treeSize k b bs hp hb =>
    obtain ⟨hd, j, ht⟩ := consume_bind_ok le_rfl e
    cases ht
    refine CountsInput.lt (countsInput_of (by simp [hp])) (countsInput_of ?_)
      (inputLeft_lt (.refl _) hd le_rfl rfl)
    exact .inr (.inr (.inr (.inr ⟨k, by simp [hp, afterTreeSize]⟩)))
  | treeTable k b bs hp hb =>
    obtain ⟨hd, j, ht⟩ := consume_bind_ok le_rfl e
    obtain ⟨_, u, hu, hend⟩ := Run.bind_eq_ok ht
    have hm := (readTable_moves _ _ _).ofOk hu
    have hseq := readTable_seq hu
    have hin := inputLeft_lt hm hd le_rfl rfl
    cases hend
    simp only [workLeft, hp, hseq, afterTreeTable]
    show 40 * inputLeft u + 5 * 0 + 3 < _
    omega
  | node k hp hlt =>
    cases e
    simp only [workLeft, hp, inputLeft]
    split <;> omega
  | word k w hp hc =>
    obtain ⟨hd, j, ht⟩ := consume_bind_ok (by decide) e
    cases ht
    simp only [workLeft, hp, hc, loadBits, inputLeft, if_true, OfNat.ofNat_ne_zero, if_false]
    omega
  | bit k b hp hc =>
    unfold walkBit at e
    simp only [] at e
    split at e
    · cases e
    split at e <;> cases e <;>
      · simp only [workLeft, hp, dropBit, afterBit, if_neg hc, inputLeft, if_true, if_false,
          Bool.false_eq_true]
        omega
  | leaf8 b hp =>
    obtain ⟨_, u, hu, hend⟩ := Run.bind_eq_ok e
    cases hend
    exact leaf_workLeft_lt hp (outByte_moves b s |>.ofOk hu) ((outByte_moved b s).ofOk hu)
  | leaf4 b hp =>
    obtain ⟨_, u, hu, hend⟩ := Run.bind_eq_ok e
    cases hend
    unfold leafNibble at hu
    split at hu
    · cases hu
    split at hu
    · obtain ⟨_, v, hv, hu⟩ := Run.bind_eq_ok hu
      cases hu
      exact leaf_workLeft_lt (t := v) hp (outByte_moves _ s |>.ofOk hv) ((outByte_moved _ s).ofOk hv)
    · cases hu
      exact leaf_workLeft_lt (t := s) hp (.refl s) (.refl s)
  | trailer cl hs extra hp =>
    obtain ⟨_, u, -, ht⟩ := Run.bind_eq_ok e
    simp only [] at ht
    split at ht
    · cases ht
    obtain ⟨_, v, hv, ht⟩ := Run.bind_eq_ok ht
    split at ht
    · cases ht
    obtain ⟨_, w, hw, ht⟩ := Run.bind_eq_ok ht
    cases ht
    have hcl : w.ovl.cl = cl.toNat := by rw [((portAccesses_moved _ _).ofOk hw).ovl]
    have := cl.isLt
    simp only [workLeft, hp, ovlStart, hcl]
    omega
  | ovlFlags f hp hlt =>
    obtain ⟨b, u, hu, ht⟩ := Run.bind_eq_ok e
    cases ht
    obtain ⟨k, hip, rfl⟩ := rdBack_ok hu
    simp only [workLeft, hp, loadFlags]
    omega
  | ovlLit d hp hlt =>
    obtain ⟨b, u, hu, ht⟩ := Run.bind_eq_ok e
    cases ht
    obtain ⟨k, hip, rfl⟩ := rdBack_ok hu
    simp only [dropFlagLsb] at hip
    simp only [workLeft, hp, ovlPut, dropFlagLsb]
    omega
  | ovlRef len disp hp hlt =>
    obtain ⟨_, u, hu, ht⟩ := Run.bind_eq_ok e
    obtain ⟨k, hip, rfl⟩ := rdBackRef_ok hu
    simp only [dropFlagLsb] at hip
    simp only [] at ht
    split at ht <;> cases ht
    rw [workLeft_ovlCopy (lzLen len) _ (by exact hp)]
    simp only [workLeft, hp, dropFlagLsb]
    omega

/-! ### Every decode ends -/

/-- The members a composite has still to try. -/
def membersLeft (s : State) : Nat :=
  match s.seq.trial with
  | none => 0
  | some tr => tr.rest.length

/-- The measure: a member left to try weighs more than any run of one. -/
def decodeMeasure (s : State) : Nat := 2 ^ 40 * membersLeft s + workLeft s

/-- A member's run begins with less work than a member left weighs. -/
theorem workLeft_onMember (k : Codec) (rest : List Codec) (u : State) :
    workLeft (onMember k rest u) < 2 ^ 40 := by
  have hlen := u.host.argLen.isLt
  unfold workLeft inputLeft
  simp only [onMember, beginTrial, startRun]
  cases k <;> simp only [codecEntry] <;> omega

theorem step_decodeMeasure_lt {s t : State} (hs : s.seq.phase ≠ .idle) (e : step s = .next t) :
    t.seq.phase = .idle ∨ decodeMeasure t < decodeMeasure s := by
  cases step_decoderNext hs e with
  | fails er u ht => exact .inl (by rw [ht]; rfl)
  | ends n tmi sub u ht => exact .inl (by rw [ht]; rfl)
  | runs h ok =>
    have hlt := (stepRun_token hs ok (h.running hs)).workLeft_lt ok
    right
    simp only [decodeMeasure, membersLeft, h.trial]
    omega
  | tries tr k rest u htr hk hrest hlen ht =>
    have hwork := workLeft_onMember k rest u
    right
    rw [ht]
    have hl : membersLeft (onMember k rest u) = rest.length := rfl
    have hs : membersLeft s = tr.rest.length := by simp only [membersLeft, htr]
    unfold decodeMeasure
    rw [hl, hs]
    omega

/-- Settles O41: every step of a running decoder lowers the measure. -/
theorem everyDecodeEnds : Obligations.EveryDecodeEnds := by
  intro s hs
  induction hn : decodeMeasure s using Nat.strong_induction_on generalizing s with
  | _ n ih =>
    obtain ⟨u, e⟩ := settle_next (stepRun s)
    rw [← step_eq_settle] at e
    by_cases hu : u.seq.phase = .idle
    · exact ⟨1, u, .succ e (.zero u), hu⟩
    · have hlt := (step_decodeMeasure_lt hs e).resolve_left hu
      obtain ⟨k, t, hrun, ht⟩ := ih _ (hn ▸ hlt) u hu rfl
      exact ⟨k + 1, t, .succ e hrun, ht⟩

end Sys2Proof.Machine

/-!
A decoder stays in its bounds (O44): what each token does to the place it stands at, then what an error,
a next member, the end, a command and a host action leave.
-/
namespace Sys2Proof.Machine

/-- What holds at a forward codec's body as the header, or the extension word, leaves it. -/
theorem phaseInv_fwdBody {c : Fwd} {s : State} (hp : s.seq.phase = fwdBody c)
    (hin : s.work.inPos ≤ s.work.declLen) (hout : s.work.outLen = 0)
    (htree : fwdHasTree c = true → s.work.inPos = s.work.treeBase ∧
      (s.work.treeBase = 4 ∨ s.work.treeBase = 8)) : PhaseInv s := by
  have hwin : WinCoherent s := fun i hi => by omega
  cases c with
  | null | rle => simp only [PhaseInv, hp, fwdBody]; exact ⟨hin, by omega⟩
  | lz10 | lz11 => simp only [PhaseInv, hp, fwdBody]; exact ⟨hin, by omega, hwin⟩
  | huf4 | huf8 => simp only [PhaseInv, hp, fwdBody]; exact ⟨hin, hout, htree rfl⟩

/-- A table read to its end has been stored, its bytes passed. -/
theorem readTable_ok {n p : Nat} {s t : State} (hm : Memory.wf s.mem.tree = true)
    (h : readTable n p s = .ok () t) :
    ∃ k m, t = { s with env.ioFault := k, mem.tree := m, work.inPos := s.work.inPos + n } ∧
      Memory.wf m = true ∧ Stored s.mem.tree m p (Memory.range s.mem.imem s.work.inPos n) := by
  induction n generalizing p s with
  | zero =>
    cases h
    exact ⟨_, _, rfl, hm, Stored.nil _ _⟩
  | succ n ih =>
    obtain ⟨b, u, hu, ht⟩ := Run.bind_eq_ok h
    rcases inByte_cases s with ⟨k, -, -, e⟩ | ⟨-, e⟩ | ⟨-, -, e⟩ | ⟨-, -, e⟩ <;> rw [e] at hu <;>
      cases hu
    obtain ⟨j, m, rfl, hwf, hst⟩ := ih (by exact Memory.wf_write hm) ht
    refine ⟨j, m, ?_, hwf, ?_⟩
    · simp only [Nat.add_assoc, Nat.add_comm 1]
    · exact Stored.append (bs := [_]) (Memory.stored_write p _ hm) hst

/-- The walk's invariant sees the registers, TREE and IMEM alone. -/
theorem WalkInv.congr {s t : State} (h : WalkInv s) (hbase : t.work.treeBase = s.work.treeBase)
    (hlen : t.work.treeLen = s.work.treeLen)
    (hin : s.work.inPos ≤ t.work.inPos) (hend : t.work.inPos ≤ t.work.declLen)
    (htree : t.mem.tree = s.mem.tree) (himem : t.mem.imem = s.mem.imem)
    (hpos : 1 ≤ t.work.nodePos ∧ t.work.nodePos < t.work.treeLen) : WalkInv t := by
  obtain ⟨hb, htwo, hle, -, hcopy, -, -⟩ := h
  refine ⟨hbase ▸ hb, hlen ▸ htwo, by omega, hend, ?_, hpos⟩
  intro p hp
  rw [htree, hbase, himem]
  exact hcopy p (hlen ▸ hp)

theorem Moved.tree {s t : State} (h : Moved s t) : t.mem.tree = s.mem.tree := by rw [h.mem]

/-- After a leaf's symbol the walk is back at the root (R318). -/
theorem phaseInv_toRoot {k : HufKind} {s t : State} (hp : s.seq.phase = .leaf k) (hi : PhaseInv s)
    (hm : TokenMoves s t) (hmoved : Moved s t) (hout : t.work.outLen ≤ s.work.outLen + 1) :
    PhaseInv (toRoot t) := by
  simp only [PhaseInv, hp] at hi
  obtain ⟨hlt, hwalk, -⟩ := hi
  have hphase : (toRoot t).seq.phase = .node k := by simp only [toRoot, hmoved.seq, hp, afterLeaf]
  have hbase : t.work.treeBase = s.work.treeBase := by rw [hmoved.work]
  have hlen : t.work.treeLen = s.work.treeLen := by rw [hmoved.work]
  have htwo := hwalk.2.1
  simp only [PhaseInv, hphase]
  refine ⟨?_, hwalk.congr hbase hlen hm.cursor.1 (hm.cursor.2 hwalk.2.2.2.1)
    hmoved.tree hmoved.imem ⟨le_rfl, ?_⟩⟩
  · show t.work.outLen ≤ t.work.decSize
    rw [hmoved.decSize]; omega
  · show 1 < t.work.treeLen
    omega

/-- A byte stored below the room that is left keeps the overlay's cursors inside. -/
theorem OvlInv.put {s : State} (h : OvlInv s) (hlt : s.ovl.w < s.ovl.u) (b : Byte) :
    OvlInv (ovlPut b s) := by
  obtain ⟨hout, h8, hsum, hsrc, hu, hlow, hhigh, hw, hop⟩ := h
  refine ⟨hout, h8, hsum, hsrc, hu, hlow, hhigh, hlt, ?_⟩
  simp only [ovlPut]
  omega

theorem OvlInv.copy {s : State} (h : OvlInv s) (l d : Nat) : OvlInv (ovlCopy l d s) := by
  induction l generalizing s with
  | zero => exact h
  | succ l ih =>
    rw [ovlCopy]
    split
    · exact h
    · next hne => exact ih (h.put (lt_of_le_of_ne h.2.2.2.2.2.2.2.1 hne) _)

/-- Bytes read from the region keep the overlay's cursors inside. -/
theorem OvlInv.read {s t : State} (h : OvlInv s) (hout : t.work.outLen = s.work.outLen)
    (hdecl : t.work.declLen = s.work.declLen) (hsrc : t.env.srcLen = s.env.srcLen)
    (hovl : t.ovl = { s.ovl with ip := t.ovl.ip }) (hlow : s.ovl.p ≤ t.ovl.ip)
    (hle : t.ovl.ip ≤ s.ovl.ip) : OvlInv t := by
  obtain ⟨hout', h8, hsum, hsrc', hu, -, hhigh, hw, hop⟩ := h
  unfold OvlInv
  rw [hovl, hout, hdecl, hsrc]
  exact ⟨hout', h8, hsum, hsrc', hu, hlow, hle.trans hhigh, hw, hop⟩

theorem phaseInv_region {s : State} (hp : s.seq.phase = .ovlBody) : PhaseInv s ↔ OvlInv s := by
  simp only [PhaseInv, hp]

theorem portAccesses_ok {n : Nat} {s t : State} (h : portAccesses n s = .ok () t) :
    ∃ k, t = { s with env.ioFault := k } := by
  rcases portAccesses_cases n s with ⟨k, e⟩ | e <;> rw [e] at h <;> cases h
  exact ⟨k, rfl⟩

theorem ovlEntry_ok {s t : State} (h : ovlEntry s = .ok () t) :
    s.work.declLen ≤ s.env.srcLen ∧ ∃ k, t = { s with env.ioFault := k } := by
  unfold ovlEntry at h
  split at h
  · cases h
  split at h
  · cases h
  · exact ⟨by omega, portAccesses_ok h⟩

theorem childPos_pos (pos : Nat) (n : Byte) (b : Bool) : 1 ≤ childPos pos n b := by
  unfold childPos
  omega

/-- A token leaves the decoder in the bounds of the place it goes to. -/
theorem TokenRun.phaseInv {s t : State} {r : Run Unit} (h : TokenRun s r) (e : r = .ok () t)
    (hmem : MemInv s) (hi : PhaseInv s) (hm : TokenMoves s t) : PhaseInv t := by
  cases h with
  | header c n hp =>
    obtain ⟨hd, k, ht⟩ := consume_bind_ok (by decide) e
    rw [noteTreeBase_eq] at ht
    cases ht
    simp only [PhaseInv, hp] at hi
    obtain ⟨hpos, hout, hsize⟩ := hi
    simp only [beginToken, hpos] at hd
    by_cases hn : n = 0
    · subst hn
      simp only [PhaseInv, if_true, beginToken, hpos]
      exact ⟨trivial, hd, hout, rfl⟩
    · exact phaseInv_fwdBody (c := c) (if_neg hn) (by simpa [beginToken, hpos] using hd) hout
        fun ht => ⟨by simp [ht], .inl (by simp [ht, beginToken, hpos])⟩
  | ext c n hp =>
    obtain ⟨hd, k, ht⟩ := consume_bind_ok (by decide) e
    rw [extDone_eq (c := c) (by exact hp), noteTreeBase_eq] at ht
    cases ht
    simp only [PhaseInv, hp] at hi
    obtain ⟨hpos, -, hout, -⟩ := hi
    exact phaseInv_fwdBody (c := c) rfl hd hout
      fun ht => ⟨by simp [ht], .inr (by simp [ht, hpos])⟩
  | nullByte d hp hlt =>
    obtain ⟨hd, k, ht⟩ := consume_bind_ok le_rfl e
    obtain ⟨hmoved, hpos, -, hout⟩ := outByte_ok ht
    simp only [PhaseInv, hmoved.seq, hp] at hi ⊢
    refine ⟨hm.cursor.2 hi.1, ?_⟩
    rw [hmoved.decSize, hout]
    exact hlt
  | flags f hp hlt =>
    obtain ⟨hd, k, ht⟩ := consume_bind_ok le_rfl e
    cases ht
    obtain hp | hp := hp <;> simp only [PhaseInv, loadFlags, hp] at hi ⊢ <;>
      exact ⟨hd, hi.2.1, hi.2.2⟩
  | lit d hp hlt =>
    obtain ⟨hd, k, ht⟩ := consume_bind_ok le_rfl e
    obtain ⟨hmoved, hpos, happ, -, hwin⟩ := outByteWin_ok (by exact hmem) ht
    have hout : t.work.outLen ≤ t.work.decSize := by
      rw [happ.1, hmoved.decSize]
      exact hlt
    obtain hp | hp := hp <;> simp only [PhaseInv, hmoved.seq, dropFlagMsb, hp] at hi ⊢ <;>
      exact ⟨hm.cursor.2 hi.1, hout, hwin hi.2.2⟩
  | ref n l disp hp hlt hn =>
    obtain ⟨hd, k, ht⟩ := consume_bind_ok hn e
    obtain ⟨_, u, hu, hcopy⟩ := Run.bind_eq_ok ht
    unfold checkDisp at hu
    split at hu
    · cases hu
    next hdisp =>
      cases hu
      have hwin : WinCoherent s := by
        obtain hp | hp := hp <;> simp only [PhaseInv, hp] at hi <;> exact hi.2.2
      have hle : lzDisp disp ≤ Config.winSize := by
        have := disp.isLt
        show disp.toNat + 1 ≤ 4096
        omega
      obtain ⟨hmoved, hpos, hwin', ⟨bs, hlen, happ⟩, -⟩ := copyBack_ok (by exact hmem)
        (by exact hwin) (Nat.le_add_left 1 _) (Nat.le_of_not_lt hdisp) hle (by exact hlt.le) hcopy
      have hout : t.work.outLen ≤ t.work.decSize := by
        rw [happ.1, hlen, hmoved.decSize, clamped]
        simp only [beginToken, dropFlagMsb]
        omega
      obtain hp | hp := hp <;>
        simp only [PhaseInv, hmoved.seq, beginToken, dropFlagMsb, hp] at hi ⊢ <;>
        exact ⟨hm.cursor.2 hi.1, hout, hwin'⟩
  | rleRun n d hp hlt =>
    obtain ⟨_, u, hu, hrun⟩ := Run.bind_eq_ok e
    obtain ⟨hd, k, hu⟩ := consume_bind_ok le_rfl hu
    cases hu
    obtain ⟨hd2, j, hrep⟩ := consume_bind_ok le_rfl hrun
    obtain ⟨hmoved, hpos, -, happ⟩ := repeatOut_ok (by exact hmem) (by exact hlt.le) hrep
    simp only [PhaseInv, hmoved.seq, beginToken, hp] at hi ⊢
    refine ⟨hm.cursor.2 hi.1, ?_⟩
    rw [happ.1, List.length_replicate, hmoved.decSize, clamped]
    simp only [beginToken]
    omega
  | rleRaw n hp hlt =>
    obtain ⟨_, u, hu, hraw⟩ := Run.bind_eq_ok e
    obtain ⟨hd, k, hu⟩ := consume_bind_ok le_rfl hu
    cases hu
    obtain ⟨hmoved, hpos, -, happ⟩ := rawOut_ok (by exact hmem) (by exact hlt.le) hraw
    simp only [PhaseInv, hmoved.seq, beginToken, hp] at hi ⊢
    refine ⟨hm.cursor.2 hi.1, ?_⟩
    rw [happ.1, Memory.range_length, hmoved.decSize, clamped]
    simp only [beginToken]
    omega
  | treeSize k b bs hp hb =>
    obtain ⟨hd, j, ht⟩ := consume_bind_ok le_rfl e
    cases ht
    simp only [PhaseInv, hp] at hi
    obtain ⟨hin, hout, hbase, h48⟩ := hi
    simp only [PhaseInv, hp, afterTreeSize]
    refine ⟨hd, hout, ?_, by omega, h48, ?_⟩
    · show 2 ≤ treeLenOf b
      unfold treeLenOf
      omega
    · intro p hp1
      obtain rfl : p = 0 := by omega
      show Memory.read 0 (Memory.write 0 b s.mem.tree) = _
      rw [Memory.read_write _ _ _ _ hmem.tree, if_pos rfl, readable_head hb, hbase]
      rfl
  | treeTable k b bs hp hb =>
    obtain ⟨hd, j, ht⟩ := consume_bind_ok le_rfl e
    obtain ⟨_, u, hu, hend⟩ := Run.bind_eq_ok ht
    obtain ⟨i, m, rfl, hwf, hst⟩ := readTable_ok (by exact Memory.wf_write hmem.tree) hu
    cases hend
    simp only [PhaseInv, hp] at hi
    obtain ⟨hin, hout, htwo, hbase, h48, hcopy⟩ := hi
    have hdecl := hm.cursor.2 hin
    simp only [] at hdecl hst
    simp only [PhaseInv, hp, afterTreeTable]
    refine ⟨by simp only [hout, Nat.zero_le], h48, htwo, by simp only []; omega, hdecl, ?_, le_rfl,
      by simp only []; omega⟩
    intro p hp'
    simp only [] at hp' ⊢
    rw [hst p]
    split
    · next hrange =>
      rw [Memory.range_length] at hrange
      rw [Memory.range_getD _ _ _ _ (by omega)]
      congr 1
      omega
    · next hrange =>
      rw [Memory.range_length] at hrange
      rw [Memory.read_write _ _ _ _ hmem.tree]
      split
      · next h1 => rw [readable_head hb, hbase, ← h1]
      · exact hcopy p (by omega)
  | node k hp hlt =>
    cases e
    simp only [PhaseInv, hp] at hi ⊢
    exact ⟨hlt, hi.2, trivial⟩
  | word k w hp hc =>
    obtain ⟨hd, j, ht⟩ := consume_bind_ok (by decide) e
    cases ht
    simp only [PhaseInv, hp, loadBits] at hi ⊢
    obtain ⟨hlt, hwalk, hbyte⟩ := hi
    exact ⟨hlt, hwalk.congr rfl rfl (Nat.le_add_right _ _) hd rfl rfl hwalk.2.2.2.2.2, hbyte⟩
  | bit k b hp hc =>
    simp only [PhaseInv, hp] at hi
    obtain ⟨hlt, hwalk, hbyte⟩ := hi
    unfold walkBit at e
    simp only [] at e
    split at e
    · cases e
    next hin =>
      split at e <;> cases e <;> simp only [PhaseInv, dropBit, hp, afterBit, if_true, if_false,
        Bool.false_eq_true]
      · exact ⟨hlt, hwalk, by simpa [dropBit] using hin⟩
      · exact ⟨hlt.le, hwalk.congr rfl rfl le_rfl hwalk.2.2.2.1 rfl rfl
          ⟨childPos_pos _ _ _, by simpa [dropBit] using hin⟩⟩
  | leaf8 b hp =>
    obtain ⟨_, u, hu, hend⟩ := Run.bind_eq_ok e
    cases hend
    obtain ⟨hmoved, -, -, hout⟩ := outByte_ok hu
    exact phaseInv_toRoot hp hi ((outByte_moves b s).ofOk hu) hmoved hout.le
  | leaf4 b hp =>
    obtain ⟨_, u, hu, hend⟩ := Run.bind_eq_ok e
    cases hend
    unfold leafNibble at hu
    split at hu
    · cases hu
    split at hu
    · obtain ⟨_, v, hv, hu⟩ := Run.bind_eq_ok hu
      cases hu
      obtain ⟨hmoved, -, -, hout⟩ := outByte_ok hv
      exact phaseInv_toRoot (t := v) hp hi ((outByte_moves _ s).ofOk hv) hmoved hout.le
    · cases hu
      exact phaseInv_toRoot (t := s) hp hi (.refl s) (.refl s) (Nat.le_succ _)
  | trailer cl hs extra hp =>
    obtain ⟨_, u, hu, ht⟩ := Run.bind_eq_ok e
    obtain ⟨hsrc, i, rfl⟩ := ovlEntry_ok hu
    simp only [] at ht
    split at ht
    · cases ht
    obtain ⟨_, v, hv, ht⟩ := Run.bind_eq_ok ht
    obtain ⟨j, rfl⟩ := portAccesses_ok hv
    split at ht
    · cases ht
    next hbad =>
      obtain ⟨_, w, hw, ht⟩ := Run.bind_eq_ok ht
      obtain ⟨k, rfl⟩ := portAccesses_ok hw
      cases ht
      simp only [PhaseInv, hp] at hi
      simp only [trailerBad, Bool.or_eq_true, decide_eq_true_eq, not_or, not_lt] at hbad
      obtain ⟨⟨h8, hhs⟩, hcl⟩ := hbad
      simp only [PhaseInv, ovlStart]
      refine ⟨hi, h8, ?_, hsrc, rfl, ?_, ?_, Nat.zero_le _, ?_⟩ <;> simp only [] <;> omega
  | ovlFlags f hp hlt =>
    obtain ⟨b, u, hu, ht⟩ := Run.bind_eq_ok e
    cases ht
    obtain ⟨k, hip, rfl⟩ := rdBack_ok hu
    rw [phaseInv_region hp] at hi
    rw [phaseInv_region (by exact hp)]
    exact hi.read rfl rfl rfl rfl (Nat.le_sub_one_of_lt hip) (Nat.sub_le _ _)
  | ovlLit d hp hlt =>
    obtain ⟨b, u, hu, ht⟩ := Run.bind_eq_ok e
    cases ht
    obtain ⟨k, hip, rfl⟩ := rdBack_ok hu
    rw [phaseInv_region hp] at hi
    rw [phaseInv_region (by exact hp)]
    refine OvlInv.put ?_ (by exact hlt) d
    exact hi.read rfl rfl rfl rfl (Nat.le_sub_one_of_lt hip) (Nat.sub_le _ _)
  | ovlRef len disp hp hlt =>
    obtain ⟨_, u, hu, ht⟩ := Run.bind_eq_ok e
    obtain ⟨k, hip, rfl⟩ := rdBackRef_ok hu
    rw [phaseInv_region hp] at hi
    simp only [] at ht
    split at ht <;> cases ht
    rw [phaseInv_region (by rw [(ovlCopy_cursors _ _ _).1]; exact hp)]
    refine OvlInv.copy ?_ _ _
    exact hi.read rfl rfl rfl rfl (Nat.le_sub_of_add_le hip) (Nat.sub_le _ _)

/-! ### Every step -/

theorem DecoderInv.widths {s : State} (h : DecoderInv s) : WidthInv s :=
  ⟨h.declLen, h.decSize, h.flagCnt, h.bitCnt, h.treeLen, h.tokL, h.tokD, h.hs, h.cl, h.extra⟩

theorem WidthInv.decoderInv {s : State} (h : WidthInv s) (hp : PhaseInv s) : DecoderInv s := by
  obtain ⟨h1, h2, h3, h4, h5, h6, h7, h8, h9, h10⟩ := h
  exact ⟨h1, h2, h3, h4, h5, h6, h7, h8, h9, h10, hp⟩

/-- Widths see the working and overlay registers alone. -/
theorem WidthInv.congr {s t : State} (h : WidthInv s) (hwork : t.work = s.work)
    (hovl : t.ovl = s.ovl) : WidthInv t := by
  unfold WidthInv
  rw [hwork, hovl]
  exact h

/-- Where nothing runs only the widths are asked. -/
theorem WidthInv.idle {s t : State} (h : WidthInv s) (hwork : t.work = s.work) (hovl : t.ovl = s.ovl)
    (hp : t.seq.phase = .idle) : DecoderInv t :=
  (h.congr hwork hovl).decoderInv (by simp only [PhaseInv, hp])

/-- A member's run begins at a header, from a fresh start. -/
theorem decoderInv_onMember {k : Codec} (hk : k ∈ trialMembers) (rest : List Codec) {u : State}
    (h : WidthInv u) : DecoderInv (onMember k rest u) := by
  refine WidthInv.decoderInv (startRun_widths u h) ?_
  have hentry : ∃ c, codecEntry k = .header c := by
    have hall : ∀ k ∈ trialMembers, ∃ c, codecEntry k = .header c := by
      simp [trialMembers, codecEntry]
    exact hall k hk
  obtain ⟨c, hc⟩ := hentry
  simp only [PhaseInv, onMember, hc]
  exact ⟨rfl, rfl, rfl⟩

theorem DecoderNext.decoderInv {s t : State} (h : DecoderNext (stepRun s) s t)
    (hs : s.seq.phase ≠ .idle) (hm : MemInv s) (hc : ControlInv s) (hd : DecoderInv s) :
    DecoderInv t := by
  cases h with
  | runs h ok =>
    exact (h.widths hd.widths).decoderInv
      ((stepRun_token hs ok (h.running hs)).phaseInv ok hm hd.place h)
  | fails e u ht kept =>
    subst ht
    exact (kept.widths hd.widths).idle rfl rfl rfl
  | tries tr k rest u htr hk hrest hlen ht kept =>
    subst ht
    exact decoderInv_onMember (hc.members tr htr k (List.mem_cons_of_mem _ hk)) rest
      (kept.widths hd.widths)
  | ends n tmi sub u ht kept =>
    subst ht
    exact (kept.widths hd.widths).idle rfl rfl rfl

theorem CommandNext.decoderInv {i : Instr} {s t : State} (h : CommandNext i s t)
    (hd : WidthInv s) : DecoderInv t := by
  have hstart : WidthInv (commandStart s) := startRun_widths s hd
  cases h with
  | fails e u ht kept => subst ht; exact (kept.widths hstart).idle rfl rfl rfl
  | ends n sub u ht kept => subst ht; exact (kept.widths hstart).idle rfl rfl rfl
  | sets n bits c o hi hbits ht => subst ht; exact hstart.idle rfl rfl rfl
  | begins c hc ht =>
    subst ht
    refine WidthInv.decoderInv (hstart.congr rfl rfl) ?_
    cases c with
    | hufany | gba | nds => exact nomatch hc
    | lzovl => exact (rfl : (commandStart s).work.outLen = 0)
    | _ => exact ⟨rfl, rfl, rfl⟩
  | tries k rest u hk hrest ht kept =>
    subst ht; exact decoderInv_onMember hk rest (kept.widths hstart)

theorem hostAct_decoderInv (a : HostAction) {s : State} (hs : s.seq.phase = .idle)
    (hd : WidthInv s) : DecoderInv (hostAct a s) := by
  cases a with
  | reset => exact resetMeetsTheInvariants.2.2.widths.idle rfl rfl rfl
  | _ => exact hd.idle rfl rfl hs

/-- Settles O44: each of the things a step can lead to keeps the bounds. -/
theorem stepKeepsTheDecoderInBounds : Obligations.StepKeepsTheDecoderInBounds := by
  intro s t hm hc hd e
  by_cases h : s.seq.phase = .idle
  · obtain rfl | ⟨a, q, -, rfl⟩ | ⟨w, q, i, hnext⟩ := step_idle_cases h e
    · exact hd
    · exact hostAct_decoderInv a h (hd.widths.congr rfl rfl)
    · exact hnext.decoderInv (hd.widths.congr rfl rfl)
  · exact (step_decoderNext h e).decoderInv h hm hc hd

end Sys2Proof.Machine

/-!
A missing byte ends the decode (O18; spec/20_memory.md R63, R65, spec/44_lz_overlay.md R251, R257): at
each place where a token is read, what a cut token does before the byte it misses.
-/
namespace Sys2Proof.Machine

/-! ### Where tokens are read at `IN_POS` -/

/-- The place whose token is read next at `IN_POS`, and the state it is read in. -/
inductive CutPlace (s : State) : Place → State → Prop where
  | header (c : Fwd) (hp : s.seq.phase = .header c) : CutPlace s (.header c) s
  | ext (c : Fwd) (hp : s.seq.phase = .ext c) : CutPlace s .ext s
  | size (k : HufKind) (hp : s.seq.phase = .treeSize k) : CutPlace s .hufSize s
  | table (k : HufKind) (hp : s.seq.phase = .treeTable k) : CutPlace s .hufTable s
  | null (hlt : s.work.outLen < s.work.decSize) (hp : s.seq.phase = .nullBody) :
    CutPlace s .nullByte s
  | rle (hlt : s.work.outLen < s.work.decSize) (hp : s.seq.phase = .rleBody) :
    CutPlace s .rleGroup s
  | flags10 (hlt : s.work.outLen < s.work.decSize) (hp : s.seq.phase = .lz10Body)
    (hc : s.work.flagCnt = 0) : CutPlace s .lz10Flags s
  | flags11 (hlt : s.work.outLen < s.work.decSize) (hp : s.seq.phase = .lz11Body)
    (hc : s.work.flagCnt = 0) : CutPlace s .lz11Flags s
  | block10 (hlt : s.work.outLen < s.work.decSize) (hp : s.seq.phase = .lz10Body)
    (hc : s.work.flagCnt ≠ 0) : CutPlace s (.lz10Block (nextFlagMsb s)) (dropFlagMsb s)
  | block11 (hlt : s.work.outLen < s.work.decSize) (hp : s.seq.phase = .lz11Body)
    (hc : s.work.flagCnt ≠ 0) : CutPlace s (.lz11Block (nextFlagMsb s)) (dropFlagMsb s)
  | word (k : HufKind) (hc : s.work.bitCnt = 0) (hp : s.seq.phase = .bit k) : CutPlace s .hufWord s

theorem exists_cutPlace {s : State}
    (h : (∃ c, s.seq.phase = .header c ∨ s.seq.phase = .ext c) ∨
      (∃ k, s.seq.phase = .treeSize k ∨ s.seq.phase = .treeTable k) ∨
      (s.work.outLen < s.work.decSize ∧
        (s.seq.phase = .nullBody ∨ s.seq.phase = .rleBody ∨ s.seq.phase = .lz10Body ∨
          s.seq.phase = .lz11Body)) ∨
      (s.work.bitCnt = 0 ∧ ∃ k, s.seq.phase = .bit k)) : ∃ p u, CutPlace s p u := by
  obtain ⟨c, hp | hp⟩ | ⟨k, hp | hp⟩ | ⟨hlt, hp | hp | hp | hp⟩ | ⟨hc, k, hp⟩ := h
  · exact ⟨_, _, .header c hp⟩
  · exact ⟨_, _, .ext c hp⟩
  · exact ⟨_, _, .size k hp⟩
  · exact ⟨_, _, .table k hp⟩
  · exact ⟨_, _, .null hlt hp⟩
  · exact ⟨_, _, .rle hlt hp⟩
  · by_cases hc : s.work.flagCnt = 0
    · exact ⟨_, _, .flags10 hlt hp hc⟩
    · exact ⟨_, _, .block10 hlt hp hc⟩
  · by_cases hc : s.work.flagCnt = 0
    · exact ⟨_, _, .flags11 hlt hp hc⟩
    · exact ⟨_, _, .block11 hlt hp hc⟩
  · exact ⟨_, _, .word k hc hp⟩

theorem CutPlace.fetch {s u : State} {p : Place} (h : CutPlace s p u) :
    fetch s = fetchForward p u := by
  cases h with
  | header c hp | ext c hp | size k hp | table k hp => simp only [Machine.fetch, hp]
  | null hlt hp | rle hlt hp => simp only [Machine.fetch, hp, fetchLoop_running _ hlt]
  | flags10 hlt hp hc | flags11 hlt hp hc =>
    simp only [Machine.fetch, hp, fetchLoop_running _ hlt, fetchLz_flags _ _ hc]
  | block10 hlt hp hc | block11 hlt hp hc =>
    simp only [Machine.fetch, hp, fetchLoop_running _ hlt, fetchLz_block _ _ hc]
  | word k hc hp => simp only [Machine.fetch, hp, fetchBit_word hc]

/-- A flag may have been taken; nothing else has changed. -/
theorem CutPlace.eq {s u : State} {p : Place} (h : CutPlace s p u) :
    u = { s with work.flags := u.work.flags, work.flagCnt := u.work.flagCnt } := by
  cases h <;> rfl

/-- The places whose tokens record where they begin. -/
theorem CutPlace.records {s u : State} {p : Place} (h : CutPlace s p u) (hr : RecordsItsPlace s) :
    p = .rleGroup ∨ marksPos p = true := by
  obtain ⟨c, hp⟩ | hp | ⟨hp, hc, hf⟩ := hr
  · cases h <;> simp_all [marksPos]
  · cases h <;> simp_all
  · have hflag : nextFlagMsb s = true := hf
    cases h <;> simp_all [marksPos]

/-- No place's token is empty. -/
theorem CutPlace.decode_nil {s u : State} {p : Place} (h : CutPlace s p u) :
    decode p [] = .rejected .cut := by
  cases h with
  | block10 | block11 => cases nextFlagMsb s <;> rfl
  | _ => rfl

/-! ### No byte at all -/

theorem readable_nil {s : State} (h : s.work.declLen ≤ s.work.inPos ∨ s.env.srcLen ≤ s.work.inPos) :
    readable s = [] := by
  have hlen : (readable s).length = 0 := by rw [length_readable]; omega
  exact List.length_eq_zero_iff.mp hlen

/-- With no byte to read a cut token raises what `InByte` raises, `TOK_POS` at most having been set. -/
theorem cutToken_nil (p : Place) {s : State} (h : readable s = []) :
    ∃ u, (u = s ∨ u = beginToken s) ∧ cutToken p s = consume 1 u := by
  unfold cutToken
  split
  · exact ⟨_, .inr rfl, rfl⟩
  · next hr => rw [h] at hr; cases hr
  · rw [h]
    split
    · exact ⟨_, .inr rfl, rfl⟩
    · exact ⟨_, .inl rfl, rfl⟩

/-- A step of a place at which the first byte raises an error at once, outside a trial run. -/
theorem CutPlace.step_missing {s u : State} {p : Place} (h : CutPlace s p u) {e : Err}
    (ht : s.seq.trial = none)
    (hno : s.work.declLen ≤ s.work.inPos ∨ s.env.srcLen ≤ s.work.inPos)
    (he : ∀ v : State, v.work.declLen = s.work.declLen → v.work.inPos = s.work.inPos →
      v.work.outLen = s.work.outLen → v.work.decSize = s.work.decSize → v.env = s.env →
      inByte v = .raised e v) :
    ∃ v, step s = .next (failWith e v) ∧ v.host = s.host ∧ v.mem = s.mem := by
  have hu : readable u = [] := by rw [h.eq]; exact readable_nil (by exact hno)
  obtain ⟨v, hv, hcut⟩ := cutToken_nil p hu
  have hfields : v.work.declLen = s.work.declLen ∧ v.work.inPos = s.work.inPos ∧
      v.work.outLen = s.work.outLen ∧ v.work.decSize = s.work.decSize ∧ v.env = s.env ∧
      v.host = s.host ∧ v.mem = s.mem ∧ v.seq = s.seq := by
    obtain rfl | rfl := hv <;> rw [h.eq] <;> exact ⟨rfl, rfl, rfl, rfl, rfl, rfl, rfl, rfl⟩
  obtain ⟨h1, h2, h3, h4, h5, h6, h7, h8⟩ := hfields
  refine ⟨v, ?_, h6, h7⟩
  have hpiece : fetchForward p u = .piece (cutToken p u) := by
    simp only [fetchForward, hu, h.decode_nil]
  rw [step_of_fetch_piece (h.fetch.trans hpiece), hcut, consume, he v h1 h2 h3 h4 h5,
    Run.bind_raised, settle_raised, takeError_plain e v (by rw [h8]; exact ht)]

/-! ### A token cut short -/

theorem toNat_hiNib (b : Byte) : (hiNib b).toNat = b.toNat / 16 := by
  have := b.isLt
  simp only [hiNib, BitVec.extractLsb'_toNat, Nat.shiftRight_eq_div_pow]
  omega

/-- A back-reference of LZ11 is cut before the bytes its first byte asks for. -/
theorem decodeLz11Ref_cut {m : Memory} {a j : Nat}
    (hj : j < if (Memory.read a m).toNat / 16 = 0 then 3
      else if (Memory.read a m).toNat / 16 = 1 then 4 else 2) :
    decodeLz11Ref (Memory.range m a j) = .rejected .cut := by
  have hnib := toNat_hiNib (Memory.read a m)
  have hzero : hiNib (Memory.read a m) = 0 ↔ (Memory.read a m).toNat / 16 = 0 := by
    rw [← hnib, ← BitVec.toNat_inj]; rfl
  match j with
  | 0 => rfl
  | 1 =>
    simp only [Memory.range, decodeLz11Ref]
    split
    · rfl
    · split <;> rfl
  | 2 =>
    simp only [Memory.range, decodeLz11Ref]
    rw [if_neg (by rw [hnib]; split at hj <;> [omega; (split at hj <;> omega)])]
    split <;> rfl
  | 3 =>
    simp only [Memory.range, decodeLz11Ref]
    rw [if_neg (by rw [hnib]; split at hj <;> [omega; (split at hj <;> omega)]),
      if_neg (by rw [hzero]; split at hj <;> [omega; (split at hj <;> omega)])]
  | j + 4 => split at hj <;> [omega; (split at hj <;> omega)]

/-- Fewer bytes than a place's token has are no token. -/
theorem CutPlace.decode_cut {s u : State} {p : Place} (h : CutPlace s p u) (hnt : p ≠ .hufTable)
    {j : Nat} (hj : j < tokenBytes s)
    (hmagic : ∀ c, s.seq.phase = .header c → 1 ≤ j →
      Memory.read s.work.inPos s.mem.imem = c.magic) :
    j ≤ 3 ∧ (p = .rleGroup → j ≤ 1) ∧
      decode p (Memory.range s.mem.imem s.work.inPos j) = .rejected .cut := by
  cases h with
  | header c hp =>
    simp only [tokenBytes, hp] at hj
    refine ⟨by omega, nofun, ?_⟩
    have hm := hmagic c hp
    match j with
    | 0 => rfl
    | 1 | 2 | 3 => simp [decode, decodeHeader, Memory.range, hm]
    | j + 4 => omega
  | ext c hp | word k hc hp =>
    simp only [tokenBytes, hp] at hj
    refine ⟨by omega, nofun, ?_⟩
    match j with
    | 0 | 1 | 2 | 3 => rfl
    | j + 4 => omega
  | size k hp | null hlt hp =>
    simp only [tokenBytes, hp] at hj
    obtain rfl : j = 0 := by omega
    exact ⟨by omega, nofun, rfl⟩
  | table k hp => exact absurd rfl hnt
  | rle hlt hp =>
    simp only [tokenBytes, hp] at hj
    have hj1 : j ≤ 1 := by split at hj <;> omega
    refine ⟨by omega, fun _ => hj1, ?_⟩
    obtain rfl | rfl : j = 0 ∨ j = 1 := by omega
    · rfl
    · split at hj
      · next hrun => simp [decode, decodeRle, Memory.range, hrun]
      · omega
  | flags10 hlt hp hc | flags11 hlt hp hc =>
    simp only [tokenBytes, hp, hc, ne_eq, not_true_eq_false, false_and, if_false] at hj
    obtain rfl : j = 0 := by omega
    exact ⟨by omega, nofun, rfl⟩
  | block10 hlt hp hc =>
    have hf : nextFlagMsb s = s.work.flags.getLsbD 7 := rfl
    simp only [tokenBytes, hp, hc, ne_eq, not_false_eq_true, true_and, ← hf] at hj
    cases hflag : nextFlagMsb s <;> simp only [hflag, if_true, if_false, Bool.false_eq_true] at hj
    · obtain rfl : j = 0 := by omega
      exact ⟨by omega, nofun, rfl⟩
    · obtain rfl | rfl : j = 0 ∨ j = 1 := by omega
      · exact ⟨by omega, nofun, rfl⟩
      · exact ⟨by omega, nofun, rfl⟩
  | block11 hlt hp hc =>
    have hf : nextFlagMsb s = s.work.flags.getLsbD 7 := rfl
    simp only [tokenBytes, hp, hc, ne_eq, not_false_eq_true, true_and, ← hf] at hj
    cases hflag : nextFlagMsb s <;> simp only [hflag, if_true, if_false, Bool.false_eq_true] at hj
    · obtain rfl : j = 0 := by omega
      exact ⟨by omega, nofun, rfl⟩
    · refine ⟨?_, nofun, decodeLz11Ref_cut hj⟩
      split at hj <;> [omega; (split at hj <;> omega)]

/-- The error of a byte missing after `j` more (R63). -/
def missingError (j : Nat) (s : State) : Err :=
  if s.work.inPos + j = s.work.declLen then .notEnoughData s.work.outLen s.work.decSize
  else .streamTooShort

/-- A token of which `j` bytes are there has read them and set `TOK_POS` where it records its place;
then the command ends. -/
theorem CutPlace.step_cut {s u : State} {p : Place} (h : CutPlace s p u) {j : Nat}
    (ht : s.seq.trial = none) (hr : Readable j s) (hj : j ≤ 3) (hrle : p = .rleGroup → j ≤ 1)
    (he : s.work.inPos + j = s.work.declLen ∨ s.work.inPos + j = s.env.srcLen)
    (hcut : decode p (Memory.range s.mem.imem s.work.inPos j) = .rejected .cut) :
    ∃ v, step s = .next (failWith (missingError j s) v) ∧ v.host = s.host ∧ v.mem = s.mem ∧
      v.work.inPos = s.work.inPos + j ∧ v.work.outLen = s.work.outLen ∧
      (RecordsItsPlace s → v.work.tokPos = s.work.inPos) := by
  have hru : Readable j u := by rw [h.eq]; exact hr
  have heu : u.work.inPos + j = u.work.declLen ∨ u.work.inPos + j = u.env.srcLen := by
    rw [h.eq]; exact he
  have hread : readable u = Memory.range s.mem.imem s.work.inPos j := by
    rw [readable_cut hru (by omega) heu, h.eq]
  have hpiece : fetchForward p u = .piece (cutToken p u) := by
    simp only [fetchForward, hread, hcut]
  obtain ⟨v, hv, hfields⟩ : ∃ v, cutToken p u = .raised (missingError j s) v ∧
      v.host = s.host ∧ v.mem = s.mem ∧ v.seq = s.seq ∧ v.work.inPos = s.work.inPos + j ∧
      v.work.outLen = s.work.outLen ∧ (RecordsItsPlace s → v.work.tokPos = s.work.inPos) := by
    by_cases hp : p = .rleGroup
    · subst hp
      have hs : u = s := by cases h; rfl
      subst hs
      exact ⟨_, cutToken_rle hr (hrle rfl) he, rfl, rfl, rfl, rfl, rfl, fun _ => rfl⟩
    · have hrec := h.records
      have hcutp := cutToken_cut hp hru (by omega) heu
      rw [h.eq] at hcutp ⊢
      exact ⟨_, hcutp, rfl, rfl, rfl, rfl, rfl, fun hr => if_pos ((hrec hr).resolve_left hp)⟩
  obtain ⟨h1, h2, h3, h4, h5, h6⟩ := hfields
  refine ⟨v, ?_, h1, h2, h4, h5, h6⟩
  rw [step_of_fetch_piece (h.fetch.trans hpiece), hv, settle_raised,
    takeError_plain _ v (by rw [h3]; exact ht)]

/-- The response to a missing byte. -/
theorem failWith_missingError_host {j : Nat} {s v : State} (h : v.host = s.host) :
    (failWith (missingError j s) v).host = if s.work.inPos + j = s.work.declLen then
      afterNotEnough s.work.outLen s.work.decSize s.host else afterTooShort s.host := by
  unfold missingError
  split <;> simp [h]

/-! ### The tree table cut short -/

/-- A table of which `j` bytes are there has stored them. -/
theorem readTable_cut {n j p : Nat} {s : State} (hm : Memory.wf s.mem.tree = true)
    (h : Readable j s) (hj : j < n)
    (he : s.work.inPos + j = s.work.declLen ∨ s.work.inPos + j = s.env.srcLen) :
    ∃ m, readTable n p s = .raised (missingError j s)
      { s with mem.tree := m, work.inPos := s.work.inPos + j } ∧
      Stored s.mem.tree m p (Memory.range s.mem.imem s.work.inPos j) := by
  induction j generalizing n p s with
  | zero =>
    obtain ⟨n, rfl⟩ := Nat.exists_eq_add_one_of_ne_zero (by omega : n ≠ 0)
    refine ⟨s.mem.tree, ?_, Stored.nil _ _⟩
    obtain ⟨h1, h2, -⟩ := h
    rw [readTable, missingError]
    split
    · rw [inByte_undeclared (by omega)]; rfl
    · rw [inByte_undelivered (by omega) (by omega)]; rfl
  | succ j ih =>
    obtain ⟨n, rfl⟩ := Nat.exists_eq_add_one_of_ne_zero (by omega : n ≠ 0)
    have hlater : s.work.inPos + (j + 1) = s.work.inPos + 1 + j := by omega
    have hone : Readable 1 s := h.mono (by omega)
    obtain ⟨h1, h2, h3⟩ := h
    obtain ⟨m, e, hst⟩ := ih (n := n) (p := p + 1) (s := { s with
        mem.tree := Memory.write p (Memory.read s.work.inPos s.mem.imem) s.mem.tree,
        work.inPos := s.work.inPos + 1 }) (Memory.wf_write hm)
      ⟨by simp only []; omega, by simp only []; omega, h3⟩ (by omega) (by simp only []; omega)
    refine ⟨m, ?_, ?_⟩
    · rw [readTable, inByte_readable hone, Run.bind_ok]
      refine e.trans ?_
      simp only [missingError, hlater]
    · exact (Memory.stored_write _ _ hm).append hst

/-- The table's token cut after its first byte. -/
theorem step_table_cut {k : HufKind} {j : Nat} {s : State} (hp : s.seq.phase = .treeTable k)
    (ht : s.seq.trial = none) (hm : MemInv s) (hr : Readable (j + 1) s)
    (hj : j + 1 < s.work.treeLen - 1)
    (he : s.work.inPos + (j + 1) = s.work.declLen ∨ s.work.inPos + (j + 1) = s.env.srcLen) :
    ∃ m, step s = .next (failWith (missingError (j + 1) s)
        { s with mem.tree := m, work.inPos := s.work.inPos + (j + 1) }) ∧
      Stored s.mem.tree m 1 (Memory.range s.mem.imem s.work.inPos (j + 1)) := by
  have hone : Readable 1 s := hr.mono (by omega)
  obtain ⟨bs, hbs⟩ := readable_cons hone
  have hdec : decode .hufTable (readable s) =
      .instr (.hufTable (Memory.read s.work.inPos s.mem.imem)) := by rw [hbs]; rfl
  have hfetch : fetch s = .instr (.hufTable (Memory.read s.work.inPos s.mem.imem)) s := by
    simp only [fetch, hp, fetchForward_instr hdec]
  have hlater : s.work.inPos + (j + 1) = s.work.inPos + 1 + j := by omega
  obtain ⟨h1, h2, h3⟩ := hr
  obtain ⟨m, e, hst⟩ := readTable_cut (n := s.work.treeLen - 2) (p := 2) (s := { s with
      mem.tree := Memory.write 1 (Memory.read s.work.inPos s.mem.imem) s.mem.tree,
      work.inPos := s.work.inPos + 1 }) (Memory.wf_write hm.tree)
    (j := j) ⟨by simp only []; omega, by simp only []; omega, h3⟩ (by omega) (by simp only []; omega)
  refine ⟨m, ?_, (Memory.stored_write _ _ hm.tree).append hst⟩
  rw [step_of_fetch_instr hfetch, exec_eq_settle, meaning, consume_readable hone, Run.bind_ok]
  rw [e, Run.bind_raised, settle_raised, takeError_plain _ _ (by exact ht)]
  simp only [missingError, hlater]

/-! ### LZ-Overlay -/

theorem fetch_trailer {s : State} (hp : s.seq.phase = .ovlTrailer) : fetch s = fetchTrailer s := by
  simp only [fetch, hp]

/-- Bytes declared for the four-byte trailer alone, whose size is not 0, are no trailer (R253). -/
theorem decodeTrailer_short {m : Memory} {n : Nat} (h4 : 4 ≤ n) (h8 : n < 8)
    (h : le32 (Memory.read (n - 4) m) (Memory.read (n - 3) m) (Memory.read (n - 2) m)
      (Memory.read (n - 1) m) ≠ 0) :
    decode .ovlTrailer (Memory.range m (n - min n 8) (min n 8)) = .rejected .shortTrailer := by
  obtain rfl | rfl | rfl | rfl : n = 4 ∨ n = 5 ∨ n = 6 ∨ n = 7 := by omega
  all_goals exact if_neg h

/-- The trailer's reads where its size is not 0 and no eight bytes are declared. -/
theorem fetchTrailer_short {s : State} (h4 : 4 ≤ s.work.declLen) (h8 : s.work.declLen < 8)
    (hsrc : s.work.declLen ≤ s.env.srcLen) (hf : s.env.ioFault = none) (h : trailerExtra s ≠ 0) :
    fetchTrailer s = .piece (.raised (.invalidData (s.work.declLen - 4))
      { s with ovl.extra := (trailerExtra s).toNat }) := by
  have hn : ¬ s.work.declLen < 4 := by omega
  have hs : ¬ s.env.srcLen < s.work.declLen := by omega
  simp only [fetchTrailer, if_neg hn, if_neg hs, decodeTrailer_short h4 h8 h,
    portAccesses_noFault 4 s hf, Run.bind_ok]

theorem rdBack_empty {s : State} (h : s.ovl.ip ≤ s.ovl.p) :
    rdBack s = .raised (.notEnoughData s.ovl.w s.ovl.u) s := if_pos h

/-- The region's next token with no byte of the region left. -/
theorem fetchOvl_empty {s : State} (h : s.ovl.ip ≤ s.ovl.p) :
    ∃ v, fetchOvl s = .piece (.raised (.notEnoughData s.ovl.w s.ovl.u) v) ∧ v.mem = s.mem ∧
      v.host = s.host ∧ v.seq = s.seq := by
  have hread : ∀ u : State, u.ovl = s.ovl → readableBack u = [] := by
    intro u hu
    have hlen : (readableBack u).length = 0 := by
      simp only [readableBack, List.length_reverse, Memory.range_length, hu]; omega
    exact List.length_eq_zero_iff.mp hlen
  by_cases hc : s.work.flagCnt = 0
  · refine ⟨s, ?_, rfl, rfl, rfl⟩
    rw [fetchOvl_flags hc]
    simp only [fetchBack, hread s rfl, decode, cutBack, rdBack_empty h, Run.bind_raised]
  · refine ⟨dropFlagLsb s, ?_, rfl, rfl, rfl⟩
    have hempty := rdBack_empty (s := dropFlagLsb s) h
    rw [fetchOvl_block hc]
    cases nextFlagLsb s <;>
      simp only [fetchBack, hread (dropFlagLsb s) rfl, decode, cutBack, rdBackRef, hempty,
        Run.bind_raised] <;> rfl

/-- A back-reference of the region with one byte left: it is read, its offset recorded (R261, R271). -/
theorem fetchOvl_cutRef {s : State} (h : s.ovl.ip = s.ovl.p + 1) (hc : s.work.flagCnt ≠ 0)
    (hflag : nextFlagLsb s = true) (hf : s.env.ioFault = none) :
    fetchOvl s = .piece (.raised (.notEnoughData s.ovl.w s.ovl.u)
      { dropFlagLsb s with ovl.ip := s.ovl.p, work.tokPos := s.ovl.p }) := by
  have hip : s.ovl.ip - 1 = s.ovl.p := by omega
  have hread : ∃ b, readableBack (dropFlagLsb s) = [b] := by
    apply List.length_eq_one_iff.mp
    simp only [readableBack, dropFlagLsb, List.length_reverse, Memory.range_length]
    omega
  obtain ⟨b, hb⟩ := hread
  rw [fetchOvl_block hc, hflag]
  simp only [fetchBack, hb, decode, cutBack, rdBackRef]
  rw [rdBack_noFault (by exact hf) (by simp only [dropFlagLsb]; omega), Run.bind_ok,
    rdBack_empty (by simp only [dropFlagLsb]; omega), Run.bind_raised]
  simp only [dropFlagLsb, hip]

/-- An error raised in fetching, outside a trial run, ends the command. -/
theorem step_of_fetch_raised {s v : State} {e : Err} (h : fetch s = .piece (.raised e v))
    (ht : v.seq.trial = none) : step s = .next (failWith e v) := by
  rw [step_of_fetch_piece h, settle_raised, takeError_plain e v ht]

/-- Settles O18: the places read at `IN_POS`, then the overlay's trailer and region. -/
theorem missingBytesEndTheDecode : Obligations.MissingBytesEndTheDecode := by
  intro s ht
  refine ⟨fun hplace => ?_, fun hp => ⟨fun h4 => ?_, fun h4 hsrc => ?_, ?_⟩,
    fun hp hw => ⟨fun hip => ?_, ?_⟩⟩
  · obtain ⟨p, u, hc⟩ := exists_cutPlace hplace
    refine ⟨fun hno => ?_, fun hd hno => ?_, fun j hj hm hr hmagic he => ?_⟩
    · obtain ⟨v, hstep, hhost, hmem⟩ := hc.step_missing
        (e := .notEnoughData s.work.outLen s.work.decSize) ht (.inl hno)
        fun v h1 h2 h3 h4 _ => by rw [← h3, ← h4]; exact inByte_undeclared (by omega)
      exact ⟨_, hstep, hmem, rfl, by simp [hhost]⟩
    · obtain ⟨v, hstep, hhost, hmem⟩ := hc.step_missing (e := .streamTooShort) ht (.inr hno)
        fun v h1 h2 _ _ h5 => inByte_undelivered (by omega) (by rw [h5, h2]; exact hno)
      exact ⟨_, hstep, hmem, rfl, by simp [hhost]⟩
    · by_cases htable : p = .hufTable ∧ j ≠ 0
      · obtain ⟨rfl, hj0⟩ := htable
        obtain ⟨j, rfl⟩ := Nat.exists_eq_add_one_of_ne_zero hj0
        cases hc with
        | table k hp =>
          simp only [tokenBytes, hp] at hj
          obtain ⟨m, hstep, hst⟩ := step_table_cut hp ht hm hr hj he
          refine ⟨_, hstep, rfl, rfl, rfl, fun hrec => ?_, rfl, ?_, failWith_missingError_host rfl⟩
          · obtain ⟨c, hc⟩ | hc | ⟨hc | hc, -⟩ := hrec <;> rw [hp] at hc <;> cases hc
          · simp only [hp]
            exact hst
      · have hcut : j ≤ 3 ∧ (p = .rleGroup → j ≤ 1) ∧
            decode p (Memory.range s.mem.imem s.work.inPos j) = .rejected .cut := by
          by_cases hp : p = .hufTable
          · obtain rfl : j = 0 := not_not.mp fun hj0 => htable ⟨hp, hj0⟩
            exact ⟨by omega, fun _ => by omega, hc.decode_nil⟩
          · exact hc.decode_cut hp hj hmagic
        obtain ⟨hj3, hrle, hcut⟩ := hcut
        obtain ⟨v, hstep, hhost, hmem, hin, hout, hrec⟩ := hc.step_cut ht hr hj3 hrle he hcut
        refine ⟨_, hstep, rfl, hin, hout, hrec, ?_, ?_, failWith_missingError_host hhost⟩
        · show v.mem = { s.mem with tree := v.mem.tree }
          rw [hmem]
        · show Stored _ v.mem.tree _ _
          rw [hmem]
          split
          · next k hp =>
            have hj0 : j = 0 := by
              have hpt : p = .hufTable := by cases hc <;> simp_all
              exact not_not.mp fun hj0 => htable ⟨hpt, hj0⟩
            rw [hj0]
            exact Stored.nil _ _
          · exact Stored.nil _ _
  · have hpiece : fetch s = .piece (.raised (.notEnoughData 0 0) s) := by
      rw [fetch_trailer hp]; exact if_pos h4
    exact ⟨_, step_of_fetch_raised hpiece ht, rfl, rfl, by simp⟩
  · have hpiece : fetch s = .piece (.raised .streamTooShort s) := by
      rw [fetch_trailer hp]
      exact (if_neg (by omega)).trans (if_pos hsrc)
    exact ⟨_, step_of_fetch_raised hpiece ht, rfl, rfl, by simp⟩
  · rintro n extra rfl h4 h8 hsrc hf rfl hextra
    have hpiece := (fetch_trailer hp).trans (fetchTrailer_short h4 h8 hsrc hf hextra)
    exact ⟨_, step_of_fetch_raised hpiece ht, rfl, rfl, rfl, by simp⟩
  · obtain ⟨v, hv, hmem, hhost, hseq⟩ := fetchOvl_empty hip
    have hpiece : fetch s = .piece (.raised (.notEnoughData s.ovl.w s.ovl.u) v) := by
      simp only [fetch, hp, if_pos hw, hv]
    exact ⟨_, step_of_fetch_raised hpiece (by rw [hseq]; exact ht), hmem, rfl, by simp [hhost]⟩
  · intro hip hc hflag hf
    have hpiece : fetch s = .piece (.raised (.notEnoughData s.ovl.w s.ovl.u)
        { dropFlagLsb s with ovl.ip := s.ovl.p, work.tokPos := s.ovl.p }) := by
      simp only [fetch, hp, if_pos hw, fetchOvl_cutRef hip hc hflag hf]
    exact ⟨_, step_of_fetch_raised hpiece ht, rfl, rfl, rfl, rfl, by simp [dropFlagLsb]⟩

end Sys2Proof.Machine

/-!
A due I/O fault ends the command (O35; spec/20_memory.md R78): in a token whose bytes are there, in the
commit, in the flush and in the commands.
-/
namespace Sys2Proof.Machine

/-! ### Accesses counted -/

/-- Accesses that reach the fault. -/
theorem portAccesses_faults {n k : Nat} {s : State} (h : s.env.ioFault = some k) (hk : k < n) :
    portAccesses n s = .raised .ioError { s with env.ioFault := none } := by
  simp only [portAccesses, h, if_neg (Nat.not_le.mpr hk)]

/-- Accesses before the fault. -/
theorem portAccesses_passes {n k : Nat} {s : State} (h : s.env.ioFault = some k) (hk : n ≤ k) :
    portAccesses n s = .ok () { s with env.ioFault := some (k - n) } := by
  simp only [portAccesses, h, if_pos hk]

theorem Moved.ofRaised {α : Type} {s t : State} {r : Run α} {e : Err} (h : Moved s r.final)
    (er : r = .raised e t) : Moved s t := by rwa [er] at h

theorem Moved.ovlbuf {s t : State} (h : Moved s t) : t.mem.ovlbuf = s.mem.ovlbuf := by rw [h.mem]

/-- From `s` to `t` OVLBUF is as before, and OMEM in a trial run. -/
def BuffersKept (s t : State) : Prop :=
  t.mem.ovlbuf = s.mem.ovlbuf ∧ (s.seq.trial ≠ none → t.mem.omem = s.mem.omem)

theorem BuffersKept.ofMem {s t : State} (h : t.mem = s.mem) : BuffersKept s t := by
  unfold BuffersKept
  rw [h]
  exact ⟨rfl, fun _ => rfl⟩

/-- The piece raises the I/O error and keeps the buffers, and every memory where the first access
faults. -/
def Faults (k : Nat) (s : State) (r : Run Unit) : Prop :=
  ∃ t, r = .raised .ioError t ∧ BuffersKept s t ∧ (k = 0 → t.mem = s.mem)

/-- A piece raises the I/O error and keeps the buffers. -/
def RestFaults (s : State) (r : Run Unit) : Prop :=
  ∃ t, r = .raised .ioError t ∧ BuffersKept s t

/-- An output loop that raises, run where the buffers and the trial run are `s`'s. -/
theorem RestFaults.ofMoved {s u : State} {r : Run Unit} (h : ∃ t, r = .raised .ioError t)
    (hm : Moved u r.final) (ht : TokenMoves u r.final) (hseq : u.seq.trial = s.seq.trial)
    (hu : BuffersKept s u) : RestFaults s r := by
  obtain ⟨t, e⟩ := h
  rw [e] at hm ht
  exact ⟨t, e, hm.ovlbuf.trans hu.1, fun h => (ht.inTrial (hseq ▸ h)).trans (hu.2 h)⟩

/-- Bytes read first: the fault is due among them, or in what follows. -/
theorem Faults.consume_bind {n k : Nat} {s v : State} {f : Unit → State → Run Unit}
    (h : v.env.ioFault = some k) (hn : 1 ≤ n) (hd : v.work.inPos + n ≤ v.work.declLen)
    (hs : v.work.inPos + n ≤ v.env.srcLen) (hmem : v.mem = s.mem)
    (hrest : n ≤ k → RestFaults s
      (f () { v with env.ioFault := some (k - n), work.inPos := v.work.inPos + n })) :
    Faults k s ((consume n v).bind f) := by
  by_cases hk : k < n
  · rw [consume_faults h hk hd hs]
    exact ⟨_, rfl, .ofMem hmem, fun _ => hmem⟩
  · rw [consume_passes h (by omega) hd hs]
    obtain ⟨t, e, ht⟩ := hrest (by omega)
    exact ⟨t, e, ht, fun h0 => by omega⟩

/-- Accesses made first: the fault is due among them, or in what follows. -/
theorem Faults.accesses_bind {n k : Nat} {s v : State} {f : Unit → State → Run Unit}
    (h : v.env.ioFault = some k) (hn : 1 ≤ n) (hmem : v.mem = s.mem)
    (hrest : n ≤ k → RestFaults s (f () { v with env.ioFault := some (k - n) })) :
    Faults k s ((portAccesses n v).bind f) := by
  by_cases hk : k < n
  · rw [portAccesses_faults h hk]
    exact ⟨_, rfl, .ofMem hmem, fun _ => hmem⟩
  · rw [portAccesses_passes h (by omega)]
    obtain ⟨t, e, ht⟩ := hrest (by omega)
    exact ⟨t, e, ht, fun h0 => by omega⟩

/-- The flag byte of an RLE group is read first. -/
theorem Faults.rleFlag_bind {l k : Nat} {s : State} {f : Unit → State → Run Unit}
    (h : s.env.ioFault = some k) (hd : s.work.inPos + 1 ≤ s.work.declLen)
    (hs : s.work.inPos + 1 ≤ s.env.srcLen)
    (hrest : 1 ≤ k → RestFaults s (f () { s with
      env.ioFault := some (k - 1), work.tokPos := s.work.inPos, work.inPos := s.work.inPos + 1,
      work.tokL := l })) :
    Faults k s ((rleFlag l s).bind f) := by
  by_cases hk : k < 1
  · rw [rleFlag, consume_faults (s := beginToken s) h hk hd hs]
    exact ⟨_, rfl, .ofMem rfl, fun _ => rfl⟩
  · rw [rleFlag, consume_passes (s := beginToken s) h (by omega) hd hs]
    obtain ⟨t, e, ht⟩ := hrest (by omega)
    exact ⟨t, e, ht, fun h0 => by omega⟩

/-- An output byte whose access faults. -/
theorem outByte_faults {b : Byte} {s : State} (h : s.env.ioFault = some 0)
    (ht : s.seq.trial = none) : outByte b s = .raised .ioError { s with env.ioFault := none } :=
  outByte_counts h ht

theorem outByteWin_faults {b : Byte} {s : State} (h : s.env.ioFault = some 0)
    (ht : s.seq.trial = none) :
    outByteWin b s = .raised .ioError { s with env.ioFault := none } := by
  rw [outByteWin, outByte_faults h ht, Run.bind_raised]

theorem readTable_faults {n p k : Nat} {s : State} (h : s.env.ioFault = some k) (hk : k < n)
    (hd : s.work.inPos + n ≤ s.work.declLen) (hs : s.work.inPos + n ≤ s.env.srcLen) :
    RestFaults s (readTable n p s) := by
  induction n generalizing p s k with
  | zero => omega
  | succ n ih =>
    cases k with
    | zero =>
      refine ⟨{ s with env.ioFault := none }, ?_, .ofMem rfl⟩
      rw [readTable, inByte, if_neg (by omega), if_neg (by omega), portAccesses_faults h (by omega)]
      rfl
    | succ k =>
      rw [readTable, inByte, if_neg (by omega), if_neg (by omega), portAccesses_passes h (by omega)]
      exact ih (k := k) rfl (by omega) (by simp only []; omega) (by simp only []; omega)

theorem ovlEntry_eq {s : State} (h4 : 4 ≤ s.work.declLen) (hs : s.work.declLen ≤ s.env.srcLen) :
    ovlEntry s = portAccesses 4 s := by
  rw [ovlEntry, if_neg (by omega), if_neg (by omega)]

/-! ### Tokens -/

/-- A back-reference. -/
theorem refToken_faults {n l d k : Nat} {s : State} (h : s.env.ioFault = some k) (hn : 1 ≤ n)
    (hd : s.work.inPos + n ≤ s.work.declLen) (hs : s.work.inPos + n ≤ s.env.srcLen)
    (hk : k < n + if s.seq.trial = none then (if d ≤ s.work.outLen then clamped l s else 0) else 0) :
    Faults k s (refToken n l d s) := by
  refine .consume_bind (v := beginToken s) h hn hd hs rfl fun hnk => ?_
  have ht : s.seq.trial = none := by
    by_contra ht
    rw [if_neg ht] at hk
    omega
  have hdisp : d ≤ s.work.outLen := by
    by_contra hdisp
    rw [if_pos ht, if_neg hdisp] at hk
    omega
  rw [if_pos ht, if_pos hdisp] at hk
  rw [checkDisp_within (by exact hdisp), Run.bind_ok]
  have hclamp : k - n < clamped l s := by omega
  exact .ofMoved (copyBack_faults rfl hclamp ht) (copyBack_moved l d _) (copyBack_moves l d _) rfl
    (.ofMem rfl)

/-- A token that only reads. -/
theorem consumeOnly_faults {n k : Nat} {s v : State} {f : Unit → State → Run Unit}
    (h : v.env.ioFault = some k) (hk : k < n) (hd : v.work.inPos + n ≤ v.work.declLen)
    (hs : v.work.inPos + n ≤ v.env.srcLen) (hmem : v.mem = s.mem) :
    Faults k s ((consume n v).bind f) :=
  .consume_bind h (by omega) hd hs hmem fun _ => by omega

/-- A byte put out by a token that has read `n`: the access left over is the port's. -/
theorem lt_of_lt_add_ite {P : Prop} [Decidable P] {k n m : Nat} (h : k < n + if P then m else 0)
    (hn : n ≤ k) : P ∧ k - n < m := by
  split at h
  · exact ⟨‹_›, by omega⟩
  · omega

/-- The accesses of a token that writes no byte are its reads. -/
theorem lt_of_readOnly {i : Instr} {k : Nat} {s : State} (h : k < accesses i s)
    (hw : bytesWritten i s = 0) : k < bytesRead i s := by
  unfold accesses at h
  rw [hw, ite_self, Nat.add_zero] at h
  exact h

/-- Every token that reaches the fault raises the I/O error. -/
theorem meaning_faults {i : Instr} {k : Nat} {s : State} (h : s.env.ioFault = some k)
    (hi : isToken i = true) (hthere : BytesThere i s) (hk : k < accesses i s) :
    Faults k s (meaning i s) := by
  cases i with
  | cmdSupports c | cmdDecompress c | cmdCompress c | cmdSetopt c o => cases hi
  | hdrNull n | hdrLz10 n | hdrLz11 n | hdrHuf4 n | hdrHuf8 n | hdrRle n =>
    obtain ⟨hd, hs⟩ := hthere
    have hk4 : k < 4 := lt_of_readOnly hk rfl
    exact consumeOnly_faults (v := beginToken s) (n := 4) h hk4 hd hs rfl
  | hdrExt n | hufWord n =>
    obtain ⟨hd, hs⟩ := hthere
    have hk4 : k < 4 := lt_of_readOnly hk rfl
    exact consumeOnly_faults (n := 4) h hk4 hd hs rfl
  | lz10Flags f | lz11Flags f | hufTsize f =>
    obtain ⟨hd, hs⟩ := hthere
    have hk1 : k < 1 := lt_of_readOnly hk rfl
    exact consumeOnly_faults (n := 1) h hk1 hd hs rfl
  | lz10Lit d | lz11Lit d =>
    obtain ⟨hd, hs⟩ := hthere
    refine Faults.consume_bind (n := 1) h le_rfl hd hs rfl fun hn => ?_
    obtain ⟨ht, hk0⟩ := lt_of_lt_add_ite (n := 1) (m := 1) hk hn
    exact ⟨_, outByteWin_faults (congrArg some (by omega : k - 1 = 0)) ht, .ofMem rfl⟩
  | nullByte d =>
    obtain ⟨hd, hs⟩ := hthere
    refine Faults.consume_bind (n := 1) h le_rfl hd hs rfl fun hn => ?_
    obtain ⟨ht, hk0⟩ := lt_of_lt_add_ite (n := 1) (m := 1) hk hn
    exact ⟨_, outByte_faults (congrArg some (by omega : k - 1 = 0)) ht, .ofMem rfl⟩
  | lz10Ref len disp =>
    obtain ⟨hd, hs⟩ := hthere
    exact refToken_faults (n := 2) h (by decide) hd hs hk
  | lz11Ref2 len disp =>
    obtain ⟨hd, hs⟩ := hthere
    exact refToken_faults (n := 2) h (by decide) hd hs hk
  | lz11Ref3 len disp =>
    obtain ⟨hd, hs⟩ := hthere
    exact refToken_faults (n := 3) h (by decide) hd hs hk
  | lz11Ref4 len disp =>
    obtain ⟨hd, hs⟩ := hthere
    exact refToken_faults (n := 4) h (by decide) hd hs hk
  | ovlTrailer0 =>
    obtain ⟨h4, hs⟩ := hthere
    rw [meaning, ovlEntry_eq h4 hs]
    refine Faults.accesses_bind h (by decide) rfl fun hn => ?_
    have hk' : k - 4 < (s.work.declLen - 4) +
        (if s.seq.trial = none then s.work.declLen - 4 else 0) := by
      have hk : k < s.work.declLen + if s.seq.trial = none then s.work.declLen - 4 else 0 := hk
      omega
    obtain ⟨t, e⟩ := copyThrough_faults (a := 0) (s := { s with
      env.ioFault := some (k - 4), ovl.extra := 0 }) rfl hk'
    have hm := copyThrough_moves (s.work.declLen - 4) 0
      { s with env.ioFault := some (k - 4), ovl.extra := 0 }
    rw [e] at hm
    exact ⟨t, by rw [e, Run.bind_raised], ((copyThrough_moved _ _ _).ofRaised e).ovlbuf, hm.inTrial⟩
  | ovlTrailer cl hs extra =>
    obtain ⟨h8, hsrc⟩ := hthere
    rw [meaning, ovlEntry_eq (by omega) hsrc]
    refine Faults.accesses_bind h (by decide) rfl fun hn => ?_
    simp only []
    rw [if_neg (by omega)]
    by_cases hk8 : k - 4 < 4
    · rw [portAccesses_faults rfl hk8]
      exact ⟨_, rfl, .ofMem rfl⟩
    · rw [portAccesses_passes rfl (by omega), Run.bind_ok]
      have hk' : 8 ≤ hs.toNat ∧ k - 4 - 4 < s.work.declLen - hs.toNat - cl.toNat := by
        have hk : k < 8 + if 8 ≤ hs.toNat then s.work.declLen - hs.toNat - cl.toNat else 0 :=
          lt_of_readOnly hk rfl
        split at hk <;> omega
      obtain ⟨h8', hk'⟩ := hk'
      have hgood : trailerBad s.work.declLen hs.toNat cl.toNat = false := by
        simp only [trailerBad, Bool.or_eq_false_iff, decide_eq_false_iff_not]
        omega
      rw [hgood]
      rw [if_neg (by decide), portAccesses_faults rfl hk']
      exact ⟨_, rfl, .ofMem rfl⟩
  | ovlFlags f | ovlLit f =>
    have hk1 : k = 0 := Nat.lt_one_iff.mp (lt_of_readOnly hk rfl)
    subst hk1
    have hip : s.ovl.p + 1 ≤ s.ovl.ip := hthere
    rw [meaning, rdBack, if_neg (by omega), portAccesses_faults h (by decide)]
    exact ⟨_, rfl, .ofMem rfl, fun _ => rfl⟩
  | ovlRef len disp =>
    have hk2 : k < 2 := lt_of_readOnly hk rfl
    have hip : s.ovl.p + 2 ≤ s.ovl.ip := hthere
    rw [meaning, rdBackRef, rdBack, if_neg (by omega)]
    obtain rfl | rfl : k = 0 ∨ k = 1 := by omega
    · rw [portAccesses_faults h (by decide)]
      exact ⟨_, rfl, .ofMem rfl, fun _ => rfl⟩
    · rw [portAccesses_passes h le_rfl, Run.bind_ok, Run.bind_ok, rdBack,
        if_neg (by simp only []; omega), portAccesses_faults rfl (by decide)]
      exact ⟨_, rfl, .ofMem rfl, fun h0 => by omega⟩
  | rleRun n d =>
    obtain ⟨hd, hs⟩ := hthere
    simp only [bytesRead] at hd hs
    refine Faults.rleFlag_bind h (by omega) (by omega) fun h1 => ?_
    by_cases hk2 : k - 1 < 1
    · rw [consume_faults rfl hk2 (by simp only []; omega) (by simp only []; omega)]
      exact ⟨_, rfl, .ofMem rfl⟩
    · rw [consume_passes rfl (by omega) (by simp only []; omega) (by simp only []; omega), Run.bind_ok]
      obtain ⟨ht, hclamp⟩ := lt_of_lt_add_ite (n := 2) hk (by omega)
      have hlt : k - 1 - 1 < clamped (rleRunLen n) s := by
        have : k - 2 < clamped (rleRunLen n) s := hclamp
        omega
      exact .ofMoved (repeatOut_faults rfl hlt ht) (repeatOut_moved _ d _)
        (repeatOut_moves _ d _) rfl (.ofMem rfl)
  | rleRaw n =>
    obtain ⟨hd, hs⟩ := hthere
    simp only [bytesRead] at hd hs
    refine Faults.rleFlag_bind h (by omega) (by omega) fun h1 => ?_
    have hlt : k - 1 < clamped (rleRawLen n) s +
        if s.seq.trial = none then clamped (rleRawLen n) s else 0 := by
      have hk : k < 1 + clamped (n.toNat + 1) s +
          if s.seq.trial = none then clamped (n.toNat + 1) s else 0 := hk
      simp only [rleRawLen]
      omega
    refine .ofMoved (rawOut_faults rfl hlt ?_ ?_) (rawOut_moved _ _) (rawOut_moves _ _) rfl (.ofMem rfl)
    · show s.work.inPos + 1 + clamped (n.toNat + 1) s ≤ s.work.declLen
      omega
    · show s.work.inPos + 1 + clamped (n.toNat + 1) s ≤ s.env.srcLen
      omega
  | hufTable root =>
    obtain ⟨hd, hs⟩ := hthere
    simp only [bytesRead] at hd hs
    have hk' : k < 1 + (s.work.treeLen - 2) := lt_of_readOnly hk rfl
    refine Faults.consume_bind h le_rfl (by omega) (by omega) rfl fun h1 => ?_
    obtain ⟨t, e, ht⟩ := readTable_faults (n := s.work.treeLen - 2) (p := 2) (k := k - 1)
      (s := { s with
        env.ioFault := some (k - 1), work.inPos := s.work.inPos + 1,
        mem.tree := Memory.write 1 root s.mem.tree }) rfl (by omega) (by simp only []; omega)
      (by simp only []; omega)
    exact ⟨t, by rw [e, Run.bind_raised], ht⟩
  | hufNode x y o | hufBit b => exact absurd (lt_of_readOnly hk rfl) (Nat.not_lt_zero k)
  | hufLeaf8 b =>
    obtain ⟨ht, hk0⟩ := lt_of_lt_add_ite (n := 0) hk (Nat.zero_le k)
    have hk0 : k < 1 := hk0
    obtain rfl : k = 0 := by omega
    rw [meaning, outByte_faults h ht]
    exact ⟨_, rfl, .ofMem rfl, fun _ => rfl⟩
  | hufLeaf4 b =>
    obtain ⟨ht, hk0⟩ := lt_of_lt_add_ite (n := 0) hk (Nat.zero_le k)
    obtain ⟨⟨hb, hnib⟩, hk0⟩ : (b.toNat < 16 ∧ s.work.nibValid = true) ∧ k = 0 := by
      have hk0 : k < if b.toNat < 16 ∧ s.work.nibValid = true then 1 else 0 := hk0
      split at hk0
      · exact ⟨‹_›, by omega⟩
      · omega
    subst hk0
    rw [meaning, leafNibble, if_neg (not_not.mpr (hiNib_eq_zero_iff.mpr hb)), if_pos hnib,
      outByte_faults h ht]
    exact ⟨_, rfl, .ofMem rfl, fun _ => rfl⟩

/-! ### What an I/O error leaves -/

/-- An I/O error raised ends the command, in or out of a trial run (R427, R469). -/
theorem settle_ioError (t : State) : settle (.raised .ioError t) = .next (failWith .ioError t) := by
  rw [settle_raised, takeError_io]

theorem failWith_ioError_of_host {s t : State} (h : t.host = s.host) :
    (failWith .ioError t).host = afterIoError s.host := by
  rw [failWith_ioError_host, h]

/-- The bytes of a buffer put out, fewer of them than the fault lets through. -/
theorem outBytes_settle_faults {k : Nat} {bs : List Byte} {s : State} {f : Unit → State → Run Unit}
    (h : s.env.ioFault = some k) (hk : k < bs.length) (ht : s.seq.trial = none) :
    ∃ t, settle ((outBytes bs s).bind f) = .next (failWith .ioError t) ∧ t.host = s.host := by
  obtain ⟨t, e⟩ := outBytes_faults h hk ht
  exact ⟨t, by rw [e, Run.bind_raised, settle_ioError], ((outBytes_moved bs s).ofRaised e).host⟩

/-! ### The commands -/

theorem inPeek_faults {a : Nat} {s : State} (h : s.env.ioFault = some 0)
    (hd : a < s.work.declLen) (hs : a < s.env.srcLen) :
    inPeek a s = .raised .ioError { s with env.ioFault := none } := by
  rw [inPeek, if_pos ⟨hd, hs⟩, portAccesses_faults h (by decide), Run.bind_raised]

theorem supportsMagic_faults {c : Fwd} {s : State} (h : s.env.ioFault = some 0)
    (hd : 4 ≤ s.work.declLen) (hs : s.work.declLen ≤ s.env.srcLen) :
    supportsMagic c s = .raised .ioError { s with env.ioFault := none } := by
  rw [supportsMagic, if_neg (by omega), inPeek_faults h (by omega) (by omega), Run.bind_raised]

/-- Every simple codec asks for a byte of a delivered input of four bytes or more. -/
theorem supportsSimple_faults {c : Codec} {s : State} (hc : codecMembers c = [])
    (h : s.env.ioFault = some 0) (hd : 4 ≤ s.work.declLen) (hs : s.work.declLen ≤ s.env.srcLen) :
    supportsSimple c s = .raised .ioError { s with env.ioFault := none } := by
  cases c with
  | hufany | gba | nds => cases hc
  | null => rw [supportsSimple, supportsNull, supportsMagic_faults h hd hs, Run.bind_raised]
  | lzovl =>
    rw [supportsSimple, supportsOvl]
    simp only []
    rw [if_neg (by omega), peekAll, inPeek_faults h (by omega) (by omega), Run.bind_raised,
      Run.bind_raised]
  | _ => exact supportsMagic_faults h hd hs

/-- A composite's first member is a simple codec that compresses. -/
theorem codecMembers_cons {c : Codec} (h : codecMembers c ≠ []) :
    ∃ k ks, codecMembers c = k :: ks ∧ codecMembers k = [] ∧ codecCanCompress k = true := by
  cases c with
  | hufany | gba | nds => exact ⟨_, _, rfl, rfl, rfl⟩
  | _ => exact absurd rfl h

theorem supports_faults {c : Codec} {s : State} (h : s.env.ioFault = some 0)
    (hd : 4 ≤ s.work.declLen) (hs : s.work.declLen ≤ s.env.srcLen) :
    supports c s = .raised .ioError { s with env.ioFault := none } := by
  by_cases hc : codecMembers c = []
  · simp only [supports, hc]
    exact supportsSimple_faults hc h hd hs
  · obtain ⟨k, ks, hks, hk, -⟩ := codecMembers_cons hc
    rw [supports_composite hc, hks, supportsAny, supportsSimple_faults hk h hd hs, Run.bind_raised]

theorem decompressCommand_faults {c : Codec} {s : State} (hc : codecMembers c ≠ [])
    (h : s.env.ioFault = some 0) (hd : 4 ≤ s.host.argLen.toNat)
    (hs : s.host.argLen.toNat ≤ s.env.srcLen) :
    decompressCommand c s = failWith .ioError { startRun s with env.ioFault := none } := by
  obtain ⟨k, ks, hks, hk, -⟩ := codecMembers_cons hc
  rw [decompressCommand_composite hc, hks, tryMembers,
    supportsSimple_faults (s := startRun s) hk h hd hs]

theorem runEncoder_faults {c : Codec} {k : Nat} {s : State} (h : s.env.ioFault = some k)
    (hk : k < s.work.declLen) :
    runEncoder c s = .raised .ioError { s with env.ioFault := none } := by
  rw [runEncoder, portAccesses_faults h hk, Run.bind_raised]

/-- The plaintext's reads reach the fault: no byte is written. -/
theorem compressCommand_faults {c : Codec} {k : Nat} {s : State} (h : s.env.ioFault = some k)
    (hc : c ≠ .lzovl) (hlen : s.work.declLen ≤ 0xFFFFFF) (hsrc : s.work.declLen ≤ s.env.srcLen)
    (harg : s.work.declLen = s.host.argLen.toNat) (hk : k < s.work.declLen) :
    ∃ t, compressCommand c s = .raised .ioError t ∧ t.host = s.host ∧
      t.mem.omem = s.mem.omem := by
  by_cases hm : codecMembers c = []
  · rw [compressCommand_simple hm hc hlen hsrc, runEncoder_faults h hk, Run.bind_raised]
    exact ⟨_, rfl, rfl, rfl⟩
  · obtain ⟨j, js, hjs, -, hcan⟩ := codecMembers_cons hm
    rw [compressCommand_composite hm hlen hsrc, hjs, compressMembers, if_pos hcan,
      runEncoder_faults (s := beginTrial j js s) h (by rw [harg] at hk; exact hk)]
    exact ⟨_, rfl, rfl, rfl⟩

/-- The plaintext is read and the fault is due among the bytes of the stream. -/
theorem runEncoder_faults_writing {c : Codec} {k : Nat} {s : State} {bytes : List Byte}
    (h : s.env.ioFault = some k) (ht : s.seq.trial = none) (he : encodeStream c s = some bytes)
    (hk : s.work.declLen ≤ k) (hlt : k < s.work.declLen + bytes.length) :
    ∃ t, runEncoder c s = .raised .ioError t ∧ t.host = s.host := by
  have he' : encodeStream c { s with env.ioFault := some (k - s.work.declLen) } = some bytes := he
  rw [runEncoder, portAccesses_passes h hk, Run.bind_ok]
  simp only [he']
  obtain ⟨t, e⟩ := outBytes_faults (bs := bytes) (k := k - s.work.declLen) (s := { s with
    env.ioFault := some (k - s.work.declLen),
    enc := encodeScratch c { s with env.ioFault := some (k - s.work.declLen) } })
    rfl (by omega) ht
  exact ⟨t, e, ((outBytes_moved bytes _).ofRaised e).host⟩

/-- The codec of a legal id: 3 is LZ-Overlay, 8 to 10 are the composites (R131). -/
theorem codecOfId_legal {id : BitVec 4} (h : id.toNat ∈ [0, 1, 2, 3, 4, 5, 6, 8, 9, 10]) :
    ∃ c, codecOfId id = some c ∧ (id ≠ 3 → c ≠ .lzovl) ∧
      (id.toNat ∈ [8, 9, 10] → codecMembers c ≠ []) := by
  have hall : ∀ id : BitVec 4, id.toNat ∈ [0, 1, 2, 3, 4, 5, 6, 8, 9, 10] →
      (codecOfId id).isSome = true ∧ (id ≠ 3 → codecOfId id ≠ some .lzovl) ∧
      (id.toNat ∈ [8, 9, 10] → (codecOfId id).map codecMembers ≠ some []) := by decide
  obtain ⟨hsome, hovl, hcomp⟩ := hall id h
  obtain ⟨c, hc⟩ := Option.isSome_iff_exists.mp hsome
  refine ⟨c, hc, fun h3 h => hovl h3 (by rw [hc, h]), fun h8 h => hcomp h8 ?_⟩
  rw [hc, Option.map_some, h]

/-- A codec that has a stream of its own is simple and compresses. -/
theorem encodeStream_some {c : Codec} {s : State} {bytes : List Byte}
    (h : encodeStream c s = some bytes) : codecMembers c = [] ∧ c ≠ .lzovl := by
  cases c with
  | lzovl | hufany | gba | nds => cases h
  | _ => exact ⟨rfl, by simp⟩

theorem InputsKept.ofRaised {s t : State} {r : Run Unit} {e : Err} (h : InputsKept s r.final)
    (er : r = .raised e t) : InputsKept s t := by rwa [er] at h

/-- The end of a decode that raises is a commit that faults. -/
theorem endDecode_inputsKept {tmi : Bool} {s t : State} {e : Err}
    (h : endDecode tmi s = .raised e t) : InputsKept s t := by
  unfold endDecode at h
  split at h
  · cases h
  · rcases commit_cases s.mem.cbuf s.work.outLen _ tmi s with ⟨v, -, hc⟩ | ⟨e', v, hv, -, hc⟩ <;>
      rw [hc] at h <;> cases h
    exact hv

/-- Settles O35: tokens, the commit, the flush, then the commands. -/
theorem portFaultEndsTheCommand : Obligations.PortFaultEndsTheCommand := by
  intro s k h
  refine ⟨fun i hi hthere hk => ?token, fun tr ht hp hd hk => ?commit, fun hp ht hw hk => ?flush,
    fun id hid h4 hsrc => ⟨fun hk => ?supports, fun hk hcomp => ?decompress, fun h3 hlen hk => ?read,
      fun c bytes hc he hlen hk => ?write⟩⟩
  case token =>
    obtain ⟨t, e, ⟨hovl, htrial⟩, hzero⟩ := meaning_faults h hi hthere hk
    have hkept : InputsKept s t := by
      rcases meaning_decoderPiece hi s with hm | ⟨tmi, u, hu, hend⟩
      · exact (TokenMoves.inputsKept hm).ofRaised e
      · exact hu.inputsKept.trans _ _ _ (endDecode_inputsKept (hend ▸ e))
    exact ⟨failWith .ioError t, by rw [exec_eq_settle, e, settle_ioError], rfl, rfl,
      failWith_ioError_of_host hkept.host, hzero, hkept.imem, hovl, htrial⟩
  case commit =>
    have hstep : step s = settle (finishForward s) :=
      step_finish (by obtain hp | hp | ⟨j, hp⟩ := hp <;> simp [hp]) hd
    obtain ⟨t, e, hhost⟩ := outBytes_settle_faults (bs := Memory.range s.mem.cbuf 0 s.work.outLen)
      (s := { s with seq.trial := none, work.outLen := 0 }) h (by simpa using hk) rfl
    refine ⟨failWith .ioError t, ?_, rfl, rfl, failWith_ioError_of_host hhost⟩
    rw [hstep, finishForward, endDecode]
    simp only [ht]
    exact e
  case flush =>
    obtain ⟨t, e, hhost⟩ := outBytes_settle_faults
      (bs := Memory.range s.mem.ovlbuf 0 (s.ovl.p + s.ovl.u)) h (by simpa using hk) ht
    exact ⟨_, (step_flush hp hw).trans e, rfl, failWith_ioError_of_host hhost⟩
  case supports =>
    obtain ⟨c, hc, -, -⟩ := codecOfId_legal hid
    subst hk
    refine ⟨failWith .ioError { commandStart s with env.ioFault := none }, ?_, rfl, rfl,
      failWith_ioError_host _⟩
    rw [exec_eq_settle, meaning, withCodec_of_codecOfId hc, supportsCommand,
      supports_faults (s := commandStart s) h h4 hsrc, Run.bind_raised, settle_ioError]
  case decompress =>
    obtain ⟨c, hc, -, hm⟩ := codecOfId_legal hid
    subst hk
    refine ⟨failWith .ioError { startRun (commandStart s) with env.ioFault := none }, ?_, rfl, rfl,
      failWith_ioError_host _⟩
    rw [exec_cmdDecompress hc, decompressCommand_faults (s := commandStart s) (hm hcomp) h h4 hsrc]
  case read =>
    obtain ⟨c, hc, hovl, -⟩ := codecOfId_legal hid
    obtain ⟨t, e, hhost, hmem⟩ := compressCommand_faults (s := commandStart s) h (hovl h3) hlen hsrc
      rfl hk
    refine ⟨failWith .ioError t, ?_, hmem, rfl, ?_⟩
    · rw [exec_cmdCompress hc, e, settle_ioError]
    · rw [failWith_ioError_host, hhost]; rfl
  case write =>
    obtain ⟨hm, hovl⟩ := encodeStream_some he
    obtain ⟨t, e, hhost⟩ : ∃ t, compressCommand c (commandStart s) = .raised .ioError t ∧
        t.host = (commandStart s).host := by
      by_cases hread : k < s.host.argLen.toNat
      · obtain ⟨t, e, hhost, -⟩ := compressCommand_faults (s := commandStart s) h hovl hlen hsrc
          rfl hread
        exact ⟨t, e, hhost⟩
      · obtain ⟨t, e, hhost⟩ := runEncoder_faults_writing (s := commandStart s) h rfl he
          (Nat.le_of_not_lt hread) hk
        refine ⟨t, ?_, hhost⟩
        rw [compressCommand_simple hm hovl hlen hsrc, e, Run.bind_raised]
    refine ⟨failWith .ioError t, ?_, rfl, ?_⟩
    · rw [exec_cmdCompress hc, e, settle_ioError]
    · rw [failWith_ioError_host, hhost]; rfl

end Sys2Proof.Machine

/-!
The Huffman tree and its table (O57; spec/48_huffman_encoder.md R372, R376, R380, R381): what the merges
keep of the leaves and how many they make, and where a serialized table's bytes lead.
-/
namespace Sys2Proof.Machine

/-! ### The leaves (R376, R377) -/

/-- The symbols of a tree's leaves, child 0 before child 1. -/
def HTree.symbols : HTree → List Nat
  | .leaf _ x => [x]
  | .node _ a b => a.symbols ++ b.symbols

theorem codesFrom_symbols (t : HTree) (path : List Bool) :
    (codesFrom t path).map (·.1) = t.symbols := by
  induction t generalizing path with
  | leaf id x => rfl
  | node id a b iha ihb => rw [codesFrom, List.map_append, iha, ihb, HTree.symbols]

/-- The symbols of the trees a queue holds. -/
def queueSymbols (q : List (Nat × HTree)) : List Nat := q.flatMap fun e => e.2.symbols

theorem queueSymbols_perm {q q' : List (Nat × HTree)} (h : q.Perm q') :
    (queueSymbols q).Perm (queueSymbols q') := h.flatMap_right _

/-- Two trees joined keep their leaves. -/
theorem queueSymbols_join (p id : Nat) (a b : Nat × HTree) (q : List (Nat × HTree)) :
    queueSymbols ((p, .node id a.2 b.2) :: q) = queueSymbols (a :: b :: q) := by
  simp [queueSymbols, HTree.symbols]

/-- One merge: the queues after it hold the two smallest joined. -/
theorem merge_perm {lq nq lq' nq' lq'' nq'' : List (Nat × HTree)} {a b : Nat × HTree} (id : Nat)
    (h1 : popMin lq nq = some (a, lq', nq')) (h2 : popMin lq' nq' = some (b, lq'', nq'')) :
    (lq ++ nq).Perm (a :: b :: (lq'' ++ nq'')) ∧
    (lq'' ++ enqueue (a.1 + b.1) (.node id a.2 b.2) nq'').Perm
      ((a.1 + b.1, .node id a.2 b.2) :: (lq'' ++ nq'')) :=
  ⟨(popMin_perm h1).trans ((popMin_perm h2).cons a),
    ((enqueue_perm _ _ _).append_left _).trans List.perm_middle⟩

/-- The loop keeps the leaves, and with enough rounds leaves one tree. -/
theorem buildLoop_symbols (f id : Nat) (lq nq : List (Nat × HTree)) :
    (queueSymbols ((buildLoop f id lq nq).1 ++ (buildLoop f id lq nq).2)).Perm
      (queueSymbols (lq ++ nq)) ∧
    ((lq ++ nq).length ≤ f + 1 →
      ((buildLoop f id lq nq).1 ++ (buildLoop f id lq nq).2).length ≤ 1) := by
  induction f generalizing id lq nq with
  | zero => exact ⟨.refl _, fun hle => hle⟩
  | succ f ih =>
    rw [buildLoop]
    split
    · next h1 =>
      refine ⟨.refl _, fun _ => ?_⟩
      rw [popMin_none h1]
      simp
    · next a lq' nq' h1 =>
      split
      · next h2 =>
        refine ⟨.refl _, fun _ => ?_⟩
        rw [(popMin_perm h1).length_eq, popMin_none h2]
        simp
      · next b lq'' nq'' h2 =>
        obtain ⟨hp, hq⟩ := merge_perm id h1 h2
        obtain ⟨hsym, hlen⟩ := ih (id + 1) lq'' (enqueue (a.1 + b.1) (.node id a.2 b.2) nq'')
        refine ⟨hsym.trans ((queueSymbols_perm hq).trans ?_), fun hle => hlen ?_⟩
        · rw [queueSymbols_join]
          exact (queueSymbols_perm hp).symm
        · rw [hp.length_eq] at hle
          rw [hq.length_eq]
          simp only [List.length_cons] at hle ⊢
          omega

/-- The leaf queue holds the leaf set (R376). -/
theorem leafQueue_symbols (leaves : List (Nat × Nat)) :
    (queueSymbols (leafQueue leaves)).Perm (leaves.map (·.2)) := by
  have key : ∀ (l : List ((Nat × Nat) × Nat)) (q : List (Nat × HTree)),
      (queueSymbols (l.foldl (fun q l => enqueue l.1.1 (.leaf l.2 l.1.2) q) q)).Perm
        (queueSymbols q ++ l.map (·.1.2)) := by
    intro l
    induction l with
    | nil => intro q; simp
    | cons e l ih =>
      intro q
      refine (ih _).trans ?_
      refine ((queueSymbols_perm (enqueue_perm _ _ _)).append_right _).trans ?_
      have hcons : queueSymbols ((e.1.1, HTree.leaf e.2 e.1.2) :: q) = e.1.2 :: queueSymbols q := rfl
      rw [hcons, List.map_cons, List.cons_append]
      exact List.perm_middle.symm
  refine (key leaves.zipIdx []).trans ?_
  have hzip : leaves.zipIdx.map (fun l => l.1.2) = leaves.map (·.2) := by
    conv_rhs => rw [← List.zipIdx_map_fst 0 leaves, List.map_map]
    rfl
  rw [hzip]
  exact .refl _

/-- The tree of a table of two symbols or more: its leaves are the leaf set, and it has one internal
node fewer. -/
theorem buildTree_leaves {freq : List Nat} (h : 2 ≤ freq.length) :
    ((buildTree freq).symbols).Perm ((leafSet freq).map (·.2)) ∧
    (buildTree freq).internals.length + 1 = (leafSet freq).length := by
  have h2 := two_le_leafSet h
  obtain ⟨hl, hf⟩ := leafQueue_leaves (leafSet freq)
  have hforest : Forest (leafSet freq).length (leafSet freq).length
      (leafQueue (leafSet freq) ++ []) := by
    rw [List.append_nil]
    exact ⟨by simp [hf], by simp [hf], by simp [hf, hl]⟩
  obtain ⟨⟨id', hend⟩, -, -, hne⟩ := buildLoop_forest (leafSet freq).length (leafSet freq).length
    (leafSet freq).length (leafQueue (leafSet freq)) [] hforest (by simp)
  obtain ⟨hsym, hone⟩ := buildLoop_symbols (leafSet freq).length (leafSet freq).length
    (leafQueue (leafSet freq)) []
  have hne := hne (by omega) (by simp [hl]; omega)
  have hone := hone (by simp [hl])
  rw [List.append_nil] at hsym
  have hsym := hsym.trans (leafQueue_symbols (leafSet freq))
  unfold buildTree
  simp only []
  generalize buildLoop (leafSet freq).length (leafSet freq).length (leafQueue (leafSet freq)) [] = r
    at hend hne hone hsym
  obtain ⟨lq, nq⟩ := r
  match nq, hne with
  | e :: nq, _ =>
    obtain ⟨rfl, rfl⟩ : lq = [] ∧ nq = [] := by
      simp only [List.length_append, List.length_cons] at hone
      exact ⟨List.length_eq_zero_iff.mp (by omega), List.length_eq_zero_iff.mp (by omega)⟩
    refine ⟨by simpa [queueSymbols] using hsym, ?_⟩
    have hcount := hend.count
    simpa [flatInternals] using hcount

/-! ### The table (R380, R381) -/

theorem toNat_nodeByteOf (x y : Bool) (o : BitVec 6) : (nodeByteOf x y o).toNat % 64 = o.toNat := by
  obtain ⟨-, -, h0⟩ := nodeByte_fields x y o
  have hnat := congrArg BitVec.toNat h0
  simpa [BitVec.extractLsb'_toNat, nodeByteOf] using hnat

/-- The byte of a node that lies in pair `p` leads to the pair above its own index. -/
theorem nodeByteAt_holds {order : List HTree} {table : List Byte} {p pos id : Nat} {a b : HTree}
    {n : Byte} (h : nodeByteAt order p (.node id a b) = some n) (hpos : pos / 2 = p)
    (hn : table.getD pos 0 = n) : TableHolds order table pos (.node id a b) := by
  obtain ⟨off, hoff, rfl⟩ := Option.map_eq_some_iff.mp h
  unfold nodeOffset at hoff
  simp only [] at hoff
  split at hoff
  · cases hoff
  next hfits =>
    cases hoff
    have hle : p ≤ orderIdx order (.node id a b) ∧
        orderIdx order (.node id a b) - p ≤ 0x3F := by
      simp only [Config.hufMaxOffset] at hfits
      omega
    intro bit
    rw [hn]
    refine ⟨?_, ?_⟩
    · rw [childPos, toNat_nodeByteOf, BitVec.toNat_ofNat, hpos]
      cases bit <;> simp <;> omega
    · obtain ⟨h7, h6, -⟩ := nodeByte_fields a.isLeaf b.isLeaf
        (BitVec.ofNat 6 (orderIdx order (.node id a b) - p))
      cases bit
      · exact h7
      · exact h6

/-- A child's byte. -/
theorem tableByte_holds {order : List HTree} {table : List Byte} {p pos : Nat} {c : HTree}
    {n : Byte} (h : tableByte order p c = some n) (hpos : pos / 2 = p)
    (hn : table.getD pos 0 = n) : TableHolds order table pos c := by
  cases c with
  | leaf id x => cases h; exact hn
  | node id a b => exact nodeByteAt_holds h hpos hn

/-- The pairs of a table: two bytes for each node, its children's. -/
theorem tablePairs_spec {order vs : List HTree} {p : Nat} {bs : List Byte}
    (h : tablePairs order p vs = some bs) : bs.length = 2 * vs.length ∧
    ∀ k v, vs[k]? = some v → ∃ id a b, v = .node id a b ∧
      tableByte order (p + k) a = some (bs.getD (2 * k) 0) ∧
      tableByte order (p + k) b = some (bs.getD (2 * k + 1) 0) := by
  induction vs generalizing p bs with
  | nil => cases h; exact ⟨rfl, fun k v hv => by simp at hv⟩
  | cons v vs ih =>
    unfold tablePairs at h
    split at h
    · cases h
    next id a b =>
      split at h
      · next x y rest hx hy hrest =>
        cases h
        obtain ⟨hlen, hpairs⟩ := ih hrest
        refine ⟨by simp only [List.length_cons, hlen]; omega, fun k v hv => ?_⟩
        cases k with
        | zero => cases hv; exact ⟨id, a, b, rfl, hx, hy⟩
        | succ k =>
          obtain ⟨id', a', b', rfl, ha, hb⟩ := hpairs k v hv
          refine ⟨id', a', b', rfl, ?_, ?_⟩
          · rw [Nat.add_assoc, Nat.add_comm 1 k] at ha
            exact ha
          · rw [Nat.add_assoc, Nat.add_comm 1 k] at hb
            exact hb
      · cases h

/-- A serialized table. -/
theorem serialize_spec {order : List HTree} {root : HTree} {table : List Byte}
    (h : serialize order root = some table) :
    table.length = 2 * (order.length + 1) ∧ table.getD 0 0 = BitVec.ofNat 8 order.length ∧
    TableHolds order table 1 root ∧
    ∀ k v, order[k]? = some v → ∃ id a b, v = .node id a b ∧
      TableHolds order table (2 * k + 2) a ∧ TableHolds order table (2 * k + 3) b := by
  unfold serialize at h
  split at h
  · next r rest hr hrest =>
    cases h
    obtain ⟨hlen, hpairs⟩ := tablePairs_spec hrest
    refine ⟨by simp only [List.length_cons, hlen]; omega, rfl, ?_, fun k v hv => ?_⟩
    · cases root with
      | leaf id x => cases hr
      | node id a b => exact nodeByteAt_holds hr rfl rfl
    · obtain ⟨id, a, b, rfl, ha, hb⟩ := hpairs k v hv
      exact ⟨id, a, b, rfl, tableByte_holds ha (by omega) rfl, tableByte_holds hb (by omega) rfl⟩
  · cases h

/-- Settles O57: the merges keep the leaves; the table's bytes are those of the pairs. -/
theorem treeAndTableHoldTheLeafSet : Obligations.TreeAndTableHoldTheLeafSet := by
  refine ⟨fun freq h => ?_, fun order root table => serialize_spec⟩
  obtain ⟨hperm, hcount⟩ := buildTree_leaves h
  rw [codesFrom_symbols]
  exact ⟨hperm, two_le_leafSet h, hcount⟩

end Sys2Proof.Machine

/-!
The streams of the NULL and the RLE encoder decode to their plaintext (O58): a decoder run with exactly
a stream declared and delivered reads the stream's tokens one after another, and what is out and what is
still to read are followed step by step.
-/

namespace Sys2Proof.Machine

/-! ### A run fed with a stream -/

/-- Outside a trial run and with no fault due, the bytes `out` are written and exactly the bytes `bs`
are declared, delivered and still to read. -/
structure Feeding (s : State) (out bs : List Byte) : Prop where
  mem : MemInv s
  noFault : s.env.ioFault = none
  noTrial : s.seq.trial = none
  there : s.work.declLen ≤ s.env.srcLen
  left : s.work.inPos + bs.length = s.work.declLen
  input : Memory.range s.mem.imem s.work.inPos bs.length = bs
  written : s.work.outLen = out.length
  output : Memory.range s.mem.omem 0 out.length = out

theorem Memory.range_append (m : Memory) (a j k : Nat) :
    Memory.range m a (j + k) = Memory.range m a j ++ Memory.range m (a + j) k := by
  induction j generalizing a with
  | zero => simp [Memory.range]
  | succ j ih =>
    rw [Nat.succ_add, Memory.range, Memory.range, ih, List.cons_append, Nat.add_right_comm,
      Nat.add_assoc]

theorem Memory.range_congr {m m' : Memory} {a n : Nat}
    (h : ∀ i < n, Memory.read (a + i) m = Memory.read (a + i) m') :
    Memory.range m a n = Memory.range m' a n := by
  induction n generalizing a with
  | zero => rfl
  | succ n ih =>
    rw [Memory.range, Memory.range, ih fun i hi => ?_]
    · rw [show a = a + 0 from rfl, h 0 (by omega)]
    · rw [Nat.add_assoc]; exact h (1 + i) (by omega)

/-- What was stored at the end of a block makes the block longer. -/
theorem Stored.range_extend {m m' : Memory} {bs cs : List Byte} (h : Stored m m' bs.length cs)
    (hb : Memory.range m 0 bs.length = bs) :
    Memory.range m' 0 (bs ++ cs).length = bs ++ cs := by
  rw [List.length_append, Memory.range_append, Nat.zero_add, h.range]
  congr 1
  refine (Memory.range_congr fun i hi => ?_).trans hb
  rw [h (0 + i), if_neg (by omega)]

theorem Memory.range_of_append {m : Memory} {a : Nat} {bs cs : List Byte}
    (h : Memory.range m a (bs ++ cs).length = bs ++ cs) :
    Memory.range m a bs.length = bs ∧ Memory.range m (a + bs.length) cs.length = cs := by
  rw [List.length_append, Memory.range_append] at h
  exact List.append_inj h (Memory.range_length _ _ _)

theorem Feeding.readable {s : State} {out bs cs : List Byte} (h : Feeding s out (bs ++ cs)) :
    Readable bs.length s := by
  obtain ⟨hl, ht⟩ := And.intro h.left h.there
  rw [List.length_append] at hl
  exact ⟨by omega, by omega, h.noFault⟩

/-- The bytes a decoder is shown at a forward place: the next four, or what is left. -/
theorem Feeding.readable_eq {s : State} {out bs : List Byte} (h : Feeding s out bs) :
    Machine.readable s = bs.take 4 := by
  obtain ⟨hl, ht⟩ := And.intro h.left h.there
  have hn : min 4 (min s.work.declLen s.env.srcLen - s.work.inPos) = min 4 bs.length := by omega
  have hb : bs.take 4 ++ bs.drop 4 = bs := List.take_append_drop 4 bs
  have hr := (Memory.range_of_append (bs := bs.take 4) (cs := bs.drop 4)
    (by rw [hb]; exact h.input)).1
  rwa [Machine.readable, hn, ← List.length_take]

/-- A token that is next in the stream is what its place decodes. -/
theorem Feeding.decode {s : State} {out bs : List Byte} {i : Instr}
    (h : Feeding s out (encode i ++ bs)) (hw : i.wellFormed = true) (hp : i.place ≠ .ovlTrailer)
    (hl : (encode i).length ≤ 4) : decode i.place (Machine.readable s) = .instr i := by
  rw [h.readable_eq, List.take_append, List.take_of_length_le hl]
  have := decodeInvertsEncode i (bs.take (4 - (encode i).length)) hw
  rwa [if_neg hp] at this

/-- A step that reads the next bytes and appends others. -/
theorem Feeding.pass {s t : State} {out bs cs new : List Byte} (h : Feeding s out (bs ++ cs))
    (e : step s = .next t) (henv : t.env = s.env) (htrial : t.seq.trial = s.seq.trial)
    (himem : t.mem.imem = s.mem.imem) (hdecl : t.work.declLen = s.work.declLen)
    (hpos : t.work.inPos = s.work.inPos + bs.length) (ha : Appended s t new) :
    Feeding t (out ++ new) cs where
  mem := stepKeepsMemoriesCanonical s t h.mem e
  noFault := by rw [henv]; exact h.noFault
  noTrial := by rw [htrial]; exact h.noTrial
  there := by rw [henv, hdecl]; exact h.there
  left := by
    have := h.left
    rw [List.length_append] at this
    omega
  input := by rw [himem, hpos]; exact (Memory.range_of_append h.input).2
  written := by rw [ha.1, h.written, List.length_append]
  output := by
    obtain ⟨-, ha⟩ := ha
    rw [h.noTrial] at ha
    obtain ⟨hst, -⟩ := ha
    exact (h.written ▸ hst).range_extend h.output

/-! ### Header and end -/

theorem encode_header_length (c : Fwd) (n : BitVec 24) : (encode (c.header n)).length = 4 := by
  rw [encode_header]; rfl

/-- What a header or its extension word leaves: the length, and where the decoder goes on. -/
structure Started (s t : State) (c : Fwd) (p : Phase) (n : Nat) : Prop where
  phase : t.seq.phase = p
  decSize : t.work.decSize = n
  flagCnt : t.work.flagCnt = s.work.flagCnt
  treeBase : c = .huf4 ∨ c = .huf8 → t.work.treeBase = t.work.inPos

/-- The first four bytes of a header (R162). -/
theorem Feeding.magic {s : State} {c : Fwd} {n : BitVec 24} {bs : List Byte}
    (h : Feeding s [] (encode (c.header n) ++ bs)) (hp : s.seq.phase = .header c) :
    ∃ t, step s = .next t ∧ Feeding t [] bs ∧
      Started s t c (if n = 0 then .ext c else fwdBody c) n.toNat := by
  have hlen := encode_header_length c n
  have hplace : (c.header n).place = .header c := by cases c <;> rfl
  have hd := h.decode (by cases c <;> rfl) (by rw [hplace]; exact Place.noConfusion) hlen.le
  rw [hplace] at hd
  have e := ((stepRunsTheDecodedInstruction s _).1 c hp hd).trans
    (headersGiveTheLength.1 c n _ s (hlen ▸ h.readable) (by cases c <;> simp [Fwd.header]))
  exact ⟨_, e, h.pass (new := []) e rfl rfl rfl rfl (by rw [hlen]) (Appended.refl s),
    rfl, rfl, rfl, fun hc => if_pos hc⟩

/-- The extension word of a length of 0 (R163). -/
theorem Feeding.ext {s : State} {c : Fwd} {n : BitVec 32} {bs : List Byte}
    (h : Feeding s [] (encode (.hdrExt n) ++ bs)) (hp : s.seq.phase = .ext c) :
    ∃ t, step s = .next t ∧ Feeding t [] bs ∧ Started s t c (fwdBody c) n.toNat := by
  have hd := h.decode rfl Place.noConfusion le_rfl
  have e := ((stepRunsTheDecodedInstruction s _).2.1 c hp hd).trans
    (headersGiveTheLength.2 c n s h.readable hp)
  exact ⟨_, e, h.pass (new := []) e rfl rfl rfl rfl rfl (Appended.refl s),
    rfl, rfl, rfl, fun hc => if_pos hc⟩

/-- The header the encoders write, and for an empty plaintext its extension word (R164, R165). -/
theorem Feeding.header {s : State} {c : Fwd} {n : Nat} {bs : List Byte}
    (h : Feeding s [] (emitHeader c n ++ bs)) (hp : s.seq.phase = .header c) (hn : n ≤ 0xFFFFFF) :
    ∃ k t, Runs k s t ∧ Feeding t [] bs ∧ Started s t c (fwdBody c) n := by
  have hto : (BitVec.ofNat 24 n).toNat = n :=
    (BitVec.toNat_ofNat ..).trans (Nat.mod_eq_of_lt (by omega))
  have hz : BitVec.ofNat 24 n = 0 ↔ n = 0 := by rw [← BitVec.toNat_inj, hto]; rfl
  rw [emitHeader, List.append_assoc] at h
  obtain ⟨t, e, h1, hphase, hsize, hcnt, hbase⟩ := h.magic hp
  by_cases h0 : n = 0
  · rw [if_pos h0] at h1
    rw [if_pos (hz.mpr h0)] at hphase
    obtain ⟨u, e1, h2, hphase', hsize', hcnt', hbase'⟩ := h1.ext hphase
    exact ⟨2, u, Runs.succ e (Runs.succ e1 (Runs.zero u)), h2, hphase', by rw [hsize', h0]; rfl,
      hcnt'.trans hcnt, hbase'⟩
  · rw [if_neg h0, List.nil_append] at h1
    rw [if_neg (mt hz.mp h0)] at hphase
    exact ⟨1, t, Runs.succ e (Runs.zero t), h1, hphase, hsize.trans hto, hcnt, hbase⟩

/-- The command has ended without error and without `TMI`, and `x` is its result. -/
structure Delivers (t : State) (x : List Byte) : Prop where
  idle : t.seq.phase = .idle
  status : t.host.status = 0x02
  length : t.host.resultLen = x.length
  result : result t = x

/-- At the head of the loop with everything read and written, the decode ends (R425). -/
theorem Feeding.finish {s : State} {x : List Byte} (h : Feeding s x [])
    (hp : s.seq.phase = .nullBody ∨ s.seq.phase = .rleBody ∨
      s.seq.phase = .lz10Body ∨ s.seq.phase = .lz11Body ∨ ∃ k, s.seq.phase = .node k)
    (hd : s.work.decSize = x.length) : ∃ t, step s = .next t ∧ Delivers t x := by
  have hw := h.written
  have hl : s.work.inPos = s.work.declLen := h.left
  obtain ⟨t, sub, e, hidle, -, -, hhost, hmem⟩ :=
    (finishEndsTheDecode s h.mem h.noFault).1 hp (by omega)
  rw [h.noTrial] at hmem
  have hlen : t.host.resultLen = x.length := by rw [hhost]; exact hw
  refine ⟨t, e, hidle, ?_, hlen, ?_⟩
  · rw [hhost]; exact if_neg (by omega)
  · rw [Machine.result, hlen, hmem]; exact h.output

/-- A decode that is fed its stream and reaches its end has delivered its plaintext. -/
def Decodes (s : State) (x : List Byte) : Prop := ∃ k t, Runs k s t ∧ Delivers t x

theorem Decodes.of_runs {k : Nat} {s t : State} {x : List Byte} (h : Runs k s t)
    (ht : Decodes t x) : Decodes s x := by
  obtain ⟨j, u, hr, hu⟩ := ht
  exact ⟨k + j, u, h.trans hr, hu⟩

theorem Decodes.of_step {s t : State} {x : List Byte} (e : step s = .next t)
    (ht : Decodes t x) : Decodes s x := ht.of_runs (Runs.succ e (Runs.zero t))

/-! ### The NULL body -/

theorem step_nullByte {s : State} {i : Instr} (hp : s.seq.phase = .nullBody)
    (hlt : s.work.outLen < s.work.decSize) (hd : decode .nullByte (readable s) = .instr i) :
    step s = exec i s :=
  step_of_fetch_instr (by simp only [fetch, hp, fetchLoop_running _ hlt, fetchForward_instr hd])

theorem Feeding.nullBody {s : State} {out bs : List Byte} (h : Feeding s out bs)
    (hp : s.seq.phase = .nullBody) (hd : s.work.decSize = (out ++ bs).length) :
    Decodes s (out ++ bs) := by
  induction bs generalizing s out with
  | nil =>
    rw [List.append_nil] at hd ⊢
    obtain ⟨t, e, ht⟩ := h.finish (.inl hp) hd
    exact .of_step e ⟨0, t, Runs.zero t, ht⟩
  | cons b bs ih =>
    have h' : Feeding s out (encode (.nullByte b) ++ bs) := h
    have hdec := h'.decode rfl Place.noConfusion (Nat.succ_le_succ (Nat.zero_le 3))
    have hlt : s.work.outLen < s.work.decSize := by rw [hd, h.written]; simp
    obtain ⟨t, e, ha, ht⟩ := (nullByteIsCopied b s h.mem).1 h'.readable
    have e : step s = .next t :=
      (step_nullByte hp hlt hdec).trans e
    have hnext := h'.pass e (by rw [ht]) (by rw [ht]) (by rw [ht]) (by rw [ht]) (by rw [ht]; rfl) ha
    have := ih hnext (by rw [ht]; exact hp) (by rw [ht]; simpa using hd)
    rw [List.append_assoc] at this
    exact .of_step e this

/-! ### The RLE body -/

/-- A run of equal bytes, counted by `sameRun`, written out. -/
theorem take_sameRun (b : Byte) (k : Nat) (xs : List Byte) :
    xs.take (sameRun b k xs) = List.replicate (sameRun b k xs) b := by
  induction k generalizing xs with
  | zero => rfl
  | succ k ih =>
    cases xs with
    | nil => rfl
    | cons x xs =>
      rw [sameRun]
      split
      · next hx => rw [List.take_succ_cons, ih, hx, List.replicate_succ]
      · rfl

/-- After a group the decoder is at the head of the same loop. -/
structure AtHead (s t : State) (p : Phase) : Prop where
  phase : t.seq.phase = p
  decSize : t.work.decSize = s.work.decSize

theorem step_rleGroup {s : State} {i : Instr} (hp : s.seq.phase = .rleBody)
    (hlt : s.work.outLen < s.work.decSize) (hd : decode .rleGroup (readable s) = .instr i) :
    step s = exec i s :=
  step_of_fetch_instr (by simp only [fetch, hp, fetchLoop_running _ hlt, fetchForward_instr hd])

/-- A run the plaintext has room for (R295, R292). -/
theorem Feeding.rleRun {s : State} {out bs : List Byte} {n : BitVec 7} {b : Byte}
    (h : Feeding s out (encode (.rleRun n b) ++ bs)) (hp : s.seq.phase = .rleBody)
    (hd : out.length + (n.toNat + 3) ≤ s.work.decSize) :
    ∃ t, step s = .next t ∧ Feeding t (out ++ List.replicate (n.toNat + 3) b) bs ∧
      AtHead s t .rleBody := by
  have hw := h.written
  have hdec := h.decode rfl Place.noConfusion (Nat.le_of_ble_eq_true rfl)
  obtain ⟨t, e, ha, ht⟩ := runRepeatsItsByte n b s h.readable h.mem (by omega)
  have e := (step_rleGroup hp (by omega) hdec).trans e
  rw [Nat.min_eq_left (by omega)] at ha
  exact ⟨t, e, h.pass e (by rw [ht]) (by rw [ht]) (by rw [ht]) (by rw [ht]) (by rw [ht]; rfl) ha,
    by rw [ht]; exact hp, by rw [ht]⟩

/-- The pending bytes, if any, as one raw group the plaintext has room for (R295, R293). -/
theorem Feeding.flushRaw {s : State} {out lits bs : List Byte}
    (h : Feeding s out (flushRaw lits ++ bs)) (hp : s.seq.phase = .rleBody)
    (hlen : lits.length ≤ 128) (hd : (out ++ lits).length ≤ s.work.decSize) :
    ∃ k t, Runs k s t ∧ Feeding t (out ++ lits) bs ∧ AtHead s t .rleBody := by
  rw [Machine.flushRaw] at h
  split at h
  · next hnil => exact ⟨0, s, Runs.zero s, by rw [hnil, List.append_nil]; exact h, hp, rfl⟩
  next hne =>
  have hpos := List.length_pos_of_ne_nil hne
  have hw := h.written
  rw [List.length_append] at hd
  have hn : (BitVec.ofNat 7 (lits.length - 1)).toNat = lits.length - 1 :=
    (BitVec.toNat_ofNat ..).trans (Nat.mod_eq_of_lt (by omega))
  have hdec := (List.append_assoc .. ▸ h).decode rfl Place.noConfusion (Nat.le_of_ble_eq_true rfl)
  have hr := h.readable
  rw [List.length_append] at hr
  obtain ⟨t, e, ha, ht⟩ := rawGroupCopiesItsBytes (BitVec.ofNat 7 (lits.length - 1)) s lits.length
    h.mem (by omega) (by omega) hr
  have e := (step_rleGroup hp (by omega) hdec).trans e
  have hrange : Memory.range s.mem.imem (s.work.inPos + 1) lits.length = lits :=
    (Memory.range_of_append (Memory.range_of_append h.input).1).2
  rw [hrange] at ha
  exact ⟨1, t, Runs.succ e (Runs.zero t), h.pass e (by rw [ht]) (by rw [ht]) (by rw [ht])
    (by rw [ht]) (by rw [ht, List.length_append]; exact Nat.add_assoc ..) ha,
    by rw [ht]; exact hp, by rw [ht]⟩

/-- The last pending bytes are flushed, and the decode ends. -/
theorem Feeding.rleEnd {s : State} {out lits : List Byte} (h : Feeding s out (Machine.flushRaw lits))
    (hp : s.seq.phase = .rleBody) (hlen : lits.length ≤ 128)
    (hd : s.work.decSize = (out ++ lits).length) : Decodes s (out ++ lits) := by
  rw [← List.append_nil (Machine.flushRaw lits)] at h
  obtain ⟨k, t, hr, ht, hpt, hdt⟩ := h.flushRaw hp hlen hd.ge
  obtain ⟨u, e, hu⟩ := ht.finish (.inr (.inl hpt)) (hdt.trans hd)
  exact .of_runs hr (.of_step e ⟨0, u, Runs.zero u, hu⟩)

theorem rleLoop_nil (f : Nat) (lits : List Byte) : rleLoop f [] lits = flushRaw lits := by
  cases f <;> rfl

/-- What the loop of the encoder writes, decoded: the pending bytes and what was left of the plaintext. -/
theorem Feeding.rleBody {f : Nat} {s : State} {out lits xs : List Byte}
    (h : Feeding s out (rleLoop f xs lits)) (hf : xs.length ≤ f) (hp : s.seq.phase = .rleBody)
    (hlen : lits.length < 128) (hd : s.work.decSize = (out ++ lits ++ xs).length) :
    Decodes s (out ++ lits ++ xs) := by
  induction f generalizing s out lits xs with
  | zero =>
    obtain rfl := List.length_eq_zero_iff.mp (Nat.le_zero.mp hf)
    rw [rleLoop_nil] at h
    rw [List.append_nil] at hd ⊢
    exact h.rleEnd hp hlen.le hd
  | succ f ih =>
    cases xs with
    | nil =>
      rw [rleLoop_nil] at h
      rw [List.append_nil] at hd ⊢
      exact h.rleEnd hp hlen.le hd
    | cons b rest =>
      have hsplit : out ++ lits ++ b :: rest = out ++ (lits ++ [b]) ++ rest := by simp
      have hrest : rest.length ≤ f := Nat.le_of_succ_le_succ hf
      simp only [rleLoop] at h
      split at h
      case isTrue h3 =>
        obtain ⟨hmax, hle⟩ := sameRun_le b (Config.rleRunMax - 1) rest
        have htake := take_sameRun b (Config.rleRunMax - 1) rest
        generalize sameRun b (Config.rleRunMax - 1) rest = r at h h3 hmax hle htake
        have hn : (BitVec.ofNat 7 (r + 1 - 3)).toNat + 3 = r + 1 := by
          rw [BitVec.toNat_ofNat, Nat.mod_eq_of_lt (by simp [Config.rleRunMax] at hmax; omega)]
          omega
        have hx : out ++ lits ++ b :: rest =
            out ++ lits ++ List.replicate (r + 1) b ++ [] ++ rest.drop (r + 1 - 1) := by
          rw [List.replicate_succ, ← htake]; simp
        rw [List.append_assoc] at h
        obtain ⟨k, t, hr, ht, hpt, hdt⟩ := h.flushRaw hp hlen.le
          (by rw [hd]; simp only [List.length_append]; omega)
        obtain ⟨u, e, hu, hpu, hdu⟩ := ht.rleRun hpt
          (by rw [hn, hdt, hd]; simp only [List.length_append, List.length_cons]; omega)
        rw [hn] at hu
        rw [hx] at hd ⊢
        exact .of_runs hr (.of_step e (ih hu (by simp; omega) hpu (by decide)
          (hdu.trans (hdt.trans hd))))
      case isFalse h3 =>
      split at h
      case isTrue hfull =>
        obtain ⟨k, t, hr, ht, hpt, hdt⟩ := h.flushRaw hp (by rw [List.length_append]; exact hfull.le)
          (by rw [hd, hsplit, List.length_append (bs := rest)]; exact Nat.le_add_right _ _)
        have hx : out ++ lits ++ b :: rest = out ++ (lits ++ [b]) ++ [] ++ rest := by simp
        rw [hx] at hd ⊢
        exact .of_runs hr (ih ht hrest hpt (by decide) (hdt.trans hd))
      case isFalse hfull =>
        rw [hsplit] at hd ⊢
        exact ih h hrest hp (by
          rw [List.length_append]; simp [Config.rleRawMax] at hfull ⊢; omega) hd

/-- The statement's start, with its stream's header next. -/
theorem Feeding.start {s : State} {stream : List Byte} (hm : MemInv s)
    (hfault : s.env.ioFault = none) (htrial : s.seq.trial = none) (hin : s.work.inPos = 0)
    (hout : s.work.outLen = 0) (hdecl : s.work.declLen = stream.length)
    (hsrc : s.work.declLen ≤ s.env.srcLen)
    (himem : Memory.range s.mem.imem 0 s.work.declLen = stream) : Feeding s [] stream where
  mem := hm
  noFault := hfault
  noTrial := htrial
  there := hsrc
  left := by rw [hin, hdecl, Nat.zero_add]
  input := by rw [hin, ← hdecl, himem]
  written := hout
  output := rfl

/-- Settles O58: header, then the body token by token, by induction on what the encoder had left. -/
theorem nullAndRleRoundTrip : Obligations.NullAndRleRoundTrip := by
  intro x s f stream hf hx hm hfault htrial hp hin hout hdecl hsrc himem
  have h := Feeding.start hm hfault htrial hin hout hdecl hsrc himem
  suffices hdec : Decodes s x by
    obtain ⟨k, t, hr, hidle, hstatus, hlen, hres⟩ := hdec
    exact ⟨k, t, hr, hidle, hstatus, hlen, hres⟩
  simp only [List.mem_cons, Prod.mk.injEq, List.not_mem_nil, or_false] at hf
  obtain ⟨rfl, rfl⟩ | ⟨rfl, rfl⟩ := hf
  · obtain ⟨k, t, hr, ht, hst⟩ := h.header hp hx
    exact .of_runs hr (ht.nullBody hst.phase hst.decSize)
  · obtain ⟨k, t, hr, ht, hst⟩ := h.header hp hx
    exact .of_runs hr (ht.rleBody (out := []) (lits := []) le_rfl hst.phase (by decide) hst.decSize)

end Sys2Proof.Machine

/-!
The LZ10 and LZ11 streams decode to their plaintext (O60): a flag group is its flag byte and then its
tokens, the bit of each token in the flag byte tells the decoder its kind, and each token appends the
bytes of the plaintext it stands for.
-/

namespace Sys2Proof.Machine

/-! ### Flag groups (R169) -/

/-- The flag byte of a group from its token number `cnt` on. -/
def groupFlags : List LzTok → Byte → Nat → Byte
  | [], flags, _ => flags
  | t :: ts, flags, cnt =>
    groupFlags ts (if t.isRef then flags ||| ((1 : Byte) <<< (7 - cnt)) else flags) (cnt + 1)

/-- The writer's output from inside a group: the group's flag byte and tokens, then the later groups. -/
theorem writeGroups_eq (enc : LzTok → List Byte) (ts : List LzTok) (flags : Byte) {cnt : Nat}
    (grp : List Byte) (hc : cnt < 8) (hne : cnt ≠ 0 ∨ ts ≠ []) :
    writeGroups enc ts flags cnt grp =
      groupFlags (ts.take (8 - cnt)) flags cnt ::
        (grp ++ (ts.take (8 - cnt)).flatMap enc ++ writeGroups enc (ts.drop (8 - cnt)) 0 0 []) := by
  induction ts generalizing flags cnt grp with
  | nil =>
    have h0 : cnt ≠ 0 := hne.resolve_right (fun h => h rfl)
    simp [writeGroups, groupFlags, h0]
  | cons t ts ih =>
    obtain ⟨k, hk⟩ : ∃ k, 8 - cnt = k + 1 := ⟨7 - cnt, by omega⟩
    rw [writeGroups, hk, List.take_succ_cons, List.drop_succ_cons, groupFlags]
    split
    · next h8 =>
      obtain rfl : k = 0 := by omega
      simp [groupFlags]
    · next h8 =>
      rw [ih _ _ (by omega) (.inl (Nat.succ_ne_zero cnt)), show 8 - (cnt + 1) = k by omega]
      simp

/-- Bit `7 - j` of a flag register tells the kind of the token `j` places ahead. -/
def FlagsOf (ts : List LzTok) (flags : Byte) : Prop :=
  ∀ j t, ts[j]? = some t → flags.getLsbD (7 - j) = t.isRef

/-- Writing on in a group keeps the bits of the tokens before. -/
theorem groupFlags_getLsbD_before (ts : List LzTok) (flags : Byte) {cnt j : Nat}
    (hc : cnt + ts.length ≤ 8) (hj : j < cnt) :
    (groupFlags ts flags cnt).getLsbD (7 - j) = flags.getLsbD (7 - j) := by
  induction ts generalizing flags cnt with
  | nil => rfl
  | cons t ts ih =>
    rw [List.length_cons] at hc
    rw [groupFlags, ih _ (by omega) (by omega)]
    split
    · rw [BitVec.getLsbD_or, BitVec.getLsbD_shiftLeft]
      have : ¬ 7 - j - (7 - cnt) = 0 := by omega
      simp [BitVec.getLsbD_one, this]
    · rfl

theorem groupFlags_getLsbD (ts : List LzTok) (flags : Byte) {cnt j : Nat} {t : LzTok}
    (hc : cnt + ts.length ≤ 8) (h0 : ∀ b < 8 - cnt, flags.getLsbD b = false)
    (ht : ts[j]? = some t) : (groupFlags ts flags cnt).getLsbD (7 - (cnt + j)) = t.isRef := by
  induction ts generalizing flags cnt j with
  | nil => cases ht
  | cons u ts ih =>
    rw [List.length_cons] at hc
    have hbit : ∀ b ≤ 7 - cnt, (if u.isRef then flags ||| ((1 : Byte) <<< (7 - cnt))
        else flags).getLsbD b = (u.isRef && decide (b = 7 - cnt)) := by
      intro b hb
      cases hu : u.isRef
      · simpa using h0 b (by omega)
      · rw [if_pos rfl, BitVec.getLsbD_or, h0 b (by omega), BitVec.getLsbD_shiftLeft]
        by_cases hb' : b = 7 - cnt
        · subst hb'; simp; omega
        · simp [BitVec.getLsbD_one, hb']; omega
    rw [groupFlags]
    cases j with
    | zero =>
      cases ht
      change (groupFlags ts _ (cnt + 1)).getLsbD (7 - cnt) = _
      rw [groupFlags_getLsbD_before ts _ (by omega) (Nat.lt_succ_self cnt), hbit _ le_rfl]
      simp
    | succ j =>
      rw [← Nat.add_assoc, Nat.add_right_comm]
      refine ih _ (by omega) (fun b hb => ?_) ht
      rw [hbit b (by omega)]
      simp; omega

theorem FlagsOf.groupFlags {ts : List LzTok} (h : ts.length ≤ 8) :
    FlagsOf ts (groupFlags ts 0 0) := fun j t ht => by
  have := groupFlags_getLsbD ts 0 (cnt := 0) (by omega) (fun b _ => by simp) ht
  rwa [Nat.zero_add] at this

/-- The first token's flag is next, and the shift brings up the others'. -/
theorem FlagsOf.next {t : LzTok} {ts : List LzTok} {flags : Byte} (hlen : (t :: ts).length ≤ 8)
    (h : FlagsOf (t :: ts) flags) : flags.getLsbD 7 = t.isRef ∧ FlagsOf ts (flags <<< 1) := by
  refine ⟨h 0 t rfl, fun j u hu => ?_⟩
  have hj : j < ts.length := (List.getElem?_eq_some_iff.mp hu).1
  rw [List.length_cons] at hlen
  rw [← h (j + 1) u hu, BitVec.getLsbD_shiftLeft, show 7 - (j + 1) = 7 - j - 1 by omega]
  simp; omega

/-! ### The two codecs -/

/-- What the two LZ codecs differ in: their places and tokens, and the longest match. -/
structure LzSide where
  fwd : Fwd
  flagsPlace : Place
  blockPlace : Bool → Place
  flags : Byte → Instr
  tok : LzTok → Instr
  maxL : Nat

def lz10Side : LzSide := ⟨.lz10, .lz10Flags, .lz10Block, .lz10Flags, tok10, Config.lz10MaxLen⟩

def lz11Side : LzSide := ⟨.lz11, .lz11Flags, .lz11Block, .lz11Flags, tok11, Config.lz11MaxLen⟩

/-- The tokens the encoder writes are those the decoder expects at its places, with the length and the
displacement they were made from. -/
structure LzSide.Sound (c : LzSide) : Prop where
  loop : (fwdBody c.fwd, c.flagsPlace, c.blockPlace) ∈
    [(.lz10Body, .lz10Flags, Place.lz10Block), (.lz11Body, .lz11Flags, .lz11Block)]
  flags : ∀ f, c.flags f ∈ [Instr.lz10Flags f, .lz11Flags f] ∧
    (c.flags f).place = c.flagsPlace ∧ (c.flags f).wellFormed = true ∧ encode (c.flags f) = [f]
  lit : ∀ b, c.tok (.lit b) ∈ [Instr.lz10Lit b, .lz11Lit b] ∧
    (c.tok (.lit b)).place = c.blockPlace false ∧ (c.tok (.lit b)).wellFormed = true ∧
    encode (c.tok (.lit b)) = [b]
  ref : ∀ l d, 3 ≤ l → l ≤ c.maxL → 1 ≤ d → d ≤ Config.winSize →
    IsLzRef (c.tok (.ref l d)) (encode (c.tok (.ref l d))).length l d ∧
    (c.tok (.ref l d)).place = c.blockPlace true ∧ (c.tok (.ref l d)).wellFormed = true

theorem toNat_ofNat_lt {w n : Nat} (h : n < 2 ^ w) : (BitVec.ofNat w n).toNat = n :=
  (BitVec.toNat_ofNat n w).trans (Nat.mod_eq_of_lt h)

theorem lz10Side_sound : lz10Side.Sound where
  loop := .head _
  flags f := ⟨.head _, rfl, rfl, rfl⟩
  lit b := ⟨.head _, rfl, rfl, rfl⟩
  ref l d h3 hl h1 hd := by
    have hl : l ≤ 18 := hl
    have hd : d ≤ 4096 := hd
    refine ⟨.inl ⟨_, _, rfl, rfl, ?_, ?_⟩, rfl, rfl⟩
    · rw [toNat_ofNat_lt (by omega)]; omega
    · rw [toNat_ofNat_lt (by omega)]; omega

theorem lz11Side_sound : lz11Side.Sound where
  loop := .tail _ (.head _)
  flags f := ⟨.tail _ (.head _), rfl, rfl, rfl⟩
  lit b := ⟨.tail _ (.head _), rfl, rfl, rfl⟩
  ref l d h3 hl h1 hd := by
    have hl : l ≤ 0x10110 := hl
    have hd : d ≤ 4096 := hd
    have hdisp : d = (BitVec.ofNat 12 (d - 1)).toNat + 1 := by
      rw [toNat_ofNat_lt (by omega)]; omega
    change IsLzRef (tok11 (.ref l d)) (encode (tok11 (.ref l d))).length l d ∧
      (tok11 (.ref l d)).place = .lz11Block true ∧ (tok11 (.ref l d)).wellFormed = true
    rw [tok11]
    by_cases h16 : l ≤ 16
    · have hind : (BitVec.ofNat 4 (l - 1)).toNat = l - 1 := toNat_ofNat_lt (by omega)
      simp only [if_pos h16]
      refine ⟨.inr (.inl ⟨_, _, rfl, rfl, ?_, hdisp⟩), rfl, ?_⟩
      · rw [hind]; omega
      · exact decide_eq_true (by rw [hind]; omega)
    by_cases h272 : l ≤ 0x110
    · simp only [if_neg h16, if_pos h272]
      refine ⟨.inr (.inr (.inl ⟨_, _, rfl, rfl, ?_, hdisp⟩)), rfl, rfl⟩
      rw [toNat_ofNat_lt (by omega)]; omega
    · simp only [if_neg h16, if_neg h272]
      refine ⟨.inr (.inr (.inr ⟨_, _, rfl, rfl, ?_, hdisp⟩)), rfl, rfl⟩
      rw [toNat_ofNat_lt (by omega)]; omega

/-! ### The bytes of the plaintext -/

theorem Parses.le {maxL i : Nat} {x : List Byte} {ts : List LzTok} (h : Parses maxL x ts i) :
    i ≤ x.length := by
  cases ts with
  | nil => exact le_of_eq h
  | cons t ts =>
    cases t with
    | lit b => exact h.1.le
    | ref l d =>
      obtain ⟨h3, -, -, hl, -⟩ := h
      have := (matchLen_le maxL x i d).2
      omega

/-- One byte appended, and WIN written with it, stays coherent (R41, R66). -/
theorem WinCoherent.put {s t : State} {b : Byte} (h : WinCoherent s)
    (ht : t.seq.trial = s.seq.trial) (ha : Appended s t [b])
    (hw : Stored s.mem.win t.mem.win (s.work.outLen % 4096) [b]) : WinCoherent t := by
  intro i hi hi2
  have hl : t.work.outLen = s.work.outLen + 1 := ha.1
  simp only [Config.winSize] at hi2 ⊢
  rw [hw]
  by_cases heq : i = s.work.outLen
  · subst heq
    rw [if_pos ⟨le_rfl, Nat.lt_succ_self _⟩, Nat.sub_self]
    exact (ha.read ht (k := 0) Nat.one_pos).symm
  · rw [if_neg (by simp only [List.length_singleton]; omega), ha.below ht (by omega)]
    exact h i (by omega) (by simp only [Config.winSize]; omega)

theorem getD_take_of_lt {x : List Byte} {i a : Nat} (h : a < i) :
    (x.take i).getD a 0 = x.getD a 0 := by
  rw [List.getD_eq_getElem?_getD, List.getD_eq_getElem?_getD, List.getElem?_take_of_lt h]

/-- A memory whose bytes from 0 on are each the plaintext's, or the byte `d` below, where the plaintext
repeats itself at that distance, holds the plaintext. -/
theorem range_eq_take_of_replay {m : Memory} {x : List Byte} {i l d : Nat} (h1 : 1 ≤ d) (hd : d ≤ i)
    (hl : i + l ≤ x.length) (hlow : ∀ a < i, Memory.read a m = x.getD a 0)
    (hrep : ∀ k < l, Memory.read (i + k) m = Memory.read (i + k - d) m)
    (hx : ∀ k < l, x.getD (i + k) 0 = x.getD (i - d + k) 0) :
    Memory.range m 0 (i + l) = x.take (i + l) := by
  have hread : ∀ a < i + l, Memory.read a m = x.getD a 0 := by
    intro a
    induction a using Nat.strong_induction_on with
    | _ a ih =>
      intro ha
      by_cases hi : a < i
      · exact hlow a hi
      · obtain ⟨k, rfl⟩ : ∃ k, a = i + k := ⟨a - i, by omega⟩
        rw [hrep k (by omega), ih (i + k - d) (by omega) (by omega), hx k (by omega),
          show i + k - d = i - d + k by omega]
  have hlen : (x.take (i + l)).length = i + l := by rw [List.length_take]; omega
  have hr := Memory.range_eq (m := m) (a := 0) (bs := x.take (i + l)) fun a ha => by
    rw [hlen] at ha
    rw [Nat.zero_add, hread a ha, getD_take_of_lt ha]
  rwa [hlen] at hr

/-! ### The decoder's run -/

/-- The decoder of an LZ codec stands at the head of its loop: it has written the plaintext up to where
the tokens `ts` begin, and exactly the bytes `bs` are left to read. -/
structure LzDecoding (c : LzSide) (x : List Byte) (s : State) (ts : List LzTok) (bs : List Byte) :
    Prop where
  phase : s.seq.phase = fwdBody c.fwd
  decSize : s.work.decSize = x.length
  window : WinCoherent s
  fed : ∃ i, Parses c.maxL x ts i ∧ Feeding s (x.take i) bs

theorem Feeding.outLen_take {s : State} {x bs : List Byte} {i : Nat} (h : Feeding s (x.take i) bs)
    (hi : i ≤ x.length) : s.work.outLen = i := by
  rw [h.written, List.length_take, Nat.min_eq_left hi]

theorem Feeding.read_output {s : State} {out bs : List Byte} (h : Feeding s out bs) {a : Nat}
    (ha : a < out.length) : Memory.read a s.mem.omem = out.getD a 0 := by
  rw [← h.output, Memory.range_getD _ _ _ _ ha, Nat.zero_add]

theorem Parses.lt {maxL i : Nat} {x : List Byte} {t : LzTok} {ts : List LzTok}
    (h : Parses maxL x (t :: ts) i) : i < x.length := by
  cases t with
  | lit b => exact h.1
  | ref l d =>
    obtain ⟨h3, -, -, hl, -⟩ := h
    have := (matchLen_le maxL x i d).2
    omega

theorem LzSide.Sound.cases {c : LzSide} (hc : c.Sound) :
    (fwdBody c.fwd = .lz10Body ∧ c.flagsPlace = .lz10Flags ∧ c.blockPlace = .lz10Block) ∨
    (fwdBody c.fwd = .lz11Body ∧ c.flagsPlace = .lz11Flags ∧ c.blockPlace = .lz11Block) := by
  simpa using hc.loop

theorem LzSide.Sound.flagsPlace_ne {c : LzSide} (hc : c.Sound) : c.flagsPlace ≠ .ovlTrailer := by
  obtain ⟨-, h, -⟩ | ⟨-, h, -⟩ := hc.cases <;> rw [h] <;> exact Place.noConfusion

theorem LzSide.Sound.blockPlace_ne {c : LzSide} (hc : c.Sound) (b : Bool) :
    c.blockPlace b ≠ .ovlTrailer := by
  obtain ⟨-, -, h⟩ | ⟨-, -, h⟩ := hc.cases <;> rw [h] <;> exact Place.noConfusion

theorem LzSide.Sound.fetch {c : LzSide} (hc : c.Sound) {s : State}
    (hp : s.seq.phase = fwdBody c.fwd) (hlt : s.work.outLen < s.work.decSize) :
    fetch s = fetchLz c.flagsPlace c.blockPlace s := by
  obtain ⟨h, hf, hb⟩ | ⟨h, hf, hb⟩ := hc.cases <;>
    simp only [Machine.fetch, hp.trans h, hf, hb, fetchLoop_running _ hlt]

theorem LzSide.Sound.step_flags {c : LzSide} (hc : c.Sound) {s : State} {i : Instr}
    (hp : s.seq.phase = fwdBody c.fwd) (hlt : s.work.outLen < s.work.decSize)
    (hcnt : s.work.flagCnt = 0) (hd : decode c.flagsPlace (readable s) = .instr i) :
    step s = exec i s :=
  step_of_fetch_instr (by rw [hc.fetch hp hlt, fetchLz_flags _ _ hcnt, fetchForward_instr hd])

theorem LzSide.Sound.step_block {c : LzSide} (hc : c.Sound) {s : State} {i : Instr}
    (hp : s.seq.phase = fwdBody c.fwd) (hlt : s.work.outLen < s.work.decSize)
    (hcnt : s.work.flagCnt ≠ 0)
    (hd : decode (c.blockPlace (s.work.flags.getLsbD 7)) (readable s) = .instr i) :
    step s = exec i (dropFlagMsb s) :=
  step_of_fetch_instr (by
    rw [hc.fetch hp hlt, fetchLz_block _ _ hcnt]
    exact fetchForward_instr (s := dropFlagMsb s) hd)

theorem IsLzRef.length_le {i : Instr} {n l d : Nat} (h : IsLzRef i n l d) : n ≤ 4 := by
  obtain ⟨_, _, _, hn, _⟩ | ⟨_, _, _, hn, _⟩ | ⟨_, _, _, hn, _⟩ | ⟨_, _, _, hn, _⟩ := h <;> omega

/-- A flag byte (R166). -/
theorem LzDecoding.flags {c : LzSide} (hc : c.Sound) {x : List Byte} {s : State} {t : LzTok}
    {ts : List LzTok} {f : Byte} {bs : List Byte} (h : LzDecoding c x s (t :: ts) (f :: bs))
    (hcnt : s.work.flagCnt = 0) :
    ∃ u, step s = .next u ∧ LzDecoding c x u (t :: ts) bs ∧ u.work.flags = f ∧
      u.work.flagCnt = 8 := by
  obtain ⟨i, hparse, hfed⟩ := h.fed
  have hlt : s.work.outLen < s.work.decSize := by
    rw [hfed.outLen_take hparse.le, h.decSize]; exact hparse.lt
  obtain ⟨hmem, hplace, hwf, henc⟩ := hc.flags f
  have hfed' : Feeding s (x.take i) (encode (c.flags f) ++ bs) := by rw [henc]; exact hfed
  have hdec := hfed'.decode hwf (by rw [hplace]; exact hc.flagsPlace_ne)
    (by rw [henc]; exact Nat.le_of_ble_eq_true rfl)
  rw [hplace] at hdec
  have hr := hfed'.readable
  rw [henc] at hr
  obtain ⟨u, e, -, hu⟩ := (lzFlagByteIsLoaded f (c.flags f) s hmem).1 hr
  have e := (hc.step_flags h.phase hlt hcnt hdec).trans e
  have hnext := hfed'.pass (new := []) e (by rw [hu]) (by rw [hu]) (by rw [hu]) (by rw [hu])
    (by rw [hu, henc]; rfl) (by rw [hu]; exact Appended.refl s)
  rw [List.append_nil] at hnext
  exact ⟨u, e, ⟨by rw [hu]; exact h.phase, by rw [hu]; exact h.decSize,
    by rw [hu]; exact h.window, i, hparse, hnext⟩, by rw [hu], by rw [hu]⟩

/-- A literal or a back-reference: its part of the plaintext goes out (R193, R194). -/
theorem LzDecoding.token {c : LzSide} (hc : c.Sound) {x : List Byte} {s : State} {t : LzTok}
    {ts : List LzTok} {bs : List Byte} (h : LzDecoding c x s (t :: ts) (encode (c.tok t) ++ bs))
    (hcnt : s.work.flagCnt ≠ 0) (hflag : s.work.flags.getLsbD 7 = t.isRef) :
    ∃ u, step s = .next u ∧ LzDecoding c x u ts bs ∧ u.work.flags = s.work.flags <<< 1 ∧
      u.work.flagCnt = s.work.flagCnt - 1 := by
  obtain ⟨i, hparse, hfed⟩ := h.fed
  have hout := hfed.outLen_take hparse.le
  have hlt : s.work.outLen < s.work.decSize := by rw [hout, h.decSize]; exact hparse.lt
  cases t with
  | lit b =>
    obtain ⟨hmem, hplace, hwf, henc⟩ := hc.lit b
    obtain ⟨hi, rfl, hrest⟩ := hparse
    have hdec := hfed.decode hwf (by rw [hplace]; exact hc.blockPlace_ne _)
      (by rw [henc]; exact Nat.le_of_ble_eq_true rfl)
    have hr := hfed.readable
    rw [henc] at hr
    rw [hplace] at hdec
    obtain ⟨u, e, ha, hw, hu⟩ := (lzLiteralIsAppended _ _ (dropFlagMsb s) hmem hfed.mem).1 hr
    have e := (hc.step_block h.phase hlt hcnt (hflag ▸ hdec)).trans e
    have hnext := hfed.pass e (by rw [hu]; rfl) (by rw [hu]; rfl) (by rw [hu]; rfl) (by rw [hu]; rfl)
      (by rw [hu, henc]; rfl) ha
    rw [take_append_getD hi] at hnext
    exact ⟨u, e, ⟨by rw [hu]; exact h.phase, by rw [hu]; exact h.decSize,
      h.window.put (by rw [hu]; rfl) ha hw, i + 1, hrest, hnext⟩, by rw [hu]; rfl, by rw [hu]; rfl⟩
  | ref l d =>
    obtain ⟨h3, h1, hd, hl, hrest⟩ := hparse
    have hmax := matchLen_le c.maxL x i d
    obtain ⟨hisref, hplace, hwf⟩ := hc.ref l d h3 (by omega) h1 (by omega)
    have hdec := hfed.decode hwf (by rw [hplace]; exact hc.blockPlace_ne _)
      hisref.length_le
    rw [hplace] at hdec
    obtain ⟨u, new, e, hlen, ha, hwin, hrep, -, hu⟩ := backReferenceReplaysTheOutput _ _ l d
      (dropFlagMsb s) hisref hfed.readable hfed.mem h.window (by rw [dropFlagMsb, hout]; omega) hlt.le
    have e := (hc.step_block h.phase hlt hcnt (hflag ▸ hdec)).trans e
    have hnext := hfed.pass e (by rw [hu]; rfl) (by rw [hu]; rfl) (by rw [hu]; rfl) (by rw [hu]; rfl)
      (by rw [hu]; rfl) ha
    have hnewlen : new.length = l := by
      rw [hlen]
      change min l (s.work.decSize - s.work.outLen) = l
      rw [h.decSize, hout]; omega
    have hsink : sinkOf u = u.mem.omem := by rw [sinkOf, hnext.noTrial]
    have hbytes : x.take i ++ new = x.take (i + l) := by
      refine Eq.trans ?_ (range_eq_take_of_replay (m := u.mem.omem) (d := d) h1 (by omega) (by omega)
        (fun a ha => ?_) (fun k hk => ?_) fun k hk => getD_of_lt_matchLen (maxL := c.maxL) (by omega))
      · rw [← hnext.output, List.length_append, hnewlen, List.length_take,
          Nat.min_eq_left (by omega)]
      · rw [hnext.read_output (by simp; omega), List.getD_append _ _ _ _ (by simp; omega),
          getD_take_of_lt ha]
      · have := hrep k (by omega)
        rw [hsink] at this
        change Memory.read (s.work.outLen + k) _ = Memory.read (s.work.outLen + k - d) _ at this
        rwa [hout] at this
    rw [hbytes] at hnext
    exact ⟨u, e, ⟨by rw [hu]; exact h.phase, by rw [hu]; exact h.decSize, hwin, i + l, hrest, hnext⟩,
      by rw [hu]; rfl, by rw [hu]; rfl⟩

/-- The tokens of a group, their flags being loaded. -/
theorem LzDecoding.group {c : LzSide} (hc : c.Sound) {x : List Byte} (g : List LzTok) {s : State}
    {ts : List LzTok} {bs : List Byte}
    (h : LzDecoding c x s (g ++ ts) (g.flatMap (fun t => encode (c.tok t)) ++ bs))
    (hlen : g.length ≤ 8) (hcnt : g.length ≤ s.work.flagCnt) (hflags : FlagsOf g s.work.flags) :
    ∃ k u, Runs k s u ∧ LzDecoding c x u ts bs ∧ u.work.flagCnt = s.work.flagCnt - g.length := by
  induction g generalizing s with
  | nil => exact ⟨0, s, Runs.zero s, h, rfl⟩
  | cons t g ih =>
    obtain ⟨hflag, hrest⟩ := hflags.next hlen
    rw [List.length_cons] at hlen hcnt
    rw [List.flatMap_cons, List.append_assoc] at h
    obtain ⟨u, e, hu, hf, hn⟩ := h.token hc (by omega) hflag
    obtain ⟨k, v, hr, hv, hn'⟩ := ih hu (by omega) (by omega) (by rw [hf]; exact hrest)
    exact ⟨k + 1, v, Runs.succ e hr, hv, by rw [hn', hn, List.length_cons]; omega⟩

/-- At the end of the tokens the plaintext is written, whatever flags are left (R169). -/
theorem LzDecoding.finish {c : LzSide} (hc : c.Sound) {x : List Byte} {s : State}
    (h : LzDecoding c x s [] []) : Decodes s x := by
  obtain ⟨i, hparse, hfed⟩ := h.fed
  rw [show i = x.length from hparse, List.take_length] at hfed
  obtain ⟨t, e, ht⟩ := hfed.finish (by
    rw [h.phase]
    obtain ⟨hp, -⟩ | ⟨hp, -⟩ := hc.cases
    · exact .inr (.inr (.inl hp))
    · exact .inr (.inr (.inr (.inl hp)))) h.decSize
  exact .of_step e ⟨0, t, Runs.zero t, ht⟩

/-- The groups of a token list, one after another. -/
theorem LzDecoding.groups {c : LzSide} (hc : c.Sound) {x : List Byte} {s : State} (ts : List LzTok)
    (h : LzDecoding c x s ts (writeGroups (fun t => encode (c.tok t)) ts 0 0 []))
    (hcnt : s.work.flagCnt = 0) : Decodes s x := by
  induction hn : ts.length using Nat.strong_induction_on generalizing s ts with
  | _ n ih =>
    cases ts with
    | nil => exact h.finish hc
    | cons t ts =>
      rw [writeGroups_eq _ _ _ _ (by decide) (.inr (List.cons_ne_nil t ts)), List.nil_append] at h
      have hlen : ((t :: ts).take 8).length ≤ 8 := List.length_take_le ..
      obtain ⟨u, e, hu, hf, h8⟩ := h.flags hc hcnt
      obtain ⟨k, v, hr, hv, hcnt'⟩ := LzDecoding.group hc (s := u) ((t :: ts).take 8)
        (ts := (t :: ts).drop 8) (by rw [List.take_append_drop]; exact hu) hlen (by rw [h8]; exact hlen)
        (by rw [hf]; exact FlagsOf.groupFlags hlen)
      refine .of_step e (.of_runs hr ?_)
      by_cases hend : (t :: ts).drop 8 = []
      · rw [hend] at hv
        exact hv.finish hc
      · refine ih _ ?_ _ hv ?_ rfl
        · rw [List.length_drop, ← hn, List.length_cons]; omega
        · have := mt List.drop_eq_nil_of_le hend
          rw [hcnt', h8, List.length_take]; omega

theorem lz_roundTrip {c : LzSide} (hc : c.Sound) {x : List Byte} {ts : List LzTok} {s : State}
    (hparse : Parses c.maxL x ts 0) (hx : x.length ≤ 0xFFFFFF) (hcnt : s.work.flagCnt = 0)
    (hp : s.seq.phase = .header c.fwd)
    (h : Feeding s [] (emitHeader c.fwd x.length ++
      writeGroups (fun t => encode (c.tok t)) ts 0 0 [])) : Decodes s x := by
  obtain ⟨k, t, hr, ht, hst⟩ := h.header hp hx
  refine .of_runs hr (LzDecoding.groups hc ts ⟨hst.phase, hst.decSize, fun i hi => ?_, 0, hparse, ht⟩
    (hst.flagCnt.trans hcnt))
  rw [ht.written] at hi
  exact absurd hi (Nat.not_lt_zero i)

/-- Settles O60: the header, then the groups of the selected tokens, which stand for the plaintext. -/
theorem lzRoundTrip : Obligations.LzRoundTrip := by
  intro x optimal s f stream hf hx hm hfault hcnt htrial hp hin hout hdecl hsrc himem
  have h := Feeding.start hm hfault htrial hin hout hdecl hsrc himem
  suffices hdec : Decodes s x by
    obtain ⟨k, t, hr, hidle, hstatus, hlen, hres⟩ := hdec
    exact ⟨k, t, hr, hidle, hstatus, hlen, hres⟩
  simp only [List.mem_cons, Prod.mk.injEq, List.not_mem_nil, or_false] at hf
  obtain ⟨rfl, rfl⟩ | ⟨rfl, rfl⟩ := hf
  · exact lz_roundTrip lz10Side_sound (selectTokens_parses ..) hx hcnt hp h
  · exact lz_roundTrip lz11Side_sound (selectTokens_parses ..) hx hcnt hp h

end Sys2Proof.Machine

/-!
What the Huffman encoder's tables and codes are to a decoder (O59): a layout lists every internal node
once, so the table has a pair for each and the walk from the root along a symbol's code ends at the
symbol's byte; and the bit-word writer's words, one after another, hold the codes' bits.
-/

namespace Sys2Proof.Machine

/-! ### Internal nodes -/

theorem HTree.mem_internals_self {v : HTree} (h : v.isLeaf = false) : v ∈ v.internals := by
  cases v with
  | leaf id x => cases h
  | node id a b => exact List.mem_cons_self

/-- A child of an internal node of a tree is one of its internal nodes, or a leaf. -/
theorem HTree.child_mem_internals {root a b : HTree} {id : Nat}
    (h : .node id a b ∈ root.internals) (bit : Bool)
    (hl : (if bit then b else a).isLeaf = false) : (if bit then b else a) ∈ root.internals := by
  induction root with
  | leaf i x => cases h
  | node i x y ihx ihy =>
    rw [HTree.internals, List.mem_cons, List.mem_append] at h ⊢
    obtain h | h | h := h
    · cases h
      have hself := HTree.mem_internals_self hl
      cases bit
      · exact .inr (.inl hself)
      · exact .inr (.inr hself)
    · exact .inr (.inl (ihx h))
    · exact .inr (.inr (ihy h))

theorem HTree.isLeaf_of_mem_internals {root v : HTree} (h : v ∈ root.internals) :
    v.isLeaf = false := by
  induction root with
  | leaf i x => cases h
  | node i x y ihx ihy =>
    rw [HTree.internals, List.mem_cons, List.mem_append] at h
    obtain rfl | h | h := h
    · rfl
    · exact ihx h
    · exact ihy h

/-! ### Layouts (R385, R395, R396) -/

/-- A node's internal nodes: itself, and those of the children it hands on. -/
theorem listInternals_node (id : Nat) (a b : HTree) (q : List HTree) :
    (listInternals (.node id a b :: q)).Perm
      (.node id a b :: listInternals (q ++ [a, b].filter fun c => !c.isLeaf)) := by
  have hsplit : listInternals (q ++ [a, b].filter fun c => !c.isLeaf) =
      listInternals q ++ (a.internals ++ b.internals) := by
    rw [← listInternals_children]; exact List.flatMap_append
  rw [hsplit]
  exact List.perm_append_comm.cons _

theorem listInternals_perm {q q' : List HTree} (h : q.Perm q') :
    (listInternals q).Perm (listInternals q') := h.flatMap_right _

/-- With enough fuel the breadth-first order lists every internal node of its queue. -/
theorem bfsOrder_perm (f : Nat) (q : List HTree) (hq : ∀ v ∈ q, v.isLeaf = false)
    (hf : (listInternals q).length ≤ f) : (bfsOrder f q).Perm (listInternals q) := by
  induction f generalizing q with
  | zero => rw [List.length_eq_zero_iff.mp (Nat.le_zero.mp hf)]; rfl
  | succ f ih =>
    match q, hq with
    | [], _ => rfl
    | .leaf _ _ :: q, hq => cases hq _ List.mem_cons_self
    | .node id a b :: q, hq =>
      have hp := listInternals_node id a b q
      rw [hp.length_eq] at hf
      refine ((ih _ (fun v hv => ?_) (Nat.le_of_succ_le_succ hf)).cons _).trans hp.symm
      obtain hv | hv := List.mem_append.mp hv
      · exact hq v (List.mem_cons_of_mem _ hv)
      · simpa using (List.mem_filter.mp hv).2

/-- The nodes pending, without their deadlines. -/
def pendingNodes (pend : List (HTree × Nat)) : List HTree := pend.map (·.1)

theorem pendingNodes_pushChildren (id : Nat) (a b : HTree) (k : Nat) (pend : List (HTree × Nat)) :
    (listInternals (.node id a b :: pendingNodes pend)).Perm
      (.node id a b :: listInternals (pendingNodes (pushChildren (.node id a b) k pend))) := by
  refine (listInternals_node id a b _).trans ((listInternals_perm ?_).cons _)
  have : pendingNodes (pushChildren (.node id a b) k pend) =
      pendingNodes pend ++ [b, a].filter fun c => !c.isLeaf := by
    simp [pendingNodes, pushChildren, Function.comp_def]
  rw [this]
  exact ((List.Perm.swap b a []).filter _).append_left _

/-- The depth-first layout lists what it has listed and every internal node still pending. -/
theorem layout8Loop_perm (f t : Nat) (order : List HTree) (pend : List (HTree × Nat))
    {out : List HTree} (hq : ∀ v ∈ pendingNodes pend, v.isLeaf = false)
    (h : layout8Loop f t order pend = some out) :
    out.Perm (order ++ listInternals (pendingNodes pend)) := by
  induction f generalizing t order pend with
  | zero =>
    rw [layout8Loop] at h
    split at h
    · next hnil => cases h; rw [hnil]; exact (List.append_nil out).symm ▸ .refl _
    · cases h
  | succ f ih =>
    rw [layout8Loop] at h
    split at h
    · next hnil => cases h; rw [hnil]; exact (List.append_nil out).symm ▸ .refl _
    simp only [] at h
    generalize (if deadlinesMet (t + 1) _ then pend.length - 1 else earliestIdx pend) = at_ at h
    split at h
    · cases h
    next e he =>
    split at h
    · cases h
    obtain ⟨hlt, rfl⟩ := List.getElem?_eq_some_iff.mp he
    have hpend : pend.Perm (pend[at_] :: pend.eraseIdx at_) := (List.getElem_cons_eraseIdx_perm hlt).symm
    have hnodes : (pendingNodes pend).Perm (pend[at_].1 :: pendingNodes (pend.eraseIdx at_)) :=
      hpend.map _
    have hleaf := hq pend[at_].1 (List.mem_map_of_mem (List.getElem_mem hlt))
    generalize pend[at_].1 = v at h hnodes hleaf
    generalize pend.eraseIdx at_ = rest at h hnodes
    cases v with
    | leaf id x => cases hleaf
    | node id a b =>
      have hp := pendingNodes_pushChildren id a b t rest
      refine (ih _ _ _ (fun v hv => ?_) h).trans ?_
      · have : v ∈ pendingNodes rest ++ [b, a].filter fun c => !c.isLeaf := by
          simpa [pendingNodes, pushChildren, Function.comp_def] using hv
        obtain hv | hv := List.mem_append.mp this
        · exact hq v (hnodes.mem_iff.mpr (List.mem_cons_of_mem _ hv))
        · simpa using (List.mem_filter.mp hv).2
      · rw [List.append_assoc, List.singleton_append]
        exact (hp.symm.trans (listInternals_perm hnodes).symm).append_left _

theorem forall₂_of_mapM {α β : Type} {f : α → Option β} {as : List α} {bs : List β}
    (h : as.mapM f = some bs) : List.Forall₂ (fun a b => f a = some b) as bs := by
  induction as generalizing bs with
  | nil => cases h; exact .nil
  | cons a as ih =>
    rw [List.mapM_cons] at h
    obtain ⟨b, hb, h⟩ := Option.bind_eq_some_iff.mp h
    obtain ⟨bs', hbs, h⟩ := Option.bind_eq_some_iff.mp h
    cases h
    exact .cons hb (ih hbs)

/-- A layout given from outside names every internal node. -/
theorem layoutGiven_perm {ids : List Nat} {root : HTree} {order : List HTree}
    (h : layoutGiven ids root = some order) : order.Perm root.internals := by
  rw [layoutGiven] at h
  split at h
  case isFalse => cases h
  case isTrue hids =>
  obtain ⟨hlen, hnodup, -⟩ := hids
  have hall := forall₂_of_mapM h
  have hmap : order.map HTree.id = ids := by
    clear h hlen hnodup
    induction hall with
    | nil => rfl
    | cons hv _ ih => rw [List.map_cons, ih]; congr 1; simpa using List.find?_some hv
  have hmem : ∀ v ∈ order, v ∈ root.internals := by
    clear h hlen hnodup hmap
    induction hall with
    | nil => simp
    | cons hv _ ih =>
      rintro v (_ | ⟨_, hv'⟩)
      · exact List.mem_of_find?_eq_some hv
      · exact ih v hv'
  have hnd : order.Nodup := by
    rw [← hmap] at hnodup
    exact hnodup.of_map
  refine (List.subperm_of_subset hnd hmem).perm_of_length_le ?_
  rw [← hlen, ← hmap, List.length_map]

/-- Whichever layout is used, it lists each internal node of the tree once. -/
theorem layoutOf_perm {k : HufKind} {given : Option (List Nat)} {root : HTree} {order : List HTree}
    (hr : root.isLeaf = false) (h : layoutOf k given root = some order) :
    order.Perm root.internals := by
  have hone : listInternals [root] = root.internals := List.append_nil _
  cases k with
  | huf4 =>
    cases h
    rw [← hone]
    exact bfsOrder_perm _ _ (fun v hv => by rw [List.mem_singleton.mp hv]; exact hr) (by omega)
  | huf8 =>
    cases given with
    | some ids => exact layoutGiven_perm h
    | none =>
      cases root with
      | leaf id x => cases hr
      | node id a b =>
        have hp := pendingNodes_pushChildren id a b 0 []
        refine (layout8Loop_perm _ _ _ _ (fun v hv => ?_) h).trans ?_
        · have : v ∈ [b, a].filter fun c => !c.isLeaf := by
            simpa [pendingNodes, pushChildren, Function.comp_def] using hv
          simpa using (List.mem_filter.mp this).2
        · rw [← hone]; exact hp.symm

theorem orderIdx_getElem? {order : List HTree} (hnd : (order.map HTree.id).Nodup) {v : HTree}
    (hv : v ∈ order) : order[orderIdx order v]? = some v := by
  have hlt : orderIdx order v < order.length :=
    List.findIdx_lt_length_of_exists ⟨v, hv, by simp⟩
  have hid : (order[orderIdx order v]'hlt).id = v.id := by
    exact eq_of_beq (List.findIdx_getElem (w := hlt))
  rw [List.getElem?_eq_getElem hlt,
    List.inj_on_of_nodup_map hnd (List.getElem_mem hlt) hv hid]

/-! ### The table, to a walk -/

/-- The table of a tree: the walk starts at the root's byte, and from a node's own number the bytes of
its two children follow; all of it is in the table, whose size byte gives its length. -/
structure TableOf (root : HTree) (order : List HTree) (table : List Byte) : Prop where
  length : 2 * ((table.getD 0 0).toNat + 1) = table.length
  start : TableHolds order table 1 root
  child : ∀ id a b, .node id a b ∈ root.internals → ∀ bit : Bool,
    2 * orderIdx order (.node id a b) + 2 + (if bit then 1 else 0) < table.length ∧
    TableHolds order table (2 * orderIdx order (.node id a b) + 2 + (if bit then 1 else 0))
      (if bit then b else a)

theorem tableOf_serialize {freq : List Nat} {k : HufKind} {given : Option (List Nat)}
    {order : List HTree} {table : List Byte} (h2 : 2 ≤ freq.length) (h256 : freq.length ≤ 256)
    (ho : layoutOf k given (buildTree freq) = some order)
    (hs : serialize order (buildTree freq) = some table) : TableOf (buildTree freq) order table := by
  obtain ⟨hr, hnd, hlt⟩ := buildTree_shape h2
  have hperm := layoutOf_perm hr ho
  obtain ⟨hlen, hhead, hroot, hpairs⟩ := serialize_spec hs
  have hnd' : (order.map HTree.id).Nodup := (hperm.map HTree.id).nodup_iff.mpr hnd
  refine ⟨?_, hroot, fun id a b hv bit => ?_⟩
  · rw [hhead, hlen, toNat_ofNat_lt (by rw [hperm.length_eq]; omega)]
  · have hidx := orderIdx_getElem? hnd' (hperm.mem_iff.mpr hv)
    have hbound := (List.getElem?_eq_some_iff.mp hidx).1
    obtain ⟨id', a', b', hnode, ha, hb⟩ := hpairs _ _ hidx
    cases hnode
    cases bit
    · exact ⟨by simp; omega, ha⟩
    · exact ⟨by simp; omega, hb⟩

/-! ### Codes (R377) -/

/-- The bits lead from a node down to the leaf of a symbol. -/
inductive HTree.Leads : HTree → List Bool → Nat → Prop
  | leaf (id x : Nat) : Leads (.leaf id x) [] x
  | edge {id : Nat} {a b : HTree} (bit : Bool) {bits : List Bool} {x : Nat}
      (h : Leads (if bit then b else a) bits x) : Leads (.node id a b) (bit :: bits) x

theorem codesFrom_leads {v : HTree} {path code : List Bool} {x : Nat}
    (h : (x, code) ∈ codesFrom v path) : ∃ bits, code = path.reverse ++ bits ∧ v.Leads bits x := by
  induction v generalizing path with
  | leaf id y =>
    cases List.mem_singleton.mp h
    exact ⟨[], (List.append_nil _).symm, .leaf id x⟩
  | node id a b iha ihb =>
    obtain h | h := List.mem_append.mp h
    · obtain ⟨bits, rfl, hl⟩ := iha h
      exact ⟨false :: bits, by simp, .edge false hl⟩
    · obtain ⟨bits, rfl, hl⟩ := ihb h
      exact ⟨true :: bits, by simp, .edge true hl⟩

/-- The code of a leaf's symbol leads to a leaf of that symbol. -/
theorem codeOf_leads {root : HTree} {x : Nat} (h : x ∈ root.symbols) :
    root.Leads (codeOf (codesFrom root []) x) x := by
  rw [← codesFrom_symbols root []] at h
  obtain ⟨c, hc, rfl⟩ := List.mem_map.mp h
  rw [codeOf]
  split
  · next d hd =>
    obtain ⟨bits, hbits, hl⟩ := codesFrom_leads (path := []) (List.mem_of_find?_eq_some hd)
    have hsym := List.find?_some hd
    rw [hbits, ← eq_of_beq hsym]
    exact hl
  · next hd => exact absurd (List.find?_eq_none.mp hd c hc) (by simp)

theorem hufSymbols_lt (k : HufKind) (s : List Byte) {x : Nat} (h : x ∈ hufSymbols k s) :
    x < hufAlphabet k := by
  cases k with
  | huf8 =>
    obtain ⟨b, -, rfl⟩ := List.mem_map.mp h
    exact b.isLt
  | huf4 =>
    obtain ⟨b, -, hb⟩ := List.mem_flatMap.mp h
    obtain rfl | hb := List.mem_cons.mp hb
    · exact (hiNib b).isLt
    · rw [List.mem_singleton.mp hb]; exact (loNib b).isLt

/-- Every symbol of the plaintext is a leaf's (R372). -/
theorem mem_symbols_of_mem {k : HufKind} {s : List Byte} {x : Nat} (h : x ∈ hufSymbols k s) :
    x ∈ (buildTree (hufFreq k (hufSymbols k s))).symbols := by
  have hx := hufSymbols_lt k s h
  have hlen : (hufFreq k (hufSymbols k s)).length = hufAlphabet k := by simp [hufFreq]
  have h2 : 2 ≤ (hufFreq k (hufSymbols k s)).length := by rw [hlen]; cases k <;> decide
  rw [(buildTree_leaves h2).1.mem_iff, leafSet, List.map_map, List.mem_map]
  refine ⟨x, List.mem_filter.mpr ⟨by rw [hlen]; exact List.mem_range.mpr hx, ?_⟩, rfl⟩
  have hcount : (hufFreq k (hufSymbols k s)).getD x 0 = (hufSymbols k s).count x := by
    simp [hufFreq, List.getD_eq_getElem?_getD, hx]
  rw [hcount]
  simp [List.count_eq_zero, h]

/-! ### Bit words (R170) -/

/-- The writer's next word holds the next bits, and the later words the later bits. -/
theorem writeBits_word (bits : List Bool) {wbuf : BitVec 32} {pending : List Bool}
    (h : HoldsBits wbuf pending) (hcnt : pending.length < 32) (hne : pending ≠ [] ∨ bits ≠ []) :
    ∃ w, writeBits bits wbuf pending.length =
      bytes32 w ++ writeBits (bits.drop (32 - pending.length)) 0 0 ∧
      HoldsBits w (pending ++ bits.take (32 - pending.length)) := by
  induction bits generalizing wbuf pending with
  | nil =>
    have hp : pending.length ≠ 0 := by simpa using hne
    exact ⟨wbuf, by rw [writeBits_nil_of_pos wbuf hp, List.drop_nil, writeBits_nil_zero,
      List.append_nil], by simpa using h⟩
  | cons b bits ih =>
    have hput := h.append_putBit hcnt b
    have hlen : (pending ++ [b]).length = pending.length + 1 := List.length_append
    obtain ⟨r, hr⟩ : ∃ r, 32 - pending.length = r + 1 := ⟨31 - pending.length, by omega⟩
    rw [hr, List.drop_succ_cons, List.take_succ_cons, List.append_cons]
    by_cases hfull : pending.length + 1 = 32
    · obtain rfl : r = 0 := by omega
      exact ⟨_, writeBits_cons_of_full b bits wbuf hfull, by simpa using hput⟩
    · obtain ⟨w, hw, hbits⟩ := ih hput (by omega) (.inl (by simp))
      rw [hlen, show 32 - (pending.length + 1) = r by omega] at hw hbits
      exact ⟨w, (writeBits_cons_of_not_full b bits wbuf hfull).trans hw, hbits⟩

/-- The first of the words that hold some bits. -/
theorem writeBits_first {bits : List Bool} (hne : bits ≠ []) :
    ∃ w, writeBits bits 0 0 = bytes32 w ++ writeBits (bits.drop 32) 0 0 ∧
      HoldsBits w (bits.take 32) :=
  writeBits_word bits holdsBits_zero_nil (by decide) (.inr hne)

end Sys2Proof.Machine

/-!
The HUF4 and HUF8 streams decode to their plaintext (O59): the table is read into TREE, and each code
leads the walk from the root to the byte of its symbol.
-/

namespace Sys2Proof.Machine

/-! ### A walk that is fed with bits -/

/-- Between two nodes of a walk: TREE holds the table, `out` is written, and the bits still to come, the
loaded ones first, are `bits`. -/
structure HufDecoding (table : List Byte) (n : Nat) (s : State) (out : List Byte)
    (bits : List Bool) : Prop where
  decSize : s.work.decSize = n
  treeLen : s.work.treeLen = table.length
  tree : Memory.range s.mem.tree 0 table.length = table
  cnt : s.work.bitCnt ≤ 32
  loaded : ∀ j < s.work.bitCnt, j < bits.length →
    s.work.bitbuf.getLsbD (31 - j) = bits.getD j false
  fed : Feeding s out (writeBits (bits.drop s.work.bitCnt) 0 0)

theorem HufDecoding.read_tree {table : List Byte} {n : Nat} {s : State} {out : List Byte}
    {bits : List Bool} (h : HufDecoding table n s out bits) {p : Nat} (hp : p < table.length) :
    Memory.read p s.mem.tree = table.getD p 0 := by
  rw [← h.tree, Memory.range_getD _ _ _ _ hp, Nat.zero_add]

/-- A step that reads and writes nothing keeps what the walk is fed with. -/
theorem Feeding.still {s t : State} {out bs : List Byte} (h : Feeding s out bs) (hmem : t.mem = s.mem)
    (henv : t.env = s.env) (htrial : t.seq.trial = s.seq.trial)
    (hdecl : t.work.declLen = s.work.declLen) (hpos : t.work.inPos = s.work.inPos)
    (hout : t.work.outLen = s.work.outLen) : Feeding t out bs where
  mem := by rw [MemInv, hmem]; exact h.mem
  noFault := by rw [henv]; exact h.noFault
  noTrial := by rw [htrial]; exact h.noTrial
  there := by rw [henv, hdecl]; exact h.there
  left := by rw [hdecl, hpos]; exact h.left
  input := by rw [hmem, hpos]; exact h.input
  written := by rw [hout]; exact h.written
  output := by rw [hmem]; exact h.output

/-- What a walk between its nodes leaves as it is. -/
structure NibbleKept (s t : State) : Prop where
  nib : t.work.nib = s.work.nib
  nibValid : t.work.nibValid = s.work.nibValid

theorem NibbleKept.trans {s t u : State} (h1 : NibbleKept s t) (h2 : NibbleKept t u) :
    NibbleKept s u := ⟨h2.nib.trans h1.nib, h2.nibValid.trans h1.nibValid⟩

/-- The node's byte is taken (R318). -/
theorem step_node {k : HufKind} {s : State} (hp : s.seq.phase = .node k)
    (hlt : s.work.outLen < s.work.decSize) :
    step s = .next { s with
      seq.nodeByte := Memory.read s.work.nodePos s.mem.tree, seq.phase := .bit k } := by
  have hf : fetch s = fetchTree .hufNode s.work.nodePos s := by
    simp only [fetch, hp, fetchLoop_running _ hlt]
  rw [step_of_fetch_instr (hf.trans (fetchTree_instr rfl)), exec, execHufNode, nodeByteOf,
    nodeByte_join, hp, afterNode]

/-- A word is loaded if no bit is left (R168, R316). -/
theorem HufDecoding.load {table : List Byte} {n : Nat} {s : State} {out : List Byte} {b : Bool}
    {bits : List Bool} {k : HufKind} (h : HufDecoding table n s out (b :: bits))
    (hp : s.seq.phase = .bit k) :
    ∃ j t, Runs j s t ∧ HufDecoding table n t out (b :: bits) ∧ t.work.bitCnt ≠ 0 ∧
      t.seq = s.seq ∧ t.work.nodePos = s.work.nodePos ∧ NibbleKept s t := by
  by_cases hcnt : s.work.bitCnt = 0
  case neg => exact ⟨0, s, Runs.zero s, h, hcnt, rfl, rfl, rfl, rfl⟩
  obtain ⟨w, hw, hbits⟩ := writeBits_first (List.cons_ne_nil b bits)
  have hfed := h.fed
  rw [hcnt, List.drop_zero, hw] at hfed
  have hfed' : Feeding s out (encode (.hufWord w) ++ writeBits ((b :: bits).drop 32) 0 0) := hfed
  have hdec := hfed'.decode rfl Place.noConfusion le_rfl
  obtain ⟨t, e, -, ht⟩ := bitWordIsLoaded w s hfed'.readable
  have hf : fetch s = fetchForward .hufWord s := by simp only [fetch, hp, fetchBit_word hcnt]
  have e := (step_of_fetch_instr (hf.trans (fetchForward_instr hdec))).trans e
  have hnext := hfed'.pass (new := []) e (by rw [ht]) (by rw [ht]) (by rw [ht]) (by rw [ht])
    (by rw [ht]; rfl) (by rw [ht]; exact Appended.refl s)
  rw [List.append_nil] at hnext
  refine ⟨1, t, Runs.succ e (Runs.zero t), ⟨by rw [ht]; exact h.decSize, by rw [ht]; exact h.treeLen,
    by rw [ht]; exact h.tree, by rw [ht], ?_, ?_⟩, by rw [ht]; exact Nat.succ_ne_zero 31,
    by rw [ht], by rw [ht], by rw [ht], by rw [ht]⟩
  · intro j hj hlen
    rw [ht] at hj ⊢
    change j < 32 at hj
    rw [hbits j hj, List.getD_eq_getElem?_getD, List.getElem?_take_of_lt hj,
      ← List.getD_eq_getElem?_getD]
  · rw [ht] at hnext ⊢
    exact hnext

/-- The next bit is taken (R168). -/
theorem HufDecoding.drop {table : List Byte} {n : Nat} {s : State} {out : List Byte} {b : Bool}
    {bits : List Bool} (h : HufDecoding table n s out (b :: bits)) (hcnt : s.work.bitCnt ≠ 0) :
    nextBit s = b ∧ HufDecoding table n (dropBit s) out bits := by
  obtain ⟨c, hc⟩ := Nat.exists_eq_succ_of_ne_zero hcnt
  have hle := h.cnt
  refine ⟨h.loaded 0 (by omega) (Nat.succ_pos _), h.decSize, h.treeLen, h.tree, ?_, ?_, ?_⟩
  · exact (Nat.sub_le _ _).trans hle
  · intro j hj hlen
    change j < s.work.bitCnt - 1 at hj
    have := h.loaded (j + 1) (by omega) (Nat.succ_lt_succ hlen)
    rw [List.getD_cons_succ] at this
    change (s.work.bitbuf <<< 1).getLsbD (31 - j) = _
    rw [← this, BitVec.getLsbD_shiftLeft, show 31 - j - 1 = 31 - (j + 1) by omega]
    simp; omega
  · have hfed := h.fed
    rw [hc, List.drop_succ_cons] at hfed
    have : (dropBit s).work.bitCnt = c := by change s.work.bitCnt - 1 = c; omega
    rw [this]
    exact hfed.still rfl rfl rfl rfl rfl rfl

/-- From a node the walk goes to the child the bit chooses (R318, R320). -/
theorem HufDecoding.edge {table : List Byte} {n : Nat} {s : State} {out : List Byte} {b : Bool}
    {bits : List Bool} {k : HufKind} {c : Nat} (h : HufDecoding table n s out (b :: bits))
    (hp : s.seq.phase = .node k) (hlt : out.length < n) (hpos : s.work.nodePos < table.length)
    (hchild : childPos s.work.nodePos (table.getD s.work.nodePos 0) b = c) (hc : c < table.length) :
    ∃ j t, Runs j s t ∧ HufDecoding table n t out bits ∧ NibbleKept s t ∧
      if childIsLeaf (table.getD s.work.nodePos 0) b then t.seq.phase = .leaf k ∧ t.seq.leafPos = c
      else t.seq.phase = .node k ∧ t.work.nodePos = c := by
  have e := step_node hp (by rw [h.fed.written, h.decSize]; exact hlt)
  have h1 : HufDecoding table n { s with
      seq.nodeByte := Memory.read s.work.nodePos s.mem.tree, seq.phase := .bit k } out (b :: bits) :=
    ⟨h.decSize, h.treeLen, h.tree, h.cnt, h.loaded, h.fed.still rfl rfl rfl rfl rfl rfl⟩
  obtain ⟨j, u, hr, h2, hcnt, hseq, hnode, hnib⟩ := h1.load rfl
  obtain ⟨hbit, h3⟩ := h2.drop hcnt
  have hbyte : u.seq.nodeByte = table.getD s.work.nodePos 0 := by
    rw [hseq]; exact h.read_tree hpos
  have hphase : u.seq.phase = .bit k := by rw [hseq]
  have hnode : u.work.nodePos = s.work.nodePos := hnode
  have hf : fetch u = .instr (.hufBit b) (dropBit u) := by
    simp only [fetch, hphase, fetchBit_bit hcnt, hbit]
  have hchild' : c = (dropBit u).work.nodePos / 2 * 2 + 2 * ((dropBit u).seq.nodeByte.toNat % 64) + 2 +
      (if b then 1 else 0) := by
    change c = u.work.nodePos / 2 * 2 + 2 * (u.seq.nodeByte.toNat % 64) + 2 + (if b then 1 else 0)
    rw [hnode, hbyte, ← hchild, childPos]
    cases b <;> rfl
  have hleaf : childIsLeaf (table.getD s.work.nodePos 0) b =
      (dropBit u).seq.nodeByte.getLsbD (if b then 6 else 7) := by
    change _ = u.seq.nodeByte.getLsbD (if b then 6 else 7)
    rw [hbyte]
    cases b <;> rfl
  have htree : ¬ (dropBit u).work.treeLen ≤ c := by rw [h3.treeLen]; omega
  have e' := (step_of_fetch_instr hf).trans (walkStepsToTheChild.2 b _ c k (dropBit u) hphase
    hchild' hleaf)
  rw [if_neg htree] at e'
  generalize childIsLeaf (table.getD s.work.nodePos 0) b = leaf at e' ⊢
  cases leaf with
  | true =>
    rw [if_pos rfl] at e'
    exact ⟨_, _, Runs.succ e (hr.trans (Runs.succ e' (Runs.zero _))),
      ⟨h3.decSize, h3.treeLen, h3.tree, h3.cnt, h3.loaded, h3.fed.still rfl rfl rfl rfl rfl rfl⟩,
      ⟨hnib.nib, hnib.nibValid⟩, rfl, rfl⟩
  | false =>
    rw [if_neg Bool.false_ne_true] at e'
    exact ⟨_, _, Runs.succ e (hr.trans (Runs.succ e' (Runs.zero _))),
      ⟨h3.decSize, h3.treeLen, h3.tree, h3.cnt, h3.loaded, h3.fed.still rfl rfl rfl rfl rfl rfl⟩,
      ⟨hnib.nib, hnib.nibValid⟩, rfl, rfl⟩

/-- From an internal node's byte a code leads the walk to the byte of its symbol. -/
theorem HufDecoding.walk {root : HTree} {order : List HTree} {table : List Byte}
    (htable : TableOf root order table) {v : HTree} {code : List Bool} {x : Nat}
    (hv : v.Leads code x) {n : Nat} {s : State} {out : List Byte} {bits : List Bool} {k : HufKind}
    (h : HufDecoding table n s out (code ++ bits)) (hlt : out.length < n)
    (hp : s.seq.phase = .node k) (hpos : s.work.nodePos < table.length)
    (hmem : v ∈ root.internals) (hholds : TableHolds order table s.work.nodePos v) :
    ∃ j t, Runs j s t ∧ HufDecoding table n t out bits ∧ NibbleKept s t ∧
      t.seq.phase = .leaf k ∧ Memory.read t.seq.leafPos t.mem.tree = BitVec.ofNat 8 x := by
  induction hv generalizing s with
  | leaf id x => cases HTree.isLeaf_of_mem_internals hmem
  | @edge id a b bit rest x hrest ih =>
    obtain ⟨hchild, hleaf⟩ := hholds bit
    obtain ⟨hlt', hholds'⟩ := htable.child id a b hmem bit
    obtain ⟨j, t, hr, ht, hnib, hat⟩ := h.edge hp hlt hpos hchild hlt'
    rw [hleaf] at hat
    by_cases hl : (if bit then b else a).isLeaf = true
    · rw [if_pos hl] at hat
      obtain ⟨hpt, hpost⟩ := hat
      generalize (if bit then b else a) = v at hl hrest hholds'
      cases hrest with
      | leaf id x =>
        exact ⟨j, t, hr, ht, hnib, hpt, by rw [ht.read_tree (by rw [hpost]; exact hlt'), hpost]; exact hholds'⟩
      | edge bit h => cases hl
    · rw [if_neg hl] at hat
      obtain ⟨hpt, hpost⟩ := hat
      obtain ⟨i, u, hru, hu, hnib', hend⟩ := ih ht hpt (by rw [hpost]; exact hlt')
        (HTree.child_mem_internals hmem bit (Bool.eq_false_iff.mpr hl)) (by rw [hpost]; exact hholds')
      exact ⟨j + i, u, hr.trans hru, hu, hnib.trans hnib', hend⟩

/-- The walk stands at the root. -/
structure AtRoot (s : State) (k : HufKind) : Prop where
  phase : s.seq.phase = .node k
  nodePos : s.work.nodePos = 1

/-- From the root, the code of a symbol (R318). -/
theorem HufDecoding.symbol {root : HTree} {order : List HTree} {table : List Byte}
    (htable : TableOf root order table) (hroot : root.isLeaf = false) {code : List Bool} {x : Nat}
    (hv : root.Leads code x) {n : Nat} {s : State} {out : List Byte} {bits : List Bool} {k : HufKind}
    (h : HufDecoding table n s out (code ++ bits)) (hlt : out.length < n) (hp : AtRoot s k) :
    ∃ j t, Runs j s t ∧ HufDecoding table n t out bits ∧ NibbleKept s t ∧
      t.seq.phase = .leaf k ∧ Memory.read t.seq.leafPos t.mem.tree = BitVec.ofNat 8 x :=
  h.walk htable hv hlt hp.phase (by rw [hp.nodePos, ← htable.length]; omega)
    (HTree.mem_internals_self hroot) (by rw [hp.nodePos]; exact htable.start)

/-! ### Leaves (R321, R322) -/

theorem step_leaf {k : HufKind} {s : State} {i : Instr} (hp : s.seq.phase = .leaf k)
    (hd : decode (.hufLeaf k) [Memory.read s.seq.leafPos s.mem.tree] = .instr i) :
    step s = exec i s :=
  step_of_fetch_instr (by simp only [fetch, hp, fetchTree_instr hd])

/-- What a leaf leaves of a walk. -/
theorem HufDecoding.after {table : List Byte} {n : Nat} {s t : State} {out new : List Byte}
    {bits : List Bool} (h : HufDecoding table n s out bits) (e : step s = .next t)
    (henv : t.env = s.env) (htrial : t.seq.trial = s.seq.trial)
    (hmem : t.mem.imem = s.mem.imem ∧ t.mem.tree = s.mem.tree)
    (hwork : t.work = { s.work with
      outLen := t.work.outLen, nib := t.work.nib, nibValid := t.work.nibValid, nodePos := 1 })
    (ha : Appended s t new) : HufDecoding table n t (out ++ new) bits where
  decSize := by rw [hwork]; exact h.decSize
  treeLen := by rw [hwork]; exact h.treeLen
  tree := by rw [hmem.2]; exact h.tree
  cnt := by rw [hwork]; exact h.cnt
  loaded := by rw [hwork]; exact h.loaded
  fed := by
    have hfed : Feeding s out ([] ++ writeBits (bits.drop s.work.bitCnt) 0 0) := h.fed
    have := hfed.pass e henv htrial hmem.1 (by rw [hwork]) (by rw [hwork]; rfl) ha
    rw [hwork]
    exact this

theorem HufDecoding.leaf8 {table : List Byte} {n : Nat} {s : State} {out : List Byte}
    {bits : List Bool} {b : Byte} (h : HufDecoding table n s out bits)
    (hp : s.seq.phase = .leaf .huf8) (hb : Memory.read s.seq.leafPos s.mem.tree = b) :
    ∃ t, step s = .next t ∧ HufDecoding table n t (out ++ [b]) bits ∧ AtRoot t .huf8 := by
  obtain ⟨t, e, ha, ht⟩ := (leavesEmitTheirSymbols b .huf8 s h.fed.mem h.fed.noFault hp).1
  have e := (step_leaf hp (by rw [hb]; rfl)).trans e
  exact ⟨t, e, h.after e (by rw [ht]) (by rw [ht]) ⟨by rw [ht], by rw [ht]⟩ (by rw [ht]) ha,
    by rw [ht], by rw [ht]⟩

/-- The first nibble of a byte is kept. -/
theorem HufDecoding.leaf4_first {table : List Byte} {n : Nat} {s : State} {out : List Byte}
    {bits : List Bool} {b : Byte} (h : HufDecoding table n s out bits)
    (hp : s.seq.phase = .leaf .huf4) (hb : Memory.read s.seq.leafPos s.mem.tree = b)
    (hlt : b.toNat < 16) (hnib : s.work.nibValid = false) :
    ∃ t, step s = .next t ∧ HufDecoding table n t out bits ∧ AtRoot t .huf4 ∧
      t.work.nibValid = true ∧ t.work.nib.toNat = b.toNat := by
  obtain ⟨t, e, hval, ht⟩ :=
    (leavesEmitTheirSymbols b .huf4 s h.fed.mem h.fed.noFault hp).2.2.1 hlt hnib
  have e := (step_leaf hp (by rw [hb]; rfl)).trans e
  have := h.after (new := []) e (by rw [ht]) (by rw [ht]) ⟨by rw [ht], by rw [ht]⟩ (by rw [ht])
    (by rw [ht]; exact Appended.refl s)
  rw [List.append_nil] at this
  exact ⟨t, e, this, ⟨by rw [ht], by rw [ht]⟩, by rw [ht], hval⟩

/-- With the second the byte goes out. -/
theorem HufDecoding.leaf4_second {table : List Byte} {n : Nat} {s : State} {out : List Byte}
    {bits : List Bool} {b : Byte} (h : HufDecoding table n s out bits)
    (hp : s.seq.phase = .leaf .huf4) (hb : Memory.read s.seq.leafPos s.mem.tree = b)
    (hlt : b.toNat < 16) (hnib : s.work.nibValid = true) :
    ∃ t v, step s = .next t ∧ HufDecoding table n t (out ++ [v]) bits ∧ AtRoot t .huf4 ∧
      t.work.nibValid = false ∧ v.toNat = 16 * s.work.nib.toNat + b.toNat := by
  obtain ⟨t, v, e, hval, ha, ht⟩ :=
    (leavesEmitTheirSymbols b .huf4 s h.fed.mem h.fed.noFault hp).2.2.2 hlt hnib
  have e := (step_leaf hp (by rw [hb]; rfl)).trans e
  exact ⟨t, v, e, h.after e (by rw [ht]) (by rw [ht]) ⟨by rw [ht], by rw [ht]⟩ (by rw [ht]) ha,
    ⟨by rw [ht], by rw [ht]⟩, by rw [ht], hval⟩

/-! ### The plaintext -/

/-- What the plaintext's symbols are coded as. -/
def codedBits (k : HufKind) (code : Nat → List Bool) (xs : List Byte) : List Bool :=
  (hufSymbols k xs).flatMap code

/-- All symbols decoded, the decode ends. -/
theorem HufDecoding.finish {table : List Byte} {s : State} {x : List Byte} {k : HufKind}
    (h : HufDecoding table x.length s x []) (hp : AtRoot s k) : Decodes s x := by
  have hfed := h.fed
  rw [List.drop_nil, writeBits_nil_zero] at hfed
  obtain ⟨t, e, ht⟩ := hfed.finish (.inr (.inr (.inr (.inr ⟨k, hp.phase⟩)))) h.decSize
  exact .of_step e ⟨0, t, Runs.zero t, ht⟩

theorem HufDecoding.bytes8 {root : HTree} {order : List HTree} {table : List Byte}
    (htable : TableOf root order table) (hroot : root.isLeaf = false) {code : Nat → List Bool}
    {xs : List Byte} (hcode : ∀ x ∈ hufSymbols .huf8 xs, root.Leads (code x) x) {s : State}
    {out : List Byte}
    (h : HufDecoding table (out ++ xs).length s out (codedBits .huf8 code xs))
    (hp : AtRoot s .huf8) : Decodes s (out ++ xs) := by
  induction xs generalizing s out with
  | nil =>
    rw [List.append_nil] at h ⊢
    exact h.finish hp
  | cons x xs ih =>
    have hx : BitVec.ofNat 8 x.toNat = x := BitVec.ofNat_toNat ..|>.trans (BitVec.setWidth_eq x)
    obtain ⟨j, t, hr, ht, -, hpt, hread⟩ := HufDecoding.symbol (code := code x.toNat)
      (bits := codedBits .huf8 code xs) htable hroot (hcode _ List.mem_cons_self) h (by simp) hp
    obtain ⟨u, e, hu, hpu⟩ := ht.leaf8 hpt (hread.trans hx)
    rw [List.append_cons] at hu ⊢
    exact .of_runs hr (.of_step e (ih (fun y hy => hcode y (List.mem_cons_of_mem _ hy)) hu hpu))

theorem HufDecoding.bytes4 {root : HTree} {order : List HTree} {table : List Byte}
    (htable : TableOf root order table) (hroot : root.isLeaf = false) {code : Nat → List Bool}
    {xs : List Byte} (hcode : ∀ x ∈ hufSymbols .huf4 xs, root.Leads (code x) x) {s : State}
    {out : List Byte}
    (h : HufDecoding table (out ++ xs).length s out (codedBits .huf4 code xs))
    (hp : AtRoot s .huf4) (hnib : s.work.nibValid = false) : Decodes s (out ++ xs) := by
  induction xs generalizing s out with
  | nil =>
    rw [List.append_nil] at h ⊢
    exact h.finish hp
  | cons x xs ih =>
    have hhi : (BitVec.ofNat 8 (hiNib x).toNat).toNat = (hiNib x).toNat :=
      toNat_ofNat_lt (by have := (hiNib x).isLt; omega)
    have hlo : (BitVec.ofNat 8 (loNib x).toNat).toNat = (loNib x).toNat :=
      toNat_ofNat_lt (by have := (loNib x).isLt; omega)
    have hlt : out.length < (out ++ x :: xs).length := by simp
    have hbits : codedBits .huf4 code (x :: xs) =
        code (hiNib x).toNat ++ (code (loNib x).toNat ++ codedBits .huf4 code xs) := rfl
    rw [hbits] at h
    obtain ⟨i, t, hrt, ht, hkt, hpt, hread⟩ :=
      h.symbol htable hroot (hcode _ List.mem_cons_self) hlt hp
    obtain ⟨t', et, ht', hpt', hvalid, hval⟩ := ht.leaf4_first hpt hread
      (by rw [hhi]; exact (hiNib x).isLt) (hkt.nibValid.trans hnib)
    obtain ⟨j, u, hru, hu, hku, hpu, hread'⟩ :=
      ht'.symbol htable hroot (hcode _ (List.mem_cons_of_mem _ List.mem_cons_self)) hlt hpt'
    obtain ⟨u', v, eu, hu', hpu', hvalid', hv⟩ := hu.leaf4_second hpu hread'
      (by rw [hlo]; exact (loNib x).isLt) (hku.nibValid.trans hvalid)
    have hvx : v = x := by
      apply BitVec.eq_of_toNat_eq
      rw [hv, hku.nib, hval, hhi, hlo, hiNib, loNib, BitVec.extractLsb'_toNat,
        BitVec.extractLsb'_toNat, Nat.shiftRight_eq_div_pow, Nat.shiftRight_eq_div_pow]
      have := x.isLt
      omega
    rw [hvx] at hu'
    rw [List.append_cons] at hu' ⊢
    exact .of_runs hrt (.of_step et (.of_runs hru (.of_step eu
      (ih (fun y hy => hcode y (List.mem_cons_of_mem _ (List.mem_cons_of_mem _ hy))) hu' hpu' hvalid'))))

/-! ### The table is read (R312, R313) -/

/-- After the header: the size byte, the table, and the walk at the root. -/
theorem Feeding.table {s : State} {table words : List Byte} {k : HufKind}
    (h : Feeding s [] (table ++ words)) (hp : s.seq.phase = .treeSize k)
    (hlen : 2 * ((table.getD 0 0).toNat + 1) = table.length) :
    ∃ t, Runs 2 s t ∧ Feeding t [] words ∧ AtRoot t k ∧ t.work.decSize = s.work.decSize ∧
      t.work.treeLen = table.length ∧ Memory.range t.mem.tree 0 table.length = table ∧
      t.work.bitCnt = 0 ∧ t.work.nibValid = false := by
  obtain ⟨b, r, rest, rfl⟩ : ∃ b r rest, table = b :: r :: rest := by
    match table, hlen with
    | b :: r :: rest, _ => exact ⟨b, r, rest, rfl⟩
    | [], hlen => simp at hlen
    | [b], hlen => simp at hlen
  have hlen : 2 * (b.toNat + 1) = rest.length + 2 := hlen
  have h' : Feeding s [] (encode (.hufTsize b) ++ (r :: rest ++ words)) := h
  have hdec := h'.decode rfl Place.noConfusion (Nat.le_of_ble_eq_true rfl)
  obtain ⟨u, e, htree, hu⟩ := treeTableIsStored.1 b k s h.mem h'.readable hp
  have hf : fetch s = fetchForward .hufSize s := by simp only [fetch, hp]
  have e := (step_of_fetch_instr (hf.trans (fetchForward_instr hdec))).trans e
  have hfu := h'.pass (new := []) e (by rw [hu]) (by rw [hu]) (by rw [hu]) (by rw [hu])
    (by rw [hu]; rfl) (by rw [hu]; exact Appended.refl s)
  have hpu : u.seq.phase = .treeTable k := by rw [hu]
  have hlenu : u.work.treeLen = rest.length + 2 := by rw [hu]; exact hlen
  have hdecu : Sys2Proof.decode .hufTable (Machine.readable u) = .instr (.hufTable r) := by
    rw [hfu.readable_eq]; rfl
  have hru := hfu.readable (bs := r :: rest)
  obtain ⟨t, e', htree', ht⟩ := treeTableIsStored.2 r k u hfu.mem (by omega)
    (by rw [hlenu]; exact hru) hpu
  have hf' : fetch u = fetchForward .hufTable u := by simp only [fetch, hpu]
  have e' := (step_of_fetch_instr (hf'.trans (fetchForward_instr hdecu))).trans e'
  have hft := hfu.pass (bs := r :: rest) (new := []) e' (by rw [ht]) (by rw [ht]) (by rw [ht])
    (by rw [ht]) (by rw [ht, hlenu]; rfl) (by rw [ht]; exact Appended.refl u)
  have hrest : Memory.range u.mem.imem (u.work.inPos + 1) (u.work.treeLen - 2) = rest := by
    rw [hlenu]
    exact (List.cons.inj (Memory.range_of_append hfu.input).1).2
  rw [hrest] at htree'
  exact ⟨t, Runs.succ e (Runs.succ e' (Runs.zero t)), hft, ⟨by rw [ht], by rw [ht]⟩,
    by rw [ht]; exact hu ▸ rfl, by rw [ht]; exact hlenu, htree'.range_extend htree.range,
    by rw [ht], by rw [ht]⟩

/-- Settles O59: header, table, then the codes, each of which leads the walk to its symbol. -/
theorem huffmanRoundTrip : Obligations.HuffmanRoundTrip := by
  intro x k layout s stream hstream hx hm hfault htrial hp hin hout hdecl hsrc himem
  have h := Feeding.start hm hfault htrial hin hout hdecl hsrc himem
  suffices hdec : Decodes s x by
    obtain ⟨k, t, hr, hidle, hstatus, hlen, hres⟩ := hdec
    exact ⟨k, t, hr, hidle, hstatus, hlen, hres⟩
  have hfreq : (hufFreq k (hufSymbols k x)).length = hufAlphabet k := by simp [hufFreq]
  have h2 : 2 ≤ (hufFreq k (hufSymbols k x)).length := by rw [hfreq]; cases k <;> decide
  have h256 : (hufFreq k (hufSymbols k x)).length ≤ 256 := by rw [hfreq]; cases k <;> decide
  rw [hufStream] at hstream
  split at hstream
  · cases hstream
  next order horder =>
  split at hstream
  · cases hstream
  next table hserial =>
  cases hstream
  have htable := tableOf_serialize h2 h256 horder hserial
  have hroot := (buildTree_shape h2).1
  rw [List.append_assoc] at h
  obtain ⟨i, t, hrt, ht, hst⟩ := h.header hp hx
  have hpt : t.seq.phase = .treeSize k := by rw [hst.phase]; cases k <;> rfl
  obtain ⟨u, hru, hu, hpu, hsize, htl, htree, hcnt, hnib⟩ := ht.table hpt htable.length
  have hcode : ∀ y ∈ hufSymbols k x, (buildTree (hufFreq k (hufSymbols k x))).Leads
      (codeOf (codesFrom (buildTree (hufFreq k (hufSymbols k x))) []) y) y :=
    fun y hy => codeOf_leads (mem_symbols_of_mem hy)
  have hdecode : HufDecoding table x.length u [] (codedBits k
      (codeOf (codesFrom (buildTree (hufFreq k (hufSymbols k x))) [])) x) :=
    ⟨hsize.trans hst.decSize, htl, htree, by omega, fun j hj => by omega, by rw [hcnt]; exact hu⟩
  refine .of_runs hrt (.of_runs hru ?_)
  cases k with
  | huf8 => exact hdecode.bytes8 (out := []) htable hroot hcode hpu
  | huf4 => exact hdecode.bytes4 (out := []) htable hroot hcode hpu hnib

end Sys2Proof.Machine

/-!
Two runs that differ in what earlier commands left (O49): what they must agree on at each place of a
decoder, and that every shared operation keeps them agreeing. A register or memory the fresh start of a
run does not set is compared only once the run has written it.
-/

namespace Sys2Proof.Machine

/-! ### Agreement -/

/-- What of the state is live: the place, and which of the registers and memories that a fresh start
leaves alone have been written since. -/
structure Live where
  phase : Phase
  /-- `TOK_POS`. -/
  tok : Bool := false
  /-- WIN, as far back as a back-reference reaches. -/
  win : Bool := false
  /-- `TREE_BASE`. -/
  base : Bool := false
  /-- The value of `TREE_LEN`. -/
  len : Option Nat := none
  /-- TREE from position 1 up to here. -/
  tree : Nat := 0
  /-- The walk stands inside that part of TREE. -/
  inside : Bool := false
  /-- The node byte. -/
  node : Bool := false
  /-- The leaf's position, inside that part of TREE. -/
  leaf : Bool := false
  /-- The overlay registers and OVLBUF. -/
  ovl : Bool := false

/-- What an error or a fresh start still sees of two runs. -/
structure Restart (s t : State) : Prop where
  argLen : s.host.argLen = t.host.argLen
  ctrl : s.host.ctrl = t.host.ctrl
  cmd : s.host.cmd = t.host.cmd
  env : s.env = t.env
  imem : s.mem.imem = t.mem.imem
  trial : s.seq.trial = t.seq.trial
  mem : MemInv s
  mem' : MemInv t

/-- Two states agree on everything that is live. -/
structure Agree (L : Live) (s t : State) : Prop extends Restart s t where
  phase : s.seq.phase = L.phase
  phase' : t.seq.phase = L.phase
  declLen : s.work.declLen = t.work.declLen
  inPos : s.work.inPos = t.work.inPos
  outLen : s.work.outLen = t.work.outLen
  decSize : s.work.decSize = t.work.decSize
  flagCnt : s.work.flagCnt = t.work.flagCnt
  bitCnt : s.work.bitCnt = t.work.bitCnt
  nibValid : s.work.nibValid = t.work.nibValid
  nodePos : s.work.nodePos = t.work.nodePos
  flags : s.work.flagCnt ≠ 0 → s.work.flags = t.work.flags
  bitbuf : s.work.bitCnt ≠ 0 → s.work.bitbuf = t.work.bitbuf
  nib : s.work.nibValid = true → s.work.nib = t.work.nib
  tok : L.tok = true → s.work.tokPos = t.work.tokPos
  base : L.base = true → s.work.treeBase = t.work.treeBase
  len : ∀ n, L.len = some n → s.work.treeLen = n ∧ t.work.treeLen = n
  tree : ∀ p, 1 ≤ p → p < L.tree → Memory.read p s.mem.tree = Memory.read p t.mem.tree
  inside : L.inside = true → 1 ≤ s.work.nodePos ∧ s.work.nodePos < L.tree
  node : L.node = true → s.seq.nodeByte = t.seq.nodeByte
  leaf : L.leaf = true → s.seq.leafPos = t.seq.leafPos ∧ 1 ≤ s.seq.leafPos ∧ s.seq.leafPos < L.tree
  ovl : L.ovl = true → s.ovl = t.ovl ∧ s.mem.ovlbuf = t.mem.ovlbuf
  win : L.win = true → ∀ i < s.work.outLen, s.work.outLen ≤ i + Config.winSize →
    Memory.read (i % Config.winSize) s.mem.win = Memory.read (i % Config.winSize) t.mem.win
  out : ∀ a < s.work.outLen, Memory.read a (sinkOf s) = Memory.read a (sinkOf t)

/-- Two pieces end alike: with the same value in related states, or with the same error. -/
inductive Alike {α : Type} (R : State → State → Prop) : Run α → Run α → Prop
  | ok (a : α) {s t : State} (h : R s t) : Alike R (.ok a s) (.ok a t)
  | raised (e : Err) {s t : State} (h : Restart s t) : Alike R (.raised e s) (.raised e t)

theorem Alike.raised_of_eq {α : Type} {R : State → State → Prop} {e e' : Err} {s t : State}
    (he : e = e') (h : Restart s t) : Alike R (.raised e s : Run α) (.raised e' t) :=
  he ▸ .raised e h

theorem Alike.bind' {α β : Type} {R Q : State → State → Prop} {r r' : Run α}
    {f g : α → State → Run β} (h : Alike R r r')
    (hf : ∀ a s t, r = .ok a s → r' = .ok a t → R s t → Alike Q (f a s) (g a t)) :
    Alike Q (r.bind f) (r'.bind g) := by
  cases h with
  | ok a h => exact hf a _ _ rfl rfl h
  | raised e h => exact .raised e h

theorem Alike.mono' {α : Type} {R Q : State → State → Prop} {r r' : Run α} (h : Alike R r r')
    (hRQ : ∀ a s t, r = .ok a s → r' = .ok a t → R s t → Q s t) : Alike Q r r' := by
  cases h with
  | ok a h => exact .ok a (hRQ a _ _ rfl rfl h)
  | raised e h => exact .raised e h

theorem Alike.bind {α β : Type} {R Q : State → State → Prop} {r r' : Run α}
    {f g : α → State → Run β} (h : Alike R r r')
    (hf : ∀ a s t, R s t → Alike Q (f a s) (g a t)) : Alike Q (r.bind f) (r'.bind g) :=
  h.bind' fun a s t _ _ => hf a s t

theorem Alike.mono {α : Type} {R Q : State → State → Prop} {r r' : Run α} (h : Alike R r r')
    (hRQ : ∀ s t, R s t → Q s t) : Alike Q r r' := h.mono' fun _ _ _ _ _ => hRQ _ _

section
variable {L : Live} {s t : State}

/-! ### Reading -/

theorem portAccesses_alike (n : Nat) (h : Agree L s t) :
    Alike (Agree L) (portAccesses n s) (portAccesses n t) := by
  unfold portAccesses
  have henv := h.env
  rw [← henv]
  cases s.env.ioFault with
  | none => exact .ok () h
  | some k =>
    simp only []
    split
    · exact .ok () { h with env := rfl }
    · exact .raised _ { h.toRestart with env := rfl }

theorem inByte_alike (h : Agree L s t) : Alike (Agree L) (inByte s) (inByte t) := by
  unfold inByte
  rw [← h.declLen, ← h.inPos, ← h.env, ← h.outLen, ← h.decSize]
  split
  · exact .raised _ h.toRestart
  split
  · exact .raised _ h.toRestart
  refine (portAccesses_alike 1 h).bind fun _ u v hu => ?_
  rw [← hu.inPos, ← hu.imem]
  exact .ok _ { hu with inPos := rfl }

theorem consume_alike (n : Nat) (h : Agree L s t) : Alike (Agree L) (consume n s) (consume n t) := by
  induction n generalizing s t with
  | zero => exact .ok () h
  | succ n ih => exact (inByte_alike h).bind fun _ u v hu => ih hu

/-- A token's place is recorded on both sides (R28). -/
theorem Agree.beginToken (h : Agree L s t) :
    Agree { L with tok := true } (beginToken s) (beginToken t) :=
  { h with tok := fun _ => h.inPos }

/-- What is live can be taken for dead. -/
theorem Agree.forgetTok (h : Agree { L with tok := true } s t) : Agree L s t :=
  { h with tok := fun _ => h.tok rfl }

theorem rleFlag_alike (l : Nat) (h : Agree L s t) : Alike (Agree L) (rleFlag l s) (rleFlag l t) :=
  (consume_alike 1 h.beginToken).bind fun _ _ _ hu => .ok () { hu.forgetTok with }

/-! ### Writing -/

/-- The same bytes appended to outputs that agree. -/
theorem out_of_appended {s s' t t' : State} {bs : List Byte} (hlen : s.work.outLen = t.work.outLen)
    (hs : s'.seq.trial = s.seq.trial) (ht : t'.seq.trial = t.seq.trial)
    (has : Appended s s' bs) (hat : Appended t t' bs)
    (h : ∀ a < s.work.outLen, Memory.read a (sinkOf s) = Memory.read a (sinkOf t)) :
    ∀ a < s'.work.outLen, Memory.read a (sinkOf s') = Memory.read a (sinkOf t') := by
  intro a ha
  rw [has.1] at ha
  by_cases hlt : a < s.work.outLen
  · rw [has.below hs hlt, hat.below ht (hlen ▸ hlt), h a hlt]
  · obtain ⟨k, rfl⟩ : ∃ k, a = s.work.outLen + k := ⟨a - s.work.outLen, by omega⟩
    rw [has.read hs (by omega), hlen, hat.read ht (by omega)]

/-- Reading and writing on both sides keeps all that they do not touch. -/
theorem Agree.moved {s' t' : State} (h : Agree L s t) (hs : Moved s s') (ht : Moved t t')
    (mem : MemInv s') (mem' : MemInv t') (env : s'.env = t'.env)
    (inPos : s'.work.inPos = t'.work.inPos) (outLen : s'.work.outLen = t'.work.outLen)
    (win : L.win = true → ∀ i < s'.work.outLen, s'.work.outLen ≤ i + Config.winSize →
      Memory.read (i % Config.winSize) s'.mem.win = Memory.read (i % Config.winSize) t'.mem.win)
    (out : ∀ a < s'.work.outLen, Memory.read a (sinkOf s') = Memory.read a (sinkOf t')) :
    Agree L s' t' where
  argLen := by rw [hs.host, ht.host, h.argLen]
  ctrl := by rw [hs.host, ht.host, h.ctrl]
  cmd := by rw [hs.host, ht.host, h.cmd]
  env := env
  imem := by rw [hs.imem, ht.imem, h.imem]
  trial := by rw [hs.seq, ht.seq, h.trial]
  mem := mem
  mem' := mem'
  phase := by rw [hs.seq, h.phase]
  phase' := by rw [ht.seq, h.phase']
  declLen := by rw [hs.declLen, ht.declLen, h.declLen]
  inPos := inPos
  outLen := outLen
  decSize := by rw [hs.decSize, ht.decSize, h.decSize]
  flagCnt := by rw [hs.work, ht.work]; exact h.flagCnt
  bitCnt := by rw [hs.work, ht.work]; exact h.bitCnt
  nibValid := by rw [hs.work, ht.work]; exact h.nibValid
  nodePos := by rw [hs.work, ht.work]; exact h.nodePos
  flags := by rw [hs.work, ht.work]; exact h.flags
  bitbuf := by rw [hs.work, ht.work]; exact h.bitbuf
  nib := by rw [hs.work, ht.work]; exact h.nib
  tok := by rw [hs.work, ht.work]; exact h.tok
  base := by rw [hs.work, ht.work]; exact h.base
  len := by rw [hs.work, ht.work]; exact h.len
  tree := by rw [hs.mem, ht.mem]; exact h.tree
  inside := by rw [hs.work]; exact h.inside
  node := by rw [hs.seq, ht.seq]; exact h.node
  leaf := by rw [hs.seq, ht.seq]; exact h.leaf
  ovl := by rw [hs.ovl, ht.ovl, hs.mem, ht.mem]; exact h.ovl
  win := win
  out := out

/-- `OutByte` succeeds on both sides or faults on both. -/
theorem outByte_ends_alike (b : Byte) (h : Agree L s t) :
    Alike (fun u v => u.env = v.env) (outByte b s) (outByte b t) := by
  unfold outByte
  rw [← h.trial]
  cases s.seq.trial with
  | some tr => exact .ok () h.env
  | none => exact (portAccesses_alike 1 h).bind fun _ u v hu => .ok () hu.env

/-- A byte goes out, outside the LZ decoders (R66). -/
theorem outByte_alike (b : Byte) (hw : L.win = false) (h : Agree L s t) :
    Alike (Agree L) (outByte b s) (outByte b t) := by
  refine (outByte_ends_alike b h).mono' fun _ u v hu hv henv => ?_
  obtain ⟨hmu, hin, -, hlen⟩ := outByte_ok hu
  obtain ⟨hmv, hin', -, hlen'⟩ := outByte_ok hv
  exact h.moved hmu hmv (by simpa [hu] using outByte_mem b s h.mem)
    (by simpa [hv] using outByte_mem b t h.mem') henv (by rw [hin, hin', h.inPos])
    (by rw [hlen, hlen', h.outLen]) (fun hl => by rw [hw] at hl; cases hl)
    (out_of_appended h.outLen (by rw [hmu.seq]) (by rw [hmv.seq]) (outByte_appended h.mem hu)
      (outByte_appended h.mem' hv) h.out)

/-- In the LZ decoders it goes to WIN as well (R66). -/
theorem outByteWin_alike (b : Byte) (h : Agree L s t) :
    Alike (Agree L) (outByteWin b s) (outByteWin b t) := by
  have hends : Alike (fun u v => u.env = v.env) (outByteWin b s) (outByteWin b t) :=
    (outByte_ends_alike b h).bind fun _ u v hu => .ok () hu
  refine hends.mono' fun _ u v hu hv henv => ?_
  obtain ⟨hmu, hin, hau, hwu, -⟩ := outByteWin_ok h.mem hu
  obtain ⟨hmv, hin', hav, hwv, -⟩ := outByteWin_ok h.mem' hv
  refine h.moved hmu hmv (by simpa [hu] using outByteWin_mem b s h.mem)
    (by simpa [hv] using outByteWin_mem b t h.mem') henv (by rw [hin, hin', h.inPos])
    (by rw [hau.1, hav.1, h.outLen]) (fun hl i hi hi2 => ?_)
    (out_of_appended h.outLen (by rw [hmu.seq]) (by rw [hmv.seq]) hau hav h.out)
  rw [hwu, hwv, Memory.read_write _ _ _ _ h.mem.win, Memory.read_write _ _ _ _ h.mem'.win, ← h.outLen]
  rw [hau.1, List.length_singleton] at hi hi2
  split
  · rfl
  · next hne =>
    have hlt : i ≠ s.work.outLen := fun he => hne (by rw [he])
    exact h.win hl i (by omega) (by omega)

theorem outBytes_alike (bs : List Byte) (hw : L.win = false) (h : Agree L s t) :
    Alike (Agree L) (outBytes bs s) (outBytes bs t) := by
  induction bs generalizing s t with
  | nil => exact .ok () h
  | cons b bs ih => exact (outByte_alike b hw h).bind fun _ _ _ hu => ih hu

/-- A back-reference reads WIN where the two agree (R67). -/
theorem copyBack_alike (l : Nat) {d : Nat} (hd1 : 1 ≤ d) (hd : d ≤ Config.winSize)
    (hl : L.win = true) (h : Agree L s t) (hout : d ≤ s.work.outLen) :
    Alike (Agree L) (copyBack l d s) (copyBack l d t) := by
  induction l generalizing s t with
  | zero => exact .ok () h
  | succ l ih =>
    rw [copyBack, copyBack, ← h.outLen, ← h.decSize]
    split
    · exact .ok () h
    rw [← h.win hl (s.work.outLen - d) (by omega) (by omega)]
    refine (outByteWin_alike _ h).bind' fun _ u v hu _ huv => ih huv ?_
    have := (outByteWin_ok h.mem hu).2.2.1.1
    omega

theorem repeatOut_alike (l : Nat) (d : Byte) (hw : L.win = false) (h : Agree L s t) :
    Alike (Agree L) (repeatOut l d s) (repeatOut l d t) := by
  induction l generalizing s t with
  | zero => exact .ok () h
  | succ l ih =>
    rw [repeatOut, repeatOut, ← h.outLen, ← h.decSize]
    split
    · exact .ok () h
    · exact (outByte_alike d hw h).bind fun _ _ _ hu => ih hu

theorem rawOut_alike (l : Nat) (hw : L.win = false) (h : Agree L s t) :
    Alike (Agree L) (rawOut l s) (rawOut l t) := by
  induction l generalizing s t with
  | zero => exact .ok () h
  | succ l ih =>
    rw [rawOut, rawOut, ← h.outLen, ← h.decSize]
    split
    · exact .ok () h
    · exact (inByte_alike h).bind fun b _ _ hu => (outByte_alike b hw hu).bind fun _ _ _ hv => ih hv

theorem copyThrough_alike (l a : Nat) (hw : L.win = false) (h : Agree L s t) :
    Alike (Agree L) (copyThrough l a s) (copyThrough l a t) := by
  induction l generalizing a s t with
  | zero => exact .ok () h
  | succ l ih =>
    refine (portAccesses_alike 1 h).bind fun _ u v hu => ?_
    rw [← hu.imem]
    exact (outByte_alike _ hw hu).bind fun _ _ _ hv => ih _ hv

/-! ### The overlay region -/

theorem rdBack_alike (hl : L.ovl = true) (h : Agree L s t) :
    Alike (Agree L) (rdBack s) (rdBack t) := by
  unfold rdBack
  rw [← (h.ovl hl).1]
  split
  · exact .raised _ h.toRestart
  refine (portAccesses_alike 1 h).bind fun _ u v hu => ?_
  obtain ⟨hovl, hbuf⟩ := hu.ovl hl
  rw [← hovl, ← hu.imem]
  exact .ok _ { hu with ovl := fun _ => ⟨rfl, hbuf⟩ }

/-- `TOK_POS` is set between the two bytes (R261). -/
theorem rdBackRef_alike (hl : L.ovl = true) (h : Agree L s t) :
    Alike (Agree { L with tok := true }) (rdBackRef s) (rdBackRef t) := by
  refine (rdBack_alike hl h).bind fun _ u v hu => ?_
  have hmark : Agree { L with tok := true } { u with work.tokPos := u.ovl.ip }
      { v with work.tokPos := v.ovl.ip } :=
    { hu with tok := fun _ => by rw [(hu.ovl hl).1] }
  exact (rdBack_alike (L := { L with tok := true }) hl hmark).bind fun _ _ _ hw => .ok () hw

theorem ovlPut_agree (b : Byte) (hl : L.ovl = true) (h : Agree L s t) :
    Agree L (ovlPut b s) (ovlPut b t) := by
  obtain ⟨hovl, hbuf⟩ := h.ovl hl
  unfold ovlPut
  rw [← hovl, ← hbuf]
  have hwf : Memory.wf (Memory.write (s.ovl.op - 1) b s.mem.ovlbuf) = true :=
    Memory.wf_write h.mem.ovlbuf
  exact { h with
    mem := ⟨h.mem.imem, h.mem.omem, h.mem.win, h.mem.tree, hwf, h.mem.cbuf⟩
    mem' := ⟨h.mem'.imem, h.mem'.omem, h.mem'.win, h.mem'.tree, hwf, h.mem'.cbuf⟩
    ovl := fun _ => ⟨rfl, rfl⟩ }

theorem ovlCopy_agree (l d : Nat) (hl : L.ovl = true) (h : Agree L s t) :
    Agree L (ovlCopy l d s) (ovlCopy l d t) := by
  induction l generalizing s t with
  | zero => exact h
  | succ l ih =>
    obtain ⟨hovl, hbuf⟩ := h.ovl hl
    rw [ovlCopy, ovlCopy, ← hovl, ← hbuf]
    split
    · exact h
    · exact ih (ovlPut_agree _ hl h)

/-! ### The tree table -/

theorem MemInv.writeTree (h : MemInv s) (p : Nat) (b : Byte) :
    MemInv { s with mem.tree := Memory.write p b s.mem.tree } :=
  ⟨h.imem, h.omem, h.win, Memory.wf_write h.tree, h.ovlbuf, h.cbuf⟩

/-- The same byte stored in TREE on both sides, and with it the part that agrees grows. -/
theorem Agree.storeTree {n : Nat} (h : Agree L s t) (p : Nat) (b : Byte)
    (hn : n = L.tree ∨ (L.tree = p ∧ n = p + 1)) :
    Agree { L with tree := n } { s with mem.tree := Memory.write p b s.mem.tree }
      { t with mem.tree := Memory.write p b t.mem.tree } :=
  { h with
    mem := h.mem.writeTree p b
    mem' := h.mem'.writeTree p b
    tree := fun x hx hlt => by
      change Memory.read x (Memory.write p b s.mem.tree) = Memory.read x (Memory.write p b t.mem.tree)
      change x < n at hlt
      rw [Memory.read_write _ _ _ _ h.mem.tree, Memory.read_write _ _ _ _ h.mem'.tree]
      split
      · rfl
      · exact h.tree x hx (by omega)
    inside := fun hl => (h.inside hl).imp_right (lt_of_lt_of_le · (show L.tree ≤ n by omega))
    leaf := fun hl => (h.leaf hl).imp_right
      (And.imp_right (lt_of_lt_of_le · (show L.tree ≤ n by omega))) }

theorem readTable_alike (k : Nat) {p : Nat} (h : Agree { L with tree := p } s t) :
    Alike (Agree { L with tree := p + k }) (readTable k p s) (readTable k p t) := by
  induction k generalizing p s t with
  | zero => exact .ok () h
  | succ k ih =>
    refine (inByte_alike h).bind fun b u v hu => ?_
    have := ih (hu.storeTree p b (.inr ⟨rfl, rfl⟩))
    rwa [Nat.add_right_comm] at this

end

end Sys2Proof.Machine

/-!
Two runs that agree go on agreeing (O49): every token, end and error of a running decoder leads both to
the same place, agreeing on what is live there, or both to the end of the command with the same response.
-/

namespace Sys2Proof.Machine

/-! ### Where two runs stand -/

/-- What must be live at a decoder's place. -/
def Live.Fits (L : Live) : Prop :=
  match L.phase with
  | .idle => False
  | .header _ | .ext _ | .lz10Body | .lz11Body => L.win = true
  | .nullBody | .rleBody | .ovlTrailer => True
  | .treeSize _ => L.base = true
  | .treeTable _ => L.base = true ∧ ∃ n, L.len = some n ∧ 2 ≤ n
  | .node _ => L.base = true ∧ L.len = some L.tree ∧ L.inside = true
  | .bit _ => L.base = true ∧ L.len = some L.tree ∧ L.node = true
  | .leaf _ => L.base = true ∧ L.len = some L.tree ∧ L.leaf = true
  | .ovlBody => L.ovl = true

/-- Both commands have ended, with the same response. -/
structure EndedAlike (s t : State) : Prop where
  idle : s.seq.phase = .idle
  idle' : t.seq.phase = .idle
  host : s.host = t.host
  env : s.env = t.env
  trial : s.seq.trial = t.seq.trial

/-- Both decoders stand at the same place, what they need there agreeing, or both commands have ended
with the same response and the same result. -/
inductive Together (s t : State) : Prop
  | runs (L : Live) (hL : L.Fits) (h : Agree L s t)
  | ended (h : EndedAlike s t)
    (result : ∀ a < s.host.resultLen, Memory.read a s.mem.omem = Memory.read a t.mem.omem)

section
variable {L : Live} {s t : State}

/-! ### The end of a command -/

theorem respond_alike (h : Restart s t) (status : BitVec 32) (n p w x : Nat) (sub : BitVec 4) :
    EndedAlike (respond status n p w x sub s) (respond status n p w x sub t) where
  idle := rfl
  idle' := rfl
  host := by simp only [respond, h.argLen, h.ctrl, h.cmd]
  env := by simp only [respond, h.env]
  trial := rfl

theorem failWith_together (h : Restart s t) (e : Err) : Together (failWith e s) (failWith e t) :=
  .ended (respond_alike h ..) fun a ha => absurd ha (Nat.not_lt_zero a)

/-- The end of a command whose output agrees. -/
theorem endOk_together (h : Agree L s t) (ht : s.seq.trial = none) (tmi : Bool) (sub : BitVec 4) :
    Together (endOk s.work.outLen tmi sub s) (endOk t.work.outLen tmi sub t) := by
  rw [← h.outLen]
  refine .ended (respond_alike h.toRestart ..) fun a ha => ?_
  have := h.out a ha
  rwa [sinkOf, sinkOf, ← h.trial, ht] at this

theorem commit_alike {buf buf' : Memory} {len : Nat} (k : Codec) (tmi : Bool) (h : Agree L s t)
    (hbuf : ∀ a < len, Memory.read a buf = Memory.read a buf') :
    Alike Together (commit buf len k tmi s) (commit buf' len k tmi t) := by
  have hrange : Memory.range buf 0 len = Memory.range buf' 0 len :=
    Memory.range_congr fun i hi => by rw [Nat.zero_add]; exact hbuf i hi
  have h0 : Agree { L with win := false } { s with seq.trial := none, work.outLen := 0 }
      { t with seq.trial := none, work.outLen := 0 } :=
    { h with
      trial := rfl
      outLen := rfl
      win := fun hl => nomatch hl
      out := fun a ha => absurd ha (Nat.not_lt_zero a) }
  unfold commit
  rw [← hrange]
  refine (outBytes_alike (L := { L with win := false }) _ rfl h0).bind' fun _ u v hu _ huv => .ok () ?_
  have htrial : u.seq.trial = none := by
    rw [((outBytes_moved _ _).ofOk hu).seq]
  exact endOk_together huv htrial tmi _

theorem endDecode_alike (tmi : Bool) (h : Agree L s t) :
    Alike Together (endDecode tmi s) (endDecode tmi t) := by
  unfold endDecode
  rw [← h.trial]
  cases htr : s.seq.trial with
  | none => exact .ok () (endOk_together h htr tmi noSub)
  | some tr =>
    rw [← h.outLen]
    refine commit_alike tr.member tmi h fun a ha => ?_
    have := h.out a ha
    rwa [sinkOf, sinkOf, ← h.trial, htr] at this

theorem finishForward_alike (h : Agree L s t) :
    Alike Together (finishForward s) (finishForward t) := by
  unfold finishForward
  rw [← h.inPos, ← h.declLen]
  exact endDecode_alike _ h

theorem flushOvl_alike (hl : L.ovl = true) (hw : L.win = false) (h : Agree L s t) :
    Alike Together (flushOvl s) (flushOvl t) := by
  unfold flushOvl
  rw [← (h.ovl hl).1, ← (h.ovl hl).2]
  exact (outBytes_alike _ hw h).bind fun _ _ _ hu => endDecode_alike false hu

end

/-! ### A run begins -/

section
variable {s t : State}

/-- A fresh start sets every register that is live at a decoder's entry (R138). -/
theorem startRun_agree (h : Restart s t) {p : Phase} (hp : s.seq.phase = p) (hp' : t.seq.phase = p) :
    Agree { phase := p, win := true } (startRun s) (startRun t) :=
  { h with
    phase := hp
    phase' := hp'
    declLen := congrArg BitVec.toNat h.argLen
    inPos := rfl
    outLen := rfl
    decSize := rfl
    flagCnt := rfl
    bitCnt := rfl
    nibValid := rfl
    nodePos := rfl
    flags := fun hne => absurd rfl hne
    bitbuf := fun hne => absurd rfl hne
    nib := fun hv => nomatch hv
    tok := fun hl => nomatch hl
    base := fun hl => nomatch hl
    len := fun _ hl => nomatch hl
    tree := fun x _ hx => absurd hx (Nat.not_lt_zero x)
    inside := fun hl => nomatch hl
    node := fun hl => nomatch hl
    leaf := fun hl => nomatch hl
    ovl := fun hl => nomatch hl
    win := fun _ i hi => absurd hi (Nat.not_lt_zero i)
    out := fun a ha => absurd ha (Nat.not_lt_zero a) }

theorem codecEntry_fits {k : Codec} (hk : codecEntry k ≠ .idle) :
    Live.Fits { phase := codecEntry k, win := true } := by
  cases k with
  | hufany | gba | nds => exact absurd rfl hk
  | _ => trivial

/-- A trial run begins on both sides (R425). -/
theorem onMember_together (h : Restart s t) {k : Codec} (ks : List Codec)
    (hk : codecEntry k ≠ .idle) : Together (onMember k ks s) (onMember k ks t) := by
  have hfresh : Restart { s with mem.cbuf := [], seq.trial := some ⟨k, ks⟩, seq.phase := codecEntry k }
      { t with mem.cbuf := [], seq.trial := some ⟨k, ks⟩, seq.phase := codecEntry k } :=
    { h with
      trial := rfl
      mem := ⟨h.mem.imem, h.mem.omem, h.mem.win, h.mem.tree, h.mem.ovlbuf, Memory.wf_nil⟩
      mem' := ⟨h.mem'.imem, h.mem'.omem, h.mem'.win, h.mem'.tree, h.mem'.ovlbuf, Memory.wf_nil⟩ }
  exact .runs _ (codecEntry_fits hk) (startRun_agree hfresh rfl rfl)

/-! ### What SUPPORTS asks (R132) -/

/-- What the predicates of SUPPORTS look at. -/
structure Asking (s t : State) : Prop extends Restart s t where
  declLen : s.work.declLen = t.work.declLen

theorem startRun_asking (h : Restart s t) : Asking (startRun s) (startRun t) :=
  { h with declLen := congrArg BitVec.toNat h.argLen }

theorem portAccesses_asking (n : Nat) (h : Asking s t) :
    Alike Asking (portAccesses n s) (portAccesses n t) := by
  unfold portAccesses
  have henv := h.env
  rw [← henv]
  cases s.env.ioFault with
  | none => exact .ok () h
  | some k =>
    simp only []
    split
    · exact .ok () { h with env := rfl }
    · exact .raised _ { h.toRestart with env := rfl }

theorem inPeek_asking (a : Nat) (h : Asking s t) : Alike Asking (inPeek a s) (inPeek a t) := by
  unfold inPeek
  rw [← h.declLen, ← h.env]
  split
  · refine (portAccesses_asking 1 h).bind fun _ u v hu => ?_
    rw [← hu.imem]
    exact .ok _ hu
  · exact .ok _ h

theorem peekAll_asking (as : List Nat) (h : Asking s t) :
    Alike Asking (peekAll as s) (peekAll as t) := by
  induction as generalizing s t with
  | nil => exact .ok _ h
  | cons a as ih =>
    refine (inPeek_asking a h).bind fun b u v hu => ?_
    cases b with
    | none => exact .ok _ hu
    | some b => exact (ih hu).bind fun r _ _ hv => .ok _ hv

theorem supportsMagic_asking (c : Fwd) (h : Asking s t) :
    Alike Asking (supportsMagic c s) (supportsMagic c t) := by
  unfold supportsMagic
  rw [← h.declLen]
  split
  · exact .ok _ h
  · exact (inPeek_asking 0 h).bind fun b _ _ hu => .ok _ hu

theorem supportsNull_asking (h : Asking s t) : Alike Asking (supportsNull s) (supportsNull t) := by
  refine (supportsMagic_asking .null h).bind fun m u v hu => ?_
  split
  case isFalse => exact .ok _ hu
  refine (peekAll_asking _ hu).bind fun bs u v hu => ?_
  rw [← hu.declLen]
  split
  case h_2 => exact .ok _ hu
  split
  · exact .ok _ hu
  split
  · exact .ok _ hu
  refine (peekAll_asking _ hu).bind fun xs u v hu => ?_
  rw [← hu.declLen]
  split
  · exact .ok _ hu
  · exact .ok _ hu

theorem paddingOk_asking (n a : Nat) (h : Asking s t) :
    Alike Asking (paddingOk n a s) (paddingOk n a t) := by
  induction n generalizing a s t with
  | zero => exact .ok _ h
  | succ n ih =>
    refine (inPeek_asking a h).bind fun b u v hu => ?_
    split
    · exact ih _ hu
    · exact .ok _ hu

theorem supportsOvl_asking (h : Asking s t) : Alike Asking (supportsOvl s) (supportsOvl t) := by
  unfold supportsOvl
  simp only []
  rw [← h.declLen, ← h.env]
  split
  · exact .ok _ h
  refine (peekAll_asking _ h).bind fun es u v hu => ?_
  split
  · exact .ok _ hu
  split
  · exact .ok _ hu
  refine (peekAll_asking _ hu).bind fun ts u v hu => ?_
  split
  · split
    · exact .ok _ hu
    · exact paddingOk_asking _ _ hu
  · exact .ok _ hu

theorem supportsSimple_asking (k : Codec) (h : Asking s t) :
    Alike Asking (supportsSimple k s) (supportsSimple k t) := by
  cases k with
  | null => exact supportsNull_asking h
  | lzovl => exact supportsOvl_asking h
  | lz10 | lz11 | rle | huf4 | huf8 => exact supportsMagic_asking _ h
  | hufany | gba | nds => exact .ok _ h

/-- A codec that says yes has a decoder of its own. -/
theorem codecEntry_of_supportsSimple {k : Codec} {u : State} (h : supportsSimple k s = .ok true u) :
    codecEntry k ≠ .idle := by
  cases k with
  | hufany | gba | nds => cases h
  | _ => exact Phase.noConfusion

theorem supportsAny_asking (ks : List Codec) (h : Asking s t) :
    Alike Asking (supportsAny ks s) (supportsAny ks t) := by
  induction ks generalizing s t with
  | nil => exact .ok _ h
  | cons k ks ih =>
    refine (supportsSimple_asking k h).bind fun b u v hu => ?_
    split
    · exact .ok _ hu
    · exact ih hu

theorem supports_asking (c : Codec) (h : Asking s t) :
    Alike Asking (supports c s) (supports c t) := by
  unfold supports
  cases codecMembers c with
  | nil => exact supportsSimple_asking c h
  | cons k ks => exact supportsAny_asking _ h

/-! ### Taking an error (R427, R470) -/

theorem tryMembers_together (ks : List Codec) (h : Restart s t) :
    Together (tryMembers ks s) (tryMembers ks t) := by
  induction ks generalizing s t with
  | nil => exact failWith_together h _
  | cons k ks ih =>
    rw [tryMembers, tryMembers]
    have hask := supportsSimple_asking k (startRun_asking h)
    generalize hr : supportsSimple k (startRun s) = r at hask
    generalize supportsSimple k (startRun t) = r' at hask
    cases hask with
    | ok b hu =>
      cases b with
      | true => exact onMember_together hu.toRestart ks (codecEntry_of_supportsSimple hr)
      | false => exact ih hu.toRestart
    | raised e hu => exact failWith_together hu e

theorem takeError_together (e : Err) (h : Restart s t) :
    Together (takeError e s) (takeError e t) := by
  unfold takeError
  rw [← h.trial]
  cases s.seq.trial with
  | none => exact failWith_together h e
  | some tr =>
    simp only []
    split
    · exact failWith_together h e
    · exact tryMembers_together _ h

/-- What both pieces settle into. -/
theorem Alike.settle {r r' : Run Unit} (h : Alike Together r r') :
    ∃ u v, settle r = .next u ∧ settle r' = .next v ∧ Together u v := by
  cases h with
  | ok a h => exact ⟨_, _, rfl, rfl, h⟩
  | raised e h => exact ⟨_, _, rfl, rfl, takeError_together e h⟩

end

end Sys2Proof.Machine

/-!
Every token leads two runs that agree on (O49), one lemma for each place of a decoder; then the step of
a running decoder, whatever it is.
-/

namespace Sys2Proof.Machine

section
variable {L : Live} {s t : State}

theorem Agree.forgetWin (h : Agree L s t) : Agree { L with win := false } s t :=
  { h with win := fun hl => nomatch hl }

/-! ### Headers -/

theorem noteTreeBase_agree (c : Fwd) (h : Agree L s t) :
    Agree { L with base := fwdHasTree c } (noteTreeBase c s) (noteTreeBase c t) := by
  unfold noteTreeBase
  cases hc : fwdHasTree c with
  | true => exact { h with base := fun _ => h.inPos }
  | false => exact { h with base := fun hl => nomatch hl }

theorem fwdBody_fits (c : Fwd) (hw : L.win = true) :
    Live.Fits { L with phase := fwdBody c, base := fwdHasTree c } := by
  cases c with
  | null | rle => trivial
  | lz10 | lz11 => exact hw
  | huf4 | huf8 => exact rfl

theorem header_together (c : Fwd) (n : BitVec 24) (hw : L.win = true) (h : Agree L s t) :
    Alike Together (parseHeader c n s) (parseHeader c n t) := by
  refine (consume_alike 4 h.beginToken).bind fun _ u v hu => .ok () ?_
  have hset : Agree { L with phase := if n = 0 then .ext c else fwdBody c }
      { u with work.decSize := headerLen n, seq.phase := if n = 0 then .ext c else fwdBody c }
      { v with work.decSize := headerLen n, seq.phase := if n = 0 then .ext c else fwdBody c } :=
    { hu.forgetTok with decSize := rfl, phase := rfl, phase' := rfl }
  refine .runs _ ?_ (noteTreeBase_agree c hset)
  split
  · exact hw
  · exact fwdBody_fits c hw

theorem ext_together {c : Fwd} (n : BitVec 32) (hp : L.phase = .ext c) (hw : L.win = true)
    (h : Agree L s t) : Alike Together (meaning (.hdrExt n) s) (meaning (.hdrExt n) t) := by
  refine (consume_alike 4 h).bind fun _ u v hu => .ok () ?_
  rw [extDone_eq (c := c) (by exact hu.phase.trans hp), extDone_eq (c := c) (by exact hu.phase'.trans hp)]
  have hset : Agree { L with phase := fwdBody c }
      { u with work.decSize := n.toNat, seq.phase := fwdBody c }
      { v with work.decSize := n.toNat, seq.phase := fwdBody c } :=
    { hu with decSize := rfl, phase := rfl, phase' := rfl }
  exact .runs _ (fwdBody_fits c hw) (noteTreeBase_agree c hset)

/-! ### LZ10 and LZ11 -/

theorem loadFlags_agree (f : Byte) (h : Agree L s t) : Agree L (loadFlags f s) (loadFlags f t) :=
  { h with flagCnt := rfl, flags := fun _ => rfl }

theorem dropFlagMsb_agree (hc : s.work.flagCnt ≠ 0) (h : Agree L s t) :
    Agree L (dropFlagMsb s) (dropFlagMsb t) :=
  { h with
    flagCnt := congrArg (· - 1) h.flagCnt
    flags := fun _ => show s.work.flags <<< 1 = t.work.flags <<< 1 by rw [h.flags hc] }

theorem dropFlagLsb_agree (hc : s.work.flagCnt ≠ 0) (h : Agree L s t) :
    Agree L (dropFlagLsb s) (dropFlagLsb t) :=
  { h with
    flagCnt := congrArg (· - 1) h.flagCnt
    flags := fun _ => show s.work.flags >>> 1 = t.work.flags >>> 1 by rw [h.flags hc] }

theorem flags_together (f : Byte) (hL : L.Fits) (h : Agree L s t) :
    Alike Together (flagsToken f s) (flagsToken f t) :=
  (consume_alike 1 h).bind fun _ _ _ hu => .ok () (.runs L hL (loadFlags_agree f hu))

theorem literal_together (d : Byte) (hL : L.Fits) (h : Agree L s t) :
    Alike Together (literalToken d s) (literalToken d t) :=
  (consume_alike 1 h).bind fun _ _ _ hu => (outByteWin_alike d hu).mono fun _ _ => .runs L hL

theorem ref_together (n l : Nat) {d : Nat} (hd1 : 1 ≤ d) (hd : d ≤ Config.winSize) (hL : L.Fits)
    (hw : L.win = true) (h : Agree L s t) : Alike Together (refToken n l d s) (refToken n l d t) := by
  refine (consume_alike n h.beginToken).bind fun _ u v hu => ?_
  have hset : Agree L { u with work.tokL := l, work.tokD := d }
      { v with work.tokL := l, work.tokD := d } := { hu.forgetTok with }
  unfold checkDisp
  rw [← show u.work.outLen = v.work.outLen from hu.outLen]
  split
  · rw [← show u.work.tokPos = v.work.tokPos from hu.tok rfl]
    exact .raised _ hset.toRestart
  · next hle =>
    exact (copyBack_alike l hd1 hd hw hset (Nat.le_of_not_lt hle)).mono fun _ _ => .runs L hL

theorem lzDisp_le (disp : BitVec 12) : 1 ≤ lzDisp disp ∧ lzDisp disp ≤ Config.winSize := by
  have := disp.isLt
  simp only [lzDisp, Config.winSize]
  omega

/-! ### NULL and RLE -/

theorem nullByte_together (d : Byte) (hp : L.phase = .nullBody) (h : Agree L s t) :
    Alike Together (meaning (.nullByte d) s) (meaning (.nullByte d) t) := by
  refine (consume_alike 1 h.forgetWin).bind fun _ u v hu => ?_
  exact (outByte_alike d rfl hu).mono fun _ _ => .runs _ (by simp [Live.Fits, hp])

theorem rle_together {i : Instr} (hi : i.place = .rleGroup) (hp : L.phase = .rleBody)
    (h : Agree L s t) : Alike Together (meaning i s) (meaning i t) := by
  have hfits : Live.Fits { L with win := false } := by simp [Live.Fits, hp]
  cases i with
  | rleRun n d =>
    exact (rleFlag_alike _ h.forgetWin).bind fun _ _ _ hu => (consume_alike 1 hu).bind fun _ _ _ hv =>
      (repeatOut_alike _ d rfl hv).mono fun _ _ => .runs _ hfits
  | rleRaw n =>
    exact (rleFlag_alike _ h.forgetWin).bind fun _ _ _ hu =>
      (rawOut_alike _ rfl hu).mono fun _ _ => .runs _ hfits
  | _ => cases hi

/-! ### Huffman -/

theorem tsize_together {k : HufKind} (b : Byte) (hp : L.phase = .treeSize k) (hL : L.Fits)
    (h : Agree L s t) : Alike Together (meaning (.hufTsize b) s) (meaning (.hufTsize b) t) := by
  have hb : L.base = true := by simpa [Live.Fits, hp] using hL
  refine (consume_alike 1 h).bind fun _ u v hu => .ok () ?_
  rw [hu.phase, hu.phase', hp]
  have hst := hu.storeTree 0 b (.inl rfl)
  refine .runs { L with phase := .treeTable k, len := some (treeLenOf b) }
    ⟨hb, _, rfl, by unfold treeLenOf; omega⟩
    { hst with phase := rfl, phase' := rfl, len := fun _ hl => ?_ }
  cases hl
  exact ⟨rfl, rfl⟩

theorem table_together {k : HufKind} (b : Byte) (hp : L.phase = .treeTable k) (hL : L.Fits)
    (h : Agree L s t) : Alike Together (meaning (.hufTable b) s) (meaning (.hufTable b) t) := by
  obtain ⟨hb, n, hn, h2⟩ : L.base = true ∧ ∃ n, L.len = some n ∧ 2 ≤ n := by
    simpa [Live.Fits, hp] using hL
  have h0 : Agree { L with tree := 1, inside := false, leaf := false } s t :=
    { h with
      tree := fun p hp hlt => absurd hlt (Nat.not_lt.mpr hp)
      inside := fun hl => nomatch hl
      leaf := fun hl => nomatch hl }
  refine (consume_alike 1 h0).bind fun _ u v hu => ?_
  rw [(hu.len n hn).1, (hu.len n hn).2]
  have h1 := hu.storeTree 1 b (.inr ⟨rfl, rfl⟩)
  refine (readTable_alike (L := { L with inside := false, leaf := false }) (n - 2) h1).bind
    fun _ u v hu => .ok () ?_
  rw [hu.phase, hu.phase', hp, show 1 + 1 + (n - 2) = n by omega] at *
  exact .runs { L with phase := .node k, tree := n, inside := true, leaf := false } ⟨hb, hn, rfl⟩
    { hu with
      phase := rfl
      phase' := rfl
      bitCnt := rfl
      nibValid := rfl
      nodePos := rfl
      bitbuf := fun hne => absurd rfl hne
      nib := fun hv => nomatch hv
      inside := fun _ => ⟨le_rfl, h2⟩ }

theorem node_together {k : HufKind} (x y : Bool) (o : BitVec 6) (hp : L.phase = .node k)
    (hL : L.Fits) (h : Agree L s t) :
    Alike Together (meaning (.hufNode x y o) s) (meaning (.hufNode x y o) t) := by
  obtain ⟨hb, hn, -⟩ : L.base = true ∧ L.len = some L.tree ∧ L.inside = true := by
    simpa [Live.Fits, hp] using hL
  simp only [meaning, h.phase, h.phase', hp, afterNode]
  exact .ok () (.runs { L with phase := .bit k, node := true } ⟨hb, hn, rfl⟩
    { h with phase := rfl, phase' := rfl, node := fun _ => rfl })

theorem word_together (w : BitVec 32) (hL : L.Fits) (h : Agree L s t) :
    Alike Together (meaning (.hufWord w) s) (meaning (.hufWord w) t) :=
  (consume_alike 4 h).bind fun _ _ _ hu =>
    .ok () (.runs L hL { hu with bitCnt := rfl, bitbuf := fun _ => rfl })

theorem dropBit_agree (hc : s.work.bitCnt ≠ 0) (h : Agree L s t) :
    Agree L (dropBit s) (dropBit t) :=
  { h with
    bitCnt := congrArg (· - 1) h.bitCnt
    bitbuf := fun _ => show s.work.bitbuf <<< 1 = t.work.bitbuf <<< 1 by rw [h.bitbuf hc] }

theorem bit_together {k : HufKind} (b : Bool) (hp : L.phase = .bit k) (hL : L.Fits)
    (h : Agree L s t) : Alike Together (walkBit b s) (walkBit b t) := by
  obtain ⟨hb, hn, hnode⟩ : L.base = true ∧ L.len = some L.tree ∧ L.node = true := by
    simpa [Live.Fits, hp] using hL
  obtain ⟨hlen, hlen'⟩ := h.len _ hn
  have hchild : childPos t.work.nodePos t.seq.nodeByte b = childPos s.work.nodePos s.seq.nodeByte b := by
    rw [h.nodePos, h.node hnode]
  rw [walkBit_eq b (h.phase.trans hp), walkBit_eq b (h.phase'.trans hp), hchild, ← h.node hnode]
  have hc : 1 ≤ childPos s.work.nodePos s.seq.nodeByte b := by unfold childPos; omega
  generalize childPos s.work.nodePos s.seq.nodeByte b = c at hc
  by_cases hout : L.tree ≤ c
  · rw [if_pos (show s.work.treeLen ≤ c by rw [hlen]; exact hout),
      if_pos (show t.work.treeLen ≤ c by rw [hlen']; exact hout), h.base hb]
    exact .raised _ h.toRestart
  rw [if_neg (show ¬ s.work.treeLen ≤ c by rw [hlen]; exact hout),
    if_neg (show ¬ t.work.treeLen ≤ c by rw [hlen']; exact hout)]
  split
  · exact .ok () (.runs { L with phase := .leaf k, leaf := true } ⟨hb, hn, rfl⟩
      { h with phase := rfl, phase' := rfl, leaf := fun _ => ⟨rfl, hc, Nat.lt_of_not_le hout⟩ })
  · exact .ok () (.runs { L with phase := .node k, inside := true } ⟨hb, hn, rfl⟩
      { h with
        phase := rfl
        phase' := rfl
        nodePos := rfl
        inside := fun _ => ⟨hc, Nat.lt_of_not_le hout⟩ })

/-- After a leaf the walk is back at the root (R318). -/
theorem toRoot_together {k : HufKind} (hp : L.phase = .leaf k) (hL : L.Fits) (h : Agree L s t) :
    Together (toRoot s) (toRoot t) := by
  obtain ⟨hb, hn, hl⟩ : L.base = true ∧ L.len = some L.tree ∧ L.leaf = true := by
    simpa [Live.Fits, hp] using hL
  obtain ⟨-, h1, h2⟩ := h.leaf hl
  simp only [toRoot, h.phase, h.phase', hp, afterLeaf]
  exact .runs { L with phase := .node k, inside := true } ⟨hb, hn, rfl⟩
    { h with
      phase := rfl
      phase' := rfl
      nodePos := rfl
      inside := fun _ => ⟨le_rfl, show 1 < L.tree by omega⟩ }

theorem leafNibble_alike (b : Byte) (hb : L.base = true) (hl : L.leaf = true) (hw : L.win = false)
    (h : Agree L s t) : Alike (Agree L) (leafNibble b s) (leafNibble b t) := by
  unfold leafNibble
  rw [← h.base hb, ← (h.leaf hl).1, ← h.nibValid]
  split
  · exact .raised _ h.toRestart
  split
  · next hv =>
    rw [← h.nib hv]
    exact (outByte_alike _ hw h).bind fun _ _ _ hu =>
      .ok () { hu with nibValid := rfl, nib := fun hv => nomatch hv }
  · exact .ok () { h with nibValid := rfl, nib := fun _ => rfl }

theorem leaf_together {k : HufKind} {i : Instr} (hi : i.place = .hufLeaf k) (hp : L.phase = .leaf k)
    (hL : L.Fits) (h : Agree L s t) : Alike Together (meaning i s) (meaning i t) := by
  have hfacts : L.base = true ∧ L.len = some L.tree ∧ L.leaf = true := by
    simpa [Live.Fits, hp] using hL
  have hL' : Live.Fits { L with win := false } := by simpa [Live.Fits, hp] using hfacts
  cases i with
  | hufLeaf8 b =>
    exact (outByte_alike b rfl h.forgetWin).bind fun _ _ _ hu => .ok () (toRoot_together (L := { L with win := false }) hp hL' hu)
  | hufLeaf4 b =>
    exact (leafNibble_alike (L := { L with win := false }) b hfacts.1 hfacts.2.2 rfl h.forgetWin).bind fun _ _ _ hu =>
      .ok () (toRoot_together (L := { L with win := false }) hp hL' hu)
  | _ => cases hi

/-! ### LZ-Overlay -/

theorem ovlEntry_alike (h : Agree L s t) : Alike (Agree L) (ovlEntry s) (ovlEntry t) := by
  unfold ovlEntry
  rw [← h.declLen, ← h.env]
  split
  · exact .raised _ h.toRestart
  split
  · exact .raised _ h.toRestart
  · exact portAccesses_alike 4 h

theorem Agree.forgetOvl (h : Agree L s t) : Agree { L with win := false, ovl := false } s t :=
  { h with
    win := fun hl => nomatch hl
    ovl := fun hl => nomatch hl }

theorem trailer0_together (h : Agree L s t) :
    Alike Together (meaning .ovlTrailer0 s) (meaning .ovlTrailer0 t) := by
  refine (ovlEntry_alike h.forgetOvl).bind fun _ u v hu => ?_
  rw [← hu.declLen]
  have hset : Agree { L with win := false, ovl := false } { u with ovl.extra := 0 }
      { v with ovl.extra := 0 } := { hu with ovl := fun hl => nomatch hl }
  exact (copyThrough_alike _ 0 rfl hset).bind fun _ _ _ hv => endDecode_alike false hv

/-- The region begins: with the sizes of the trailer every overlay register is set (R255 to R257). -/
theorem ovlStart_together {o o' : OvlRegs} {e c a : Nat} (h : Agree L s t)
    (ho : s.ovl = { o with extra := e, hs := a, cl := c })
    (ho' : t.ovl = { o' with extra := e, hs := a, cl := c }) :
    Together (ovlStart s) (ovlStart t) := by
  have hovl : (ovlStart s).ovl = (ovlStart t).ovl := by
    simp only [ovlStart, ho, ho', h.declLen]
  have hbuf : (ovlStart s).mem.ovlbuf = (ovlStart t).mem.ovlbuf := by
    simp only [ovlStart, ho, ho', h.declLen, h.imem]
  have hwf : ∀ u : State, Memory.wf (ovlStart u).mem.ovlbuf = true :=
    fun u => Memory.wf_store _ 0 Memory.wf_nil
  exact .runs { L with phase := .ovlBody, ovl := true } rfl
    { h with
      phase := rfl
      phase' := rfl
      flagCnt := rfl
      flags := fun hne => absurd rfl hne
      mem := ⟨h.mem.imem, h.mem.omem, h.mem.win, h.mem.tree, hwf s, h.mem.cbuf⟩
      mem' := ⟨h.mem'.imem, h.mem'.omem, h.mem'.win, h.mem'.tree, hwf t, h.mem'.cbuf⟩
      ovl := fun _ => ⟨hovl, hbuf⟩ }

theorem trailer_together (cl : BitVec 24) (hs : Byte) (extra : BitVec 32) (h : Agree L s t) :
    Alike Together (meaning (.ovlTrailer cl hs extra) s) (meaning (.ovlTrailer cl hs extra) t) := by
  refine (ovlEntry_alike h.forgetOvl).bind fun _ u v hu => ?_
  have h1 : Agree { L with win := false, ovl := false } { u with ovl.extra := extra.toNat }
      { v with ovl.extra := extra.toNat } := { hu with ovl := fun hl => nomatch hl }
  simp only [← hu.declLen]
  split
  · exact .raised _ h1.toRestart
  refine (portAccesses_alike 4 h1).bind' fun _ u2 v2 eu ev hu2 => ?_
  have ho := ((portAccesses_moved 4 _).ofOk eu).ovl
  have ho' := ((portAccesses_moved 4 _).ofOk ev).ovl
  have h2 : Agree { L with win := false, ovl := false }
      { u2 with ovl.hs := hs.toNat, ovl.cl := cl.toNat }
      { v2 with ovl.hs := hs.toNat, ovl.cl := cl.toNat } := { hu2 with ovl := fun hl => nomatch hl }
  split
  · exact .raised _ h2.toRestart
  refine (portAccesses_alike _ h2).bind' fun _ u3 v3 eu3 ev3 hu3 => .ok () ?_
  refine ovlStart_together (o := u.ovl) (o' := v.ovl) (e := extra.toNat) (a := hs.toNat)
    (c := cl.toNat) hu3 ?_ ?_
  · rw [((portAccesses_moved _ _).ofOk eu3).ovl]
    simp only [ho]
  · rw [((portAccesses_moved _ _).ofOk ev3).ovl]
    simp only [ho']

theorem ovlFlags_together (f : Byte) (hL : L.Fits) (hl : L.ovl = true) (h : Agree L s t) :
    Alike Together (meaning (.ovlFlags f) s) (meaning (.ovlFlags f) t) :=
  (rdBack_alike hl h).bind fun _ _ _ hu => .ok () (.runs L hL (loadFlags_agree f hu))

theorem ovlLit_together (d : Byte) (hL : L.Fits) (hl : L.ovl = true) (h : Agree L s t) :
    Alike Together (meaning (.ovlLit d) s) (meaning (.ovlLit d) t) :=
  (rdBack_alike hl h).bind fun _ _ _ hu => .ok () (.runs L hL (ovlPut_agree d hl hu))

theorem ovlRef_together (len : BitVec 4) (disp : BitVec 12) (hL : L.Fits) (hl : L.ovl = true)
    (h : Agree L s t) :
    Alike Together (meaning (.ovlRef len disp) s) (meaning (.ovlRef len disp) t) := by
  refine (rdBackRef_alike hl h).bind fun _ u v hu => ?_
  have hd : ∀ d, Agree L { u with work.tokL := lzLen len, work.tokD := d }
      { v with work.tokL := lzLen len, work.tokD := d } := fun d => { hu.forgetTok with }
  have heff : ovlEffDisp (ovlDisp disp) { v with work.tokL := lzLen len, work.tokD := ovlDisp disp } =
      ovlEffDisp (ovlDisp disp) { u with work.tokL := lzLen len, work.tokD := ovlDisp disp } := by
    unfold ovlEffDisp
    simp only [← (hu.ovl hl).1, ← hu.ctrl]
  simp only [heff]
  cases ovlEffDisp (ovlDisp disp) { u with work.tokL := lzLen len, work.tokD := ovlDisp disp } with
  | none =>
    exact .raised_of_eq (congrArg Err.invalidData (hu.tok rfl)) (hd (ovlDisp disp)).toRestart
  | some d => exact .ok () (.runs L hL (ovlCopy_agree _ d hl (hd d)))

/-! ### What is fetched -/

theorem Agree.readable (h : Agree L s t) : Machine.readable s = Machine.readable t := by
  unfold Machine.readable
  rw [h.inPos, h.imem, h.declLen, h.env]

theorem cutToken_alike (p : Place) (h : Agree L s t) :
    Alike (Agree L) (cutToken p s) (cutToken p t) := by
  unfold cutToken
  rw [← h.readable]
  split
  · exact (consume_alike 1 h.beginToken).mono fun _ _ hu => hu.forgetTok
  · exact (rleFlag_alike _ h).bind fun _ _ _ hu => consume_alike 1 hu
  · split
    · exact (consume_alike _ h.beginToken).mono fun _ _ hu => hu.forgetTok
    · exact consume_alike _ h

/-- A forward token, found alike or cut short alike. -/
theorem fetchForward_together {p : Place} (hp : isForward p = true) (h : Agree L s t)
    (hi : ∀ i, i.place = p → Alike Together (meaning i s) (meaning i t)) :
    Alike Together (fetchForward p s).run (fetchForward p t).run := by
  have hread := h.readable
  unfold fetchForward
  rw [← hread]
  split
  · next i hd => exact hi i (place_of_decode hd)
  · exact (consume_alike 1 h.beginToken).bind fun _ u v hu => by
      rw [← show u.work.tokPos = v.work.tokPos from hu.tok rfl]
      exact .raised _ hu.toRestart
  · next e hm hd =>
    exact (cutToken_alike p h).mono' fun _ u _ hu _ _ =>
      absurd hu (cutToken_ne_ok hp hd fun b hb => hm b hb)

theorem Agree.readableBack (hl : L.ovl = true) (h : Agree L s t) :
    Machine.readableBack s = Machine.readableBack t := by
  unfold Machine.readableBack
  rw [(h.ovl hl).1, h.imem]

theorem fetchBack_together {p : Place} (hp : p = .ovlFlags ∨ ∃ f, p = .ovlBlock f)
    (hl : L.ovl = true) (h : Agree L s t)
    (hi : ∀ i, i.place = p → Alike Together (meaning i s) (meaning i t)) :
    Alike Together (fetchBack p s).run (fetchBack p t).run := by
  have hread := h.readableBack hl
  cases hd : decode p (Machine.readableBack s) with
  | instr i =>
    rw [fetchBack_instr hd, fetchBack_instr (hread ▸ hd)]
    exact hi i (place_of_decode hd)
  | rejected e =>
    have hrun : (fetchBack p s).run = cutBack p s := by rw [fetchBack, hd]; rfl
    have hrun' : (fetchBack p t).run = cutBack p t := by rw [fetchBack, ← hread, hd]; rfl
    have hcut : Alike (fun _ _ => True) (cutBack p s) (cutBack p t) := by
      unfold cutBack
      split
      · exact (rdBackRef_alike hl h).mono fun _ _ _ => trivial
      · exact (rdBack_alike hl h).bind fun _ _ _ _ => .ok () trivial
    rw [hrun, hrun']
    refine hcut.mono' fun _ u _ hu _ _ => ?_
    obtain ⟨i, hi, -⟩ := fetchBack_ok hp (hrun.trans hu)
    rw [hd] at hi
    cases hi

theorem fetchLoop_together {f : State → Fetched} (h : Agree L s t)
    (hf : s.work.outLen < s.work.decSize → Alike Together (f s).run (f t).run) :
    Alike Together (fetchLoop f s).run (fetchLoop f t).run := by
  unfold fetchLoop
  rw [← h.outLen, ← h.decSize]
  split
  · next hlt => exact hf hlt
  · exact finishForward_alike h

/-- The loop of the LZ decoders: a flag byte, or the block its flag chooses. -/
theorem fetchLz_together {p : Place} {b : Bool → Place}
    (hpb : (p = .lz10Flags ∧ b = .lz10Block) ∨ (p = .lz11Flags ∧ b = .lz11Block)) (hL : L.Fits)
    (hw : L.win = true) (h : Agree L s t) :
    Alike Together (fetchLz p b s).run (fetchLz p b t).run := by
  by_cases hc : s.work.flagCnt = 0
  · rw [fetchLz_flags _ _ hc, fetchLz_flags _ _ (h.flagCnt ▸ hc)]
    refine fetchForward_together (by obtain ⟨rfl, -⟩ | ⟨rfl, -⟩ := hpb <;> rfl) h fun i hi => ?_
    cases i with
    | lz10Flags f | lz11Flags f => exact flags_together f hL h
    | _ => obtain ⟨rfl, -⟩ | ⟨rfl, -⟩ := hpb <;> cases hi
  · have hflag : nextFlagMsb t = nextFlagMsb s := by rw [nextFlagMsb, nextFlagMsb, h.flags hc]
    have hd := dropFlagMsb_agree hc h
    rw [fetchLz_block _ _ hc, fetchLz_block _ _ (h.flagCnt ▸ hc), hflag]
    refine fetchForward_together (by obtain ⟨-, rfl⟩ | ⟨-, rfl⟩ := hpb <;> rfl) hd fun i hi => ?_
    cases i with
    | lz10Lit d | lz11Lit d => exact literal_together d hL hd
    | lz10Ref len disp | lz11Ref2 len disp | lz11Ref3 len disp | lz11Ref4 len disp =>
      exact ref_together _ _ (lzDisp_le disp).1 (lzDisp_le disp).2 hL hw hd
    | _ => obtain ⟨-, rfl⟩ | ⟨-, rfl⟩ := hpb <;> cases hi

theorem fetchOvl_together (hL : L.Fits) (hl : L.ovl = true) (h : Agree L s t) :
    Alike Together (fetchOvl s).run (fetchOvl t).run := by
  by_cases hc : s.work.flagCnt = 0
  · rw [fetchOvl_flags hc, fetchOvl_flags (h.flagCnt ▸ hc)]
    refine fetchBack_together (.inl rfl) hl h fun i hi => ?_
    cases i with
    | ovlFlags f => exact ovlFlags_together f hL hl h
    | _ => cases hi
  · have hflag : nextFlagLsb t = nextFlagLsb s := by rw [nextFlagLsb, nextFlagLsb, h.flags hc]
    have hd := dropFlagLsb_agree hc h
    rw [fetchOvl_block hc, fetchOvl_block (h.flagCnt ▸ hc), hflag]
    refine fetchBack_together (.inr ⟨_, rfl⟩) hl hd fun i hi => ?_
    cases i with
    | ovlLit d => exact ovlLit_together d hL hl hd
    | ovlRef len disp => exact ovlRef_together len disp hL hl hd
    | _ => cases hi

theorem fetchTrailer_together (h : Agree L s t) :
    Alike Together (fetchTrailer s).run (fetchTrailer t).run := by
  unfold fetchTrailer
  simp only [← h.declLen, ← h.env, ← h.imem]
  split
  · exact .raised _ h.toRestart
  split
  · exact .raised _ h.toRestart
  split
  · next i hi =>
    have hplace := place_of_decode hi
    cases i with
    | ovlTrailer0 => exact trailer0_together h
    | ovlTrailer cl hs extra => exact trailer_together cl hs extra h
    | _ => cases hplace
  · refine (portAccesses_alike 4 h.forgetOvl).bind fun _ u v hu => ?_
    exact .raised _ { hu.toRestart with }

theorem fetchBit_together {k : HufKind} (hp : L.phase = .bit k) (hL : L.Fits) (h : Agree L s t) :
    Alike Together (fetchBit s).run (fetchBit t).run := by
  by_cases hc : s.work.bitCnt = 0
  · rw [fetchBit_word hc, fetchBit_word (h.bitCnt ▸ hc)]
    refine fetchForward_together rfl h fun i hi => ?_
    cases i with
    | hufWord w => exact word_together w hL h
    | _ => cases hi
  · have hbit : nextBit t = nextBit s := by rw [nextBit, nextBit, h.bitbuf hc]
    rw [fetchBit_bit hc, fetchBit_bit (h.bitCnt ▸ hc), hbit]
    exact bit_together _ hp hL (dropBit_agree hc h)

/-- A byte of TREE that agrees, read as the token of its place. -/
theorem fetchTree_together {p : Place} {a a' : Nat}
    (hp : ∀ b, ∃ i, decode p [b] = .instr i) (ha : a = a')
    (hread : Memory.read a s.mem.tree = Memory.read a t.mem.tree)
    (hi : ∀ i, i.place = p → Alike Together (meaning i s) (meaning i t)) :
    Alike Together (fetchTree p a s).run (fetchTree p a' t).run := by
  obtain ⟨i, hd⟩ := hp (Memory.read a s.mem.tree)
  rw [fetchTree_instr hd, fetchTree_instr (ha ▸ hread ▸ hd)]
  exact hi i (place_of_decode hd)

/-! ### The step of a running decoder -/

/-- Two decoders that stand at the same place and agree there do the same. -/
theorem stepRun_together (hL : L.Fits) (h : Agree L s t) :
    Alike Together (stepRun s) (stepRun t) := by
  rw [stepRun_eq, stepRun_eq]
  unfold fetch
  rw [h.phase, h.phase']
  have hfits := hL
  unfold Live.Fits at hfits
  cases hp : L.phase with
  | idle => rw [hp] at hfits; exact hfits.elim
  | header c =>
    rw [hp] at hfits
    refine fetchForward_together rfl h fun i hi => ?_
    cases i with
    | hdrNull n | hdrLz10 n | hdrLz11 n | hdrHuf4 n | hdrHuf8 n | hdrRle n =>
      exact header_together _ n hfits h
    | _ => cases hi
  | ext c =>
    rw [hp] at hfits
    refine fetchForward_together rfl h fun i hi => ?_
    cases i with
    | hdrExt n => exact ext_together n hp hfits h
    | _ => cases hi
  | nullBody =>
    refine fetchLoop_together h fun _ => fetchForward_together rfl h fun i hi => ?_
    cases i with
    | nullByte d => exact nullByte_together d hp h
    | _ => cases hi
  | lz10Body =>
    rw [hp] at hfits
    exact fetchLoop_together h fun _ => fetchLz_together (.inl ⟨rfl, rfl⟩) hL hfits h
  | lz11Body =>
    rw [hp] at hfits
    exact fetchLoop_together h fun _ => fetchLz_together (.inr ⟨rfl, rfl⟩) hL hfits h
  | rleBody =>
    exact fetchLoop_together h fun _ => fetchForward_together rfl h fun i hi => rle_together hi hp h
  | treeSize k =>
    refine fetchForward_together rfl h fun i hi => ?_
    cases i with
    | hufTsize b => exact tsize_together b hp hL h
    | _ => cases hi
  | treeTable k =>
    refine fetchForward_together rfl h fun i hi => ?_
    cases i with
    | hufTable b => exact table_together b hp hL h
    | _ => cases hi
  | node k =>
    rw [hp] at hfits
    obtain ⟨-, -, hin⟩ := hfits
    obtain ⟨h1, h2⟩ := h.inside hin
    refine fetchLoop_together h fun _ => fetchTree_together (fun b => ⟨_, rfl⟩) h.nodePos
      (h.tree _ h1 h2) fun i hi => ?_
    cases i with
    | hufNode x y o => exact node_together x y o hp hL h
    | _ => cases hi
  | bit k => exact fetchBit_together hp hL h
  | leaf k =>
    rw [hp] at hfits
    obtain ⟨-, -, hleaf⟩ := hfits
    obtain ⟨heq, h1, h2⟩ := h.leaf hleaf
    exact fetchTree_together (fun b => by cases k <;> exact ⟨_, rfl⟩) heq (h.tree _ h1 h2)
      fun i hi => leaf_together hi hp hL h
  | ovlTrailer => exact fetchTrailer_together h
  | ovlBody =>
    rw [hp] at hfits
    simp only [← (h.ovl hfits).1]
    split
    · exact fetchOvl_together hL hfits h
    · exact (flushOvl_alike (L := { L with win := false }) hfits rfl h.forgetWin)

end

end Sys2Proof.Machine

/-!
No command observes what an earlier one left (O49): the command's first step, from two states that agree
on what the host gave; then the steps of the decoder it may have started, until the command ends.
-/

namespace Sys2Proof.Machine

section
variable {L : Live} {s t : State}

/-! ### COMPRESS -/

theorem Agree.encodeStream (c : Codec) (h : Agree L s t) :
    Machine.encodeStream c s = Machine.encodeStream c t :=
  encodeStream_congr c h.declLen h.imem h.ctrl (congrArg Env.huf8Order h.env)

/-- What the encoder leaves in its own registers is live nowhere. -/
theorem Agree.setEnc (h : Agree L s t) (e e' : EncRegs) :
    Agree L { s with enc := e } { t with enc := e' } := { h with }

theorem runEncoder_alike (c : Codec) (hw : L.win = false) (h : Agree L s t) :
    Alike (Agree L) (runEncoder c s) (runEncoder c t) := by
  unfold runEncoder
  rw [← h.declLen]
  refine (portAccesses_alike _ h).bind fun _ u v hu => ?_
  have henc := hu.setEnc (encodeScratch c u) (encodeScratch c v)
  rw [← hu.encodeStream c]
  split
  · exact .raised _ henc.toRestart
  · exact outBytes_alike _ hw henc

/-- In a trial run the encoders go on agreeing after any error but an I/O error. -/
theorem runEncoder_trial (c : Codec) {tr : Trial} (htr : s.seq.trial = some tr) (hw : L.win = false)
    (h : Agree L s t) :
    (∃ u v, runEncoder c s = .ok () u ∧ runEncoder c t = .ok () v ∧ Agree L u v) ∨
    (∃ e u v, runEncoder c s = .raised e u ∧ runEncoder c t = .raised e v ∧ Restart u v ∧
      (e ≠ .ioError → Agree L u v)) := by
  have hports := portAccesses_alike s.work.declLen h
  have hmoved := portAccesses_moved s.work.declLen s
  have hcases := portAccesses_cases s.work.declLen s
  unfold runEncoder
  rw [← h.declLen]
  generalize portAccesses s.work.declLen s = r at hports hmoved hcases
  generalize portAccesses s.work.declLen t = r' at hports
  cases hports with
  | @raised e u v hu =>
    refine .inr ⟨e, u, v, rfl, rfl, hu, fun he => absurd ?_ he⟩
    obtain ⟨k, hk⟩ | hk := hcases <;> cases hk
    rfl
  | @ok a u v hu =>
    have henc := hu.setEnc (encodeScratch c u) (encodeScratch c v)
    have htu : u.seq.trial = some tr := (congrArg Seqr.trial hmoved.seq).trans htr
    simp only [Run.bind_ok, ← hu.encodeStream c]
    cases Machine.encodeStream c u with
    | none => exact .inr ⟨_, _, _, rfl, rfl, henc.toRestart, fun _ => henc⟩
    | some bytes =>
      have hout := outBytes_alike bytes hw henc
      have hok := outBytes_trial bytes (s := { u with enc := encodeScratch c u }) htu
      simp only [hok] at hout ⊢
      generalize outBytes bytes { v with enc := encodeScratch c v } = r at hout
      cases hout with
      | ok a hv => exact .inl ⟨_, _, rfl, rfl, hv⟩

/-- The best runs so far are of the same member, equally long, their output agreeing. -/
inductive BestAlike : Option TrialRun → Option TrialRun → Prop
  | none : BestAlike none none
  | some (k : Codec) (n : Nat) {buf buf' : Memory}
      (h : ∀ a < n, Memory.read a buf = Memory.read a buf') :
      BestAlike (some ⟨k, n, buf⟩) (some ⟨k, n, buf'⟩)

/-- A member's encoder begins on both sides (R428). -/
theorem beginTrial_agree (k : Codec) (ks : List Codec) (h : Agree L s t) :
    Agree { phase := L.phase } (beginTrial k ks s) (beginTrial k ks t) := by
  have hfresh : Restart { s with mem.cbuf := [], seq.trial := some ⟨k, ks⟩ }
      { t with mem.cbuf := [], seq.trial := some ⟨k, ks⟩ } :=
    { h.toRestart with
      trial := rfl
      mem := ⟨h.mem.imem, h.mem.omem, h.mem.win, h.mem.tree, h.mem.ovlbuf, Memory.wf_nil⟩
      mem' := ⟨h.mem'.imem, h.mem'.omem, h.mem'.win, h.mem'.tree, h.mem'.ovlbuf, Memory.wf_nil⟩ }
  exact (startRun_agree hfresh h.phase h.phase').forgetWin

theorem compressMembers_alike (ks : List Codec) {best best' : Option TrialRun}
    (firstErr : Option Err) (hb : BestAlike best best') (h : Agree L s t) :
    Alike Together (compressMembers ks best firstErr s) (compressMembers ks best' firstErr t) := by
  induction ks generalizing L s t best best' firstErr with
  | nil =>
    cases hb with
    | none => exact .raised _ { h.toRestart with trial := rfl }
    | some k n hbuf => exact commit_alike k false h hbuf
  | cons k ks ih =>
    simp only [compressMembers]
    split
    case isFalse => exact ih firstErr hb h
    have htrial := (runEncoder_inputsKept k (beginTrial k ks s)).2
    obtain ⟨u, v, eu, ev, huv⟩ | ⟨e, u, v, eu, ev, hraise, huv⟩ :=
      runEncoder_trial k (s := beginTrial k ks s) (tr := ⟨k, ks⟩) rfl rfl (beginTrial_agree k ks h)
    · simp only [eu, ev]
      rw [eu] at htrial
      have htrial : u.seq.trial = some ⟨k, ks⟩ := htrial
      have himp : improves v.work.outLen best' = improves u.work.outLen best := by
        rw [← huv.outLen]
        cases hb <;> rfl
      rw [himp]
      refine ih firstErr ?_ huv
      split
      · rw [← huv.outLen]
        refine .some k _ fun a ha => ?_
        have := huv.out a ha
        rwa [sinkOf, sinkOf, ← huv.trial, htrial] at this
      · exact hb
    · simp only [eu, ev]
      split
      · exact .raised e { hraise with trial := rfl }
      · next hne => exact ih _ hb (huv hne)

theorem compressCommand_alike (c : Codec) (hw : L.win = false) (ht : s.seq.trial = none)
    (h : Agree L s t) : Alike Together (compressCommand c s) (compressCommand c t) := by
  unfold compressCommand
  rw [← h.declLen, ← h.env]
  split
  · exact .raised _ h.toRestart
  split
  · exact .raised _ h.toRestart
  split
  · exact .raised _ h.toRestart
  split
  · refine (runEncoder_alike c hw h).bind' fun _ u v hu _ huv => .ok () ?_
    have htrial := (runEncoder_inputsKept c s).2
    rw [hu] at htrial
    exact endOk_together huv (htrial.trans ht) false noSub
  · exact compressMembers_alike _ _ .none h

/-! ### A command's first step -/

/-- The commands' clean starts agree (R138). -/
theorem commandStart_agree
    (h : Restart { s with seq.trial := none } { t with seq.trial := none }) :
    Agree { phase := .idle, win := true } (commandStart s) (commandStart t) := by
  have hfresh : Restart
      { s with host.status := statusBusy s.host.status, seq.phase := .idle, seq.trial := none }
      { t with host.status := statusBusy t.host.status, seq.phase := .idle, seq.trial := none } :=
    { h with trial := rfl }
  exact startRun_agree hfresh rfl rfl

theorem decompressCommand_together (c : Codec)
    (h : Agree { phase := .idle, win := true } (commandStart s) (commandStart t)) :
    Together (decompressCommand c (commandStart s)) (decompressCommand c (commandStart t)) := by
  by_cases hc : codecMembers c = []
  · have hentry : codecEntry c ≠ .idle := by
      cases c with
      | hufany | gba | nds => cases hc
      | _ => exact Phase.noConfusion
    simp only [decompressCommand, hc]
    exact .runs { phase := codecEntry c, win := true } (codecEntry_fits hentry)
      { h with phase := rfl, phase' := rfl }
  · rw [decompressCommand_composite hc, decompressCommand_composite hc]
    exact tryMembers_together _ h.toRestart

theorem supportsCommand_alike (c : Codec) (h : Asking s t) :
    Alike EndedAlike (supportsCommand c s) (supportsCommand c t) :=
  (supports_asking c h).bind fun _ _ _ hu => .ok () (respond_alike hu.toRestart ..)

theorem setoptCommand_alike (o : BitVec 8) (c : Codec) (h : Restart s t) :
    Alike EndedAlike (setoptCommand o c s) (setoptCommand o c t) := by
  unfold setoptCommand
  simp only [← h.ctrl]
  refine .ok () (respond_alike ?_ ..)
  exact { h with ctrl := rfl }

theorem withCodec_alike {R : State → State → Prop} {f : Codec → State → Run Unit} (id : BitVec 4)
    (h : Restart s t) (hf : ∀ c, Alike R (f c s) (f c t)) :
    Alike R (withCodec id s f) (withCodec id t f) := by
  unfold withCodec
  cases codecOfId id with
  | none => exact .raised _ h
  | some c => exact hf c

/-- SUPPORTS and SETOPT end at once, or with an error. -/
theorem Alike.settle_ended {r r' : Run Unit} (h : Alike EndedAlike r r') :
    ∃ u v, Machine.settle r = .next u ∧ Machine.settle r' = .next v ∧
      (Together u v ∨ EndedAlike u v) := by
  cases h with
  | ok a h => exact ⟨_, _, rfl, rfl, .inr h⟩
  | raised e h => exact ⟨_, _, rfl, rfl, .inl (takeError_together e h)⟩

/-- Only COMPRESS and DECOMPRESS have a result in OMEM (R75). -/
def hasResult (i : Instr) : Prop := ∃ c, i = .cmdCompress c ∨ i = .cmdDecompress c

/-- A command's first step leads both to the same place. -/
theorem exec_command_alike {i : Instr} (hi : isToken i = false)
    (h : Agree { phase := .idle, win := true } (commandStart s) (commandStart t)) :
    ∃ u v, exec i s = .next u ∧ exec i t = .next v ∧
      (Together u v ∨ (¬ hasResult i ∧ EndedAlike u v)) := by
  cases i with
  | cmdCompress id =>
    obtain ⟨u, v, hu, hv, huv⟩ := (withCodec_alike id h.toRestart fun c =>
      compressCommand_alike c rfl rfl h.forgetWin).settle
    exact ⟨u, v, hu, hv, .inl huv⟩
  | cmdDecompress id =>
    obtain ⟨u, v, hu, hv, huv⟩ := (withCodec_alike (f := fun c s => .ok () (decompressCommand c s))
      id h.toRestart fun c => .ok () (decompressCommand_together c h)).settle
    exact ⟨u, v, hu, hv, .inl huv⟩
  | cmdSupports id =>
    obtain ⟨u, v, hu, hv, huv⟩ := (withCodec_alike id h.toRestart fun c =>
      supportsCommand_alike c { h.toRestart with declLen := h.declLen }).settle_ended
    exact ⟨u, v, hu, hv, huv.imp_right fun he => ⟨by simp [hasResult], he⟩⟩
  | cmdSetopt id o =>
    obtain ⟨u, v, hu, hv, huv⟩ := (withCodec_alike id h.toRestart fun c =>
      setoptCommand_alike o c h.toRestart).settle_ended
    exact ⟨u, v, hu, hv, huv.imp_right fun he => ⟨by simp [hasResult], he⟩⟩
  | _ => cases hi

/-! ### To the end of the command -/

/-- The host's queue is not touched while a decoder runs. -/
theorem step_hostQ (hs : s.seq.phase ≠ .idle) (e : step s = .next t) : t.env.hostQ = s.env.hostQ := by
  cases step_decoderNext hs e with
  | runs h => rw [h.env]
  | fails er u ht kept => rw [ht, show (failWith er u).env.hostQ = u.env.hostQ from rfl, kept.env]
  | tries tr k rest u htr hk hrest hlen ht kept =>
    rw [ht, show (onMember k rest u).env.hostQ = u.env.hostQ from rfl, kept.env]
  | ends n tmi sub u ht kept =>
    rw [ht, show (endOk n tmi sub u).env.hostQ = u.env.hostQ from rfl, kept.env]

theorem Live.Fits.ne_idle (hL : L.Fits) : L.phase ≠ .idle := by
  intro hp
  unfold Live.Fits at hL
  rw [hp] at hL
  exact hL

/-- Two runs that stand together end together, after the same number of steps. -/
theorem Together.to_end (h : Together s t) :
    ∃ k u v, Runs k s u ∧ Runs k t v ∧ EndedAlike u v ∧ u.env.hostQ = s.env.hostQ ∧
      ∀ a < u.host.resultLen, Memory.read a u.mem.omem = Memory.read a v.mem.omem := by
  induction hn : decodeMeasure s using Nat.strong_induction_on generalizing s t with
  | _ n ih =>
    cases h with
    | ended h result => exact ⟨0, s, t, .zero s, .zero t, h, rfl, result⟩
    | runs L hL h =>
      have hs : s.seq.phase ≠ .idle := by rw [h.phase]; exact hL.ne_idle
      obtain ⟨u, v, eu, ev, huv⟩ := (stepRun_together hL h).settle
      rw [← step_eq_settle] at eu ev
      have hq := step_hostQ hs eu
      by_cases hu : u.seq.phase = .idle
      · cases huv with
        | ended h result => exact ⟨1, u, v, .succ eu (.zero u), .succ ev (.zero v), h, hq, result⟩
        | runs L' hL' h' => exact absurd (h'.phase.symm.trans hu) hL'.ne_idle
      · have hlt := (step_decodeMeasure_lt hs eu).resolve_left hu
        obtain ⟨k, u', v', hru, hrv, hend, hq', result⟩ := ih _ (hn ▸ hlt) huv rfl
        exact ⟨k + 1, u', v', .succ eu hru, .succ ev hrv, hend, hq'.trans hq, result⟩

theorem Together.same_place (h : Together s t) :
    s.seq.phase = t.seq.phase ∧ s.seq.trial = t.seq.trial ∧ s.env = t.env := by
  cases h with
  | runs L hL h => exact ⟨h.phase.trans h.phase'.symm, h.trial, h.env⟩
  | ended h => exact ⟨h.idle.trans h.idle'.symm, h.trial, h.env⟩

end

/-- Settles O49: after the first step the runs stand together, and so they do until both have ended. -/
theorem commandsIgnoreWhatWasLeft : Obligations.CommandsIgnoreWhatWasLeft := by
  intro i s s' t t' hi hm hm' hlen hctrl hcmd himem henv et et'
  obtain ⟨-, -, -, -, -, hq, -⟩ := noInstructionWritesItsInputs i s t et
  obtain ⟨u, v, eu, ev, h⟩ := exec_command_alike (s := s) (t := s') hi
    (commandStart_agree ⟨hlen, hctrl, hcmd, henv, himem, rfl, hm, hm'⟩)
  obtain rfl : t = u := by rw [et] at eu; cases eu; rfl
  obtain rfl : t' = v := by rw [et'] at ev; cases ev; rfl
  obtain h | ⟨hno, h⟩ := h
  · obtain ⟨hphase, htrial, hsame⟩ := h.same_place
    obtain ⟨k, u, v, hru, hrv, hend, hqu, result⟩ := h.to_end
    exact ⟨hphase, htrial, hsame, k, u, v, hru, hrv, hend.idle, hend.idle', hqu.trans hq, hend.env,
      hend.host, fun _ => result⟩
  · exact ⟨h.idle.trans h.idle'.symm, h.trial, h.env, 0, t, t', .zero t, .zero t', h.idle, h.idle', hq,
      h.env, h.host, fun hres => absurd hres hno⟩

end Sys2Proof.Machine
